-- ==== Sys2Proof/Word.lean ====
section
/-! DEFINITION. The plain data every layer shares: bytes, words and pixels (spec/00_scope R8, R10), the stream
cursor (spec/40_stream_reader R130) and the Huffman tree value (spec/10_state R39). -/

namespace Sys2Proof

abbrev Byte := BitVec 8
abbrev Half := BitVec 16
abbrev Word := BitVec 32

/-- An ARGB8888 pixel, `A || R || G || B` (R10). -/
abbrev Pixel := BitVec 32

/-- The two reader instances (R130): `src` reads the source array through CP, `pay` reads ACC through IP and IB. -/
inductive Reader where
  | src
  | pay
deriving DecidableEq, Repr

/-- A reader's buffer, its byte position and its bit position (R130). -/
structure Cur where
  buf : List Byte
  pos : Nat
  bit : Nat
deriving DecidableEq, Repr

/-- What a reader micro-operation returns: a number, or the four type bytes in stream order (R132 to R138). -/
inductive ReadResult where
  | num (v : Nat)
  | type (t : List Byte)
deriving DecidableEq, Repr

/-- What a leaf of a tree carries (R39, R202 to R204). -/
structure Leaf where
  symbol : Nat
  realValue : Nat
  extraBits : Nat
  illegal : Bool
deriving DecidableEq, Repr

/-- A Huffman tree (R39). -/
inductive Tree where
  | absent
  | leaf (l : Leaf)
  | node (left right : Tree)
deriving DecidableEq, Repr

/-- A tree register: the tree and its flags MALFORMED and EMPTY (R39). -/
structure TreeReg where
  root : Tree
  malformed : Bool
  empty : Bool
deriving DecidableEq, Repr

/-- Which alphabet a tree is built for (R200). -/
inductive Kind where
  | cl
  | litlen
  | dist
deriving DecidableEq, Repr

end Sys2Proof
end

