-- ==== Sys2Proof/Config.lean ====
section
/-! DEFINITION. The implementation parameters of spec/00_scope R7 as plain data (every parameter the spec keeps
selectable is a field, so a claim quantifies over it), the five error kinds of spec/60_exceptions R381, the
decoder's named rejections, and the one free value of the model. -/

namespace Sys2Proof

/-- The five error kinds (R380, R381). -/
inductive ErrKind where
  | unexpectedEof
  | invalidLength
  | sequenceMismatch
  | allocationFailure
  | unsupportedFeature
deriving DecidableEq, Repr

/-- Why the decoder rejects what stands at a cursor. -/
inductive Reject where
  /-- fewer bytes or bits remain than the element needs (R131, R137) -/
  | eof
  /-- a chunk's length field is above MAX_CHUNK_LEN (R152) -/
  | chunkTooLong
  /-- a symbol is decoded through a tree that is EMPTY (R212) -/
  | treeEmpty
  /-- a symbol is decoded through a tree that is MALFORMED (R212) -/
  | treeMalformed
  /-- the bit pattern leads to an Absent child (R212) -/
  | noLeaf
  /-- a leaf's symbol is no symbol of the alphabet; no tree that R206 builds has one -/
  | outsideAlphabet
deriving DecidableEq, Repr

/-- GREY_SCALE (R7, R292). -/
inductive GreyScale where
  | replicate
  | shift
deriving DecidableEq, Repr

/-- NEG_PLACEMENT (R7, R334): where a negative coordinate is measured to. -/
inductive NegPlacement where
  /-- `origin = canvas_extent + coordinate`, the spec's value -/
  | nearEdge
  /-- `origin = canvas_extent - image_extent + coordinate`, the other value R334 names -/
  | farEdge
deriving DecidableEq, Repr

/-- CANVAS_BYTE_ORDER (R7, R66). R7 and D4 call the order selectable and name only little-endian; that the one other
value is big-endian is DESIGN CHOICE (log 31). -/
inductive ByteOrder where
  /-- the spec's value: B at the lowest address, then G, R, A (R66) -/
  | little
  /-- the model's other value: A at the lowest address, then R, G, B (log 31) -/
  | big
deriving DecidableEq, Repr

/-- The parameters of R7 other than ALLOC (which is `State.allocDenied`). -/
structure Config where
  maxChunkLen : Nat
  maxDim : Nat
  maxFrames : Nat
  maxPalette : Nat
  defaultPlays : Nat
  zlibHdrSkip : Nat
  fdatType : Word
  greyScale : GreyScale
  bkgdOverrides : Bool
  negPlacement : NegPlacement
  canvasByteOrder : ByteOrder
  /-- the ERRCODE numbering (R7, R381; log 29) -/
  codeUnexpectedEof : BitVec 3
  codeInvalidLength : BitVec 3
  codeSequenceMismatch : BitVec 3
  codeAllocationFailure : BitVec 3
  codeUnsupportedFeature : BitVec 3
deriving DecidableEq, Repr

/-- The values R7 fixes; MAX_CHUNK_LEN is R7's suggestion, MAX_DIM and MAX_FRAMES are DESIGN CHOICE (log 1). -/
def Config.standard : Config where
  maxChunkLen := 2147483647
  maxDim := 2147483647
  maxFrames := 2147483647
  maxPalette := 256
  defaultPlays := 20
  zlibHdrSkip := 2
  fdatType := 0x66644154
  greyScale := .replicate
  bkgdOverrides := false
  negPlacement := .nearEdge
  canvasByteOrder := .little
  codeUnexpectedEof := 1
  codeInvalidLength := 2
  codeSequenceMismatch := 3
  codeAllocationFailure := 4
  codeUnsupportedFeature := 5

/-- The constraints R7 puts on the parameters; the frame-data type is none of the nine other recognised types.
R7 keeps the numbering of ERRCODE selectable and gives no constraint on it; R381's own numbering is `Config.standard`'s.
Any five 3-bit numbers are legal here, also 0, 6, 7 and equal ones (DESIGN CHOICE, log 29). -/
def Config.legal (c : Config) : Bool :=
  decide (0 < c.maxChunkLen) && decide (c.maxChunkLen ≤ 4294967295)
  && decide (1 ≤ c.maxDim) && decide (c.maxDim ≤ 2147483647)
  && decide (1 ≤ c.maxFrames) && decide (c.maxPalette ≤ 256)
  && !([0x49484452, 0x504C5445, 0x74524E53, 0x624B4744, 0x67414D41, 0x49444154, 0x6163544C, 0x6663544C,
        0x49454E44] : List Word).contains c.fdatType

/-- FREE VALUE (log 15): what a canvas pixel inside the image rectangle holds after a platform reset that
interrupts painting (spec/93_implementation_defined V4: `any value`). Arguments: the state's counter `freeN` and
the canvas coordinates. It has no body: nothing can be proved of its value. -/
opaque freePixel : Nat → Nat → Nat → Pixel

end Sys2Proof
end

