-- ==== Sys2Proof/Syntax.lean ====
section
/-! DEFINITION. The stream elements as syntax: one constructor per row of spec/opcode_table.json, in the table's
order. A chunk carries its data bytes and its crc (spec/30_encoding R92); a Huffman symbol carries what its code
determines (R108); extra bits are read by the symbol's meaning, from the payload cursor. -/

namespace Sys2Proof

inductive Instr where
  -- reader micro-operations, R131 to R139
  | need (r : Reader) (k : Nat)
  | readU8 (r : Reader)
  | readU16be (r : Reader)
  | readU32be (r : Reader)
  | skip (r : Reader) (k : Nat)
  | readType (r : Reader)
  | readBit
  | readBits (n : Nat)
  | alignToByte (r : Reader)
  -- signature, R91, R151, R393
  | sig (rest : List Byte)
  | notPng (byte0 : Byte)
  -- chunks, R92, R93
  | ihdr (data : List Byte) (crc : Word)
  | plte (data : List Byte) (crc : Word)
  | trns (data : List Byte) (crc : Word)
  | bkgd (data : List Byte) (crc : Word)
  | gama (data : List Byte) (crc : Word)
  | idat (data : List Byte) (crc : Word)
  | actl (data : List Byte) (crc : Word)
  | fctl (data : List Byte) (crc : Word)
  | fdat (data : List Byte) (crc : Word)
  | iend (data : List Byte) (crc : Word)
  | chunkUnknown (type : Word) (data : List Byte) (crc : Word)
  -- payload, R104 to R107
  | zhdr (bytes : List Byte)
  | blkStored (final : Bool)
  | blkStatic (final : Bool)
  | blkDynamic (final : Bool)
  | blkReserved (final : Bool)
  | storedBody (len nlen : Half)
  | dynHdr (hlit hdist : BitVec 5) (hclen : BitVec 4) (clLens : List (BitVec 3))
  -- code-length symbols, R113
  | cl0
  | cl1
  | cl2
  | cl3
  | cl4
  | cl5
  | cl6
  | cl7
  | cl8
  | cl9
  | cl10
  | cl11
  | cl12
  | cl13
  | cl14
  | cl15
  | cl16
  | cl17
  | cl18
  -- literal/length symbols, R109
  | lit (b : Byte)
  | eob
  | len257
  | len258
  | len259
  | len260
  | len261
  | len262
  | len263
  | len264
  | len265
  | len266
  | len267
  | len268
  | len269
  | len270
  | len271
  | len272
  | len273
  | len274
  | len275
  | len276
  | len277
  | len278
  | len279
  | len280
  | len281
  | len282
  | len283
  | len284
  | len285
  | len286
  | len287
  -- distance symbols, R111
  | dist0
  | dist1
  | dist2
  | dist3
  | dist4
  | dist5
  | dist6
  | dist7
  | dist8
  | dist9
  | dist10
  | dist11
  | dist12
  | dist13
  | dist14
  | dist15
  | dist16
  | dist17
  | dist18
  | dist19
  | dist20
  | dist21
  | dist22
  | dist23
  | dist24
  | dist25
  | dist26
  | dist27
  | dist28
  | dist29
  | dist30
  | dist31
  -- the match engine, R240
  | matchCopy (length distance : Nat)
  -- scanline filters, R115
  | fNone
  | fSub
  | fUp
  | fAvg
  | fPaeth
  | fIllegal (type : Byte)
  -- pixel formats, R116
  | g1
  | g2
  | g4
  | g8
  | g16
  | rgb8
  | rgb16
  | p1
  | p2
  | p4
  | p8
  | ga8
  | ga16
  | rgba8
  | rgba16
  | pixfmtIllegal (colourType depth : Byte)
  -- disposal and blending, R118
  | dNone
  | dBackground
  | dPrevious
  | bSource
  | bOver
  | dIllegal (code : Byte)
  | bIllegal (code : Byte)
deriving DecidableEq, Repr

end Sys2Proof
end

