-- ==== Sys2Proof/Decode.lean ====
section
/-! DEFINITION. Reading the stream formats: byte order helpers (spec/20_memory R62 to R65), the reader operations
on a cursor (spec/40_stream_reader R131 to R139), code assignment (spec/42_huffman R205), the decoder of every
level of spec/30_encoding R90, total on any bytes and rejecting by name, and the encoder written from the same
tables. -/

namespace Sys2Proof

/-! ## Byte order -/

/-- Byte `i` of a byte sequence. -/
def byteAt (d : List Byte) (i : Nat) : Byte := d.getD i 0

/-- A big-endian 16-bit field at byte `i` (R62). -/
def u16At (d : List Byte) (i : Nat) : Half := byteAt d i ++ byteAt d (i + 1)

/-- A big-endian 32-bit field at byte `i` (R62). -/
def u32At (d : List Byte) (i : Nat) : Word :=
  byteAt d i ++ byteAt d (i + 1) ++ byteAt d (i + 2) ++ byteAt d (i + 3)

/-- The two bytes of a 16-bit field, most significant first (R62). -/
def be16 (h : Half) : List Byte := [h.extractLsb' 8 8, h.extractLsb' 0 8]

/-- The four bytes of a 32-bit field, most significant first (R62). -/
def be32 (w : Word) : List Byte :=
  [w.extractLsb' 24 8, w.extractLsb' 16 8, w.extractLsb' 8 8, w.extractLsb' 0 8]

/-- The eight bits of a byte in reading order, bit 0 first (R63). -/
def byteBits (b : Byte) : List Bool := (List.range 8).map b.getLsbD

/-- `n` bits of a number in reading order, bit 0 first (R63). -/
def natBits (n v : Nat) : List Bool := (List.range n).map v.testBit

/-! ## The reader operations on a cursor -/

/-- The availability check `need(r, k)` (R131). -/
def Cur.has (c : Cur) (k : Nat) : Bool := decide (c.pos + k ≤ c.buf.length)

/-- R132. -/
def Cur.readU8 (c : Cur) : Except Reject (Byte × Cur) :=
  if c.has 1 then .ok (byteAt c.buf c.pos, { c with pos := c.pos + 1 }) else .error .eof

/-- R133. -/
def Cur.readU16be (c : Cur) : Except Reject (Half × Cur) :=
  if c.has 2 then .ok (u16At c.buf c.pos, { c with pos := c.pos + 2 }) else .error .eof

/-- R134. -/
def Cur.readU32be (c : Cur) : Except Reject (Word × Cur) :=
  if c.has 4 then .ok (u32At c.buf c.pos, { c with pos := c.pos + 4 }) else .error .eof

/-- `k` whole bytes after one availability check (the data of a chunk, R152; the four bytes of `read_type`, R136). -/
def Cur.take (k : Nat) (c : Cur) : Except Reject (List Byte × Cur) :=
  if c.has k then .ok ((c.buf.drop c.pos).take k, { c with pos := c.pos + k }) else .error .eof

/-- R135. -/
def Cur.skip (k : Nat) (c : Cur) : Except Reject Cur :=
  if c.has k then .ok { c with pos := c.pos + k } else .error .eof

/-- R136. -/
def Cur.readType (c : Cur) : Except Reject (List Byte × Cur) := c.take 4

/-- R137: one bit, LSB-first in the byte, rolling to the next byte after bit 7. -/
def Cur.readBit (c : Cur) : Except Reject (Bool × Cur) :=
  if c.buf.length ≤ c.pos then .error .eof
  else
    .ok ((byteAt c.buf c.pos).getLsbD c.bit,
      if c.bit + 1 = 8 then { c with bit := 0, pos := c.pos + 1 } else { c with bit := c.bit + 1 })

/-- R138: bit `i` read is weighted `2^i`. -/
def Cur.readBits : Nat → Cur → Except Reject (Nat × Cur)
  | 0, c => .ok (0, c)
  | n + 1, c =>
    match c.readBit with
    | .error e => .error e
    | .ok (b, c1) =>
      match Cur.readBits n c1 with
      | .error e => .error e
      | .ok (v, c2) => .ok (b.toNat + 2 * v, c2)

/-- R139. -/
def Cur.align (c : Cur) : Cur := if c.bit = 0 then c else { c with bit := 0, pos := c.pos + 1 }

/-- The bits of the buffer that a cursor has not read yet, in reading order. -/
def Cur.bits (c : Cur) : List Bool := ((c.buf.drop c.pos).flatMap byteBits).drop c.bit

/-- The cursor `n` bits further on. -/
def Cur.advance (n : Nat) (c : Cur) : Cur :=
  { c with pos := (8 * c.pos + c.bit + n) / 8, bit := (8 * c.pos + c.bit + n) % 8 }

/-! ## Walking a tree and assigning codes -/

/-- `decode(T)`'s walk: one bit per level, 0 to the left, 1 to the right, until a leaf (R212). -/
def Tree.walk : Tree → Cur → Except Reject (Leaf × Cur)
  | .absent, _ => .error .noLeaf
  | .leaf l, c => .ok (l, c)
  | .node left right, c =>
    match c.readBit with
    | .error e => .error e
    | .ok (b, c1) => if b then right.walk c1 else left.walk c1

/-- `decode(T)` (R212): an EMPTY or MALFORMED tree is rejected before a bit is read. -/
def TreeReg.decode (t : TreeReg) (c : Cur) : Except Reject (Leaf × Cur) :=
  if t.empty then .error .treeEmpty
  else if t.malformed then .error .treeMalformed
  else t.root.walk c

/-- `count[b]` of R205; unused symbols take no code space. -/
def lenCount (lens : List Nat) (b : Nat) : Nat := if b = 0 then 0 else lens.count b

/-- `next[b], next[b + 1], …` of R205, from `code` as it stands before length `b`. -/
def nextFrom (lens : List Nat) : (n b code : Nat) → List Nat
  | 0, _, _ => []
  | n + 1, b, code =>
    let c := (code + lenCount lens (b - 1)) * 2
    c :: nextFrom lens n (b + 1) c

/-- `next[0 .. 15]` of R205; entry 0 is never used. -/
def nextCodes (lens : List Nat) : List Nat := 0 :: nextFrom lens 15 1 0

/-- The codes of the symbols in ascending order, from the `next` table (R205). -/
def assignFrom : List Nat → List Nat → List Nat
  | [], _ => []
  | l :: ls, next =>
    if l = 0 then 0 :: assignFrom ls next
    else next.getD l 0 :: assignFrom ls (next.set l (next.getD l 0 + 1))

/-- `code_of` (R205). -/
def assignCodes (lens : List Nat) : List Nat := assignFrom lens (nextCodes lens)

/-- The bits of a code in stream order, the most significant first (R108). -/
def codeBits (len code : Nat) : List Bool := (List.range len).map fun i => code.testBit (len - 1 - i)

/-- The bits that stand for a symbol under a code-length array (R108). -/
def symbolBits (lens : List Nat) (s : Nat) : List Bool := codeBits (lens.getD s 0) ((assignCodes lens).getD s 0)

/-! ## The tables of elements -/

/-- The fifteen (colour type, bit depth) pairs of R116 and R290. -/
def legalFormat (ct d : Byte) : Bool :=
  match ct.toNat, d.toNat with
  | 0, 1 => true
  | 0, 2 => true
  | 0, 4 => true
  | 0, 8 => true
  | 0, 16 => true
  | 2, 8 => true
  | 2, 16 => true
  | 3, 1 => true
  | 3, 2 => true
  | 3, 4 => true
  | 3, 8 => true
  | 4, 8 => true
  | 4, 16 => true
  | 6, 8 => true
  | 6, 16 => true
  | _, _ => false

/-- R116: the pixel format a (colour type, bit depth) pair selects. -/
def decodeFormat (ct d : Byte) : Instr :=
  match ct.toNat, d.toNat with
  | 0, 1 => .g1
  | 0, 2 => .g2
  | 0, 4 => .g4
  | 0, 8 => .g8
  | 0, 16 => .g16
  | 2, 8 => .rgb8
  | 2, 16 => .rgb16
  | 3, 1 => .p1
  | 3, 2 => .p2
  | 3, 4 => .p4
  | 3, 8 => .p8
  | 4, 8 => .ga8
  | 4, 16 => .ga16
  | 6, 8 => .rgba8
  | 6, 16 => .rgba16
  | _, _ => .pixfmtIllegal ct d

/-- R115. -/
def decodeFilter (b : Byte) : Instr :=
  match b.toNat with
  | 0 => .fNone
  | 1 => .fSub
  | 2 => .fUp
  | 3 => .fAvg
  | 4 => .fPaeth
  | _ => .fIllegal b

/-- R118, dispose_op. -/
def decodeDispose (b : Byte) : Instr :=
  match b.toNat with
  | 0 => .dNone
  | 1 => .dBackground
  | 2 => .dPrevious
  | _ => .dIllegal b

/-- R118, blend_op. -/
def decodeBlend (b : Byte) : Instr :=
  match b.toNat with
  | 0 => .bSource
  | 1 => .bOver
  | _ => .bIllegal b

/-- R93, R156: the chunk a type selects, all four bytes compared; `fdat` is FDAT_TYPE. -/
def decodeChunkType (fdat t : Word) (data : List Byte) (crc : Word) : Instr :=
  if t = 0x49484452 then .ihdr data crc
  else if t = 0x504C5445 then .plte data crc
  else if t = 0x74524E53 then .trns data crc
  else if t = 0x624B4744 then .bkgd data crc
  else if t = 0x67414D41 then .gama data crc
  else if t = 0x49444154 then .idat data crc
  else if t = 0x6163544C then .actl data crc
  else if t = 0x6663544C then .fctl data crc
  else if t = fdat then .fdat data crc
  else if t = 0x49454E44 then .iend data crc
  else .chunkUnknown t data crc

/-- R113: the code-length symbols. -/
def clInstr : Nat → Option Instr
  | 0 => some .cl0
  | 1 => some .cl1
  | 2 => some .cl2
  | 3 => some .cl3
  | 4 => some .cl4
  | 5 => some .cl5
  | 6 => some .cl6
  | 7 => some .cl7
  | 8 => some .cl8
  | 9 => some .cl9
  | 10 => some .cl10
  | 11 => some .cl11
  | 12 => some .cl12
  | 13 => some .cl13
  | 14 => some .cl14
  | 15 => some .cl15
  | 16 => some .cl16
  | 17 => some .cl17
  | 18 => some .cl18
  | _ => none

/-- R109: the symbols above the literals. -/
def eobLenInstr : Nat → Option Instr
  | 256 => some .eob
  | 257 => some .len257
  | 258 => some .len258
  | 259 => some .len259
  | 260 => some .len260
  | 261 => some .len261
  | 262 => some .len262
  | 263 => some .len263
  | 264 => some .len264
  | 265 => some .len265
  | 266 => some .len266
  | 267 => some .len267
  | 268 => some .len268
  | 269 => some .len269
  | 270 => some .len270
  | 271 => some .len271
  | 272 => some .len272
  | 273 => some .len273
  | 274 => some .len274
  | 275 => some .len275
  | 276 => some .len276
  | 277 => some .len277
  | 278 => some .len278
  | 279 => some .len279
  | 280 => some .len280
  | 281 => some .len281
  | 282 => some .len282
  | 283 => some .len283
  | 284 => some .len284
  | 285 => some .len285
  | 286 => some .len286
  | 287 => some .len287
  | _ => none

/-- R109: the literal/length symbols. -/
def litLenInstr (s : Nat) : Option Instr := if s < 256 then some (.lit (BitVec.ofNat 8 s)) else eobLenInstr s

/-- R111: the distance symbols. -/
def distInstr : Nat → Option Instr
  | 0 => some .dist0
  | 1 => some .dist1
  | 2 => some .dist2
  | 3 => some .dist3
  | 4 => some .dist4
  | 5 => some .dist5
  | 6 => some .dist6
  | 7 => some .dist7
  | 8 => some .dist8
  | 9 => some .dist9
  | 10 => some .dist10
  | 11 => some .dist11
  | 12 => some .dist12
  | 13 => some .dist13
  | 14 => some .dist14
  | 15 => some .dist15
  | 16 => some .dist16
  | 17 => some .dist17
  | 18 => some .dist18
  | 19 => some .dist19
  | 20 => some .dist20
  | 21 => some .dist21
  | 22 => some .dist22
  | 23 => some .dist23
  | 24 => some .dist24
  | 25 => some .dist25
  | 26 => some .dist26
  | 27 => some .dist27
  | 28 => some .dist28
  | 29 => some .dist29
  | 30 => some .dist30
  | 31 => some .dist31
  | _ => none

/-- The element a symbol number stands for in an alphabet. -/
def symInstr : Kind → Nat → Option Instr
  | .cl, s => clInstr s
  | .litlen, s => litLenInstr s
  | .dist, s => distInstr s

/-- The alphabet and number of a Huffman symbol. -/
def Instr.symbol : Instr → Option (Kind × Nat)
  | .cl0 => some (.cl, 0)
  | .cl1 => some (.cl, 1)
  | .cl2 => some (.cl, 2)
  | .cl3 => some (.cl, 3)
  | .cl4 => some (.cl, 4)
  | .cl5 => some (.cl, 5)
  | .cl6 => some (.cl, 6)
  | .cl7 => some (.cl, 7)
  | .cl8 => some (.cl, 8)
  | .cl9 => some (.cl, 9)
  | .cl10 => some (.cl, 10)
  | .cl11 => some (.cl, 11)
  | .cl12 => some (.cl, 12)
  | .cl13 => some (.cl, 13)
  | .cl14 => some (.cl, 14)
  | .cl15 => some (.cl, 15)
  | .cl16 => some (.cl, 16)
  | .cl17 => some (.cl, 17)
  | .cl18 => some (.cl, 18)
  | .lit b => some (.litlen, b.toNat)
  | .eob => some (.litlen, 256)
  | .len257 => some (.litlen, 257)
  | .len258 => some (.litlen, 258)
  | .len259 => some (.litlen, 259)
  | .len260 => some (.litlen, 260)
  | .len261 => some (.litlen, 261)
  | .len262 => some (.litlen, 262)
  | .len263 => some (.litlen, 263)
  | .len264 => some (.litlen, 264)
  | .len265 => some (.litlen, 265)
  | .len266 => some (.litlen, 266)
  | .len267 => some (.litlen, 267)
  | .len268 => some (.litlen, 268)
  | .len269 => some (.litlen, 269)
  | .len270 => some (.litlen, 270)
  | .len271 => some (.litlen, 271)
  | .len272 => some (.litlen, 272)
  | .len273 => some (.litlen, 273)
  | .len274 => some (.litlen, 274)
  | .len275 => some (.litlen, 275)
  | .len276 => some (.litlen, 276)
  | .len277 => some (.litlen, 277)
  | .len278 => some (.litlen, 278)
  | .len279 => some (.litlen, 279)
  | .len280 => some (.litlen, 280)
  | .len281 => some (.litlen, 281)
  | .len282 => some (.litlen, 282)
  | .len283 => some (.litlen, 283)
  | .len284 => some (.litlen, 284)
  | .len285 => some (.litlen, 285)
  | .len286 => some (.litlen, 286)
  | .len287 => some (.litlen, 287)
  | .dist0 => some (.dist, 0)
  | .dist1 => some (.dist, 1)
  | .dist2 => some (.dist, 2)
  | .dist3 => some (.dist, 3)
  | .dist4 => some (.dist, 4)
  | .dist5 => some (.dist, 5)
  | .dist6 => some (.dist, 6)
  | .dist7 => some (.dist, 7)
  | .dist8 => some (.dist, 8)
  | .dist9 => some (.dist, 9)
  | .dist10 => some (.dist, 10)
  | .dist11 => some (.dist, 11)
  | .dist12 => some (.dist, 12)
  | .dist13 => some (.dist, 13)
  | .dist14 => some (.dist, 14)
  | .dist15 => some (.dist, 15)
  | .dist16 => some (.dist, 16)
  | .dist17 => some (.dist, 17)
  | .dist18 => some (.dist, 18)
  | .dist19 => some (.dist, 19)
  | .dist20 => some (.dist, 20)
  | .dist21 => some (.dist, 21)
  | .dist22 => some (.dist, 22)
  | .dist23 => some (.dist, 23)
  | .dist24 => some (.dist, 24)
  | .dist25 => some (.dist, 25)
  | .dist26 => some (.dist, 26)
  | .dist27 => some (.dist, 27)
  | .dist28 => some (.dist, 28)
  | .dist29 => some (.dist, 29)
  | .dist30 => some (.dist, 30)
  | .dist31 => some (.dist, 31)
  | .need _ _ | .readU8 _ | .readU16be _ | .readU32be _ | .skip _ _ | .readType _ | .readBit | .readBits _
  | .alignToByte _ | .sig _ | .notPng _ | .ihdr _ _ | .plte _ _ | .trns _ _ | .bkgd _ _ | .gama _ _ | .idat _ _
  | .actl _ _ | .fctl _ _ | .fdat _ _ | .iend _ _ | .chunkUnknown _ _ _ | .zhdr _ | .blkStored _ | .blkStatic _
  | .blkDynamic _ | .blkReserved _ | .storedBody _ _ | .dynHdr _ _ _ _ | .matchCopy _ _ | .fNone | .fSub | .fUp
  | .fAvg | .fPaeth | .fIllegal _ | .g1 | .g2 | .g4 | .g8 | .g16 | .rgb8 | .rgb16 | .p1 | .p2 | .p4 | .p8 | .ga8
  | .ga16 | .rgba8 | .rgba16 | .pixfmtIllegal _ _ | .dNone | .dBackground | .dPrevious | .bSource | .bOver
  | .dIllegal _ | .bIllegal _ => none

/-! ## The decoder -/

/-- The level at which an element is read, with what the machine's state contributes to reading it (R90). -/
inductive Level where
  | signature
  | chunk (maxLen : Nat) (fdat : Word)
  | zhdr (skip : Nat)
  | blkHdr
  | stored
  | dynHdr
  | sym (k : Kind) (t : TreeReg)
  | scanline
  | pixFmt
  | dispose
  | blend
deriving DecidableEq, Repr

/-- R151: a first byte other than 0x89 is the BMP path; otherwise eight bytes are skipped. -/
def decodeSig (c : Cur) : Except Reject (Instr × Cur) :=
  match c.readU8 with
  | .error e => .error e
  | .ok (b, c1) =>
    if b = 0x89 then
      match c1.take 7 with
      | .error e => .error e
      | .ok (rest, c2) => .ok (.sig rest, c2)
    else .ok (.notPng b, c)

/-- R152: length, type, the maximum, the availability of data and crc, then the chunk. -/
def decodeChunk (maxLen : Nat) (fdat : Word) (c : Cur) : Except Reject (Instr × Cur) :=
  match c.readU32be with
  | .error e => .error e
  | .ok (length, c1) =>
    match c1.readType with
    | .error e => .error e
    | .ok (t, c2) =>
      if maxLen < length.toNat then .error .chunkTooLong
      else if c2.has (length.toNat + 4) then
        match c2.take length.toNat with
        | .error e => .error e
        | .ok (data, c3) =>
          match c3.readU32be with
          | .error e => .error e
          | .ok (crc, c4) => .ok (decodeChunkType fdat (u32At t 0) data crc, c4)
      else .error .eof

/-- R104, R231. -/
def decodeZhdr (n : Nat) (c : Cur) : Except Reject (Instr × Cur) :=
  match c.take n with
  | .error e => .error e
  | .ok (bytes, c1) => .ok (.zhdr bytes, c1)

/-- R105: BFINAL, then BTYPE. -/
def decodeBlkHdr (c : Cur) : Except Reject (Instr × Cur) :=
  match c.readBits 1 with
  | .error e => .error e
  | .ok (f, c1) =>
    match c1.readBits 2 with
    | .error e => .error e
    | .ok (t, c2) =>
      match t with
      | 0 => .ok (.blkStored (f == 1), c2)
      | 1 => .ok (.blkStatic (f == 1), c2)
      | 2 => .ok (.blkDynamic (f == 1), c2)
      | _ => .ok (.blkReserved (f == 1), c2)

/-- R106: LEN and NLEN after alignment; the literal bytes are read by the element's meaning. -/
def decodeStored (c : Cur) : Except Reject (Instr × Cur) :=
  match c.align.readBits 16 with
  | .error e => .error e
  | .ok (len, c1) =>
    match c1.readBits 16 with
    | .error e => .error e
    | .ok (nlen, c2) => .ok (.storedBody (BitVec.ofNat 16 len) (BitVec.ofNat 16 nlen), c2)

/-- `n` three-bit code lengths (R107). -/
def readClLens : Nat → Cur → Except Reject (List (BitVec 3) × Cur)
  | 0, c => .ok ([], c)
  | n + 1, c =>
    match c.readBits 3 with
    | .error e => .error e
    | .ok (v, c1) =>
      match readClLens n c1 with
      | .error e => .error e
      | .ok (vs, c2) => .ok (BitVec.ofNat 3 v :: vs, c2)

/-- R107: the three fields and HCLEN + 4 code-length code lengths. -/
def decodeDynHdr (c : Cur) : Except Reject (Instr × Cur) :=
  match c.readBits 5 with
  | .error e => .error e
  | .ok (hl, c1) =>
    match c1.readBits 5 with
    | .error e => .error e
    | .ok (hd, c2) =>
      match c2.readBits 4 with
      | .error e => .error e
      | .ok (hc, c3) =>
        match readClLens (hc + 4) c3 with
        | .error e => .error e
        | .ok (vs, c4) =>
          .ok (.dynHdr (BitVec.ofNat 5 hl) (BitVec.ofNat 5 hd) (BitVec.ofNat 4 hc) vs, c4)

/-- R108, R212: a symbol through a tree. -/
def decodeSym (k : Kind) (t : TreeReg) (c : Cur) : Except Reject (Instr × Cur) :=
  match t.decode c with
  | .error e => .error e
  | .ok (l, c1) =>
    match symInstr k l.symbol with
    | none => .error .outsideAlphabet
    | some i => .ok (i, c1)

/-- The decoder: the element at a cursor of a level, and the cursor past it. -/
def decode (lv : Level) (c : Cur) : Except Reject (Instr × Cur) :=
  match lv with
  | .signature => decodeSig c
  | .chunk maxLen fdat => decodeChunk maxLen fdat c
  | .zhdr n => decodeZhdr n c
  | .blkHdr => decodeBlkHdr c
  | .stored => decodeStored c
  | .dynHdr => decodeDynHdr c
  | .sym k t => decodeSym k t c
  | .scanline =>
    match c.readU8 with
    | .error e => .error e
    | .ok (b, c1) => .ok (decodeFilter b, c1)
  | .pixFmt =>
    match c.take 2 with
    | .error e => .error e
    | .ok (bytes, c1) => .ok (decodeFormat (byteAt bytes 1) (byteAt bytes 0), c1)
  | .dispose =>
    match c.readU8 with
    | .error e => .error e
    | .ok (b, c1) => .ok (decodeDispose b, c1)
  | .blend =>
    match c.readU8 with
    | .error e => .error e
    | .ok (b, c1) => .ok (decodeBlend b, c1)

/-! ## The encoder -/

/-- A chunk as it stands in the source (R92). -/
def encodeChunk (t : Word) (data : List Byte) (crc : Word) : List Byte :=
  be32 (BitVec.ofNat 32 data.length) ++ be32 t ++ data ++ be32 crc

/-- The bytes of an element of the byte-granular levels; `none` for the elements of the other levels. -/
def encodeBytes (fdat : Word) : Instr → Option (List Byte)
  | .sig rest => some (0x89 :: rest)
  | .notPng b => some [b]
  | .ihdr data crc => some (encodeChunk 0x49484452 data crc)
  | .plte data crc => some (encodeChunk 0x504C5445 data crc)
  | .trns data crc => some (encodeChunk 0x74524E53 data crc)
  | .bkgd data crc => some (encodeChunk 0x624B4744 data crc)
  | .gama data crc => some (encodeChunk 0x67414D41 data crc)
  | .idat data crc => some (encodeChunk 0x49444154 data crc)
  | .actl data crc => some (encodeChunk 0x6163544C data crc)
  | .fctl data crc => some (encodeChunk 0x6663544C data crc)
  | .fdat data crc => some (encodeChunk fdat data crc)
  | .iend data crc => some (encodeChunk 0x49454E44 data crc)
  | .chunkUnknown t data crc => some (encodeChunk t data crc)
  | .zhdr bytes => some bytes
  | .fNone => some [0]
  | .fSub => some [1]
  | .fUp => some [2]
  | .fAvg => some [3]
  | .fPaeth => some [4]
  | .fIllegal b => some [b]
  | .g1 => some [1, 0]
  | .g2 => some [2, 0]
  | .g4 => some [4, 0]
  | .g8 => some [8, 0]
  | .g16 => some [16, 0]
  | .rgb8 => some [8, 2]
  | .rgb16 => some [16, 2]
  | .p1 => some [1, 3]
  | .p2 => some [2, 3]
  | .p4 => some [4, 3]
  | .p8 => some [8, 3]
  | .ga8 => some [8, 4]
  | .ga16 => some [16, 4]
  | .rgba8 => some [8, 6]
  | .rgba16 => some [16, 6]
  | .pixfmtIllegal ct d => some [d, ct]
  | .dNone => some [0]
  | .dBackground => some [1]
  | .dPrevious => some [2]
  | .dIllegal b => some [b]
  | .bSource => some [0]
  | .bOver => some [1]
  | .bIllegal b => some [b]
  | .need _ _ | .readU8 _ | .readU16be _ | .readU32be _ | .skip _ _ | .readType _ | .readBit | .readBits _
  | .alignToByte _ | .blkStored _ | .blkStatic _ | .blkDynamic _ | .blkReserved _ | .storedBody _ _
  | .dynHdr _ _ _ _ | .cl0 | .cl1 | .cl2 | .cl3 | .cl4 | .cl5 | .cl6 | .cl7 | .cl8 | .cl9 | .cl10 | .cl11 | .cl12
  | .cl13 | .cl14 | .cl15 | .cl16 | .cl17 | .cl18 | .lit _ | .eob | .len257 | .len258 | .len259 | .len260
  | .len261 | .len262 | .len263 | .len264 | .len265 | .len266 | .len267 | .len268 | .len269 | .len270 | .len271
  | .len272 | .len273 | .len274 | .len275 | .len276 | .len277 | .len278 | .len279 | .len280 | .len281 | .len282
  | .len283 | .len284 | .len285 | .len286 | .len287 | .dist0 | .dist1 | .dist2 | .dist3 | .dist4 | .dist5 | .dist6
  | .dist7 | .dist8 | .dist9 | .dist10 | .dist11 | .dist12 | .dist13 | .dist14 | .dist15 | .dist16 | .dist17
  | .dist18 | .dist19 | .dist20 | .dist21 | .dist22 | .dist23 | .dist24 | .dist25 | .dist26 | .dist27 | .dist28
  | .dist29 | .dist30 | .dist31 | .matchCopy _ _ => none

/-- The bits, in reading order, of an element of the payload's levels (from a byte boundary for STORED_BODY);
`lens` is the code-length array in force for a Huffman symbol. -/
def encodeBits (lens : List Nat) (i : Instr) : Option (List Bool) :=
  match i with
  | .blkStored f => some [f, false, false]
  | .blkStatic f => some [f, true, false]
  | .blkDynamic f => some [f, false, true]
  | .blkReserved f => some [f, true, true]
  | .storedBody len nlen => some (natBits 16 len.toNat ++ natBits 16 nlen.toNat)
  | .dynHdr hl hd hc vs =>
    some (natBits 5 hl.toNat ++ natBits 5 hd.toNat ++ natBits 4 hc.toNat ++ vs.flatMap fun v => natBits 3 v.toNat)
  | i => i.symbol.map fun p => symbolBits lens p.2

/-- The encoder: the bits of an element in reading order, whichever level it stands at; `none` for the elements that
have no encoding of their own (the reader micro-operations and MATCH_COPY). -/
def encode (fdat : Word) (lens : List Nat) (i : Instr) : Option (List Bool) :=
  match encodeBytes fdat i with
  | some bytes => some (bytes.flatMap byteBits)
  | none => encodeBits lens i

/-- The level at which an element of the byte-granular levels is read under the parameters `c`; `none` for the
others. -/
def Instr.byteLevel (c : Config) : Instr → Option Level
  | .sig _ => some .signature
  | .ihdr _ _ | .plte _ _ | .trns _ _ | .bkgd _ _ | .gama _ _ | .idat _ _ | .actl _ _ | .fctl _ _ | .fdat _ _
  | .iend _ _ | .chunkUnknown _ _ _ => some (.chunk c.maxChunkLen c.fdatType)
  | .zhdr _ => some (.zhdr c.zlibHdrSkip)
  | .fNone | .fSub | .fUp | .fAvg | .fPaeth | .fIllegal _ => some .scanline
  | .g1 | .g2 | .g4 | .g8 | .g16 | .rgb8 | .rgb16 | .p1 | .p2 | .p4 | .p8 | .ga8 | .ga16 | .rgba8 | .rgba16
  | .pixfmtIllegal _ _ => some .pixFmt
  | .dNone | .dBackground | .dPrevious | .dIllegal _ => some .dispose
  | .bSource | .bOver | .bIllegal _ => some .blend
  | .need _ _ | .readU8 _ | .readU16be _ | .readU32be _ | .skip _ _ | .readType _ | .readBit | .readBits _
  | .alignToByte _ | .notPng _ | .blkStored _ | .blkStatic _ | .blkDynamic _ | .blkReserved _ | .storedBody _ _
  | .dynHdr _ _ _ _ | .cl0 | .cl1 | .cl2 | .cl3 | .cl4 | .cl5 | .cl6 | .cl7 | .cl8 | .cl9 | .cl10 | .cl11 | .cl12
  | .cl13 | .cl14 | .cl15 | .cl16 | .cl17 | .cl18 | .lit _ | .eob | .len257 | .len258 | .len259 | .len260
  | .len261 | .len262 | .len263 | .len264 | .len265 | .len266 | .len267 | .len268 | .len269 | .len270 | .len271
  | .len272 | .len273 | .len274 | .len275 | .len276 | .len277 | .len278 | .len279 | .len280 | .len281 | .len282
  | .len283 | .len284 | .len285 | .len286 | .len287 | .dist0 | .dist1 | .dist2 | .dist3 | .dist4 | .dist5 | .dist6
  | .dist7 | .dist8 | .dist9 | .dist10 | .dist11 | .dist12 | .dist13 | .dist14 | .dist15 | .dist16 | .dist17
  | .dist18 | .dist19 | .dist20 | .dist21 | .dist22 | .dist23 | .dist24 | .dist25 | .dist26 | .dist27 | .dist28
  | .dist29 | .dist30 | .dist31 | .matchCopy _ _ => none

/-- The level at which an element of the bit-granular levels other than the symbols is read. -/
def Instr.bitLevel : Instr → Option Level
  | .blkStored _ | .blkStatic _ | .blkDynamic _ | .blkReserved _ => some .blkHdr
  | .storedBody _ _ => some .stored
  | .dynHdr _ _ _ _ => some .dynHdr
  | _ => none

/-! ## One word of the opcode table -/

/-- The level and the bytes of the element the opcode table writes as the number `w` of `nbits` bits (log 17): a
byte is the signature's first byte if it is 0x89 and a scanline's filter byte otherwise; 32 bits are a chunk's
type read big-endian, in a chunk whose length and crc are zeros; 16 bits are a zlib header. -/
def tableElement (nbits w : Nat) : Option (Level × List Byte) :=
  match nbits with
  | 8 =>
    if w % 256 = 0x89 then some (.signature, 0x89 :: List.replicate 7 0)
    else some (.scanline, [BitVec.ofNat 8 w])
  | 16 => some (.zhdr Config.standard.zlibHdrSkip, [BitVec.ofNat 8 w, BitVec.ofNat 8 (w / 256)])
  | 32 =>
    some (.chunk Config.standard.maxChunkLen Config.standard.fdatType,
      encodeChunk (BitVec.ofNat 32 w) [] 0)
  | _ => none

/-- What the decoder reads from a word of the opcode table. -/
def decodeTableWord (nbits w : Nat) : Option Instr :=
  match tableElement nbits w with
  | none => none
  | some (lv, bytes) =>
    match decode lv ⟨bytes, 0, 0⟩ with
    | .error _ => none
    | .ok (i, _) => some i

end Sys2Proof
end

