-- ==== Sys2Proof/Machine/State.lean ====
section
/-! DEFINITION. The machine's state as plain data (spec/10_state, whole), its stops, and the state after reset
(spec/70_reset_and_hazards R420, R421). Fields bear the spec's register names in lower camel case; the fields that
are the model's own are said so where they stand. -/

namespace Sys2Proof.Machine

/-- External memory: (address, byte) pairs in canonical form (`Memory.wf`, Machine/Ops.lean; log 5). -/
abbrev Memory := List Host.Cell

/-- STATUS.STATE (R22). -/
inductive RunState where
  | idle
  | busy
  | done
  | error
deriving DecidableEq, Repr

/-- The thirteen host-interface registers (R21). -/
inductive HostReg where
  | ctrl
  | status
  | errcode
  | srcBase
  | srcLen
  | canvasBase
  | canvasStride
  | canvasW
  | canvasH
  | cfgBg
  | cfgX
  | cfgY
  | framesOut
deriving DecidableEq, Repr

/-- What the environment may do between two steps of the core (log 7). -/
inductive HostOp where
  /-- the host lets the core take a step -/
  | pass
  /-- a write of a host-interface register (R21, R23) -/
  | writeReg (r : HostReg) (v : Word)
  /-- a read of a host-interface register (R21); the value goes to `hostRd` -/
  | readReg (r : HostReg)
  /-- a store of one byte to external memory (R431, R432: the source image, the initial canvas) -/
  | store (addr : Nat) (b : Byte)
  /-- the allocator's oracle is given anew, as the requests it denies (R386) -/
  | oracle (denied : List (Nat × Nat))
  /-- the platform asserts reset (R420, R423) -/
  | reset
deriving DecidableEq, Repr

/-- The configuration sampled at launch (R24). -/
structure Capture where
  srcBase : Word
  srcLen : Word
  canvasBase : Word
  canvasStride : Word
  canvasW : Word
  canvasH : Word
  x : Word
  y : Word
deriving DecidableEq, Repr

/-- ImageHeader (R30, R31). -/
structure Header where
  width : Word
  height : Word
  depth : Byte
  ctype : Byte
  comp : Byte
  filt : Byte
  ilace : Byte
  channels : Nat
  bpp : Nat
  bytespp : Nat
  bytespl : Nat
deriving DecidableEq, Repr

/-- A palette entry (R35). -/
structure Rgba where
  r : Byte
  g : Byte
  b : Byte
  a : Byte
deriving DecidableEq, Repr

/-- An entry of the frame table (R38). -/
structure Frame where
  w : Word
  h : Word
  x : Word
  y : Word
  bytespp : Nat
  bytespl : Nat
  delay : Nat
  dispose : Byte
  blend : Byte
  pix : List Pixel
deriving DecidableEq, Repr

/-- The fields of an fcTL chunk that R170 reads before it calls finish_frame and uses after it. -/
structure FctlFields where
  w : Word
  h : Word
  x : Word
  y : Word
  num : Half
  den : Half
  dispose : Byte
  blend : Byte
deriving DecidableEq, Repr

/-- What follows a finish_frame: the rest of IEND (R174) or the rest of an fcTL (R170). -/
inductive Resume where
  | iend
  | fctl (f : FctlFields)
deriving DecidableEq, Repr

/-- The frame being decoded: decode_frame's arguments, `bpl`, its row counter `r` and the pixels made so far
(R178), and what follows it. The model's own: locals of the spec's pseudocode. -/
structure Job where
  w : Word
  h : Word
  x : Word
  y : Word
  delay : Nat
  dispose : Byte
  blend : Byte
  bpl : Nat
  row : Nat
  pix : List Pixel
  resume : Resume
deriving DecidableEq, Repr

/-- An event of the trace (R13): a hold with the canvas pixels in raster order (R352), or a diagnostic (R391). -/
inductive Event where
  | hold (us : Nat) (canvas : List Pixel)
  | log (code : BitVec 3)
deriving DecidableEq, Repr

/-- Which rule runs next: the position inside the pseudocode of R330, R150, R178, R230, R236, R345 (log 8). -/
inductive Phase where
  /-- no launch is running (R422) -/
  | idle
  /-- signature_step (R151) -/
  | signature
  /-- the head of the chunk walk (R150) -/
  | walk
  /-- the zlib header of a frame's payload (R231) -/
  | zhdr
  /-- a block header (R232) -/
  | block
  /-- the body of a stored block (R234) -/
  | storedBody
  /-- the header of a dynamic block (R209) -/
  | dynHdr
  /-- the code lengths of a dynamic block (R210, R211) -/
  | codeLens
  /-- the symbol loop (R236) -/
  | litLen
  /-- the second half of a match (R239) -/
  | dist
  /-- the copy of a match (R240) -/
  | copy
  /-- inflate has returned (R178) -/
  | inflated
  /-- the head of the row loop: defilter (R178, R271) -/
  | rows
  /-- the row's expansion (R178, R291) -/
  | pixels
  /-- place (R334) -/
  | place
  /-- animate, before its loops (R345) -/
  | animate
  /-- the head of animate's loops (R345), and the start of show (R346) -/
  | loop
  /-- composite (R344) -/
  | composite
  /-- emit Hold (R346, R352) -/
  | hold
  /-- dispose (R346 to R348) -/
  | dispose
  /-- the end of a pass through animate's inner loop (R345) -/
  | nextFrame
  /-- complete (R332) -/
  | complete
deriving DecidableEq, Repr

/-- Why the machine stops. Each is raised only in states that no launch from reset reaches; each is safe: the
spec gives the access no effect. -/
inductive Fault where
  /-- a header register is read while HAVE_IHDR = 0 (R46: "a fault of the model"), or H_CTYPE is no colour type that
  IHDR accepts (R116, R158); raised by finish_frame (fcTL, IEND), tRNS, bKGD, the filters, the pixel formats' fetch
  and place; safe -/
  | headerNotValid
  /-- NUM_FRAMES or NUM_PLAYS is read while ANIMATED = 0 (R36, R46: "a fault of the model"); raised by the rest of fcTL
  after a decode, by animate and its loop tests, and before the dispose elements; safe -/
  | animationNotValid
  /-- a byte-granular read at a bit position other than 0 (R132 to R134: precondition); raised by read_u8,
  read_u16be, read_u32be, read_type; safe -/
  | readerNotAligned
  /-- a row of OUT that the length test of R178 proves present is not; raised by the filters and pixel formats; safe -/
  | rowOutOfRange
  /-- a code length is decoded with i not below HLIT + HDIST (R210's loop test); raised by CL0 to CL18; safe -/
  | lengthSlotOutOfRange
  /-- a copy with distance 0, which "cannot be coded" (R240); raised by MATCH_COPY; safe -/
  | zeroDistance
  /-- a leaf's symbol is no symbol of its alphabet (R39, R202 to R204); raised by fetch; safe -/
  | symbolOutsideAlphabet
  /-- the current frame index is not in FRAMES (R331, R345); raised by the blend and dispose elements; safe -/
  | noSuchFrame
  /-- a frame whose pixel buffer is not W * H pixels (R38); raised by the blend elements; safe -/
  | frameIncomplete
  /-- the frame's rectangle is not inside the canvas (R66, R72); raised by the blend and dispose elements and by
  take_snapshot; safe -/
  | frameOffCanvas
  /-- SNAP is not the size of the frame's rectangle (R348); raised by D_PREVIOUS; safe -/
  | snapshotIncomplete
deriving DecidableEq, Repr

/-- Why the model gives no meaning. -/
inductive Refusal where
  /-- an instruction without a meaning yet; raised by exec's refused arms; safe -/
  | notModelled (mnemonic : String)
  /-- the first source byte is not 0x89: the BMP path (R6, R393); raised by NOT_PNG; safe -/
  | bmpPath
  /-- a launch with CANVAS_BASE or CANVAS_STRIDE not a multiple of 4, or CANVAS_STRIDE below 4 * CANVAS_W (R69,
  R429); raised by the host port; safe -/
  | canvasGeometry
  /-- a launch whose source and canvas overlap (R81, R430); raised by the host port; safe -/
  | sourceCanvasOverlap
  /-- a host write of any register but CTRL while BUSY (R21, R428, V5); raised by the host port; safe -/
  | hostWriteWhileBusy
  /-- a host read of a configuration register while BUSY (R21); raised by the host port; safe -/
  | hostReadWhileBusy
  /-- a host store into the source or the canvas while BUSY (R428); raised by the host port; safe -/
  | hostStoreWhileBusy
deriving DecidableEq, Repr

/-- The register "no tree": Absent, EMPTY = 1, MALFORMED = 0 (R39, R46). -/
def noTree : TreeReg := ⟨.absent, false, true⟩

/-- The whole state of the machine. -/
structure State where
  /-- the parameters of R7 (log 1); the model's own field -/
  cfg : Config
  -- host-interface registers, R21, R22; CTRL has no storage, it reads 0
  runState : RunState
  painted : Bool
  anim : Bool
  errcode : BitVec 3
  srcBase : Word
  srcLen : Word
  canvasBase : Word
  canvasStride : Word
  canvasW : Word
  canvasH : Word
  cfgBg : BitVec 24
  cfgX : Word
  cfgY : Word
  framesOut : Word
  -- the configuration sampled at launch, R24
  cap : Capture
  -- cursors, R26, R27
  cp : Nat
  ip : Nat
  ib : Nat
  -- flags, R29
  haveIhdr : Bool
  havePlte : Bool
  keyValid : Bool
  haveBkgd : Bool
  haveGamma : Bool
  animated : Bool
  fctlValid : Bool
  seenIend : Bool
  bfinal : Bool
  -- ImageHeader, R30, R31
  hdr : Header
  -- keys, background, gamma, R32 to R34
  key0 : Half
  key1 : Half
  key2 : Half
  bg : Pixel
  bkgd0 : Half
  bkgd1 : Half
  bkgd2 : Half
  gamma : Word
  -- palette, R35
  pal : List Rgba
  palN : Nat
  -- animation control and frame assembly, R36 to R38
  numFrames : Word
  numPlays : Word
  nextSeq : Nat
  fctlSeen : Nat
  fW : Word
  fH : Word
  fX : Word
  fY : Word
  fDelay : Nat
  fDispose : Byte
  fBlend : Byte
  framesDone : Nat
  acc : List Byte
  frames : List Frame
  -- Huffman trees and inflate registers, R39, R40
  tLit : TreeReg
  tDist : TreeReg
  tCl : TreeReg
  btype : BitVec 2
  hlit : Nat
  hdist : Nat
  hclen : Nat
  cllen : List Nat
  lens : List Nat
  out : List Byte
  -- compositor registers, R42
  ox : Nat
  oy : Nat
  plays : Nat
  play : Nat
  fidx : Nat
  snap : List Pixel
  -- external memory and the event trace, R60, R13
  mem : Memory
  trace : List Event
  -- the model's own fields: control position, locals of pseudocode, environment
  phase : Phase
  li : Nat
  mlen : Nat
  mdist : Nat
  job : Job
  res : Option ReadResult
  allocN : Nat
  allocDenied : List (Nat × Nat)
  hostQ : List HostOp
  hostRd : Word
  freeN : Nat
deriving DecidableEq, Repr

/-- The three outcomes of a step of this machine. -/
abbrev Out := Host.Outcome State Fault Refusal

/-- The state after power-on reset (R47, R420, R421). What the spec leaves unspecified is 0, empty or no tree
(DESIGN CHOICE, log 2 and log 3); the parameters are `Config.standard` (log 1). -/
def State.reset : State where
  cfg := Config.standard
  runState := .idle
  painted := false
  anim := false
  errcode := 0
  srcBase := 0
  srcLen := 0
  canvasBase := 0
  canvasStride := 0
  canvasW := 0
  canvasH := 0
  cfgBg := 0
  cfgX := 0
  cfgY := 0
  framesOut := 0
  cap := ⟨0, 0, 0, 0, 0, 0, 0, 0⟩
  cp := 0
  ip := 0
  ib := 0
  haveIhdr := false
  havePlte := false
  keyValid := false
  haveBkgd := false
  haveGamma := false
  animated := false
  fctlValid := false
  seenIend := false
  bfinal := false
  hdr := ⟨0, 0, 0, 0, 0, 0, 0, 0, 0, 0, 0⟩
  key0 := 0
  key1 := 0
  key2 := 0
  bg := 0
  bkgd0 := 0
  bkgd1 := 0
  bkgd2 := 0
  gamma := 0
  pal := List.replicate 256 ⟨0, 0, 0, 0⟩
  palN := 0
  numFrames := 0
  numPlays := 0
  nextSeq := 0
  fctlSeen := 0
  fW := 0
  fH := 0
  fX := 0
  fY := 0
  fDelay := 0
  fDispose := 0
  fBlend := 0
  framesDone := 0
  acc := []
  frames := []
  tLit := noTree
  tDist := noTree
  tCl := noTree
  btype := 0
  hlit := 0
  hdist := 0
  hclen := 0
  cllen := List.replicate 19 0
  lens := List.replicate 320 0
  out := []
  ox := 0
  oy := 0
  plays := 0
  play := 0
  fidx := 0
  snap := []
  mem := []
  trace := []
  phase := .idle
  li := 0
  mlen := 0
  mdist := 0
  job := ⟨0, 0, 0, 0, 0, 0, 0, 0, 0, [], .iend⟩
  res := none
  allocN := 0
  allocDenied := []
  hostQ := []
  hostRd := 0
  freeN := 0

end Sys2Proof.Machine
end

