-- ==== Sys2Proof/Machine/Ops.lean ====
section
/-! DEFINITION. The operations every rule shares: memory (spec/20_memory R60, R61, R66), the readers
(spec/40_stream_reader R130), trap entry (spec/60_exceptions R390; there is no trap return, R392), allocation
(R386), the canvas (spec/46_compositor R335, R340), launch (spec/10_state R23, R46) and platform reset
(spec/70_reset_and_hazards R420, R423). -/

namespace Sys2Proof.Machine

/-! ## External memory -/

/-- What an unlisted address reads as (DESIGN CHOICE, log 5). -/
def unlistedByte : Byte := 0

/-- A byte of memory. -/
def Memory.read : Memory → Nat → Byte
  | [], _ => unlistedByte
  | (k, v) :: m, a => if k = a then v else Memory.read m a

/-- Put a cell before a canonical memory, or leave it out if it holds what an unlisted address reads as. -/
def Memory.cons (a : Nat) (b : Byte) (m : Memory) : Memory := if b = unlistedByte then m else (a, b) :: m

/-- Store a byte; the canonical form is kept. -/
def Memory.write : Memory → Nat → Byte → Memory
  | [], a, b => Memory.cons a b []
  | (k, v) :: m, a, b =>
    if a < k then Memory.cons a b ((k, v) :: m)
    else if a = k then Memory.cons a b m
    else (k, v) :: Memory.write m a b

/-- The canonical form: addresses strictly rising and no entry equal to what an unlisted address reads as. -/
def Memory.wf : Memory → Bool
  | [] => true
  | [(_, v)] => decide (v ≠ unlistedByte)
  | (k, v) :: (k', v') :: m => decide (v ≠ unlistedByte) && decide (k < k') && Memory.wf ((k', v') :: m)

/-- Store bytes at rising addresses. -/
def Memory.writeList (m : Memory) (a : Nat) : List Byte → Memory
  | [] => m
  | b :: bs => Memory.writeList (m.write a b) (a + 1) bs

/-! ## The readers -/

/-- The source array: byte i is `MemRead(SRC, SRC_BASE + i, 1)` (R61). -/
def State.source (s : State) : List Byte :=
  (List.range s.cap.srcLen.toNat).map fun i => Memory.read s.mem (s.cap.srcBase.toNat + i)

/-- A reader's cursor (R130). -/
def State.cur (s : State) : Reader → Cur
  | .src => ⟨s.source, s.cp, 0⟩
  | .pay => ⟨s.acc, s.ip, s.ib⟩

/-- Put a reader's cursor back; the buffer is never written through a reader (R130). -/
def State.putCur (s : State) : Reader → Cur → State
  | .src, c => { s with cp := c.pos }
  | .pay, c => { s with ip := c.pos, ib := c.bit }

/-! ## Errors -/

/-- The kind a rejection of the decoder raises (R382, R383, R385). The last one is no error of the spec. -/
def rejectKind : Reject → Option ErrKind
  | .eof => some .unexpectedEof
  | .chunkTooLong => some .invalidLength
  | .treeEmpty => some .unsupportedFeature
  | .treeMalformed => some .unsupportedFeature
  | .noLeaf => some .unsupportedFeature
  | .outsideAlphabet => none

/-- ERRCODE's value for a kind (R381; the numbering is a parameter, R7). -/
def Config.errCode (c : Config) : ErrKind → BitVec 3
  | .unexpectedEof => c.codeUnexpectedEof
  | .invalidLength => c.codeInvalidLength
  | .sequenceMismatch => c.codeSequenceMismatch
  | .allocationFailure => c.codeAllocationFailure
  | .unsupportedFeature => c.codeUnsupportedFeature

/-- The end of a launch (R45, R332, R390): everything the core allocated is released, ACC, OUT, SNAP, FRAMES, the
pixel buffer of a frame being decoded, the palette, the header and the trees; only the host-interface registers and the
canvas keep their values. A released register takes its reset value (DESIGN CHOICE, log 13). What is not the core's own
stays too: the parameters, the configuration as sampled, the trace and the environment. -/
def release (s : State) : State :=
  { State.reset with
    cfg := s.cfg
    runState := s.runState, painted := s.painted, anim := s.anim, errcode := s.errcode
    srcBase := s.srcBase, srcLen := s.srcLen, canvasBase := s.canvasBase, canvasStride := s.canvasStride
    canvasW := s.canvasW, canvasH := s.canvasH, cfgBg := s.cfgBg, cfgX := s.cfgX, cfgY := s.cfgY
    framesOut := s.framesOut
    cap := s.cap, mem := s.mem, trace := s.trace
    allocN := s.allocN, allocDenied := s.allocDenied, hostQ := s.hostQ, hostRd := s.hostRd, freeN := s.freeN }

/-- Trap entry (R390): ERRCODE, the diagnostic, the release, STATE = ERROR; PAINTED, ANIM, FRAMES_OUT and the
canvas keep their values, nothing else of the launch does (R45). Nothing is saved: there is no handler, no vector and
no return (R392). -/
def trap (e : ErrKind) (s : State) : State :=
  let s1 := { s with errcode := Config.errCode s.cfg e, trace := s.trace ++ [.log (Config.errCode s.cfg e)] }
  { release s1 with runState := .error }

/-- `raise E` (R11): trap entry, and nothing after it executes. -/
def raise (e : ErrKind) (s : State) : Out := .next (trap e s)

/-- What a rejection of the decoder does. -/
def rejected (r : Reject) (s : State) : Out :=
  match rejectKind r with
  | some e => raise e s
  | none => .fault .symbolOutsideAlphabet

/-! ## Allocation -/

/-- Whether the oracle denies one of `count` requests of `size` made after the first `n` of a launch (R386). -/
def denies (denied : List (Nat × Nat)) (n count size : Nat) : Bool :=
  denied.any fun r => decide (n < r.1) && decide (r.1 ≤ n + count) && decide (r.2 = size)

/-- `count` requests in a row of `size` each, then `k` (R386): a denial raises AllocationFailure. -/
def allocs (count size : Nat) (s : State) (k : State → Out) : Out :=
  let s1 := { s with allocN := s.allocN + count }
  if denies s.allocDenied s.allocN count size then raise .allocationFailure s1 else k s1

/-- `alloc(what)` of `size` (R386). -/
def alloc (size : Nat) (s : State) (k : State → Out) : Out := allocs 1 size s k

/-! ## The canvas -/

/-- The byte address of canvas pixel (x, y) (R66). -/
def canvasAddr (s : State) (x y : Nat) : Nat :=
  s.cap.canvasBase.toNat + y * s.cap.canvasStride.toNat + 4 * x

/-- The four bytes of a pixel in address order (R66, parameter CANVAS_BYTE_ORDER; its value `big` is log 31's). -/
def pixelBytes (o : ByteOrder) (v : Pixel) : List Byte :=
  match o with
  | .little => (be32 v).reverse
  | .big => be32 v

/-- The pixel four bytes in address order stand for (R66, parameter CANVAS_BYTE_ORDER; its value `big` is log 31's). -/
def pixelOfBytes (o : ByteOrder) (d : List Byte) : Pixel :=
  match o with
  | .little => u32At d.reverse 0
  | .big => u32At d 0

/-- `CanvasRead(x, y)` (R66). -/
def canvasRead (s : State) (x y : Nat) : Pixel :=
  pixelOfBytes s.cfg.canvasByteOrder
    ((List.range 4).map fun i => Memory.read s.mem (canvasAddr s x y + i))

/-- `CanvasWrite(x, y, v)` without its effect on PAINTED. -/
def canvasPut (s : State) (x y : Nat) (v : Pixel) : State :=
  { s with mem := Memory.writeList s.mem (canvasAddr s x y) (pixelBytes s.cfg.canvasByteOrder v) }

/-- `CanvasWrite(x, y, v)` (R66, R340): PAINTED becomes 1. -/
def canvasWrite (s : State) (x y : Nat) (v : Pixel) : State :=
  { canvasPut s x y v with painted := true }

/-- The coordinates of a w x h rectangle in raster order: rows top to bottom, pixels left to right (R77, R335). -/
def raster (w h : Nat) : List (Nat × Nat) :=
  (List.range h).flatMap fun j => (List.range w).map fun i => (i, j)

/-- The canvas contents in raster order (R352). -/
def canvasPixels (s : State) : List Pixel :=
  (raster s.cap.canvasW.toNat s.cap.canvasH.toNat).map fun p => canvasRead s p.1 p.2

/-- R334's fit test, as it stands once OX and OY are written: the image lies inside the canvas. -/
def imageOnCanvas (s : State) : Bool :=
  decide (s.ox + s.hdr.width.toNat ≤ s.cap.canvasW.toNat) && decide (s.oy + s.hdr.height.toNat ≤ s.cap.canvasH.toNat)

/-- R72: a frame's rectangle (R335) lies inside the canvas. -/
def frameOnCanvas (s : State) (f : Frame) : Bool :=
  decide (s.ox + f.x.toNat + f.w.toNat ≤ s.cap.canvasW.toNat)
  && decide (s.oy + f.y.toNat + f.h.toNat ≤ s.cap.canvasH.toNat)

/-! ## Launch and reset -/

/-- The configuration registers 3 to 8, 10 and 11 as a launch samples them (R24). -/
def captured (s : State) : Capture :=
  ⟨s.srcBase, s.srcLen, s.canvasBase, s.canvasStride, s.canvasW, s.canvasH, s.cfgX, s.cfgY⟩

/-- R69, R429: the canvas geometry a launch presumes. -/
def canvasGeometryOk (c : Capture) : Bool :=
  decide (c.canvasBase.toNat % 4 = 0) && decide (c.canvasStride.toNat % 4 = 0)
  && decide (4 * c.canvasW.toNat ≤ c.canvasStride.toNat)

/-- R81, R430: the source range and the canvas range are disjoint. -/
def sourceCanvasDisjoint (c : Capture) : Bool :=
  decide (c.srcLen.toNat = 0) || decide (c.canvasH.toNat * c.canvasStride.toNat = 0)
  || decide (c.srcBase.toNat + c.srcLen.toNat ≤ c.canvasBase.toNat)
  || decide (c.canvasBase.toNat + c.canvasH.toNat * c.canvasStride.toNat ≤ c.srcBase.toNat)

/-- The state at the start of a launch (R23, R24, R46). What R46 leaves unspecified is left as it is (log 3). -/
def launchState (s : State) : State :=
  { s with
    runState := .busy, painted := false, anim := false, errcode := 0, framesOut := 0
    cap := captured s
    cp := 0, ip := 0, ib := 0
    haveIhdr := false, havePlte := false, keyValid := false, haveBkgd := false, haveGamma := false
    animated := false, fctlValid := false, seenIend := false, bfinal := false
    palN := 0, bg := (0xFF : Byte) ++ s.cfgBg
    nextSeq := 0, fctlSeen := 0, framesDone := 0
    acc := [], out := [], snap := [], frames := []
    tLit := noTree, tDist := noTree, tCl := noTree
    play := 0, fidx := 0
    allocN := 0, trace := [], phase := .signature }

/-- Starting a launch (R23), under the host duties of R69 and R81 (log 6). -/
def launch (s : State) : Out :=
  if !canvasGeometryOk (captured s) then .refused .canvasGeometry
  else if !sourceCanvasDisjoint (captured s) then .refused .sourceCanvasOverlap
  else .next (launchState s)

/-- Whether canvas pixels may already have been written, or be about to be: the compositing phases. -/
def Phase.painting : Phase → Bool
  | .animate | .loop | .composite | .hold | .dispose | .nextFrame | .complete => true
  | _ => false

/-- The memory after a reset that interrupts painting: the pixels of the image rectangle are free values (V4 of
spec/93_implementation_defined, log 15), every other byte is unchanged. -/
def freeImage (s : State) : State :=
  (raster s.hdr.width.toNat s.hdr.height.toNat).foldl
    (fun t p => canvasPut t (s.ox + p.1) (s.oy + p.2) (freePixel s.freeN (s.ox + p.1) (s.oy + p.2)))
    { s with freeN := s.freeN + 1 }

/-- Platform reset (R420, R423): the registers take their reset values, a running launch ends without trap entry
and without an event, source and canvas are not touched (but see `freeImage`). The parameters, the environment's
oracle and script, and what the host has read are not the core's. -/
def platformReset (s : State) : State :=
  let s1 := if s.runState = .busy ∧ Phase.painting s.phase ∧ s.haveIhdr ∧ imageOnCanvas s then freeImage s else s
  { State.reset with
    cfg := s.cfg, mem := s1.mem, trace := s.trace, allocDenied := s.allocDenied, hostQ := s.hostQ
    hostRd := s.hostRd, freeN := s1.freeN }

end Sys2Proof.Machine
end

