-- ==== Sys2Proof/Machine/Operands.lean ====
section
/-! DEFINITION. Operand assembly (spec/30_encoding R119): the base and extra-bits tables (R109 to R111), header
geometry (spec/10_state R31), the delay (spec/41_chunk_parser R171), filter neighbours (spec/44_scanline R270) and
predictors (R272 to R276), samples (spec/45_pixel_expander R292 to R297), blending (spec/46_compositor R341). -/

namespace Sys2Proof.Machine

/-! ## Symbol tables -/

/-- A group of length or distance symbols (R110, R111). -/
structure SymGroup where
  first : Nat
  count : Nat
  extra : Nat
  base : Nat
deriving DecidableEq, Repr

/-- R110. -/
def lenGroups : List SymGroup :=
  [⟨257, 8, 0, 3⟩, ⟨265, 4, 1, 11⟩, ⟨269, 4, 2, 19⟩, ⟨273, 4, 3, 35⟩, ⟨277, 4, 4, 67⟩, ⟨281, 4, 5, 131⟩,
   ⟨285, 1, 0, 258⟩]

/-- R111. -/
def distGroups : List SymGroup :=
  [⟨0, 4, 0, 1⟩, ⟨4, 2, 1, 5⟩, ⟨6, 2, 2, 9⟩, ⟨8, 2, 3, 17⟩, ⟨10, 2, 4, 33⟩, ⟨12, 2, 5, 65⟩, ⟨14, 2, 6, 129⟩,
   ⟨16, 2, 7, 257⟩, ⟨18, 2, 8, 513⟩, ⟨20, 2, 9, 1025⟩, ⟨22, 2, 10, 2049⟩, ⟨24, 2, 11, 4097⟩, ⟨26, 2, 12, 8193⟩,
   ⟨28, 2, 13, 16385⟩]

/-- A symbol's leaf from its group: `real_value = base + (s - first) * 2^extra_bits` (R110); a symbol in no group
is illegal (R203, R204). -/
def groupLeaf (gs : List SymGroup) (s : Nat) : Leaf :=
  match gs.find? fun g => decide (g.first ≤ s) && decide (s < g.first + g.count) with
  | some g => ⟨s, g.base + (s - g.first) * 2 ^ g.extra, g.extra, false⟩
  | none => ⟨s, 0, 0, true⟩

/-- R202. -/
def clLeaf (s : Nat) : Leaf :=
  ⟨s, s, if s = 16 then 2 else if s = 17 then 3 else if s = 18 then 7 else 0, false⟩

/-- R203 with the ruling D23 of spec/92_eei_decisions.md that it cites: a literal's and the end-of-block's real_value is
the symbol. R203's own line for symbol 256 writes 0; the ruling settles it (DEDUCED, log 30); no rule reads it. -/
def litLenLeaf (s : Nat) : Leaf := if s ≤ 256 then ⟨s, s, 0, false⟩ else groupLeaf lenGroups s

/-- R204. -/
def distLeaf (s : Nat) : Leaf := groupLeaf distGroups s

/-- `leaf(kind, s)` (R200, R202 to R204). -/
def leafOf : Kind → Nat → Leaf
  | .cl, s => clLeaf s
  | .litlen, s => litLenLeaf s
  | .dist, s => distLeaf s

/-- Read an operand of `n` extra bits through the payload cursor, then `k` (R119, R138). -/
def withBits (n : Nat) (s : State) (k : Nat → State → Out) : Out :=
  match (s.cur .pay).readBits n with
  | .error e => rejected e s
  | .ok (v, c) => k v (s.putCur .pay c)

/-! ## Header geometry and chunk operands -/

/-- H_CHANNELS (R31). -/
def channels (ct : Byte) : Nat :=
  match ct.toNat with
  | 0 => 1
  | 2 => 3
  | 3 => 1
  | 4 => 2
  | 6 => 4
  | _ => 0

/-- `ceil_div(a, b)` (R10). -/
def ceilDiv (a b : Nat) : Nat := (a + b - 1) / b

/-- `BYTESPL(w) = ceil_div(w * H_BPP, 8)` (R31). -/
def bytesPl (bpp w : Nat) : Nat := ceilDiv (w * bpp) 8

/-- The header of the IHDR fields, with its derived fields (R31, R158). -/
def mkHeader (w h : Word) (d ct comp filt ilace : Byte) : Header where
  width := w
  height := h
  depth := d
  ctype := ct
  comp := comp
  filt := filt
  ilace := ilace
  channels := channels ct
  bpp := channels ct * d.toNat
  bytespp := max 1 (channels ct * d.toNat / 8)
  bytespl := bytesPl (channels ct * d.toNat) w.toNat

/-- `delay_us(num, den)` (R171). -/
def delayUs (num den : Nat) : Nat := if den = 0 then 10000 * num else 1000000 * num / den

/-- The alpha of a prefix of the palette replaced (R162). -/
def setAlphas : List Rgba → List Byte → List Rgba
  | p :: ps, a :: as => { p with a := a } :: setAlphas ps as
  | ps, _ => ps

/-- Entry `i` of PLTE's data, with A = 0xFF (R95, R160). -/
def plteEntry (data : List Byte) (i : Nat) : Rgba :=
  ⟨byteAt data (3 * i), byteAt data (3 * i + 1), byteAt data (3 * i + 2), 0xFF⟩

/-! ## Pixels and samples -/

/-- `argb(A, R, G, B)` (R10, R294). -/
def argb (a r g b : Byte) : Pixel := a ++ r ++ g ++ b

/-- `A(p)`, `R(p)`, `G(p)`, `B(p)` (R341). -/
def pixA (p : Pixel) : Byte := p.extractLsb' 24 8
def pixR (p : Pixel) : Byte := p.extractLsb' 16 8
def pixG (p : Pixel) : Byte := p.extractLsb' 8 8
def pixB (p : Pixel) : Byte := p.extractLsb' 0 8

/-- `grey8(s)` for a sample of depth `d` (R292, parameter GREY_SCALE). -/
def grey8 (g : GreyScale) (d s : Nat) : Byte :=
  match d with
  | 8 => BitVec.ofNat 8 s
  | 16 => BitVec.ofNat 8 (s / 256)
  | _ =>
    match g with
    | .replicate => BitVec.ofNat 8 (s * (255 / (2 ^ d - 1)))
    | .shift => BitVec.ofNat 8 (s <<< (8 - d))

/-- `sub(x, d)`: sample `x` of depth 1, 2 or 4, the leftmost in the most significant bits (R117, R296); `b i` is
byte i of the row. -/
def subSample (b : Nat → Byte) (x d : Nat) : Nat :=
  ((b (x * d / 8)).toNat >>> (8 - d - x * d % 8)) % 2 ^ d

/-- `v16(i)`: the 16-bit sample at byte `i`, high byte first (R293). -/
def v16 (b : Nat → Byte) (i : Nat) : Nat := (b i).toNat * 256 + (b (i + 1)).toNat

/-- The alpha of a grey sample against the key (R295, R297). -/
def greyAlpha (s : State) (v : Nat) : Byte := if s.keyValid && decide (v = s.key0.toNat) then 0 else 0xFF

/-- The alpha of three colour samples against the key (R295, R297). -/
def rgbAlpha (s : State) (r g b : Nat) : Byte :=
  if s.keyValid && decide (r = s.key0.toNat) && decide (g = s.key1.toNat) && decide (b = s.key2.toNat) then 0
  else 0xFF

/-- `pal(i)` (R298): none where it raises InvalidLength. -/
def palLookup (s : State) (i : Nat) : Option Pixel :=
  if i < s.palN then (s.pal[i]?).map fun e => argb e.a e.r e.g e.b else none

/-! ## Filter neighbours and predictors -/

/-- `a`, the byte `bpp` to the left, 0 before the row's start (R270); `S = 1 + bpl`. -/
def leftByte (out : List Byte) (S bpp r x : Nat) : Nat :=
  if bpp ≤ x then (byteAt out (r * S + 1 + x - bpp)).toNat else 0

/-- `b`, the byte above, 0 in the first row (R270). -/
def upByte (out : List Byte) (S r x : Nat) : Nat :=
  if 1 ≤ r then (byteAt out ((r - 1) * S + 1 + x)).toNat else 0

/-- `c`, the byte above to the left, 0 where absent (R270). -/
def upLeftByte (out : List Byte) (S bpp r x : Nat) : Nat :=
  if 1 ≤ r ∧ bpp ≤ x then (byteAt out ((r - 1) * S + 1 + x - bpp)).toNat else 0

/-- The predictors, over a, b and c in integers that do not wrap (R272 to R276, R278). -/
def predNone (_ _ _ : Nat) : Nat := 0
def predSub (a _ _ : Nat) : Nat := a
def predUp (_ b _ : Nat) : Nat := b
def predAvg (a b _ : Nat) : Nat := (a + b) / 2

/-- R276: ties go to a, then b, then c. -/
def predPaeth (a b c : Nat) : Nat :=
  let p : Int := (a : Int) + b - c
  let pa := (p - a).natAbs
  let pb := (p - b).natAbs
  let pc := (p - c).natAbs
  if pa ≤ pb ∧ pa ≤ pc then a else if pb ≤ pc then b else c

/-! ## Blending -/

/-- `mix(f, a, u)` (R341): the numerator in full, the division truncates. -/
def mix (f a u : Byte) : Byte := BitVec.ofNat 8 ((f.toNat * a.toNat + u.toNat * (255 - a.toNat)) / 255)

/-- `blend(p, under)` (R341): R, G and B mixed by the frame's alpha; the result's alpha is 0xFF. -/
def blendPixel (p under : Pixel) : Pixel :=
  argb 0xFF (mix (pixR p) (pixA p) (pixR under)) (mix (pixG p) (pixA p) (pixG under))
    (mix (pixB p) (pixA p) (pixB under))

/-- What B_SOURCE writes for a frame pixel (R342). -/
def sourcePixel (bg p : Pixel) : Pixel :=
  if pixA p = 0xFF then p else if pixA p = 0 then bg else blendPixel p bg

/-- What B_OVER writes for a frame pixel over a canvas pixel; none where it writes nothing (R343). -/
def overPixel (under p : Pixel) : Option Pixel :=
  if pixA p = 0xFF then some p else if pixA p = 0 then none else some (blendPixel p under)

end Sys2Proof.Machine
end

