-- ==== Sys2Proof/Machine/ChunkParser.lean ====
section
/-! DEFINITION. The signature and the chunks (spec/41_chunk_parser R151, R158 to R176). The step has moved CP past
the whole chunk before a meaning runs (R152, log 12); a handler reads its operands from the chunk's data, in the
layout of spec/30_encoding R94 to R103, and makes its tests in the order of its pseudocode (R183). -/

namespace Sys2Proof.Machine

/-- SIG (R151): the walk follows (R330). -/
def execSig (_rest : List Byte) (s : State) : Out := .next { s with phase := .walk }

/-- NOT_PNG (R6, R393): the BMP path, to which the spec gives no meaning (log 14). -/
def execNotPng (_byte0 : Byte) (_s : State) : Out := .refused .bmpPath

/-- IHDR (R158, R94). -/
def execIhdr (data : List Byte) (_crc : Word) (s : State) : Out :=
  if s.haveIhdr then raise .invalidLength s
  else if data.length ≠ 13 then raise .invalidLength s
  else
    let w := u32At data 0
    let h := u32At data 4
    let d := byteAt data 8
    let ct := byteAt data 9
    let comp := byteAt data 10
    let filt := byteAt data 11
    let ilace := byteAt data 12
    if w.toNat = 0 ∨ s.cfg.maxDim < w.toNat ∨ h.toNat = 0 ∨ s.cfg.maxDim < h.toNat then raise .invalidLength s
    else if !legalFormat ct d then raise .unsupportedFeature s
    else if comp ≠ 0 ∨ filt ≠ 0 ∨ ilace ≠ 0 then raise .unsupportedFeature s
    else .next { s with hdr := mkHeader w h d ct comp filt ilace, haveIhdr := true }

/-- PLTE (R160, R95); the size of `alloc(palette)` is the number of entries (log 9). -/
def execPlte (data : List Byte) (_crc : Word) (s : State) : Out :=
  if !s.haveIhdr then raise .invalidLength s
  else if s.havePlte then raise .invalidLength s
  else if data.length = 0 ∨ data.length % 3 ≠ 0 ∨ s.cfg.maxPalette < data.length / 3 then raise .invalidLength s
  else
    alloc (data.length / 3) s fun s1 =>
      .next { s1 with
        pal := (List.range (data.length / 3)).map (plteEntry data) ++ s1.pal.drop (data.length / 3)
        palN := data.length / 3
        havePlte := true }

/-- tRNS (R162, R96). -/
def execTrns (data : List Byte) (_crc : Word) (s : State) : Out :=
  if !s.haveIhdr then raise .invalidLength s
  else
    match s.hdr.ctype.toNat with
    | 3 =>
      if s.palN < data.length then raise .invalidLength s else .next { s with pal := setAlphas s.pal data }
    | 0 =>
      if data.length ≠ 2 then raise .invalidLength s
      else .next { s with key0 := u16At data 0, keyValid := true }
    | 2 =>
      if data.length ≠ 6 then raise .invalidLength s
      else .next { s with key0 := u16At data 0, key1 := u16At data 2, key2 := u16At data 4, keyValid := true }
    | 4 => .next s
    | 6 => .next s
    | _ => .fault .headerNotValid

/-- `want` of bKGD, by colour type (R164). -/
def bkgdLen (ct : Byte) : Option Nat :=
  match ct.toNat with
  | 3 => some 1
  | 0 => some 2
  | 4 => some 2
  | 2 => some 6
  | 6 => some 6
  | _ => none

/-- `chan8(s)` for depth `d` (R165). -/
def chan8 (g : GreyScale) (d : Nat) (v : Half) : Byte :=
  match d with
  | 16 => v.extractLsb' 8 8
  | 8 => v.extractLsb' 0 8
  | _ => grey8 g d (v.toNat % 2 ^ d)

/-- `bkgd_colour()` (R165); none where it raises InvalidLength. -/
def bkgdColour (s : State) : Option Pixel :=
  let c := chan8 s.cfg.greyScale s.hdr.depth.toNat
  match s.hdr.ctype.toNat with
  | 3 =>
    if s.bkgd0.toNat < s.palN then (s.pal[s.bkgd0.toNat]?).map fun e => argb 0xFF e.r e.g e.b else none
  | 0 => some (argb 0xFF (c s.bkgd0) (c s.bkgd0) (c s.bkgd0))
  | 4 => some (argb 0xFF (c s.bkgd0) (c s.bkgd0) (c s.bkgd0))
  | _ => some (argb 0xFF (c s.bkgd0) (c s.bkgd1) (c s.bkgd2))

/-- The rest of bKGD: HAVE_BKGD, then BG if BKGD_OVERRIDES (R164, parameter of R7). -/
def finishBkgd (s : State) : Out :=
  if s.cfg.bkgdOverrides then
    match bkgdColour s with
    | none => raise .invalidLength s
    | some c => .next { s with bg := c }
  else .next s

/-- bKGD (R164, R97). -/
def execBkgd (data : List Byte) (_crc : Word) (s : State) : Out :=
  if !s.haveIhdr then raise .invalidLength s
  else
    match bkgdLen s.hdr.ctype with
    | none => .fault .headerNotValid
    | some want =>
      if data.length ≠ want then raise .invalidLength s
      else
        match want with
        | 1 => finishBkgd { s with bkgd0 := (byteAt data 0).zeroExtend 16, haveBkgd := true }
        | 2 => finishBkgd { s with bkgd0 := u16At data 0, haveBkgd := true }
        | _ =>
          finishBkgd
            { s with bkgd0 := u16At data 0, bkgd1 := u16At data 2, bkgd2 := u16At data 4, haveBkgd := true }

/-- gAMA (R166, R98): stored, never applied. -/
def execGama (data : List Byte) (_crc : Word) (s : State) : Out :=
  if !s.haveIhdr then raise .invalidLength s
  else if data.length ≠ 4 then raise .invalidLength s
  else .next { s with gamma := u32At data 0, haveGamma := true }

/-- IDAT (R167, R99). -/
def execIdat (data : List Byte) (_crc : Word) (s : State) : Out :=
  if !s.haveIhdr then raise .invalidLength s
  else alloc data.length s fun s1 => .next { s1 with acc := s1.acc ++ data }

/-- acTL (R168, R100). -/
def execActl (data : List Byte) (_crc : Word) (s : State) : Out :=
  if !s.haveIhdr then raise .invalidLength s
  else if s.animated then raise .invalidLength s
  else if data.length ≠ 8 then raise .invalidLength s
  else if (u32At data 0).toNat = 0 ∨ s.cfg.maxFrames < (u32At data 0).toNat then raise .invalidLength s
  else
    alloc (u32At data 0).toNat s fun s1 =>
      .next { s1 with numFrames := u32At data 0, numPlays := u32At data 4, animated := true, anim := true }

/-- `decode_frame(…)` begins: its arguments, `bpl`, and the initialisation of `inflate()` (R178, R230); the zlib
header is read next. CLLEN and LENS, which R40 has re-initialised here too and R230 gives no value, become 0 (DESIGN
CHOICE, log 28). -/
def startDecode (w h x y : Word) (delay : Nat) (dispose blend : Byte) (k : Resume) (s : State) : Out :=
  if !s.haveIhdr then .fault .headerNotValid
  else
    .next { s with
      job := ⟨w, h, x, y, delay, dispose, blend, bytesPl s.hdr.bpp w.toNat, 0, [], k⟩
      ip := 0, ib := 0, out := []
      bfinal := false, btype := 0, hlit := 0, hdist := 0, hclen := 0
      cllen := List.replicate 19 0, lens := List.replicate 320 0
      tLit := noTree, tDist := noTree, tCl := noTree
      phase := .zhdr }

/-- The rest of fcTL after finish_frame (R170); NUM_FRAMES is guarded by ANIMATED (R46). -/
def latchFctl (f : FctlFields) (s : State) : Out :=
  if !s.animated then .fault .animationNotValid
  else if s.fctlSeen = s.numFrames.toNat then raise .invalidLength s
  else if !s.haveIhdr then .fault .headerNotValid
  else if f.w.toNat = 0 ∨ f.h.toNat = 0 ∨ s.hdr.width.toNat < f.x.toNat + f.w.toNat
      ∨ s.hdr.height.toNat < f.y.toNat + f.h.toNat then raise .invalidLength s
  else if 2 < f.dispose.toNat ∨ 1 < f.blend.toNat then raise .unsupportedFeature s
  else
    .next { s with
      fW := f.w, fH := f.h, fX := f.x, fY := f.y
      fDelay := delayUs f.num.toNat f.den.toNat, fDispose := f.dispose, fBlend := f.blend
      fctlValid := true, fctlSeen := s.fctlSeen + 1, phase := .walk }

/-- The end of finish_frame, `ACC <- empty; FCTL_VALID <- 0` (R176), and what follows it (R170, R174). -/
def afterFinish (k : Resume) (s : State) : Out :=
  match k with
  | .iend => .next { s with acc := [], fctlValid := false, seenIend := true, phase := .walk }
  | .fctl f => latchFctl f { s with acc := [], fctlValid := false }

/-- `finish_frame()` (R176): decode the pending frame, or the default frame, or nothing. -/
def finishFrame (k : Resume) (s : State) : Out :=
  if s.fctlValid then startDecode s.fW s.fH s.fX s.fY s.fDelay s.fDispose s.fBlend k s
  else if s.acc ≠ [] ∧ s.animated = false then startDecode s.hdr.width s.hdr.height 0 0 0 0 0 k s
  else afterFinish k s

/-- The fields of fcTL after the sequence number (R101). -/
def fctlFields (data : List Byte) : FctlFields where
  w := u32At data 4
  h := u32At data 8
  x := u32At data 12
  y := u32At data 16
  num := u16At data 20
  den := u16At data 22
  dispose := byteAt data 24
  blend := byteAt data 25

/-- fcTL (R170, R101). -/
def execFctl (data : List Byte) (_crc : Word) (s : State) : Out :=
  if !s.animated then .next s
  else if data.length ≠ 26 then raise .invalidLength s
  else if (u32At data 0).toNat ≠ s.nextSeq then raise .sequenceMismatch s
  else finishFrame (.fctl (fctlFields data)) { s with nextSeq := s.nextSeq + 1 }

/-- fdAT (R172, R102). -/
def execFdat (data : List Byte) (_crc : Word) (s : State) : Out :=
  if !s.animated then .next s
  else if data.length < 4 then raise .invalidLength s
  else if (u32At data 0).toNat ≠ s.nextSeq then raise .sequenceMismatch s
  else
    let s1 := { s with nextSeq := s.nextSeq + 1 }
    if !s1.fctlValid then raise .invalidLength s1
    else alloc (data.length - 4) s1 fun s2 => .next { s2 with acc := s2.acc ++ data.drop 4 }

/-- IEND (R174). -/
def execIend (_data : List Byte) (_crc : Word) (s : State) : Out := finishFrame .iend s

/-- CHUNK_UNKNOWN (R175): no state is written. -/
def execChunkUnknown (_type : Word) (_data : List Byte) (_crc : Word) (s : State) : Out := .next s

end Sys2Proof.Machine
end

