-- ==== Sys2Proof/Machine/Flags.lean ====
section
/-! DEFINITION. Flag and status computations: the value STATUS reads as (spec/10_state R22), the reads and writes of
the thirteen registers (R21), and the flags MALFORMED and EMPTY of a tree under construction (spec/42_huffman
R206). There are no arithmetic condition codes (R29); every other flag is written by the one rule R29 names for it,
PAINTED by `canvasWrite` (R340). -/

namespace Sys2Proof.Machine

/-- The code of STATUS.STATE (R22). -/
def runStateCode : RunState → BitVec 2
  | .idle => 0
  | .busy => 1
  | .done => 2
  | .error => 3

/-- STATUS as it reads: STATE in bits 1:0, PAINTED in bit 2, ANIM in bit 3, the rest 0 (R21, R22). -/
def statusWord (s : State) : Word :=
  ((BitVec.ofBool s.anim ++ BitVec.ofBool s.painted) ++ runStateCode s.runState : BitVec 4).zeroExtend 32

/-- What a host-interface register reads as (R21). -/
def regRead (s : State) : HostReg → Word
  | .ctrl => 0
  | .status => statusWord s
  | .errcode => s.errcode.zeroExtend 32
  | .srcBase => s.srcBase
  | .srcLen => s.srcLen
  | .canvasBase => s.canvasBase
  | .canvasStride => s.canvasStride
  | .canvasW => s.canvasW
  | .canvasH => s.canvasH
  | .cfgBg => s.cfgBg.zeroExtend 32
  | .cfgX => s.cfgX
  | .cfgY => s.cfgY
  | .framesOut => s.framesOut

/-- The configuration registers, number 3 to 11: RW while not BUSY (R21). -/
def HostReg.isConfig : HostReg → Bool
  | .ctrl | .status | .errcode | .framesOut => false
  | _ => true

/-- A write of a configuration register; unlisted bits are ignored, writes of the others change nothing (R21). -/
def regWrite (s : State) (r : HostReg) (v : Word) : State :=
  match r with
  | .ctrl => s
  | .status => s
  | .errcode => s
  | .srcBase => { s with srcBase := v }
  | .srcLen => { s with srcLen := v }
  | .canvasBase => { s with canvasBase := v }
  | .canvasStride => { s with canvasStride := v }
  | .canvasW => { s with canvasW := v }
  | .canvasH => { s with canvasH := v }
  | .cfgBg => { s with cfgBg := v.extractLsb' 0 24 }
  | .cfgX => { s with cfgX := v }
  | .cfgY => { s with cfgY := v }
  | .framesOut => s

/-- A tree register whose insertion collided (R206). -/
def TreeReg.setMalformed (t : TreeReg) : TreeReg := { t with malformed := true }

/-- A tree register with a leaf inserted: it is not EMPTY (R206). -/
def TreeReg.setRoot (t : TreeReg) (root : Tree) : TreeReg := { t with root := root, empty := false }

end Sys2Proof.Machine
end

