-- ==== Sys2Proof/Machine/Compositor.lean ====
section
/-! DEFINITION. The frame compositor (spec/46_compositor): the blend elements on the current frame's rectangle (R335,
R342 to R344), the dispose elements (R347, R348), the illegal codes (R170), and the snapshot (R348). -/

namespace Sys2Proof.Machine

/-- The index of the frame being painted: FIDX in an animation, 0 for a still image (R331, R336). -/
def frameIndex (s : State) : Nat := if s.animated then s.fidx else 0

/-- The frame being painted, after the tests the spec proves superfluous: it exists (R331), its buffer is whole (R38),
its rectangle lies on the canvas (R72). -/
def withFrame (s : State) (k : Frame → Out) : Out :=
  match s.frames[frameIndex s]? with
  | none => .fault .noSuchFrame
  | some f =>
    if f.pix.length ≠ f.w.toNat * f.h.toNat then .fault .frameIncomplete
    else if !frameOnCanvas s f then .fault .frameOffCanvas
    else k f

/-- The pixels of a frame's rectangle in raster order (R335). -/
def rect (f : Frame) : List (Nat × Nat) := raster f.w.toNat f.h.toNat

/-- `f.PIX[j * f.W + i]` (R335). -/
def framePixel (f : Frame) (p : Nat × Nat) : Pixel := f.pix.getD (p.2 * f.w.toNat + p.1) 0

/-- The canvas column and row of pixel (i, j) of a frame (R335). -/
def canvasX (s : State) (f : Frame) (p : Nat × Nat) : Nat := s.ox + f.x.toNat + p.1
def canvasY (s : State) (f : Frame) (p : Nat × Nat) : Nat := s.oy + f.y.toNat + p.2

/-- `CanvasRead` at a frame pixel's place. -/
def readAt (s : State) (f : Frame) (p : Nat × Nat) : Pixel := canvasRead s (canvasX s f p) (canvasY s f p)

/-- `CanvasWrite` at a frame pixel's place. -/
def writeAt (s : State) (f : Frame) (p : Nat × Nat) (v : Pixel) : State :=
  canvasWrite s (canvasX s f p) (canvasY s f p) v

/-- Visit a frame's rectangle in raster order, writing what `v` gives and leaving the pixels where it gives none. -/
def paintRect (v : State → Nat × Nat → Option Pixel) (f : Frame) (s : State) : State :=
  (rect f).foldl (fun t p => match v t p with | some c => writeAt t f p c | none => t) s

/-- The phase after `composite`: the Hold of `show`, or completion of a still image (R346, R336, R330). -/
def afterComposite (s : State) : Phase := if s.animated then .hold else .complete

/-- B_SOURCE (R342, R344). -/
def execBSource (s : State) : Out :=
  withFrame s fun f =>
    .next { paintRect (fun t p => some (sourcePixel t.bg (framePixel f p))) f s with phase := afterComposite s }

/-- B_OVER (R343, R344). -/
def execBOver (s : State) : Out :=
  withFrame s fun f =>
    .next { paintRect (fun t p => overPixel (readAt t f p) (framePixel f p)) f s with phase := afterComposite s }

/-- D_NONE (R347). -/
def execDNone (s : State) : Out := .next { s with phase := .nextFrame }

/-- D_BACKGROUND (R347). -/
def execDBackground (s : State) : Out :=
  withFrame s fun f => .next { paintRect (fun t _ => some t.bg) f s with phase := .nextFrame }

/-- D_PREVIOUS (R348): the snapshot is restored and freed. -/
def execDPrevious (s : State) : Out :=
  withFrame s fun f =>
    if s.snap.length ≠ f.w.toNat * f.h.toNat then .fault .snapshotIncomplete
    else
      .next { paintRect (fun t p => some (t.snap.getD (p.2 * f.w.toNat + p.1) 0)) f s with
        snap := [], phase := .nextFrame }

/-- D_ILLEGAL (R170, R385): a dispose_op above 2. -/
def execDIllegal (_code : Byte) (s : State) : Out := raise .unsupportedFeature s

/-- B_ILLEGAL (R170, R385): a blend_op above 1. -/
def execBIllegal (_code : Byte) (s : State) : Out := raise .unsupportedFeature s

/-- `eff_dispose(FIDX)` for the frame at FIDX (R349): the final frame first, then the first frame's PREVIOUS. It reads
NUM_FRAMES: its callers have tested ANIMATED (R46). -/
def effDispose (s : State) (f : Frame) : Byte :=
  if s.fidx + 1 = s.numFrames.toNat then 0
  else if s.fidx = 0 ∧ f.dispose = 2 then 1
  else f.dispose

/-- `take_snapshot(f)` (R348), then the composite (R346). -/
def takeSnapshot (s : State) : Out :=
  withFrame s fun f =>
    alloc (f.w.toNat * f.h.toNat) s fun s1 =>
      .next { s1 with snap := (rect f).map (readAt s1 f), phase := .composite }

end Sys2Proof.Machine
end

