-- ==== Sys2Proof/Machine/Huffman.lean ====
section
/-! DEFINITION. The Huffman engine (spec/42_huffman): tree construction (R206), the static trees of BLK_STATIC (R208),
the dynamic header DYNHDR (R209) and the code-length symbols CL0 to CL18 (R210). Decoding a symbol (R212) is
`TreeReg.decode`, in Decode.lean. -/

namespace Sys2Proof.Machine

/-- Insert a leaf below a child position, along the remaining bits of its code, and count the nodes made; none where
the walk meets a leaf, or the place of the new leaf is taken (R206). -/
def Tree.put (l : Leaf) : List Bool → Tree → Option (Tree × Nat)
  | [], .absent => some (.leaf l, 1)
  | [], .leaf _ => none
  | [], .node _ _ => none
  | _ :: _, .leaf _ => none
  | b :: bs, .absent =>
    (Tree.put l bs .absent).map fun r => (if b then .node .absent r.1 else .node r.1 .absent, r.2 + 1)
  | true :: bs, .node left right => (Tree.put l bs right).map fun r => (.node left r.1, r.2)
  | false :: bs, .node left right => (Tree.put l bs left).map fun r => (.node r.1 right, r.2)

/-- R206's loop over the symbols `sym, sym + 1, …` with their lengths and codes; `n` counts the `alloc(node)`
requests so far. -/
def insertAll (kind : Kind) : List (Nat × Nat) → Nat → TreeReg → Nat → TreeReg × Nat
  | [], _, t, n => (t, n)
  | (len, code) :: rest, sym, t, n =>
    if len = 0 then insertAll kind rest (sym + 1) t n
    else if 2 ^ len ≤ code then (TreeReg.setMalformed t, n)
    else
      match Tree.put (leafOf kind sym) (codeBits len code) t.root with
      | none => (TreeReg.setMalformed t, n)
      | some (root, k) => insertAll kind rest (sym + 1) (TreeReg.setRoot t root) (n + k)

/-- `build(len, n, kind)` and the number of its `alloc(node)` requests (R206, R216). -/
def buildTree (kind : Kind) (lens : List Nat) : TreeReg × Nat :=
  insertAll kind (lens.zip (assignCodes lens)) 0 ⟨.node .absent .absent, false, true⟩ 1

/-- Build a tree, make its allocation requests, each of size 1 (log 9), then `k`. -/
def withTree (kind : Kind) (lens : List Nat) (s : State) (k : TreeReg → State → Out) : Out :=
  allocs (buildTree kind lens).2 1 s (k (buildTree kind lens).1)

/-- SLIT (R208, R112). -/
def staticLit : List Nat :=
  List.replicate 144 8 ++ List.replicate 112 9 ++ List.replicate 24 7 ++ List.replicate 8 8

/-- SDIST (R208, R112). -/
def staticDist : List Nat := List.replicate 30 5

/-- BLK_STATIC (R232, R208): BFINAL and BTYPE, then both static trees; the symbol loop follows. -/
def execBlkStatic (final : Bool) (s : State) : Out :=
  withTree .litlen staticLit { s with bfinal := final, btype := 1 } fun t s1 =>
    withTree .dist staticDist { s1 with tLit := t } fun u s2 => .next { s2 with tDist := u, phase := .litLen }

/-- BLK_DYNAMIC (R232): BFINAL and BTYPE; the dynamic header follows. -/
def execBlkDynamic (final : Bool) (s : State) : Out :=
  .next { s with bfinal := final, btype := 2, phase := .dynHdr }

/-- PERM (R107, R209). -/
def clOrder : List Nat := [16, 17, 18, 0, 8, 7, 9, 6, 10, 5, 11, 4, 12, 3, 13, 2, 14, 1, 15]

/-- CLLEN from the lengths in PERM's order; the symbols not reached have length 0 (R107, R209). -/
def permute : List Nat → List (BitVec 3) → List Nat → List Nat
  | p :: ps, v :: vs, acc => permute ps vs (acc.set p v.toNat)
  | _, _, acc => acc

/-- DYNHDR (R209): the three counts, CLLEN, and T_CL; the code lengths follow from i = 0 (R210). -/
def execDynHdr (hlit hdist : BitVec 5) (hclen : BitVec 4) (clLens : List (BitVec 3)) (s : State) : Out :=
  let cl := permute clOrder clLens (List.replicate 19 0)
  withTree .cl cl
    { s with hlit := hlit.toNat + 257, hdist := hdist.toNat + 1, hclen := hclen.toNat + 4, cllen := cl }
    fun t s1 => .next { s1 with tCl := t, li := 0, phase := .codeLens }

/-- R210's loop test, with the array's size (R40). -/
def lengthSlotOk (s : State) : Bool :=
  decide (s.li < s.hlit + s.hdist) && decide (s.hlit + s.hdist ≤ s.lens.length)

/-- A code-length symbol below 16: `LENS[i] <- s; i <- i + 1` (R210). -/
def clLength (v : Nat) (s : State) : Out :=
  if !lengthSlotOk s then .fault .lengthSlotOutOfRange
  else .next { s with lens := s.lens.set s.li v, li := s.li + 1 }

/-- `for j in 0 .. n: A[i + j] <- v`. -/
def fillFrom (v : Nat) : (n i : Nat) → List Nat → List Nat
  | 0, _, a => a
  | n + 1, i, a => fillFrom v n (i + 1) (a.set i v)

/-- The end of a repeat symbol: the overrun test, then the writes (R210). -/
def clRepeat (rep v : Nat) (s : State) : Out :=
  if s.hlit + s.hdist < s.li + rep then raise .invalidLength s
  else .next { s with lens := fillFrom v rep s.li s.lens, li := s.li + rep }

/-- CL0 (R210, R113). -/
def execCl0 (s : State) : Out := clLength 0 s

/-- CL1 (R210, R113). -/
def execCl1 (s : State) : Out := clLength 1 s

/-- CL2 (R210, R113). -/
def execCl2 (s : State) : Out := clLength 2 s

/-- CL3 (R210, R113). -/
def execCl3 (s : State) : Out := clLength 3 s

/-- CL4 (R210, R113). -/
def execCl4 (s : State) : Out := clLength 4 s

/-- CL5 (R210, R113). -/
def execCl5 (s : State) : Out := clLength 5 s

/-- CL6 (R210, R113). -/
def execCl6 (s : State) : Out := clLength 6 s

/-- CL7 (R210, R113). -/
def execCl7 (s : State) : Out := clLength 7 s

/-- CL8 (R210, R113). -/
def execCl8 (s : State) : Out := clLength 8 s

/-- CL9 (R210, R113). -/
def execCl9 (s : State) : Out := clLength 9 s

/-- CL10 (R210, R113). -/
def execCl10 (s : State) : Out := clLength 10 s

/-- CL11 (R210, R113). -/
def execCl11 (s : State) : Out := clLength 11 s

/-- CL12 (R210, R113). -/
def execCl12 (s : State) : Out := clLength 12 s

/-- CL13 (R210, R113). -/
def execCl13 (s : State) : Out := clLength 13 s

/-- CL14 (R210, R113). -/
def execCl14 (s : State) : Out := clLength 14 s

/-- CL15 (R210, R113). -/
def execCl15 (s : State) : Out := clLength 15 s

/-- CL16 (R210): 3 to 6 times the length just before; with nothing to repeat it raises before the extra bits. -/
def execCl16 (s : State) : Out :=
  if !lengthSlotOk s then .fault .lengthSlotOutOfRange
  else if s.li = 0 then raise .invalidLength s
  else withBits 2 s fun x s1 => clRepeat (3 + x) (s1.lens.getD (s1.li - 1) 0) s1

/-- CL17 (R210): 3 to 10 zeros. -/
def execCl17 (s : State) : Out :=
  if !lengthSlotOk s then .fault .lengthSlotOutOfRange
  else withBits 3 s fun x s1 => clRepeat (3 + x) 0 s1

/-- CL18 (R210): 11 to 138 zeros. -/
def execCl18 (s : State) : Out :=
  if !lengthSlotOk s then .fault .lengthSlotOutOfRange
  else withBits 7 s fun x s1 => clRepeat (11 + x) 0 s1

/-- The end of the dynamic header (R211): both trees from LENS; the symbol loop follows. -/
def buildTrees (s : State) : Out :=
  withTree .litlen (s.lens.take s.hlit) s fun t s1 =>
    withTree .dist ((s1.lens.drop s1.hlit).take s1.hdist) { s1 with tLit := t } fun u s2 =>
      .next { s2 with tDist := u, phase := .litLen }

end Sys2Proof.Machine
end

