-- ==== Sys2Proof/Machine/Inflate.lean ====
section
/-! DEFINITION. The inflate engine (spec/43_inflate): the zlib header (R231), block headers (R232, R233), the stored
block (R234), the symbol loop (R236 to R239), the match engine (R240) and the end of a block (R241, R230). -/

namespace Sys2Proof.Machine

/-- ZHDR (R231): the bytes are not looked at; the first block follows. -/
def execZhdr (_bytes : List Byte) (s : State) : Out := .next { s with phase := .block }

/-- BLK_STORED (R232). -/
def execBlkStored (final : Bool) (s : State) : Out :=
  .next { s with bfinal := final, btype := 0, phase := .storedBody }

/-- BLK_RESERVED (R233): BTYPE = 3. -/
def execBlkReserved (final : Bool) (s : State) : Out :=
  raise .unsupportedFeature { s with bfinal := final, btype := 3 }

/-- What follows a block: the next block header, or the return of `inflate()` (R230). -/
def afterBlock (final : Bool) : Phase := if final then .inflated else .block

/-- The literal bytes of a stored block (R234): all LEN bytes, or UnexpectedEof with those present appended. -/
def storedBytes (len : Nat) (s : State) : Out :=
  if s.ib ≠ 0 then .fault .readerNotAligned
  else if s.ip + len ≤ s.acc.length then
    .next { s with
      out := s.out ++ (s.acc.drop s.ip).take len, ip := s.ip + len, phase := afterBlock s.bfinal }
  else raise .unexpectedEof { s with out := s.out ++ s.acc.drop s.ip, ip := s.acc.length }

/-- STORED_BODY (R234): NLEN is not compared with LEN. -/
def execStoredBody (len _nlen : Half) (s : State) : Out := alloc len.toNat s fun s1 => storedBytes len.toNat s1

/-- LIT (R237). -/
def execLit (b : Byte) (s : State) : Out :=
  alloc 1 s fun s1 => .next { s1 with out := s1.out ++ [b], phase := .litLen }

/-- EOB (R241, R214): the block's trees are freed. -/
def execEob (s : State) : Out :=
  .next { s with tLit := noTree, tDist := noTree, tCl := noTree, phase := afterBlock s.bfinal }

/-- A length symbol, the first half of a match (R238). -/
def lengthSymbol (sym : Nat) (s : State) : Out :=
  if (litLenLeaf sym).illegal then raise .unsupportedFeature s
  else
    withBits (litLenLeaf sym).extraBits s fun x s1 =>
      .next { s1 with mlen := (litLenLeaf sym).realValue + x, phase := .dist }

/-- A distance symbol, the second half of a match (R239). -/
def distanceSymbol (sym : Nat) (s : State) : Out :=
  if (distLeaf sym).illegal then raise .unsupportedFeature s
  else
    withBits (distLeaf sym).extraBits s fun x s1 =>
      .next { s1 with mdist := (distLeaf sym).realValue + x, phase := .copy }

/-- `for k in 0 .. n: append(OUT, OUT[len(OUT) - distance])` (R240). -/
def copyFrom (distance : Nat) : Nat → List Byte → List Byte
  | 0, out => out
  | n + 1, out => copyFrom distance n (out ++ [byteAt out (out.length - distance)])

/-- MATCH_COPY (R240); the symbol loop goes on (R236). -/
def execMatchCopy (length distance : Nat) (s : State) : Out :=
  if distance = 0 then .fault .zeroDistance
  else if s.out.length < distance then raise .invalidLength s
  else alloc length s fun s1 => .next { s1 with out := copyFrom distance length s1.out, phase := .litLen }

/-- LEN257 (R238, R110). -/
def execLen257 (s : State) : Out := lengthSymbol 257 s

/-- LEN258 (R238, R110). -/
def execLen258 (s : State) : Out := lengthSymbol 258 s

/-- LEN259 (R238, R110). -/
def execLen259 (s : State) : Out := lengthSymbol 259 s

/-- LEN260 (R238, R110). -/
def execLen260 (s : State) : Out := lengthSymbol 260 s

/-- LEN261 (R238, R110). -/
def execLen261 (s : State) : Out := lengthSymbol 261 s

/-- LEN262 (R238, R110). -/
def execLen262 (s : State) : Out := lengthSymbol 262 s

/-- LEN263 (R238, R110). -/
def execLen263 (s : State) : Out := lengthSymbol 263 s

/-- LEN264 (R238, R110). -/
def execLen264 (s : State) : Out := lengthSymbol 264 s

/-- LEN265 (R238, R110). -/
def execLen265 (s : State) : Out := lengthSymbol 265 s

/-- LEN266 (R238, R110). -/
def execLen266 (s : State) : Out := lengthSymbol 266 s

/-- LEN267 (R238, R110). -/
def execLen267 (s : State) : Out := lengthSymbol 267 s

/-- LEN268 (R238, R110). -/
def execLen268 (s : State) : Out := lengthSymbol 268 s

/-- LEN269 (R238, R110). -/
def execLen269 (s : State) : Out := lengthSymbol 269 s

/-- LEN270 (R238, R110). -/
def execLen270 (s : State) : Out := lengthSymbol 270 s

/-- LEN271 (R238, R110). -/
def execLen271 (s : State) : Out := lengthSymbol 271 s

/-- LEN272 (R238, R110). -/
def execLen272 (s : State) : Out := lengthSymbol 272 s

/-- LEN273 (R238, R110). -/
def execLen273 (s : State) : Out := lengthSymbol 273 s

/-- LEN274 (R238, R110). -/
def execLen274 (s : State) : Out := lengthSymbol 274 s

/-- LEN275 (R238, R110). -/
def execLen275 (s : State) : Out := lengthSymbol 275 s

/-- LEN276 (R238, R110). -/
def execLen276 (s : State) : Out := lengthSymbol 276 s

/-- LEN277 (R238, R110). -/
def execLen277 (s : State) : Out := lengthSymbol 277 s

/-- LEN278 (R238, R110). -/
def execLen278 (s : State) : Out := lengthSymbol 278 s

/-- LEN279 (R238, R110). -/
def execLen279 (s : State) : Out := lengthSymbol 279 s

/-- LEN280 (R238, R110). -/
def execLen280 (s : State) : Out := lengthSymbol 280 s

/-- LEN281 (R238, R110). -/
def execLen281 (s : State) : Out := lengthSymbol 281 s

/-- LEN282 (R238, R110). -/
def execLen282 (s : State) : Out := lengthSymbol 282 s

/-- LEN283 (R238, R110). -/
def execLen283 (s : State) : Out := lengthSymbol 283 s

/-- LEN284 (R238, R110). -/
def execLen284 (s : State) : Out := lengthSymbol 284 s

/-- LEN285 (R238, R110). -/
def execLen285 (s : State) : Out := lengthSymbol 285 s

/-- LEN286 (R238): an illegal length symbol. -/
def execLen286 (s : State) : Out := lengthSymbol 286 s

/-- LEN287 (R238): an illegal length symbol. -/
def execLen287 (s : State) : Out := lengthSymbol 287 s

/-- DIST0 (R239, R111). -/
def execDist0 (s : State) : Out := distanceSymbol 0 s

/-- DIST1 (R239, R111). -/
def execDist1 (s : State) : Out := distanceSymbol 1 s

/-- DIST2 (R239, R111). -/
def execDist2 (s : State) : Out := distanceSymbol 2 s

/-- DIST3 (R239, R111). -/
def execDist3 (s : State) : Out := distanceSymbol 3 s

/-- DIST4 (R239, R111). -/
def execDist4 (s : State) : Out := distanceSymbol 4 s

/-- DIST5 (R239, R111). -/
def execDist5 (s : State) : Out := distanceSymbol 5 s

/-- DIST6 (R239, R111). -/
def execDist6 (s : State) : Out := distanceSymbol 6 s

/-- DIST7 (R239, R111). -/
def execDist7 (s : State) : Out := distanceSymbol 7 s

/-- DIST8 (R239, R111). -/
def execDist8 (s : State) : Out := distanceSymbol 8 s

/-- DIST9 (R239, R111). -/
def execDist9 (s : State) : Out := distanceSymbol 9 s

/-- DIST10 (R239, R111). -/
def execDist10 (s : State) : Out := distanceSymbol 10 s

/-- DIST11 (R239, R111). -/
def execDist11 (s : State) : Out := distanceSymbol 11 s

/-- DIST12 (R239, R111). -/
def execDist12 (s : State) : Out := distanceSymbol 12 s

/-- DIST13 (R239, R111). -/
def execDist13 (s : State) : Out := distanceSymbol 13 s

/-- DIST14 (R239, R111). -/
def execDist14 (s : State) : Out := distanceSymbol 14 s

/-- DIST15 (R239, R111). -/
def execDist15 (s : State) : Out := distanceSymbol 15 s

/-- DIST16 (R239, R111). -/
def execDist16 (s : State) : Out := distanceSymbol 16 s

/-- DIST17 (R239, R111). -/
def execDist17 (s : State) : Out := distanceSymbol 17 s

/-- DIST18 (R239, R111). -/
def execDist18 (s : State) : Out := distanceSymbol 18 s

/-- DIST19 (R239, R111). -/
def execDist19 (s : State) : Out := distanceSymbol 19 s

/-- DIST20 (R239, R111). -/
def execDist20 (s : State) : Out := distanceSymbol 20 s

/-- DIST21 (R239, R111). -/
def execDist21 (s : State) : Out := distanceSymbol 21 s

/-- DIST22 (R239, R111). -/
def execDist22 (s : State) : Out := distanceSymbol 22 s

/-- DIST23 (R239, R111). -/
def execDist23 (s : State) : Out := distanceSymbol 23 s

/-- DIST24 (R239, R111). -/
def execDist24 (s : State) : Out := distanceSymbol 24 s

/-- DIST25 (R239, R111). -/
def execDist25 (s : State) : Out := distanceSymbol 25 s

/-- DIST26 (R239, R111). -/
def execDist26 (s : State) : Out := distanceSymbol 26 s

/-- DIST27 (R239, R111). -/
def execDist27 (s : State) : Out := distanceSymbol 27 s

/-- DIST28 (R239, R111). -/
def execDist28 (s : State) : Out := distanceSymbol 28 s

/-- DIST29 (R239, R111). -/
def execDist29 (s : State) : Out := distanceSymbol 29 s

/-- DIST30 (R239): an illegal distance symbol. -/
def execDist30 (s : State) : Out := distanceSymbol 30 s

/-- DIST31 (R239): an illegal distance symbol. -/
def execDist31 (s : State) : Out := distanceSymbol 31 s

end Sys2Proof.Machine
end

