-- ==== Sys2Proof/Machine/PixelExpander.lean ====
section
/-! DEFINITION. The pixel expander (spec/45_pixel_expander): the fifteen formats G1 to RGBA16 on the current row
(R290 to R314), and PIXFMT_ILLEGAL (R158, R316). In a pixel function `b i` is byte i of the row, `x` the pixel. -/

namespace Sys2Proof.Machine

/-- Pixels x, x + 1, … of a row, left to right; none at the first one that raises InvalidLength (R291, R298). -/
def expandPixels (pixel : Nat → Option Pixel) : (n x : Nat) → Option (List Pixel)
  | 0, _ => some []
  | n + 1, x =>
    match pixel x with
    | none => none
    | some p => (expandPixels pixel n (x + 1)).map fun ps => p :: ps

/-- `expand_row` for a format of `bpp` bits per pixel (R291); the next row follows (R178). -/
def expandRow (bpp : Nat) (pixel : State → (Nat → Byte) → Nat → Option Pixel) (s : State) : Out :=
  let base := s.job.row * (1 + s.job.bpl) + 1
  if s.out.length < base + ceilDiv (s.job.w.toNat * bpp) 8 then .fault .rowOutOfRange
  else
    match expandPixels (pixel s fun i => byteAt s.out (base + i)) s.job.w.toNat 0 with
    | none => raise .invalidLength s
    | some ps =>
      .next { s with job := { s.job with pix := s.job.pix ++ ps, row := s.job.row + 1 }, phase := .rows }

/-- A grey pixel of depth 1, 2 or 4 (R300 to R302). -/
def pixGreySub (d : Nat) (s : State) (b : Nat → Byte) (x : Nat) : Option Pixel :=
  let v := grey8 s.cfg.greyScale d (subSample b x d)
  some (argb (greyAlpha s (subSample b x d)) v v v)

/-- R303. -/
def pixG8 (s : State) (b : Nat → Byte) (x : Nat) : Option Pixel :=
  some (argb (greyAlpha s (b x).toNat) (b x) (b x) (b x))

/-- R304. -/
def pixG16 (s : State) (b : Nat → Byte) (x : Nat) : Option Pixel :=
  some (argb (greyAlpha s (v16 b (2 * x))) (b (2 * x)) (b (2 * x)) (b (2 * x)))

/-- R305. -/
def pixRgb8 (s : State) (b : Nat → Byte) (x : Nat) : Option Pixel :=
  some (argb (rgbAlpha s (b (3 * x)).toNat (b (3 * x + 1)).toNat (b (3 * x + 2)).toNat) (b (3 * x)) (b (3 * x + 1))
    (b (3 * x + 2)))

/-- R306. -/
def pixRgb16 (s : State) (b : Nat → Byte) (x : Nat) : Option Pixel :=
  some (argb (rgbAlpha s (v16 b (6 * x)) (v16 b (6 * x + 2)) (v16 b (6 * x + 4))) (b (6 * x)) (b (6 * x + 2))
    (b (6 * x + 4)))

/-- A palette index of depth 1, 2 or 4 (R307 to R309). -/
def pixPalSub (d : Nat) (s : State) (b : Nat → Byte) (x : Nat) : Option Pixel := palLookup s (subSample b x d)

/-- R310. -/
def pixP8 (s : State) (b : Nat → Byte) (x : Nat) : Option Pixel := palLookup s (b x).toNat

/-- R311. -/
def pixGa8 (_s : State) (b : Nat → Byte) (x : Nat) : Option Pixel :=
  some (argb (b (2 * x + 1)) (b (2 * x)) (b (2 * x)) (b (2 * x)))

/-- R312. -/
def pixGa16 (_s : State) (b : Nat → Byte) (x : Nat) : Option Pixel :=
  some (argb (b (4 * x + 2)) (b (4 * x)) (b (4 * x)) (b (4 * x)))

/-- R313. -/
def pixRgba8 (_s : State) (b : Nat → Byte) (x : Nat) : Option Pixel :=
  some (argb (b (4 * x + 3)) (b (4 * x)) (b (4 * x + 1)) (b (4 * x + 2)))

/-- R314. -/
def pixRgba16 (_s : State) (b : Nat → Byte) (x : Nat) : Option Pixel :=
  some (argb (b (8 * x + 6)) (b (8 * x)) (b (8 * x + 2)) (b (8 * x + 4)))

/-- G1 (R300). -/
def execG1 (s : State) : Out := expandRow 1 (pixGreySub 1) s

/-- G2 (R301). -/
def execG2 (s : State) : Out := expandRow 2 (pixGreySub 2) s

/-- G4 (R302). -/
def execG4 (s : State) : Out := expandRow 4 (pixGreySub 4) s

/-- G8 (R303). -/
def execG8 (s : State) : Out := expandRow 8 pixG8 s

/-- G16 (R304). -/
def execG16 (s : State) : Out := expandRow 16 pixG16 s

/-- RGB8 (R305). -/
def execRgb8 (s : State) : Out := expandRow 24 pixRgb8 s

/-- RGB16 (R306). -/
def execRgb16 (s : State) : Out := expandRow 48 pixRgb16 s

/-- P1 (R307). -/
def execP1 (s : State) : Out := expandRow 1 (pixPalSub 1) s

/-- P2 (R308). -/
def execP2 (s : State) : Out := expandRow 2 (pixPalSub 2) s

/-- P4 (R309). -/
def execP4 (s : State) : Out := expandRow 4 (pixPalSub 4) s

/-- P8 (R310). -/
def execP8 (s : State) : Out := expandRow 8 pixP8 s

/-- GA8 (R311). -/
def execGa8 (s : State) : Out := expandRow 16 pixGa8 s

/-- GA16 (R312). -/
def execGa16 (s : State) : Out := expandRow 32 pixGa16 s

/-- RGBA8 (R313). -/
def execRgba8 (s : State) : Out := expandRow 32 pixRgba8 s

/-- RGBA16 (R314). -/
def execRgba16 (s : State) : Out := expandRow 64 pixRgba16 s

/-- PIXFMT_ILLEGAL (R158, R385): an unsupported (colour type, bit depth) pair. -/
def execPixfmtIllegal (_colourType _depth : Byte) (s : State) : Out := raise .unsupportedFeature s

end Sys2Proof.Machine
end

