-- ==== Sys2Proof/Machine/Scanline.lean ====
section
/-! DEFINITION. The scanline reconstructor (spec/44_scanline): the filters F_NONE to F_PAETH on the current row of OUT,
in place, and F_ILLEGAL (R270 to R277). -/

namespace Sys2Proof.Machine

/-- R271's loop over ascending x, `n` bytes of row `r` from byte `x` on; `S = 1 + bpl`. -/
def filterFrom (pred : Nat → Nat → Nat → Nat) (S bpp r : Nat) : (n x : Nat) → List Byte → List Byte
  | 0, _, out => out
  | n + 1, x, out =>
    filterFrom pred S bpp r n (x + 1)
      (out.set (r * S + 1 + x)
        (BitVec.ofNat 8 ((byteAt out (r * S + 1 + x)).toNat
          + pred (leftByte out S bpp r x) (upByte out S r x) (upLeftByte out S bpp r x))))

/-- `defilter_row` with one predictor (R271); the expansion of the row follows (R178). -/
def filterRow (pred : Nat → Nat → Nat → Nat) (s : State) : Out :=
  if !s.haveIhdr then .fault .headerNotValid
  else if s.out.length < (s.job.row + 1) * (1 + s.job.bpl) then .fault .rowOutOfRange
  else
    .next { s with
      out := filterFrom pred (1 + s.job.bpl) s.hdr.bytespp s.job.row s.job.bpl 0 s.out, phase := .pixels }

/-- F_NONE (R272). -/
def execFNone (s : State) : Out := filterRow predNone s

/-- F_SUB (R273). -/
def execFSub (s : State) : Out := filterRow predSub s

/-- F_UP (R274). -/
def execFUp (s : State) : Out := filterRow predUp s

/-- F_AVG (R275). -/
def execFAvg (s : State) : Out := filterRow predAvg s

/-- F_PAETH (R276). -/
def execFPaeth (s : State) : Out := filterRow predPaeth s

/-- F_ILLEGAL (R277): raised before a byte of the row is changed (R271). -/
def execFIllegal (_type : Byte) (s : State) : Out := raise .unsupportedFeature s

end Sys2Proof.Machine
end

