-- ==== Sys2Proof/Machine/StreamReader.lean ====
section
/-! DEFINITION. The reader micro-operations as elements (spec/40_stream_reader R131 to R139). A value returned goes
to `res` (log 10). The byte operations presume bit position 0 (R132 to R134; log 11); on `src` the bit position is
the constant 0 (R130). -/

namespace Sys2Proof.Machine

/-- A byte-granular read: the cursor moves past it and the value is returned; where bytes are missing nothing is
consumed (R131, R132 to R134, R136). -/
def byteOp {α : Type} (r : Reader) (read : Cur → Except Reject (α × Cur)) (res : α → ReadResult) (s : State) : Out :=
  if (s.cur r).bit ≠ 0 then .fault .readerNotAligned
  else
    match read (s.cur r) with
    | .error e => rejected e s
    | .ok (v, c) => .next { s.putCur r c with res := some (res v) }

/-- R131. -/
def execNeed (r : Reader) (k : Nat) (s : State) : Out :=
  if (s.cur r).has k then .next s else raise .unexpectedEof s

/-- R132. -/
def execReadU8 (r : Reader) (s : State) : Out := byteOp r Cur.readU8 (fun v => .num v.toNat) s

/-- R133. -/
def execReadU16be (r : Reader) (s : State) : Out := byteOp r Cur.readU16be (fun v => .num v.toNat) s

/-- R134. -/
def execReadU32be (r : Reader) (s : State) : Out := byteOp r Cur.readU32be (fun v => .num v.toNat) s

/-- R135. -/
def execSkip (r : Reader) (k : Nat) (s : State) : Out :=
  match (s.cur r).skip k with
  | .error e => rejected e s
  | .ok c => .next (s.putCur r c)

/-- R136. -/
def execReadType (r : Reader) (s : State) : Out := byteOp r Cur.readType ReadResult.type s

/-- R137, defined for `pay` only. -/
def execReadBit (s : State) : Out :=
  match (s.cur .pay).readBit with
  | .error e => rejected e s
  | .ok (v, c) => .next { s.putCur .pay c with res := some (.num v.toNat) }

/-- R138; where the buffer ends part-way the bits read before are not consumed, which is unobservable (R138). -/
def execReadBits (n : Nat) (s : State) : Out :=
  withBits n s fun v s1 => .next { s1 with res := some (.num v) }

/-- R139. -/
def execAlignToByte (r : Reader) (s : State) : Out := .next (s.putCur r (s.cur r).align)

end Sys2Proof.Machine
end

