-- ==== Sys2Proof/Machine/Dispatch.lean ====
section
/-! DEFINITION. One arm per element of the opcode table. -/

namespace Sys2Proof.Machine

def exec (i : Instr) (s : State) : Host.Outcome State Fault Refusal :=
  match i with
  | .need r k => Sys2Proof.Machine.execNeed r k s
  | .readU8 r => Sys2Proof.Machine.execReadU8 r s
  | .readU16be r => Sys2Proof.Machine.execReadU16be r s
  | .readU32be r => Sys2Proof.Machine.execReadU32be r s
  | .skip r k => Sys2Proof.Machine.execSkip r k s
  | .readType r => Sys2Proof.Machine.execReadType r s
  | .readBit => Sys2Proof.Machine.execReadBit s
  | .readBits n => Sys2Proof.Machine.execReadBits n s
  | .alignToByte r => Sys2Proof.Machine.execAlignToByte r s
  | .sig rest => Sys2Proof.Machine.execSig rest s
  | .notPng byte0 => Sys2Proof.Machine.execNotPng byte0 s
  | .ihdr data crc => Sys2Proof.Machine.execIhdr data crc s
  | .plte data crc => Sys2Proof.Machine.execPlte data crc s
  | .trns data crc => Sys2Proof.Machine.execTrns data crc s
  | .bkgd data crc => Sys2Proof.Machine.execBkgd data crc s
  | .gama data crc => Sys2Proof.Machine.execGama data crc s
  | .idat data crc => Sys2Proof.Machine.execIdat data crc s
  | .actl data crc => Sys2Proof.Machine.execActl data crc s
  | .fctl data crc => Sys2Proof.Machine.execFctl data crc s
  | .fdat data crc => Sys2Proof.Machine.execFdat data crc s
  | .iend data crc => Sys2Proof.Machine.execIend data crc s
  | .chunkUnknown type data crc => Sys2Proof.Machine.execChunkUnknown type data crc s
  | .zhdr bytes => Sys2Proof.Machine.execZhdr bytes s
  | .blkStored final => Sys2Proof.Machine.execBlkStored final s
  | .blkStatic final => Sys2Proof.Machine.execBlkStatic final s
  | .blkDynamic final => Sys2Proof.Machine.execBlkDynamic final s
  | .blkReserved final => Sys2Proof.Machine.execBlkReserved final s
  | .storedBody len nlen => Sys2Proof.Machine.execStoredBody len nlen s
  | .dynHdr hlit hdist hclen clLens => Sys2Proof.Machine.execDynHdr hlit hdist hclen clLens s
  | .cl0 => Sys2Proof.Machine.execCl0 s
  | .cl1 => Sys2Proof.Machine.execCl1 s
  | .cl2 => Sys2Proof.Machine.execCl2 s
  | .cl3 => Sys2Proof.Machine.execCl3 s
  | .cl4 => Sys2Proof.Machine.execCl4 s
  | .cl5 => Sys2Proof.Machine.execCl5 s
  | .cl6 => Sys2Proof.Machine.execCl6 s
  | .cl7 => Sys2Proof.Machine.execCl7 s
  | .cl8 => Sys2Proof.Machine.execCl8 s
  | .cl9 => Sys2Proof.Machine.execCl9 s
  | .cl10 => Sys2Proof.Machine.execCl10 s
  | .cl11 => Sys2Proof.Machine.execCl11 s
  | .cl12 => Sys2Proof.Machine.execCl12 s
  | .cl13 => Sys2Proof.Machine.execCl13 s
  | .cl14 => Sys2Proof.Machine.execCl14 s
  | .cl15 => Sys2Proof.Machine.execCl15 s
  | .cl16 => Sys2Proof.Machine.execCl16 s
  | .cl17 => Sys2Proof.Machine.execCl17 s
  | .cl18 => Sys2Proof.Machine.execCl18 s
  | .lit b => Sys2Proof.Machine.execLit b s
  | .eob => Sys2Proof.Machine.execEob s
  | .len257 => Sys2Proof.Machine.execLen257 s
  | .len258 => Sys2Proof.Machine.execLen258 s
  | .len259 => Sys2Proof.Machine.execLen259 s
  | .len260 => Sys2Proof.Machine.execLen260 s
  | .len261 => Sys2Proof.Machine.execLen261 s
  | .len262 => Sys2Proof.Machine.execLen262 s
  | .len263 => Sys2Proof.Machine.execLen263 s
  | .len264 => Sys2Proof.Machine.execLen264 s
  | .len265 => Sys2Proof.Machine.execLen265 s
  | .len266 => Sys2Proof.Machine.execLen266 s
  | .len267 => Sys2Proof.Machine.execLen267 s
  | .len268 => Sys2Proof.Machine.execLen268 s
  | .len269 => Sys2Proof.Machine.execLen269 s
  | .len270 => Sys2Proof.Machine.execLen270 s
  | .len271 => Sys2Proof.Machine.execLen271 s
  | .len272 => Sys2Proof.Machine.execLen272 s
  | .len273 => Sys2Proof.Machine.execLen273 s
  | .len274 => Sys2Proof.Machine.execLen274 s
  | .len275 => Sys2Proof.Machine.execLen275 s
  | .len276 => Sys2Proof.Machine.execLen276 s
  | .len277 => Sys2Proof.Machine.execLen277 s
  | .len278 => Sys2Proof.Machine.execLen278 s
  | .len279 => Sys2Proof.Machine.execLen279 s
  | .len280 => Sys2Proof.Machine.execLen280 s
  | .len281 => Sys2Proof.Machine.execLen281 s
  | .len282 => Sys2Proof.Machine.execLen282 s
  | .len283 => Sys2Proof.Machine.execLen283 s
  | .len284 => Sys2Proof.Machine.execLen284 s
  | .len285 => Sys2Proof.Machine.execLen285 s
  | .len286 => Sys2Proof.Machine.execLen286 s
  | .len287 => Sys2Proof.Machine.execLen287 s
  | .dist0 => Sys2Proof.Machine.execDist0 s
  | .dist1 => Sys2Proof.Machine.execDist1 s
  | .dist2 => Sys2Proof.Machine.execDist2 s
  | .dist3 => Sys2Proof.Machine.execDist3 s
  | .dist4 => Sys2Proof.Machine.execDist4 s
  | .dist5 => Sys2Proof.Machine.execDist5 s
  | .dist6 => Sys2Proof.Machine.execDist6 s
  | .dist7 => Sys2Proof.Machine.execDist7 s
  | .dist8 => Sys2Proof.Machine.execDist8 s
  | .dist9 => Sys2Proof.Machine.execDist9 s
  | .dist10 => Sys2Proof.Machine.execDist10 s
  | .dist11 => Sys2Proof.Machine.execDist11 s
  | .dist12 => Sys2Proof.Machine.execDist12 s
  | .dist13 => Sys2Proof.Machine.execDist13 s
  | .dist14 => Sys2Proof.Machine.execDist14 s
  | .dist15 => Sys2Proof.Machine.execDist15 s
  | .dist16 => Sys2Proof.Machine.execDist16 s
  | .dist17 => Sys2Proof.Machine.execDist17 s
  | .dist18 => Sys2Proof.Machine.execDist18 s
  | .dist19 => Sys2Proof.Machine.execDist19 s
  | .dist20 => Sys2Proof.Machine.execDist20 s
  | .dist21 => Sys2Proof.Machine.execDist21 s
  | .dist22 => Sys2Proof.Machine.execDist22 s
  | .dist23 => Sys2Proof.Machine.execDist23 s
  | .dist24 => Sys2Proof.Machine.execDist24 s
  | .dist25 => Sys2Proof.Machine.execDist25 s
  | .dist26 => Sys2Proof.Machine.execDist26 s
  | .dist27 => Sys2Proof.Machine.execDist27 s
  | .dist28 => Sys2Proof.Machine.execDist28 s
  | .dist29 => Sys2Proof.Machine.execDist29 s
  | .dist30 => Sys2Proof.Machine.execDist30 s
  | .dist31 => Sys2Proof.Machine.execDist31 s
  | .matchCopy length distance => Sys2Proof.Machine.execMatchCopy length distance s
  | .fNone => Sys2Proof.Machine.execFNone s
  | .fSub => Sys2Proof.Machine.execFSub s
  | .fUp => Sys2Proof.Machine.execFUp s
  | .fAvg => Sys2Proof.Machine.execFAvg s
  | .fPaeth => Sys2Proof.Machine.execFPaeth s
  | .fIllegal type => Sys2Proof.Machine.execFIllegal type s
  | .g1 => Sys2Proof.Machine.execG1 s
  | .g2 => Sys2Proof.Machine.execG2 s
  | .g4 => Sys2Proof.Machine.execG4 s
  | .g8 => Sys2Proof.Machine.execG8 s
  | .g16 => Sys2Proof.Machine.execG16 s
  | .rgb8 => Sys2Proof.Machine.execRgb8 s
  | .rgb16 => Sys2Proof.Machine.execRgb16 s
  | .p1 => Sys2Proof.Machine.execP1 s
  | .p2 => Sys2Proof.Machine.execP2 s
  | .p4 => Sys2Proof.Machine.execP4 s
  | .p8 => Sys2Proof.Machine.execP8 s
  | .ga8 => Sys2Proof.Machine.execGa8 s
  | .ga16 => Sys2Proof.Machine.execGa16 s
  | .rgba8 => Sys2Proof.Machine.execRgba8 s
  | .rgba16 => Sys2Proof.Machine.execRgba16 s
  | .pixfmtIllegal colourType depth => Sys2Proof.Machine.execPixfmtIllegal colourType depth s
  | .dNone => Sys2Proof.Machine.execDNone s
  | .dBackground => Sys2Proof.Machine.execDBackground s
  | .dPrevious => Sys2Proof.Machine.execDPrevious s
  | .bSource => Sys2Proof.Machine.execBSource s
  | .bOver => Sys2Proof.Machine.execBOver s
  | .dIllegal code => Sys2Proof.Machine.execDIllegal code s
  | .bIllegal code => Sys2Proof.Machine.execBIllegal code s

end Sys2Proof.Machine
end

