-- ==== Sys2Proof/Machine/HostPort.lean ====
section
/-! DEFINITION. The host's side of the interface (spec/10_state R21 to R24, spec/70_reset_and_hazards R420 to R433):
register writes and reads, stores to external memory, the allocator's oracle and reset. -/

namespace Sys2Proof.Machine

/-- A host write of a register (R21, R23): CTRL launches, or does nothing while BUSY or with START = 0 (R23, V6); RO
registers ignore writes (R21); a write of any register but CTRL while BUSY is outside the spec (R428, V5; logs 6, 21). -/
def hostWrite (r : HostReg) (v : Word) (s : State) : Out :=
  match r with
  | .ctrl => if v.getLsbD 0 ∧ s.runState ≠ .busy then launch s else .next s
  | _ => if s.runState = .busy then .refused .hostWriteWhileBusy else .next (regWrite s r v)

/-- A host read of a register (R21, V7). -/
def hostRead (r : HostReg) (s : State) : Out :=
  if HostReg.isConfig r ∧ s.runState = .busy then .refused .hostReadWhileBusy
  else .next { s with hostRd := regRead s r }

/-- Whether an address is a source byte or a canvas byte of the running launch (R428, R81). -/
def launchMemory (s : State) (a : Nat) : Bool :=
  (decide (s.cap.srcBase.toNat ≤ a) && decide (a < s.cap.srcBase.toNat + s.cap.srcLen.toNat))
  || (decide (s.cap.canvasBase.toNat ≤ a)
      && decide (a < s.cap.canvasBase.toNat + s.cap.canvasH.toNat * s.cap.canvasStride.toNat))

/-- A host store of one byte (R431, R432); into the source or the canvas while BUSY it is outside the spec (R428). -/
def hostStore (a : Nat) (b : Byte) (s : State) : Out :=
  if s.runState = .busy ∧ launchMemory s a then .refused .hostStoreWhileBusy
  else .next { s with mem := Memory.write s.mem a b }

end Sys2Proof.Machine
end

