-- ==== Sys2Proof/Machine/Orchestrator.lean ====
section
/-! DEFINITION. The rules between the elements: end_of_walk (spec/41_chunk_parser R180), the dynamic trees (R211), the
frame pipeline around the rows (R178), placement, the animation loop, Hold and completion (spec/46_compositor R330 to
R336, R345, R346, R352). -/

namespace Sys2Proof.Machine

/-- The rules that are no element of a stream. -/
inductive Act where
  /-- R180 -/
  | endOfWalk
  /-- R211 -/
  | buildTrees
  /-- the length test and the pixel buffer of R178 -/
  | afterInflate
  /-- the end of R178, then the rest of R176 -/
  | storeFrame
  /-- R334 -/
  | place
  /-- R345 before its loops -/
  | animate
  /-- R345's loop tests, and the start of R346 -/
  | loop
  /-- R346, R352 -/
  | hold
  /-- R345, the next FIDX -/
  | nextFrame
  /-- R332 -/
  | complete
deriving DecidableEq, Repr

/-- `end_of_walk()` (R180); placement follows (R330). -/
def endOfWalk (s : State) : Out :=
  if s.animated ∧ s.framesDone ≠ s.numFrames.toNat then raise .invalidLength s
  else if s.animated = false ∧ s.framesDone ≠ 1 then raise .invalidLength s
  else .next { s with phase := .place }

/-- After `inflate()` (R178): the length test, then the pixel buffer. -/
def afterInflate (s : State) : Out :=
  if s.out.length < s.job.h.toNat * (1 + s.job.bpl) then raise .invalidLength s
  else
    alloc (s.job.w.toNat * s.job.h.toNat) s fun s1 =>
      .next { s1 with job := { s1.job with row := 0, pix := [] }, phase := .rows }

/-- The Frame of a finished decode (R178, R38). -/
def jobFrame (s : State) : Frame where
  w := s.job.w
  h := s.job.h
  x := s.job.x
  y := s.job.y
  bytespp := s.hdr.bytespp
  bytespl := s.job.bpl
  delay := s.job.delay
  dispose := s.job.dispose
  blend := s.job.blend
  pix := s.job.pix

/-- The end of `decode_frame` (R178), then of `finish_frame` (R176). FRAMES_OUT is a copy of FRAMES_DONE in 32 bits
(R21, log 23). -/
def storeFrame (s : State) : Out :=
  if !s.haveIhdr then .fault .headerNotValid
  else
    afterFinish s.job.resume
      { s with
        frames := s.frames ++ [jobFrame s], framesDone := s.framesDone + 1
        framesOut := BitVec.ofNat 32 (s.framesDone + 1), out := [] }

/-- One coordinate of `place()` as a signed integer (R334, parameter NEG_PLACEMENT). -/
def origin (n : NegPlacement) (coordinate : Word) (canvasExtent imageExtent : Nat) : Int :=
  if 0 ≤ coordinate.toInt then coordinate.toInt
  else
    match n with
    | .nearEdge => (canvasExtent : Int) + coordinate.toInt
    | .farEdge => (canvasExtent : Int) - imageExtent + coordinate.toInt

/-- `place()` (R334); painting follows (R330). -/
def place (s : State) : Out :=
  if !s.haveIhdr then .fault .headerNotValid
  else
    let ox := origin s.cfg.negPlacement s.cap.x s.cap.canvasW.toNat s.hdr.width.toNat
    let oy := origin s.cfg.negPlacement s.cap.y s.cap.canvasH.toNat s.hdr.height.toNat
    if ox < 0 ∨ oy < 0 ∨ (s.cap.canvasW.toNat : Int) < ox + s.hdr.width.toNat
        ∨ (s.cap.canvasH.toNat : Int) < oy + s.hdr.height.toNat then raise .invalidLength s
    else
      .next { s with
        ox := ox.toNat, oy := oy.toNat, phase := if s.animated then .animate else .composite }

/-- The start of `animate()` (R345, parameter DEFAULT_PLAYS); NUM_PLAYS is guarded by ANIMATED (R46). -/
def animate (s : State) : Out :=
  if !s.animated then .fault .animationNotValid
  else
    .next { s with
      plays := if s.numPlays.toNat = 0 then s.cfg.defaultPlays else s.numPlays.toNat
      play := 0, fidx := 0, phase := .loop }

/-- The loop tests of `animate()` (R345), and the start of `show` (R346): the snapshot if the effective dispose is
PREVIOUS; NUM_FRAMES is guarded by ANIMATED (R46). -/
def loopTest (s : State) : Out :=
  if !s.animated then .fault .animationNotValid
  else if s.plays ≤ s.play then .next { s with phase := .complete }
  else if s.numFrames.toNat ≤ s.fidx then .next { s with play := s.play + 1, fidx := 0 }
  else
    match s.frames[s.fidx]? with
    | none => .fault .noSuchFrame
    | some f => if effDispose s f = 2 then takeSnapshot s else .next { s with phase := .composite }

/-- `emit Hold(f.DELAY)` (R346, R352): the pair of the delay and the canvas contents. -/
def hold (s : State) : Out :=
  match s.frames[frameIndex s]? with
  | none => .fault .noSuchFrame
  | some f => .next { s with trace := s.trace ++ [.hold f.delay (canvasPixels s)], phase := .dispose }

/-- The end of a pass of the inner loop (R345). -/
def nextFrame (s : State) : Out := .next { s with fidx := s.fidx + 1, phase := .loop }

/-- `complete()` (R332). -/
def complete (s : State) : Out := .next { release s with runState := .done }

/-- The rule an action stands for. -/
def runAct (a : Act) (s : State) : Out :=
  match a with
  | .endOfWalk => endOfWalk s
  | .buildTrees => buildTrees s
  | .afterInflate => afterInflate s
  | .storeFrame => storeFrame s
  | .place => place s
  | .animate => animate s
  | .loop => loopTest s
  | .hold => hold s
  | .nextFrame => nextFrame s
  | .complete => complete s

end Sys2Proof.Machine
end

