-- ==== Sys2Proof/Machine/Cycle.lean ====
section
/-! DEFINITION. One step of the core: which element or rule comes next (the order of spec/46_compositor R330 and of
spec/41_chunk_parser R150, R178, spec/43_inflate R230, R236), and one act of the host port. -/

namespace Sys2Proof.Machine

/-- What comes next: an element, with the cursor past it; a rule that is no element; a rejection of the decoder; a
stop in a state no launch reaches; or nothing. -/
inductive Fetch where
  | element (i : Instr) (s : State)
  | act (a : Act)
  | reject (r : Reject)
  | stop (f : Fault)
  | nothing
deriving DecidableEq, Repr

/-- Decode at a reader's cursor and move it past the element (R28). -/
def fetchAt (r : Reader) (lv : Level) (s : State) : Fetch :=
  match decode lv (s.cur r) with
  | .error e => .reject e
  | .ok (i, c) => .element i (s.putCur r c)

/-- The filter byte of the current row, or the end of the row loop (R178, R271). -/
def fetchRow (s : State) : Fetch :=
  if s.job.h.toNat ≤ s.job.row then .act .storeFrame
  else
    match decode .scanline ⟨s.out, s.job.row * (1 + s.job.bpl), 0⟩ with
    | .error _ => .stop .rowOutOfRange
    | .ok (i, _) => .element i s

/-- The reader and the level at which the next element is decoded, where it is decoded from a stream (R90, R130). -/
def streamLevel (s : State) : Option (Reader × Level) :=
  match s.phase with
  | .signature => some (.src, .signature)
  | .walk =>
    if s.seenIend = false ∧ s.cp < s.cap.srcLen.toNat then some (.src, .chunk s.cfg.maxChunkLen s.cfg.fdatType)
    else none
  | .zhdr => some (.pay, .zhdr s.cfg.zlibHdrSkip)
  | .block => some (.pay, .blkHdr)
  | .storedBody => some (.pay, .stored)
  | .dynHdr => some (.pay, .dynHdr)
  | .codeLens => if s.li < s.hlit + s.hdist then some (.pay, .sym .cl s.tCl) else none
  | .litLen => some (.pay, .sym .litlen s.tLit)
  | .dist => some (.pay, .sym .dist s.tDist)
  | _ => none

/-- What comes next in a phase whose element is not decoded from a stream: an element selected by state, or a rule
that is no element. -/
def fetchOther (s : State) : Fetch :=
  match s.phase with
  | .idle => .nothing
  | .signature => .nothing
  | .walk => .act .endOfWalk
  | .zhdr => .nothing
  | .block => .nothing
  | .storedBody => .nothing
  | .dynHdr => .nothing
  | .codeLens => .act .buildTrees
  | .litLen => .nothing
  | .dist => .nothing
  | .copy => .element (.matchCopy s.mlen s.mdist) s
  | .inflated => .act .afterInflate
  | .rows => fetchRow s
  | .pixels =>
    if s.haveIhdr then .element (decodeFormat s.hdr.ctype s.hdr.depth) s else .stop .headerNotValid
  | .place => .act .place
  | .animate => .act .animate
  | .loop => .act .loop
  | .composite =>
    match s.frames[frameIndex s]? with
    | none => .stop .noSuchFrame
    | some f => .element (decodeBlend f.blend) s
  | .hold => .act .hold
  | .dispose =>
    if !s.animated then .stop .animationNotValid
    else
      match s.frames[frameIndex s]? with
      | none => .stop .noSuchFrame
      | some f => .element (decodeDispose (effDispose s f)) s
  | .nextFrame => .act .nextFrame
  | .complete => .act .complete

/-- What comes next. -/
def fetch (s : State) : Fetch :=
  match streamLevel s with
  | some (r, lv) => fetchAt r lv s
  | none => fetchOther s

/-- One step of the core. Nothing executes unless a launch is running (R422). -/
def coreStep (s : State) : Out :=
  match s.runState with
  | .busy =>
    match fetch s with
    | .element i s1 => exec i s1
    | .act a => runAct a s
    | .reject r => rejected r s
    | .stop f => .fault f
    | .nothing => .next s
  | .idle => .next s
  | .done => .next s
  | .error => .next s

/-- One act of the host's script (log 7). -/
def hostStep (op : HostOp) (s : State) : Out :=
  match op with
  | .pass => coreStep s
  | .writeReg r v => hostWrite r v s
  | .readReg r => hostRead r s
  | .store a b => hostStore a b s
  | .oracle denied => .next { s with allocDenied := denied }
  | .reset => .next (platformReset s)

/-- Place the bytes of one element, at a level, where the machine fetches next (log 17). -/
def placeElement (lv : Level) (bytes : List Byte) (s : State) : State :=
  let t := { s with hostQ := [], runState := .busy }
  match lv with
  | .signature =>
    { t with
      mem := Memory.writeList t.mem t.cap.srcBase.toNat bytes
      cap := { t.cap with srcLen := BitVec.ofNat 32 bytes.length }, cp := 0, phase := .signature }
  | .chunk _ _ =>
    { t with
      mem := Memory.writeList t.mem t.cap.srcBase.toNat bytes
      cap := { t.cap with srcLen := BitVec.ofNat 32 bytes.length }, cp := 0, seenIend := false, phase := .walk }
  | .scanline =>
    { t with
      haveIhdr := true, hdr := mkHeader 1 1 8 0 0 0 0
      job := ⟨1, 1, 0, 0, 0, 0, 0, 1, 0, [], .iend⟩, out := bytes ++ [0], phase := .rows }
  | _ => { t with acc := bytes, ip := 0, ib := 0, phase := .zhdr }

end Sys2Proof.Machine
end

