-- ==== Sys2Proof/Machine/Step.lean ====
section
/-! DEFINITION. The step of the machine, and the placing of one word of the opcode table where it is fetched next. -/

namespace Sys2Proof.Machine

/-- One step: the next act of the host's script, or, when the script is at its end, a step of the core (log 7). -/
def step (s : State) : Host.Outcome State Fault Refusal :=
  match s.hostQ with
  | [] => coreStep s
  | op :: rest => hostStep op { s with hostQ := rest }

/-- `s` with the element of a table word placed where `step` fetches it next (log 17). -/
def State.withFetchWord (s : State) (nbits w : Nat) : State :=
  match tableElement nbits w with
  | none => s
  | some (lv, bytes) => placeElement lv bytes s

end Sys2Proof.Machine
end

