-- ==== Sys2Proof/Safety.lean ====
section
/-! DEFINITION. What a safe run is: no step of it faults; and the invariant of the machine, `State.Inv`, in the spec's
own terms: the registers' ranges (spec/10_state R26, R27, R31, R35 to R40), the premises of a launch (R69, R81), the
frame table (R38, R170), and what each point of the pseudocode may rely on (R178, R280, R330, R345). -/

namespace Sys2Proof.Machine

/-- A step is safe when the machine does not stop with a fault. -/
def SafeStep (s : State) : Prop := ∀ f, step s ≠ .fault f

/-- Every leaf of a tree carries a symbol below `n` (R202 to R204, R206). -/
def Tree.symbolsBelow (n : Nat) : Tree → Bool
  | .absent => true
  | .leaf l => decide (l.symbol < n)
  | .node left right => Tree.symbolsBelow n left && Tree.symbolsBelow n right

/-- A header IHDR has accepted: a legal format, dimensions in range, derived fields as R31 gives them (R158). -/
structure HeaderOk (c : Config) (h : Header) : Prop where
  format : legalFormat h.ctype h.depth = true
  width : 1 ≤ h.width.toNat ∧ h.width.toNat ≤ c.maxDim
  height : 1 ≤ h.height.toNat ∧ h.height.toNat ≤ c.maxDim
  methods : h.comp = 0 ∧ h.filt = 0 ∧ h.ilace = 0
  derived : h = mkHeader h.width h.height h.depth h.ctype h.comp h.filt h.ilace

/-- A rectangle inside the image, of at least one pixel (R170). -/
def inImage (hd : Header) (w h x y : Word) : Prop :=
  1 ≤ w.toNat ∧ 1 ≤ h.toNat ∧ x.toNat + w.toNat ≤ hd.width.toNat ∧ y.toNat + h.toNat ≤ hd.height.toNat

/-- The two operation codes of a frame are legal (R170). -/
def legalOps (dispose blend : Byte) : Prop := dispose.toNat ≤ 2 ∧ blend.toNat ≤ 1

/-- A stored frame (R38). -/
structure FrameOk (hd : Header) (f : Frame) : Prop where
  inside : inImage hd f.w f.h f.x f.y
  ops : legalOps f.dispose f.blend
  whole : f.pix.length = f.w.toNat * f.h.toNat

/-- A frame is being decoded (R178): its arguments, and the payload cursor inside ACC (R27). -/
structure JobOk (s : State) : Prop where
  header : s.haveIhdr = true
  inside : inImage s.hdr s.job.w s.job.h s.job.x s.job.y
  ops : legalOps s.job.dispose s.job.blend
  bpl : s.job.bpl = bytesPl s.hdr.bpp s.job.w.toNat
  cursor : 8 * s.ip + s.ib ≤ 8 * s.acc.length
  resumed : ∀ f, s.job.resume = .fctl f → s.animated = true

/-- The row loop of R178: enough output, and the pixels of the rows done. -/
structure RowsOk (s : State) : Prop where
  job : JobOk s
  output : s.job.h.toNat * (1 + s.job.bpl) ≤ s.out.length
  row : s.job.row ≤ s.job.h.toNat
  pixels : s.job.pix.length = s.job.row * s.job.w.toNat

/-- The walk has ended with a whole frame table (R180). -/
structure TableOk (s : State) : Prop where
  header : s.haveIhdr = true
  count : s.framesDone = if s.animated then s.numFrames.toNat else 1

/-- Inside animate's loops (R345), the image placed (R334). -/
structure LoopOk (s : State) : Prop where
  table : TableOk s
  animated : s.animated = true
  placed : imageOnCanvas s = true

/-- A frame is being painted (R336, R346): it exists, the image is placed, and the snapshot that a PREVIOUS disposal
restores is there (R348). -/
structure PaintOk (s : State) : Prop where
  table : TableOk s
  placed : imageOnCanvas s = true
  current : frameIndex s < s.framesDone
  snapshot : s.animated = true → ∀ f, s.frames[s.fidx]? = some f → effDispose s f = 2 →
    s.snap.length = f.w.toNat * f.h.toNat

/-- What holds at each point of the pseudocode. -/
def PhaseOk (s : State) : Prop :=
  match s.phase with
  | .idle => False
  | .signature => True
  | .walk => True
  | .zhdr => JobOk s ∧ s.ip = 0 ∧ s.ib = 0
  | .block => JobOk s
  | .storedBody => JobOk s
  | .dynHdr => JobOk s
  | .codeLens => JobOk s ∧ s.hlit ≤ 288 ∧ s.hdist ≤ 32
  | .litLen => JobOk s
  | .dist => JobOk s
  | .copy => JobOk s ∧ 1 ≤ s.mdist
  | .inflated => JobOk s
  | .rows => RowsOk s
  | .pixels => RowsOk s ∧ s.job.row < s.job.h.toNat
  | .place => TableOk s
  | .animate => LoopOk s
  | .loop => LoopOk s
  | .composite => PaintOk s
  | .hold => PaintOk s ∧ s.animated = true
  | .dispose => PaintOk s ∧ s.animated = true
  | .nextFrame => LoopOk s
  | .complete => True

/-- What holds of the decode context while a launch runs. -/
structure ContextOk (s : State) : Prop where
  /-- R69, R81: the host duties a launch presumes -/
  premises : canvasGeometryOk s.cap = true ∧ sourceCanvasDisjoint s.cap = true
  /-- R26 -/
  cursor : s.cp ≤ s.cap.srcLen.toNat
  /-- R381: 0 while a launch is running -/
  noError : s.errcode = 0
  /-- R22: ANIM is a copy of ANIMATED -/
  animFlag : s.anim = s.animated
  /-- R30, R31, R158 -/
  header : s.haveIhdr = true → HeaderOk s.cfg s.hdr
  /-- R154, R176: nothing is pending and no frame is stored before the header -/
  headerFirst : s.haveIhdr = false →
    s.animated = false ∧ s.fctlValid = false ∧ s.acc = [] ∧ s.framesDone = 0
  /-- R36, R170 -/
  pending : s.fctlValid = true → inImage s.hdr s.fW s.fH s.fX s.fY ∧ legalOps s.fDispose s.fBlend
  /-- R38, R21 -/
  table : s.frames.length = s.framesDone ∧ s.framesOut = BitVec.ofNat 32 s.framesDone
  frames : ∀ f ∈ s.frames, FrameOk s.hdr f
  /-- R170: no more fcTL than acTL announced -/
  announced : s.animated = true → s.fctlSeen ≤ s.numFrames.toNat
  /-- R170, R176: without acTL no fcTL is accepted -/
  still : s.animated = false → s.fctlSeen = 0 ∧ s.fctlValid = false
  /-- R39 -/
  trees : Tree.symbolsBelow 19 s.tCl.root = true ∧ Tree.symbolsBelow 288 s.tLit.root = true
    ∧ Tree.symbolsBelow 32 s.tDist.root = true

/-- What holds while a launch runs. -/
structure LaunchOk (s : State) : Prop where
  context : ContextOk s
  point : PhaseOk s

/-- The invariant of the machine. -/
structure State.Inv (s : State) : Prop where
  /-- R7: the parameters are legal -/
  params : Config.legal s.cfg = true
  /-- the canonical form of memory -/
  memory : Memory.wf s.mem = true
  /-- R35, R40: the sizes of the register arrays, PAL_N at most 256 -/
  arrays : s.pal.length = 256 ∧ s.palN ≤ 256 ∧ s.cllen.length = 19 ∧ s.lens.length = 320
  /-- R27: IB is 0 to 7 -/
  bit : s.ib < 8
  /-- R22, R422: something is due exactly while a launch is running -/
  busy : s.runState = .busy ↔ s.phase ≠ .idle
  launch : s.runState = .busy → LaunchOk s

end Sys2Proof.Machine
end

