-- ==== Sys2Proof/WellFormed.lean ====
section
/-! DEFINITION. Which elements are well formed: the operand ranges of spec/30_encoding, 40_stream_reader R138 and
43_inflate R240. The "illegal" and "unknown" elements are well formed exactly when no other element has their
encoding. -/

namespace Sys2Proof

/-- The type codes of R93, with FDAT_TYPE. -/
def knownTypes (c : Config) : List Word :=
  [0x49484452, 0x504C5445, 0x74524E53, 0x624B4744, 0x67414D41, 0x49444154, 0x6163544C, 0x6663544C, c.fdatType,
    0x49454E44]

/-- Well-formedness of an element under the parameters `c`. -/
def Instr.wf (c : Config) : Instr → Bool
  | .readU8 _ => true
  | .readU16be _ => true
  | .readU32be _ => true
  | .readType _ => true
  | .readBit => true
  | .alignToByte _ => true
  | .need _ _ => true
  | .skip _ _ => true
  | .blkStored _ => true
  | .blkStatic _ => true
  | .blkDynamic _ => true
  | .blkReserved _ => true
  | .storedBody _ _ => true
  | .cl0 => true
  | .cl1 => true
  | .cl2 => true
  | .cl3 => true
  | .cl4 => true
  | .cl5 => true
  | .cl6 => true
  | .cl7 => true
  | .cl8 => true
  | .cl9 => true
  | .cl10 => true
  | .cl11 => true
  | .cl12 => true
  | .cl13 => true
  | .cl14 => true
  | .cl15 => true
  | .cl16 => true
  | .cl17 => true
  | .cl18 => true
  | .lit _ => true
  | .eob => true
  | .len257 => true
  | .len258 => true
  | .len259 => true
  | .len260 => true
  | .len261 => true
  | .len262 => true
  | .len263 => true
  | .len264 => true
  | .len265 => true
  | .len266 => true
  | .len267 => true
  | .len268 => true
  | .len269 => true
  | .len270 => true
  | .len271 => true
  | .len272 => true
  | .len273 => true
  | .len274 => true
  | .len275 => true
  | .len276 => true
  | .len277 => true
  | .len278 => true
  | .len279 => true
  | .len280 => true
  | .len281 => true
  | .len282 => true
  | .len283 => true
  | .len284 => true
  | .len285 => true
  | .len286 => true
  | .len287 => true
  | .dist0 => true
  | .dist1 => true
  | .dist2 => true
  | .dist3 => true
  | .dist4 => true
  | .dist5 => true
  | .dist6 => true
  | .dist7 => true
  | .dist8 => true
  | .dist9 => true
  | .dist10 => true
  | .dist11 => true
  | .dist12 => true
  | .dist13 => true
  | .dist14 => true
  | .dist15 => true
  | .dist16 => true
  | .dist17 => true
  | .dist18 => true
  | .dist19 => true
  | .dist20 => true
  | .dist21 => true
  | .dist22 => true
  | .dist23 => true
  | .dist24 => true
  | .dist25 => true
  | .dist26 => true
  | .dist27 => true
  | .dist28 => true
  | .dist29 => true
  | .dist30 => true
  | .dist31 => true
  | .fNone => true
  | .fSub => true
  | .fUp => true
  | .fAvg => true
  | .fPaeth => true
  | .g1 => true
  | .g2 => true
  | .g4 => true
  | .g8 => true
  | .g16 => true
  | .rgb8 => true
  | .rgb16 => true
  | .p1 => true
  | .p2 => true
  | .p4 => true
  | .p8 => true
  | .ga8 => true
  | .ga16 => true
  | .rgba8 => true
  | .rgba16 => true
  | .dNone => true
  | .dBackground => true
  | .dPrevious => true
  | .bSource => true
  | .bOver => true
  | .readBits n => decide (n ≤ 16)
  | .sig rest => decide (rest.length = 7)
  | .notPng b => decide (b ≠ 0x89)
  | .ihdr data _ => decide (data.length ≤ c.maxChunkLen)
  | .plte data _ => decide (data.length ≤ c.maxChunkLen)
  | .trns data _ => decide (data.length ≤ c.maxChunkLen)
  | .bkgd data _ => decide (data.length ≤ c.maxChunkLen)
  | .gama data _ => decide (data.length ≤ c.maxChunkLen)
  | .idat data _ => decide (data.length ≤ c.maxChunkLen)
  | .actl data _ => decide (data.length ≤ c.maxChunkLen)
  | .fctl data _ => decide (data.length ≤ c.maxChunkLen)
  | .fdat data _ => decide (data.length ≤ c.maxChunkLen)
  | .iend data _ => decide (data.length ≤ c.maxChunkLen)
  | .chunkUnknown t data _ => decide (data.length ≤ c.maxChunkLen) && !(knownTypes c).contains t
  | .zhdr bytes => decide (bytes.length = c.zlibHdrSkip)
  | .dynHdr _ _ hc vs => decide (vs.length = hc.toNat + 4)
  | .matchCopy length distance =>
    decide (3 ≤ length) && decide (length ≤ 258) && decide (1 ≤ distance) && decide (distance ≤ 32768)
  | .fIllegal b => decide (5 ≤ b.toNat)
  | .pixfmtIllegal ct d => !legalFormat ct d
  | .dIllegal b => decide (3 ≤ b.toNat)
  | .bIllegal b => decide (2 ≤ b.toNat)

end Sys2Proof
end

