-- ==== Sys2Proof/Certificates/Slice0/Obligations.lean ====
section
/-! DEFINITION. The statements for the provers. The terms they share come first: each is spelled out from the spec's own
words, not taken from the meanings. -/

namespace Sys2Proof.Machine

/-! ## Terms of the statements -/

/-- The core takes this step: a launch is running and the host's script is at its end (R12, R22; log 7). -/
abbrev coreTurn (s : State) : Prop := s.hostQ = [] ∧ s.runState = .busy

/-- ALLOC grants the next `count` requests, each of size `size` (R386). -/
abbrev grants (s : State) (count size : Nat) : Prop := denies s.allocDenied s.allocN count size = false

/-- `s` after `count` more requests to the allocator (R386: requests have ordinal numbers in the launch). -/
def requested (s : State) (count : Nat) : State := { s with allocN := s.allocN + count }

/-- Source byte `i` (R61). -/
def srcByte (s : State) (i : Nat) : Byte := Memory.read s.mem (s.cap.srcBase.toNat + i)

/-- The big-endian 32-bit field at source byte `i` (R62). -/
def srcWord (s : State) (i : Nat) : Word := srcByte s i ++ srcByte s (i + 1) ++ srcByte s (i + 2) ++ srcByte s (i + 3)

/-- Byte `i` from a reader's byte cursor on (R130). -/
def readerByte (s : State) (r : Reader) (i : Nat) : Byte :=
  match r with
  | .src => srcByte s (s.cp + i)
  | .pay => byteAt s.acc (s.ip + i)

/-- A reader has `k` more bytes (R131). -/
def readerHas (s : State) (r : Reader) (k : Nat) : Prop :=
  match r with
  | .src => s.cp + k ≤ s.cap.srcLen.toNat
  | .pay => s.ip + k ≤ s.acc.length

/-- A reader's byte cursor moved `k` bytes on. -/
def readerMoved (s : State) (r : Reader) (k : Nat) : State :=
  match r with
  | .src => { s with cp := s.cp + k }
  | .pay => { s with ip := s.ip + k }

/-- A reader stands at a byte boundary; the bit position of `src` is the constant 0 (R130). -/
def readerAtByte (s : State) (r : Reader) : Prop :=
  match r with
  | .src => True
  | .pay => s.ib = 0

/-- How many bits of ACC the payload cursor has consumed (R27). -/
def payPos (s : State) : Nat := 8 * s.ip + s.ib

/-- Bit `j` of ACC in reading order: bit `j mod 8`, from the least significant, of byte `j div 8` (R63, R137). -/
def payBit (s : State) (j : Nat) : Bool := (byteAt s.acc (j / 8)).getLsbD (j % 8)

/-- `n` more bits are there. -/
abbrev payHas (s : State) (n : Nat) : Prop := payPos s + n ≤ 8 * s.acc.length

/-- The number of the next `n` bits, bit i weighted 2^i (R138). -/
def payBits (s : State) (n : Nat) : Nat :=
  ((List.range n).map fun i => (payBit s (payPos s + i)).toNat * 2 ^ i).sum

/-- The payload cursor moved `n` bits on. -/
def payMoved (s : State) (n : Nat) : State := { s with ip := (payPos s + n) / 8, ib := (payPos s + n) % 8 }

/-- The fifteen legal (colour type, bit depth) pairs (R290). -/
def legalPairs : List (Nat × Nat) :=
  [(0, 1), (0, 2), (0, 4), (0, 8), (0, 16), (2, 8), (2, 16), (3, 1), (3, 2), (3, 4), (3, 8), (4, 8), (4, 16), (6, 8),
    (6, 16)]

/-- H_CHANNELS by colour type (R31). -/
def channelTable : List (Nat × Nat) := [(0, 1), (2, 3), (3, 1), (4, 2), (6, 4)]

/-- `grey8` of a sample below 8 bits, by depth, for both values of GREY_SCALE (R292). -/
def greyTable (g : GreyScale) (d v : Nat) : Byte :=
  match g with
  | .replicate => BitVec.ofNat 8 (v * (if d = 1 then 0xFF else if d = 2 then 0x55 else 0x11))
  | .shift => BitVec.ofNat 8 (v * 2 ^ (8 - d))

/-- `s` with the decode of a frame begun: decode_frame's arguments (R178), and the registers that inflate
re-initialises (R230, R40; the zeros of CLLEN and LENS are the model's choice, log 28). -/
def decodeBegun (s : State) (j : Job) : State :=
  { s with
    job := j, ip := 0, ib := 0, out := [], bfinal := false, btype := 0, hlit := 0, hdist := 0, hclen := 0
    cllen := List.replicate 19 0, lens := List.replicate 320 0
    tLit := ⟨.absent, false, true⟩, tDist := ⟨.absent, false, true⟩, tCl := ⟨.absent, false, true⟩, phase := .zhdr }

/-- `delay_us(num, den)` (R171). -/
def delayOf (num den : Half) : Nat :=
  if den = 0 then 10000 * num.toNat else 1000000 * num.toNat / den.toNat

/-- `s` with its launch ended in STATE `r` (R45): the host-interface registers, memory, the configuration as sampled, the
trace and the environment are those of `s`; every other register has its value after reset (the model's choice of what
is left in a released register, log 13). -/
def launchEnded (s : State) (r : RunState) : State :=
  { State.reset with
    cfg := s.cfg, runState := r, painted := s.painted, anim := s.anim, errcode := s.errcode, framesOut := s.framesOut
    srcBase := s.srcBase, srcLen := s.srcLen, canvasBase := s.canvasBase, canvasStride := s.canvasStride
    canvasW := s.canvasW, canvasH := s.canvasH, cfgBg := s.cfgBg, cfgX := s.cfgX, cfgY := s.cfgY, cap := s.cap
    mem := s.mem, trace := s.trace, allocN := s.allocN, allocDenied := s.allocDenied, hostQ := s.hostQ
    hostRd := s.hostRd, freeN := s.freeN }

/-- What a launch allocated, and the palette and the header, are gone (R45, R332, R390). -/
def nothingHeld (t : State) : Prop :=
  t.acc = [] ∧ t.out = [] ∧ t.snap = [] ∧ t.frames = [] ∧ t.job.pix = [] ∧ t.palN = 0 ∧ t.haveIhdr = false
    ∧ [t.tLit, t.tDist, t.tCl] = List.replicate 3 ⟨.absent, false, true⟩

/-- What fcTL does once no frame is pending (the part of R170 after its call of finish_frame): the three tests in
order, then the latch. -/
def fctlTail (s : State) (f : FctlFields) (r : Out) : Prop :=
  (s.fctlSeen = s.numFrames.toNat → r = .next (trap .invalidLength s)) ∧
  (s.fctlSeen ≠ s.numFrames.toNat →
    (f.w = 0 ∨ f.h = 0 ∨ s.hdr.width.toNat < f.x.toNat + f.w.toNat ∨ s.hdr.height.toNat < f.y.toNat + f.h.toNat →
      r = .next (trap .invalidLength s)) ∧
    (¬(f.w = 0 ∨ f.h = 0 ∨ s.hdr.width.toNat < f.x.toNat + f.w.toNat
        ∨ s.hdr.height.toNat < f.y.toNat + f.h.toNat) →
      (2 < f.dispose.toNat ∨ 1 < f.blend.toNat → r = .next (trap .unsupportedFeature s)) ∧
      (f.dispose.toNat ≤ 2 ∧ f.blend.toNat ≤ 1 →
        r = .next { s with
          fW := f.w, fH := f.h, fX := f.x, fY := f.y, fDelay := delayOf f.num f.den, fDispose := f.dispose
          fBlend := f.blend, fctlValid := true, fctlSeen := s.fctlSeen + 1, phase := .walk })))

/-- The next `n` bits of the payload, in reading order. -/
def nextBits (s : State) (n : Nat) : List Bool := (List.range n).map fun i => payBit s (payPos s + i)

/-- The subtree a bit path leads to: 0 to the left, 1 to the right (R212). -/
def follow : Tree → List Bool → Tree
  | t, [] => t
  | .node l r, b :: bs => follow (if b then r else l) bs
  | _, _ :: _ => .absent

/-- The Kraft inequality for code lengths up to 15 (R215). -/
def kraft (lens : List Nat) : Prop := (lens.map fun l => if l = 0 then 0 else 2 ^ (15 - l)).sum ≤ 2 ^ 15

/-- The static code lengths (R112, R208). -/
def slit : List Nat := List.replicate 144 8 ++ List.replicate 112 9 ++ List.replicate 24 7 ++ List.replicate 8 8
def sdist : List Nat := List.replicate 30 5

/-- The order of the code-length code lengths (R107, R209). -/
def perm : List Nat := [16, 17, 18, 0, 8, 7, 9, 6, 10, 5, 11, 4, 12, 3, 13, 2, 14, 1, 15]

/-- The code-length symbols below 16 (R113). -/
def clTable : List (Instr × Nat) :=
  [(.cl0, 0), (.cl1, 1), (.cl2, 2), (.cl3, 3), (.cl4, 4), (.cl5, 5), (.cl6, 6), (.cl7, 7), (.cl8, 8), (.cl9, 9),
    (.cl10, 10), (.cl11, 11), (.cl12, 12), (.cl13, 13), (.cl14, 14), (.cl15, 15)]

/-- The repeat symbols, with their extra bits and repeat base (R113). -/
def repeatTable : List (Instr × Nat × Nat) := [(.cl16, 2, 3), (.cl17, 3, 3), (.cl18, 7, 11)]

/-- The length symbols, with their extra bits and real values (R110). -/
def lengthTable : List (Instr × Nat × Nat) :=
  [(.len257, 0, 3), (.len258, 0, 4), (.len259, 0, 5), (.len260, 0, 6), (.len261, 0, 7), (.len262, 0, 8),
    (.len263, 0, 9), (.len264, 0, 10), (.len265, 1, 11), (.len266, 1, 13), (.len267, 1, 15), (.len268, 1, 17),
    (.len269, 2, 19), (.len270, 2, 23), (.len271, 2, 27), (.len272, 2, 31), (.len273, 3, 35), (.len274, 3, 43),
    (.len275, 3, 51), (.len276, 3, 59), (.len277, 4, 67), (.len278, 4, 83), (.len279, 4, 99), (.len280, 4, 115),
    (.len281, 5, 131), (.len282, 5, 163), (.len283, 5, 195), (.len284, 5, 227), (.len285, 0, 258)]

/-- The distance symbols, with their extra bits and real values (R111). -/
def distanceTable : List (Instr × Nat × Nat) :=
  [(.dist0, 0, 1), (.dist1, 0, 2), (.dist2, 0, 3), (.dist3, 0, 4), (.dist4, 1, 5), (.dist5, 1, 7), (.dist6, 2, 9),
    (.dist7, 2, 13), (.dist8, 3, 17), (.dist9, 3, 25), (.dist10, 4, 33), (.dist11, 4, 49), (.dist12, 5, 65),
    (.dist13, 5, 97), (.dist14, 6, 129), (.dist15, 6, 193), (.dist16, 7, 257), (.dist17, 7, 385), (.dist18, 8, 513),
    (.dist19, 8, 769), (.dist20, 9, 1025), (.dist21, 9, 1537), (.dist22, 10, 2049), (.dist23, 10, 3073),
    (.dist24, 11, 4097), (.dist25, 11, 6145), (.dist26, 12, 8193), (.dist27, 12, 12289), (.dist28, 13, 16385),
    (.dist29, 13, 24577)]

/-- The code-length symbols by number (R113). -/
def clSymbols : List (Kind × Nat × Instr) :=
  [(.cl, 0, .cl0), (.cl, 1, .cl1), (.cl, 2, .cl2), (.cl, 3, .cl3), (.cl, 4, .cl4), (.cl, 5, .cl5), (.cl, 6, .cl6),
    (.cl, 7, .cl7), (.cl, 8, .cl8), (.cl, 9, .cl9), (.cl, 10, .cl10), (.cl, 11, .cl11), (.cl, 12, .cl12),
    (.cl, 13, .cl13), (.cl, 14, .cl14), (.cl, 15, .cl15), (.cl, 16, .cl16), (.cl, 17, .cl17), (.cl, 18, .cl18)]

/-- The literal/length symbols from 256 on, by number (R109). -/
def litLenSymbols : List (Kind × Nat × Instr) :=
  [(.litlen, 256, .eob), (.litlen, 257, .len257), (.litlen, 258, .len258), (.litlen, 259, .len259),
    (.litlen, 260, .len260), (.litlen, 261, .len261), (.litlen, 262, .len262), (.litlen, 263, .len263),
    (.litlen, 264, .len264), (.litlen, 265, .len265), (.litlen, 266, .len266), (.litlen, 267, .len267),
    (.litlen, 268, .len268), (.litlen, 269, .len269), (.litlen, 270, .len270), (.litlen, 271, .len271),
    (.litlen, 272, .len272), (.litlen, 273, .len273), (.litlen, 274, .len274), (.litlen, 275, .len275),
    (.litlen, 276, .len276), (.litlen, 277, .len277), (.litlen, 278, .len278), (.litlen, 279, .len279),
    (.litlen, 280, .len280), (.litlen, 281, .len281), (.litlen, 282, .len282), (.litlen, 283, .len283),
    (.litlen, 284, .len284), (.litlen, 285, .len285), (.litlen, 286, .len286), (.litlen, 287, .len287)]

/-- The distance symbols by number (R111). -/
def distSymbols : List (Kind × Nat × Instr) :=
  [(.dist, 0, .dist0), (.dist, 1, .dist1), (.dist, 2, .dist2), (.dist, 3, .dist3), (.dist, 4, .dist4),
    (.dist, 5, .dist5), (.dist, 6, .dist6), (.dist, 7, .dist7), (.dist, 8, .dist8), (.dist, 9, .dist9),
    (.dist, 10, .dist10), (.dist, 11, .dist11), (.dist, 12, .dist12), (.dist, 13, .dist13), (.dist, 14, .dist14),
    (.dist, 15, .dist15), (.dist, 16, .dist16), (.dist, 17, .dist17), (.dist, 18, .dist18), (.dist, 19, .dist19),
    (.dist, 20, .dist20), (.dist, 21, .dist21), (.dist, 22, .dist22), (.dist, 23, .dist23), (.dist, 24, .dist24),
    (.dist, 25, .dist25), (.dist, 26, .dist26), (.dist, 27, .dist27), (.dist, 28, .dist28), (.dist, 29, .dist29),
    (.dist, 30, .dist30), (.dist, 31, .dist31)]

/-- The symbols of the three alphabets by number, but for the literals. -/
def symbolTable : List (Kind × Nat × Instr) := clSymbols ++ litLenSymbols ++ distSymbols

/-- Symbol `n` of alphabet `k` is the element `i`; symbols 0 to 255 of the literal/length alphabet are the literal bytes
(R109). -/
def standsFor (k : Kind) (n : Nat) (i : Instr) : Prop :=
  (k, n, i) ∈ symbolTable ∨ (k = .litlen ∧ n < 256 ∧ i = .lit (BitVec.ofNat 8 n))

/-- The Paeth predictor (R276), over integers that do not wrap. -/
def paeth (a b c : Nat) : Nat :=
  let p : Int := (a : Int) + b - c
  if |p - a| ≤ |p - b| ∧ |p - a| ≤ |p - c| then a else if |p - b| ≤ |p - c| then b else c

/-- The filters and their predictors (R272 to R276). -/
def filterTable : List (Instr × (Nat → Nat → Nat → Nat)) :=
  [(.fNone, fun _ _ _ => 0), (.fSub, fun a _ _ => a), (.fUp, fun _ b _ => b), (.fAvg, fun a b _ => (a + b) / 2),
    (.fPaeth, paeth)]

/-- Where the pixel bytes of the current row start in OUT (R270, R291). -/
def rowBase (s : State) : Nat := s.job.row * (1 + s.job.bpl) + 1

/-- The neighbours `a`, `b` and `c` of byte `x` of the current row, in the buffer `out` (R270). -/
def left (s : State) (out : List Byte) (x : Nat) : Nat :=
  if s.hdr.bytespp ≤ x then (byteAt out (rowBase s + x - s.hdr.bytespp)).toNat else 0
def up (s : State) (out : List Byte) (x : Nat) : Nat :=
  if 1 ≤ s.job.row then (byteAt out (rowBase s + x - (1 + s.job.bpl))).toNat else 0
def upLeft (s : State) (out : List Byte) (x : Nat) : Nat :=
  if 1 ≤ s.job.row ∧ s.hdr.bytespp ≤ x then
    (byteAt out (rowBase s + x - (1 + s.job.bpl) - s.hdr.bytespp)).toNat
  else 0

/-- `B(i)`: byte i of the current defiltered row (R291). -/
def rowByte (s : State) (i : Nat) : Byte := byteAt s.out (rowBase s + i)

/-- `sub(x, d)` (R296); at depth 8 it is the byte. -/
def sample (s : State) (d x : Nat) : Nat := (rowByte s (x * d / 8)).toNat / 2 ^ (8 - d - x * d % 8) % 2 ^ d

/-- `v16(i)` (R293). -/
def sample16 (s : State) (i : Nat) : Nat := (rowByte s i).toNat * 256 + (rowByte s (i + 1)).toNat

/-- Alpha under the grey key and under the colour key (R295, R297). -/
def keyAlpha (s : State) (v : Nat) : Byte := if s.keyValid = true ∧ v = s.key0.toNat then 0x00 else 0xFF
def keyAlpha3 (s : State) (r g b : Nat) : Byte :=
  if s.keyValid = true ∧ r = s.key0.toNat ∧ g = s.key1.toNat ∧ b = s.key2.toNat then 0x00 else 0xFF

/-- All bytes of the current row at `bpp` bits a pixel are in OUT (R178's length test). -/
def rowThere (s : State) (bpp : Nat) : Prop := rowBase s + (s.job.w.toNat * bpp + 7) / 8 ≤ s.out.length

/-- The element expands the current row to the pixels `px 0, px 1, …`, left to right, and the next row follows. -/
def expandsTo (i : Instr) (s : State) (px : Nat → Pixel) : Prop :=
  exec i s = .next { s with
    job := { s.job with pix := s.job.pix ++ (List.range s.job.w.toNat).map px, row := s.job.row + 1 }, phase := .rows }

/-- The pixel formats, with their bits per pixel (R300 to R314). -/
def bppTable : List (Instr × Nat) :=
  [(.g1, 1), (.g2, 2), (.g4, 4), (.g8, 8), (.g16, 16), (.rgb8, 24), (.rgb16, 48), (.p1, 1), (.p2, 2), (.p4, 4), (.p8, 8),
    (.ga8, 16), (.ga16, 32), (.rgba8, 32), (.rgba16, 64)]

/-- The channels of a pixel (R341). -/
def alphaOf (p : Pixel) : Byte := p.extractLsb' 24 8
def redOf (p : Pixel) : Byte := p.extractLsb' 16 8
def greenOf (p : Pixel) : Byte := p.extractLsb' 8 8
def blueOf (p : Pixel) : Byte := p.extractLsb' 0 8

/-- `mix` and `blend` (R341). -/
def mixed (f a u : Byte) : Byte := BitVec.ofNat 8 ((f.toNat * a.toNat + u.toNat * (255 - a.toNat)) / 255)
def blended (p u : Pixel) : Pixel :=
  0xFF#8 ++ mixed (redOf p) (alphaOf p) (redOf u) ++ mixed (greenOf p) (alphaOf p) (greenOf u)
    ++ mixed (blueOf p) (alphaOf p) (blueOf u)

/-- The frame being painted (R331, R336), whole (R38), its rectangle inside the canvas (R72), the rows of the canvas
apart (R69), and memory canonical. -/
structure Paints (s : State) (f : Frame) : Prop where
  frame : s.frames[if s.animated then s.fidx else 0]? = some f
  whole : f.pix.length = f.w.toNat * f.h.toNat
  columns : s.ox + f.x.toNat + f.w.toNat ≤ s.cap.canvasW.toNat
  rows : s.oy + f.y.toNat + f.h.toNat ≤ s.cap.canvasH.toNat
  stride : 4 * s.cap.canvasW.toNat ≤ s.cap.canvasStride.toNat
  memory : Memory.wf s.mem = true

/-- The canvas pixel that pixel (i, j) of a frame maps to (R335), and its address (R66). -/
def pixelAt (s t : State) (f : Frame) (i j : Nat) : Pixel := canvasRead t (s.ox + f.x.toNat + i) (s.oy + f.y.toNat + j)
def pixelAddr (s : State) (f : Frame) (i j : Nat) : Nat :=
  s.cap.canvasBase.toNat + (s.oy + f.y.toNat + j) * s.cap.canvasStride.toNat + 4 * (s.ox + f.x.toNat + i)

/-- An address outside the bytes of a frame's rectangle. -/
def outsideFrame (s : State) (f : Frame) (a : Nat) : Prop :=
  ∀ i j, i < f.w.toNat → j < f.h.toNat → ¬(pixelAddr s f i j ≤ a ∧ a < pixelAddr s f i j + 4)

/-- `eff_dispose(FIDX)` for the frame at FIDX (R349). -/
def effective (s : State) (f : Frame) : Byte :=
  if s.fidx + 1 = s.numFrames.toNat then 0 else if s.fidx = 0 ∧ f.dispose = 2 then 1 else f.dispose

/-- `ox` and `oy` of R334 as signed integers that do not wrap, for both values of NEG_PLACEMENT. -/
def originOf (n : NegPlacement) (c canvas image : Word) : Int :=
  if 0 ≤ c.toInt then c.toInt
  else match n with
    | .nearEdge => canvas.toNat + c.toInt
    | .farEdge => canvas.toNat - image.toNat + c.toInt

/-- The error codes (R381). -/
def codeTable : List (ErrKind × BitVec 3) :=
  [(.unexpectedEof, 1), (.invalidLength, 2), (.sequenceMismatch, 3), (.allocationFailure, 4), (.unsupportedFeature, 5)]

/-- The registers 3 to 11 by number, with the value each holds (R21). -/
def configTable (s : State) : List (HostReg × Word) :=
  [(.srcBase, s.srcBase), (.srcLen, s.srcLen), (.canvasBase, s.canvasBase), (.canvasStride, s.canvasStride),
    (.canvasW, s.canvasW), (.canvasH, s.canvasH), (.cfgBg, 0#8 ++ s.cfgBg), (.cfgX, s.cfgX), (.cfgY, s.cfgY)]

/-- The configuration, sampled and unsampled, the parameters and the environment are the same in two states. -/
structure SameConfiguration (s t : State) : Prop where
  registers : configTable t = configTable s
  sampled : t.cap = s.cap
  parameters : t.cfg = s.cfg
  environment : t.allocDenied = s.allocDenied ∧ t.hostQ = s.hostQ ∧ t.hostRd = s.hostRd ∧ t.freeN = s.freeN

/-- The elements that write the canvas (R342, R343, R347, R348). -/
def painters : List Instr := [.bSource, .bOver, .dBackground, .dPrevious]

/-- The source range and the canvas range of a launch share an address; an empty range shares none (R81). -/
def rangesOverlap (s : State) : Prop :=
  ∃ a, s.srcBase.toNat ≤ a ∧ a < s.srcBase.toNat + s.srcLen.toNat ∧ s.canvasBase.toNat ≤ a
    ∧ a < s.canvasBase.toNat + s.canvasH.toNat * s.canvasStride.toNat

/-- A snapshot is due: in animate's loops, before a frame whose effective dispose is PREVIOUS (R345, R348). -/
def snapshotDue (s : State) (f : Frame) : Prop :=
  coreTurn s ∧ s.phase = .loop ∧ s.animated = true ∧ s.play < s.plays ∧ s.fidx < s.numFrames.toNat ∧ effective s f = 2

/-- What visits the rectangle of the current frame `f`, a painter or the snapshot, stops with the fault `e`. -/
def visitStops (s : State) (f : Frame) (e : Fault) : Prop :=
  (∀ i ∈ painters, exec i s = .fault e) ∧ (snapshotDue s f → step s = .fault e)

/-- An address outside the canvas bytes of the image rectangle (R72). -/
def outsideImage (s : State) (a : Nat) : Prop :=
  ∀ x y, s.ox ≤ x → x < s.ox + s.hdr.width.toNat → s.oy ≤ y → y < s.oy + s.hdr.height.toNat →
    ¬(s.cap.canvasBase.toNat + y * s.cap.canvasStride.toNat + 4 * x ≤ a
      ∧ a < s.cap.canvasBase.toNat + y * s.cap.canvasStride.toNat + 4 * x + 4)

end Sys2Proof.Machine

open Sys2Proof Sys2Proof.Machine

/-! ## Stream reader -/

/-- R131, R135, R139: `need` and `skip` compare `pos + k` with the buffer's length and raise UnexpectedEof where bytes are
missing; `skip` moves the byte cursor by k; `align_to_byte` gives up a partly consumed byte and never raises. -/
def Obligations.NeedSkipAlign : Prop :=
  ∀ (s : State) (r : Reader) (k : Nat),
    (readerHas s r k → exec (.need r k) s = .next s ∧ exec (.skip r k) s = .next (readerMoved s r k)) ∧
    (¬readerHas s r k → exec (.need r k) s = .next (trap .unexpectedEof s)
      ∧ exec (.skip r k) s = .next (trap .unexpectedEof s)) ∧
    (readerAtByte s r → exec (.alignToByte r) s = .next s) ∧
    (¬readerAtByte s r → exec (.alignToByte r) s = .next { s with ip := s.ip + 1, ib := 0 })

/-- R132 to R134, R136: at a byte boundary the byte operations return the big-endian value of the next 1, 2 or 4 bytes,
or the four type bytes in stream order, and move past them; where bytes are missing they raise UnexpectedEof. -/
def Obligations.ByteReads : Prop :=
  ∀ (s : State) (r : Reader), readerAtByte s r →
    (readerHas s r 1 → exec (.readU8 r) s
      = .next { readerMoved s r 1 with res := some (.num (readerByte s r 0).toNat) }) ∧
    (readerHas s r 2 → exec (.readU16be r) s
      = .next { readerMoved s r 2 with
          res := some (.num (256 * (readerByte s r 0).toNat + (readerByte s r 1).toNat)) }) ∧
    (readerHas s r 4 → exec (.readU32be r) s
      = .next { readerMoved s r 4 with
          res := some (.num (2 ^ 24 * (readerByte s r 0).toNat + 2 ^ 16 * (readerByte s r 1).toNat
            + 2 ^ 8 * (readerByte s r 2).toNat + (readerByte s r 3).toNat)) }) ∧
    (readerHas s r 4 → exec (.readType r) s
      = .next { readerMoved s r 4 with
          res := some (.type [readerByte s r 0, readerByte s r 1, readerByte s r 2, readerByte s r 3]) }) ∧
    (¬readerHas s r 1 → exec (.readU8 r) s = .next (trap .unexpectedEof s)) ∧
    (¬readerHas s r 2 → exec (.readU16be r) s = .next (trap .unexpectedEof s)) ∧
    (¬readerHas s r 4 → exec (.readU32be r) s = .next (trap .unexpectedEof s)
      ∧ exec (.readType r) s = .next (trap .unexpectedEof s))

/-- R137: `read_bit` returns bit `bit` of byte `pos`, least significant first, rolls to the next byte after bit 7, and
raises UnexpectedEof at the end of the buffer. R138: `read_bits(n)` assembles the next n bits with bit i weighted 2^i,
reads nothing for n = 0, and raises UnexpectedEof where the buffer ends before n bits. R138 has the bits already read
stay consumed then; the trap is stated of the state before the read, since a trap keeps no cursor (the model's choice,
logs 12 and 13; R138, R387 and R389 call it unobservable). -/
def Obligations.ReadBits : Prop :=
  ∀ (s : State) (n : Nat),
    (s.ip < s.acc.length → s.ib < 7 → exec .readBit s
      = .next { s with ib := s.ib + 1, res := some (.num ((byteAt s.acc s.ip).toNat / 2 ^ s.ib % 2)) }) ∧
    (s.ip < s.acc.length → s.ib = 7 → exec .readBit s
      = .next { s with ip := s.ip + 1, ib := 0, res := some (.num ((byteAt s.acc s.ip).toNat / 2 ^ 7)) }) ∧
    (s.acc.length ≤ s.ip → exec .readBit s = .next (trap .unexpectedEof s)) ∧
    (s.ib < 8 → n ≤ 16 →
      (n = 0 ∨ payHas s n → exec (.readBits n) s = .next { payMoved s n with res := some (.num (payBits s n)) }) ∧
      (n ≠ 0 → ¬payHas s n → exec (.readBits n) s = .next (trap .unexpectedEof s)) ∧ payBits s n < 2 ^ n)

/-- R140 (b): two reads of a and b bits give, as `lo + (hi << a)`, what one read of a + b bits gives, and leave the same
cursor. -/
def Obligations.ReadBitsCompose : Prop :=
  ∀ (s : State) (a b : Nat), s.ib < 8 → a + b ≤ 16 → payHas s (a + b) →
    ∃ (lo hi : Nat) (t u : State), exec (.readBits a) s = .next t ∧ t.res = some (.num lo)
      ∧ exec (.readBits b) t = .next u ∧ u.res = some (.num hi)
      ∧ exec (.readBits (a + b)) s = .next { u with res := some (.num (lo + hi * 2 ^ a)) }

/-! ## Chunk parser -/

/-- R151 with R6, R393: the signature step of a launch, at CP = 0; SIG goes on to the walk; a first byte other than 0x89
is refused. -/
def Obligations.SignatureStep : Prop :=
  (∀ (rest : List Byte) (b : Byte) (s : State), exec (.sig rest) s = .next { s with phase := .walk }
    ∧ exec (.notPng b) s = .refused .bmpPath) ∧
  ∀ s : State, coreTurn s → s.phase = .signature → s.cp = 0 →
    (s.cap.srcLen.toNat = 0 → step s = .next (trap .unexpectedEof s)) ∧
    (0 < s.cap.srcLen.toNat → srcByte s 0 ≠ 0x89 → step s = .refused .bmpPath) ∧
    (0 < s.cap.srcLen.toNat → srcByte s 0 = 0x89 → s.cap.srcLen.toNat < 8 → step s = .next (trap .unexpectedEof s)) ∧
    (8 ≤ s.cap.srcLen.toNat → srcByte s 0 = 0x89 → step s = .next { s with cp := 8, phase := .walk })

/-- R152: one chunk of the walk. Its length and type are read at CP, the maximum is tested, then the presence of data
and crc; the handler the type selects runs on exactly the data, and CP has advanced by 12 + length. That CP stands past
the chunk when the handler runs, and at the chunk's start where the chunk is rejected, is the model's choice (log 12);
R152 moves it in between. -/
def Obligations.ChunkStep : Prop :=
  ∀ s : State, coreTurn s → s.phase = .walk → s.seenIend = false → s.cp < s.cap.srcLen.toNat →
    (s.cap.srcLen.toNat < s.cp + 8 → step s = .next (trap .unexpectedEof s)) ∧
    (s.cp + 8 ≤ s.cap.srcLen.toNat →
      (s.cfg.maxChunkLen < (srcWord s s.cp).toNat → step s = .next (trap .invalidLength s)) ∧
      ((srcWord s s.cp).toNat ≤ s.cfg.maxChunkLen →
        (s.cap.srcLen.toNat < s.cp + 12 + (srcWord s s.cp).toNat → step s = .next (trap .unexpectedEof s)) ∧
        (s.cp + 12 + (srcWord s s.cp).toNat ≤ s.cap.srcLen.toNat →
          step s = exec
            (decodeChunkType s.cfg.fdatType (srcWord s (s.cp + 4))
              ((List.range (srcWord s s.cp).toNat).map fun i => srcByte s (s.cp + 8 + i))
              (srcWord s (s.cp + 8 + (srcWord s s.cp).toNat)))
            { s with cp := s.cp + 12 + (srcWord s s.cp).toNat })))

/-- R158 with R31: IHDR's tests in order, and what it writes: the seven fields, and the derived ones as functions of
colour type, depth and width. -/
def Obligations.Ihdr : Prop :=
  ∀ (s : State) (data : List Byte) (crc : Word),
    (s.haveIhdr = true → exec (.ihdr data crc) s = .next (trap .invalidLength s)) ∧
    (s.haveIhdr = false →
      (data.length ≠ 13 → exec (.ihdr data crc) s = .next (trap .invalidLength s)) ∧
      (data.length = 13 → ∀ w h d ct, w = u32At data 0 → h = u32At data 4 → d = byteAt data 8 → ct = byteAt data 9 →
        (w = 0 ∨ s.cfg.maxDim < w.toNat ∨ h = 0 ∨ s.cfg.maxDim < h.toNat →
          exec (.ihdr data crc) s = .next (trap .invalidLength s)) ∧
        (1 ≤ w.toNat ∧ w.toNat ≤ s.cfg.maxDim ∧ 1 ≤ h.toNat ∧ h.toNat ≤ s.cfg.maxDim →
          ((ct.toNat, d.toNat) ∉ legalPairs → exec (.ihdr data crc) s = .next (trap .unsupportedFeature s)) ∧
          ((ct.toNat, d.toNat) ∈ legalPairs →
            (byteAt data 10 ≠ 0 ∨ byteAt data 11 ≠ 0 ∨ byteAt data 12 ≠ 0 →
              exec (.ihdr data crc) s = .next (trap .unsupportedFeature s)) ∧
            (byteAt data 10 = 0 ∧ byteAt data 11 = 0 ∧ byteAt data 12 = 0 →
              ∃ n, (ct.toNat, n) ∈ channelTable ∧ exec (.ihdr data crc) s
                = .next { s with
                    haveIhdr := true
                    hdr := ⟨w, h, d, ct, 0, 0, 0, n, n * d.toNat, max 1 (n * d.toNat / 8),
                      (w.toNat * (n * d.toNat) + 7) / 8⟩ })))))

/-- R160: PLTE. The size of its request, the number of entries, is the model's choice (log 9): R160 and R386 give
none. -/
def Obligations.Plte : Prop :=
  ∀ (s : State) (data : List Byte) (crc : Word),
    (s.haveIhdr = false ∨ s.havePlte = true ∨ data.length = 0 ∨ data.length % 3 ≠ 0
        ∨ s.cfg.maxPalette < data.length / 3 →
      exec (.plte data crc) s = .next (trap .invalidLength s)) ∧
    (∀ n, s.haveIhdr = true → s.havePlte = false → data.length = 3 * n → 1 ≤ n → n ≤ s.cfg.maxPalette →
      (¬grants s 1 n → exec (.plte data crc) s = .next (trap .allocationFailure (requested s 1))) ∧
      (grants s 1 n → ∃ t, exec (.plte data crc) s = .next t
        ∧ t = { requested s 1 with pal := t.pal, palN := n, havePlte := true }
        ∧ (∀ i < n, t.pal[i]?
            = some ⟨byteAt data (3 * i), byteAt data (3 * i + 1), byteAt data (3 * i + 2), 0xFF⟩)
        ∧ ∀ i, n ≤ i → t.pal[i]? = s.pal[i]?))

/-- R162: tRNS, by colour type. -/
def Obligations.Trns : Prop :=
  ∀ (s : State) (data : List Byte) (crc : Word),
    (s.haveIhdr = false → exec (.trns data crc) s = .next (trap .invalidLength s)) ∧
    (s.haveIhdr = true →
      (s.hdr.ctype = 3 →
        (s.palN < data.length → exec (.trns data crc) s = .next (trap .invalidLength s)) ∧
        (data.length ≤ s.palN → ∃ t, exec (.trns data crc) s = .next t ∧ t = { s with pal := t.pal }
          ∧ ∀ i, t.pal[i]? = (s.pal[i]?).map fun e => if i < data.length then { e with a := byteAt data i } else e)) ∧
      (s.hdr.ctype = 0 →
        (data.length ≠ 2 → exec (.trns data crc) s = .next (trap .invalidLength s)) ∧
        (data.length = 2 → exec (.trns data crc) s = .next { s with key0 := u16At data 0, keyValid := true })) ∧
      (s.hdr.ctype = 2 →
        (data.length ≠ 6 → exec (.trns data crc) s = .next (trap .invalidLength s)) ∧
        (data.length = 6 → exec (.trns data crc) s
          = .next { s with key0 := u16At data 0, key1 := u16At data 2, key2 := u16At data 4, keyValid := true })) ∧
      (s.hdr.ctype = 4 ∨ s.hdr.ctype = 6 → exec (.trns data crc) s = .next s))

/-- R164 with R165: bKGD records the raw values; with BKGD_OVERRIDES it also sets BG. -/
def Obligations.Bkgd : Prop :=
  ∀ (s : State) (data : List Byte) (crc : Word) (want : Nat),
    (s.hdr.ctype.toNat, want) ∈ [(3, 1), (0, 2), (4, 2), (2, 6), (6, 6)] →
    (s.haveIhdr = false ∨ data.length ≠ want → exec (.bkgd data crc) s = .next (trap .invalidLength s)) ∧
    (s.haveIhdr = true → data.length = want → ∀ t c,
      t = { s with
        haveBkgd := true
        bkgd0 := if want = 1 then (byteAt data 0).zeroExtend 16 else u16At data 0
        bkgd1 := if want = 6 then u16At data 2 else s.bkgd1
        bkgd2 := if want = 6 then u16At data 4 else s.bkgd2 } →
      (c = fun v : Half =>
        if s.hdr.depth = 16 then v.extractLsb' 8 8 else if s.hdr.depth = 8 then v.extractLsb' 0 8
        else greyTable s.cfg.greyScale s.hdr.depth.toNat (v.toNat % 2 ^ s.hdr.depth.toNat)) →
      (s.cfg.bkgdOverrides = false → exec (.bkgd data crc) s = .next t) ∧
      (s.cfg.bkgdOverrides = true → legalFormat s.hdr.ctype s.hdr.depth = true →
        (want = 1 → s.palN ≤ t.bkgd0.toNat → exec (.bkgd data crc) s = .next (trap .invalidLength t)) ∧
        (want = 1 → t.bkgd0.toNat < s.palN → ∀ e, s.pal[t.bkgd0.toNat]? = some e →
          exec (.bkgd data crc) s = .next { t with bg := 0xFF#8 ++ e.r ++ e.g ++ e.b }) ∧
        (want = 2 → exec (.bkgd data crc) s
          = .next { t with bg := 0xFF#8 ++ c t.bkgd0 ++ c t.bkgd0 ++ c t.bkgd0 }) ∧
        (want = 6 → exec (.bkgd data crc) s
          = .next { t with bg := 0xFF#8 ++ c t.bkgd0 ++ c t.bkgd1 ++ c t.bkgd2 })))

/-- R166, R167, R175: gAMA stores its value, IDAT appends its data to ACC, an unknown chunk changes nothing. -/
def Obligations.GammaDataUnknown : Prop :=
  ∀ (s : State) (data : List Byte) (crc type : Word),
    (s.haveIhdr = false → exec (.gama data crc) s = .next (trap .invalidLength s)
      ∧ exec (.idat data crc) s = .next (trap .invalidLength s)) ∧
    (s.haveIhdr = true → data.length ≠ 4 → exec (.gama data crc) s = .next (trap .invalidLength s)) ∧
    (s.haveIhdr = true → data.length = 4 → exec (.gama data crc) s
      = .next { s with gamma := u32At data 0, haveGamma := true }) ∧
    (s.haveIhdr = true → ¬grants s 1 data.length → exec (.idat data crc) s
      = .next (trap .allocationFailure (requested s 1))) ∧
    (s.haveIhdr = true → grants s 1 data.length → exec (.idat data crc) s
      = .next { requested s 1 with acc := s.acc ++ data }) ∧
    exec (.chunkUnknown type data crc) s = .next s

/-- R168: acTL. -/
def Obligations.Actl : Prop :=
  ∀ (s : State) (data : List Byte) (crc : Word),
    (s.haveIhdr = false ∨ s.animated = true ∨ data.length ≠ 8 ∨ u32At data 0 = 0
        ∨ s.cfg.maxFrames < (u32At data 0).toNat →
      exec (.actl data crc) s = .next (trap .invalidLength s)) ∧
    (s.haveIhdr = true → s.animated = false → data.length = 8 → 1 ≤ (u32At data 0).toNat →
      (u32At data 0).toNat ≤ s.cfg.maxFrames →
      (¬grants s 1 (u32At data 0).toNat → exec (.actl data crc) s
        = .next (trap .allocationFailure (requested s 1))) ∧
      (grants s 1 (u32At data 0).toNat → exec (.actl data crc) s
        = .next { requested s 1 with
            numFrames := u32At data 0, numPlays := u32At data 4, animated := true, anim := true }))

/-- R170 with R171, R176, R178, R230: fcTL. Without acTL it is skipped; its tests come in order; a pending frame is
decoded first; where none is pending, the rest of the rule follows at once. Where the header is read with HAVE_IHDR = 0,
in states no launch reaches, it is a fault (R46; where the test stands is the model's choice, log 4). What CLLEN and LENS
hold when a decode begins is the model's choice (log 28). -/
def Obligations.Fctl : Prop :=
  ∀ (s : State) (data : List Byte) (crc : Word) (f : FctlFields),
    f = ⟨u32At data 4, u32At data 8, u32At data 12, u32At data 16, u16At data 20, u16At data 22, byteAt data 24,
      byteAt data 25⟩ →
    (s.animated = false → exec (.fctl data crc) s = .next s) ∧
    (s.animated = true → data.length ≠ 26 → exec (.fctl data crc) s = .next (trap .invalidLength s)) ∧
    (s.animated = true → data.length = 26 → (u32At data 0).toNat ≠ s.nextSeq → exec (.fctl data crc) s
      = .next (trap .sequenceMismatch s)) ∧
    (s.animated = true → data.length = 26 → (u32At data 0).toNat = s.nextSeq → s.haveIhdr = true →
      (s.fctlValid = true → exec (.fctl data crc) s
        = .next (decodeBegun { s with nextSeq := s.nextSeq + 1 }
            ⟨s.fW, s.fH, s.fX, s.fY, s.fDelay, s.fDispose, s.fBlend, (s.fW.toNat * s.hdr.bpp + 7) / 8, 0, [],
              .fctl f⟩)) ∧
      (s.fctlValid = false →
        fctlTail { s with nextSeq := s.nextSeq + 1, acc := [] } f (exec (.fctl data crc) s))) ∧
    (s.animated = true → data.length = 26 → (u32At data 0).toNat = s.nextSeq → s.haveIhdr = false →
      (s.fctlValid = true ∨ s.fctlSeen ≠ s.numFrames.toNat → exec (.fctl data crc) s = .fault .headerNotValid) ∧
      (s.fctlValid = false → s.fctlSeen = s.numFrames.toNat → exec (.fctl data crc) s
        = .next (trap .invalidLength { s with nextSeq := s.nextSeq + 1, acc := [] })))

/-- R172: fdAT. -/
def Obligations.Fdat : Prop :=
  ∀ (s : State) (data : List Byte) (crc : Word),
    (s.animated = false → exec (.fdat data crc) s = .next s) ∧
    (s.animated = true → data.length < 4 → exec (.fdat data crc) s = .next (trap .invalidLength s)) ∧
    (s.animated = true → 4 ≤ data.length →
      ((u32At data 0).toNat ≠ s.nextSeq → exec (.fdat data crc) s = .next (trap .sequenceMismatch s)) ∧
      ((u32At data 0).toNat = s.nextSeq → ∀ t, t = { s with nextSeq := s.nextSeq + 1 } →
        (s.fctlValid = false → exec (.fdat data crc) s = .next (trap .invalidLength t)) ∧
        (s.fctlValid = true → ¬grants s 1 (data.length - 4) → exec (.fdat data crc) s
          = .next (trap .allocationFailure (requested t 1))) ∧
        (s.fctlValid = true → grants s 1 (data.length - 4) → exec (.fdat data crc) s
          = .next { requested t 1 with acc := s.acc ++ data.drop 4 })))

/-- R174 with R176: IEND decodes the pending frame or the default frame, or else ends the walk, dropping a payload that
belongs to no frame. What CLLEN and LENS hold when a decode begins is the model's choice (log 28). -/
def Obligations.Iend : Prop :=
  ∀ (s : State) (data : List Byte) (crc : Word),
    (s.fctlValid = true → s.haveIhdr = true → exec (.iend data crc) s
      = .next (decodeBegun s
          ⟨s.fW, s.fH, s.fX, s.fY, s.fDelay, s.fDispose, s.fBlend, (s.fW.toNat * s.hdr.bpp + 7) / 8, 0, [], .iend⟩)) ∧
    (s.fctlValid = false → s.acc ≠ [] → s.animated = false → s.haveIhdr = true → exec (.iend data crc) s
      = .next (decodeBegun s
          ⟨s.hdr.width, s.hdr.height, 0, 0, 0, 0, 0, (s.hdr.width.toNat * s.hdr.bpp + 7) / 8, 0, [], .iend⟩)) ∧
    (s.fctlValid = false → s.acc = [] ∨ s.animated = true → exec (.iend data crc) s
      = .next { s with acc := [], fctlValid := false, seenIend := true, phase := .walk })

/-- R178: after inflate, the length test, then the pixel buffer, then the rows; after the last row the frame is stored
and OUT emptied, then R176 empties ACC and clears FCTL_VALID, and IEND (R174) or fcTL (R170) goes on. NUM_FRAMES read
with ANIMATED = 0, in states no launch reaches, is a fault (R36, R46; log 4). -/
def Obligations.DecodeFrame : Prop :=
  ∀ s : State, coreTurn s →
    (s.phase = .inflated →
      (s.out.length < s.job.h.toNat * (1 + s.job.bpl) → step s = .next (trap .invalidLength s)) ∧
      (s.job.h.toNat * (1 + s.job.bpl) ≤ s.out.length →
        (¬grants s 1 (s.job.w.toNat * s.job.h.toNat) → step s
          = .next (trap .allocationFailure (requested s 1))) ∧
        (grants s 1 (s.job.w.toNat * s.job.h.toNat) → step s
          = .next { requested s 1 with job := { s.job with row := 0, pix := [] }, phase := .rows }))) ∧
    (s.phase = .rows → s.job.row = s.job.h.toNat → s.haveIhdr = true → ∀ t,
      t = { s with
        frames := s.frames ++ [⟨s.job.w, s.job.h, s.job.x, s.job.y, s.hdr.bytespp, s.job.bpl, s.job.delay,
          s.job.dispose, s.job.blend, s.job.pix⟩]
        framesDone := s.framesDone + 1, framesOut := BitVec.ofNat 32 (s.framesDone + 1), out := [], acc := []
        fctlValid := false } →
      (s.job.resume = .iend → step s = .next { t with seenIend := true, phase := .walk }) ∧
      ∀ f, s.job.resume = .fctl f → (s.animated = true → fctlTail t f (step s)) ∧
        (s.animated = false → step s = .fault .animationNotValid))

/-- R180: the end of the walk. -/
def Obligations.EndOfWalk : Prop :=
  ∀ s : State, coreTurn s → s.phase = .walk → s.seenIend = true ∨ s.cap.srcLen.toNat ≤ s.cp →
    (s.framesDone ≠ (if s.animated then s.numFrames.toNat else 1) → step s = .next (trap .invalidLength s)) ∧
    (s.framesDone = (if s.animated then s.numFrames.toNat else 1) → step s = .next { s with phase := .place })

/-! ## Huffman engine -/

/-- R208 with R112: BLK_STATIC builds both static trees; the codes of the static alphabets, which R112 marks as derived,
and what each decodes to. Each tree costs its node requests (R216); that they have size 1 and are counted in one go, 575 and
60 of them, is the model's choice and inference (log 9). -/
def Obligations.StaticTrees : Prop :=
  (∀ (f : Bool) (s : State), grants s 635 1 → ∃ t u,
    exec (.blkStatic f) s = .next { requested s 635 with bfinal := f, btype := 1, tLit := t, tDist := u, phase := .litLen }
      ∧ t = (buildTree .litlen slit).1 ∧ u = (buildTree .dist sdist).1 ∧ t.empty = false ∧ t.malformed = false
      ∧ u.empty = false ∧ u.malformed = false
      ∧ (∀ n < 144, follow t.root (codeBits 8 (0x30 + n)) = .leaf ⟨n, n, 0, false⟩)
      ∧ (∀ n < 112, follow t.root (codeBits 9 (0x190 + n)) = .leaf ⟨144 + n, 144 + n, 0, false⟩)
      ∧ (∀ n < 24, ∃ l, follow t.root (codeBits 7 n) = .leaf l ∧ l.symbol = 256 + n ∧ l.illegal = false)
      ∧ (∀ n < 8, ∃ l, follow t.root (codeBits 8 (0xC0 + n)) = .leaf l ∧ l.symbol = 280 + n
        ∧ l.illegal = decide (6 ≤ n))
      ∧ (∀ n < 30, ∃ l, follow u.root (codeBits 5 n) = .leaf l ∧ l.symbol = n ∧ l.illegal = false)
      ∧ follow u.root (codeBits 5 30) = .absent ∧ follow u.root (codeBits 5 31) = .absent) ∧
  (∀ (f : Bool) (s : State), ¬grants s 575 1 → exec (.blkStatic f) s
    = .next (trap .allocationFailure { requested s 575 with bfinal := f, btype := 1 })) ∧
  (∀ (f : Bool) (s : State), grants s 575 1 → ¬grants (requested s 575) 60 1 → exec (.blkStatic f) s
    = .next (trap .allocationFailure
        { requested s 635 with bfinal := f, btype := 1, tLit := (buildTree .litlen slit).1 }))

/-- R209: the dynamic header's counts, CLLEN by the permutation, and the code-length tree, whose node requests have size 1
and are counted in one go (the model's choice and inference, log 9). -/
def Obligations.DynamicHeader : Prop :=
  ∀ (s : State) (hl hd : BitVec 5) (hc : BitVec 4) (vs : List (BitVec 3)) (cl : List Nat),
    vs.length = hc.toNat + 4 → cl.length = 19 →
    (∀ (k p : Nat) (v : BitVec 3), perm[k]? = some p → vs[k]? = some v → cl[p]? = some v.toNat) →
    (∀ k p : Nat, perm[k]? = some p → vs.length ≤ k → cl[p]? = some 0) →
    (grants s (buildTree .cl cl).2 1 → exec (.dynHdr hl hd hc vs) s
      = .next { requested s (buildTree .cl cl).2 with
          hlit := hl.toNat + 257, hdist := hd.toNat + 1, hclen := hc.toNat + 4, cllen := cl
          tCl := (buildTree .cl cl).1, li := 0, phase := .codeLens }) ∧
    (¬grants s (buildTree .cl cl).2 1 → exec (.dynHdr hl hd hc vs) s
      = .next (trap .allocationFailure { requested s (buildTree .cl cl).2 with
          hlit := hl.toNat + 257, hdist := hd.toNat + 1, hclen := hc.toNat + 4, cllen := cl }))

/-- R210: the code-length symbols write LENS from index i on and move i; a repeat with nothing to repeat, and one past
HLIT + HDIST, raise InvalidLength and write nothing. The symbols and their extra bits are R113's. Where extra bits are
missing the trap is stated of the state before the symbol's operands: a trap keeps no cursor (the model's choice, logs 12
and 13). -/
def Obligations.CodeLengthSymbols : Prop :=
  ∀ s : State, s.ib < 8 → s.li < s.hlit + s.hdist → s.hlit + s.hdist ≤ s.lens.length →
    (∀ e ∈ clTable, exec e.1 s = .next { s with lens := s.lens.set s.li e.2, li := s.li + 1 }) ∧
    (s.li = 0 → exec .cl16 s = .next (trap .invalidLength s)) ∧
    ∀ e ∈ repeatTable, ∀ rep, rep = e.2.2 + payBits s e.2.1 → (e.1 = .cl16 → 1 ≤ s.li) →
      (¬payHas s e.2.1 → exec e.1 s = .next (trap .unexpectedEof s)) ∧
      (payHas s e.2.1 → s.hlit + s.hdist < s.li + rep → exec e.1 s
        = .next (trap .invalidLength (payMoved s e.2.1))) ∧
      (payHas s e.2.1 → s.li + rep ≤ s.hlit + s.hdist → ∃ t, exec e.1 s = .next t
        ∧ t = { payMoved s e.2.1 with lens := t.lens, li := s.li + rep } ∧ t.lens.length = s.lens.length
        ∧ ∀ j, t.lens.getD j 0 = if s.li ≤ j ∧ j < s.li + rep then
            (if e.1 = .cl16 then s.lens.getD (s.li - 1) 0 else 0) else s.lens.getD j 0)

/-- R211: when all code lengths are decoded, the literal/length tree is built from the first HLIT of them and the
distance tree from the next HDIST (R206). The node requests of a tree (R216, R386) have size 1 and are counted in one go
(the model's choice and inference, log 9). -/
def Obligations.DynamicTrees : Prop :=
  ∀ (s : State) (a b : List Nat), coreTurn s → s.phase = .codeLens → s.hlit + s.hdist ≤ s.li →
    a = s.lens.take s.hlit → b = (s.lens.drop s.hlit).take s.hdist →
    (grants s (buildTree .litlen a).2 1 → grants (requested s (buildTree .litlen a).2) (buildTree .dist b).2 1 →
      step s = .next { requested s ((buildTree .litlen a).2 + (buildTree .dist b).2) with
        tLit := (buildTree .litlen a).1, tDist := (buildTree .dist b).1, phase := .litLen }) ∧
    (¬grants s (buildTree .litlen a).2 1 →
      step s = .next (trap .allocationFailure (requested s (buildTree .litlen a).2))) ∧
    (grants s (buildTree .litlen a).2 1 → ¬grants (requested s (buildTree .litlen a).2) (buildTree .dist b).2 1 →
      step s = .next (trap .allocationFailure
        { requested s ((buildTree .litlen a).2 + (buildTree .dist b).2) with tLit := (buildTree .litlen a).1 }))

/-- R212: where a symbol is due, an empty or malformed tree raises UnsupportedFeature before any bit is read; otherwise
the bits lead to a leaf, whose symbol's element (R109, R111, R113) runs with exactly its code consumed, or to an Absent
child, which raises UnsupportedFeature, or run out, which raises UnexpectedEof. R212 has the bits of a walk that fails
consumed; the trap is stated of the state before the walk, since a trap keeps no cursor (the model's choice, logs 12 and
13). -/
def Obligations.SymbolDecode : Prop :=
  ∀ (s : State) (k : Kind) (t : TreeReg), coreTurn s → s.ib < 8 → streamLevel s = some (.pay, .sym k t) →
    (t.empty = true ∨ t.malformed = true → step s = .next (trap .unsupportedFeature s)) ∧
    (t.empty = false → t.malformed = false → ∀ n,
      (payHas s n → ∀ l, follow t.root (nextBits s n) = .leaf l → ∀ i, standsFor k l.symbol i →
        step s = exec i (payMoved s n)) ∧
      (payHas s (n + 1) → (∃ x y, follow t.root (nextBits s n) = .node x y) →
        follow t.root (nextBits s (n + 1)) = .absent → step s = .next (trap .unsupportedFeature s)) ∧
      (payPos s + n = 8 * s.acc.length → (∃ x y, follow t.root (nextBits s n) = .node x y) →
        step s = .next (trap .unexpectedEof s)))

/-- R215: for code lengths that satisfy the Kraft inequality, the canonical codes rise with the symbol within a length
and from a shorter length to a longer one, the tree is not MALFORMED, and the bits of a symbol's code, most significant
first, lead to the leaf of that symbol. -/
def Obligations.CanonicalCodes : Prop :=
  ∀ (kind : Kind) (lens : List Nat), (∀ l ∈ lens, l ≤ 15) → kraft lens →
    (buildTree kind lens).1.malformed = false ∧
    (∀ s t a b c d, s < lens.length → t < lens.length → lens[s]? = some a → lens[t]? = some b → a ≠ 0 →
      (assignCodes lens)[s]? = some c → (assignCodes lens)[t]? = some d →
      (a = b → s < t → c < d) ∧ (a < b → c * 2 ^ (b - a) < d)) ∧
    ∀ s a c, lens[s]? = some a → a ≠ 0 → (assignCodes lens)[s]? = some c →
      follow (buildTree kind lens).1.root (codeBits a c) = .leaf (leafOf kind s)
      ∧ (buildTree kind lens).1.empty = false

/-! ## Inflate engine -/

/-- R231: the zlib header is skipped without being looked at; a payload shorter than it raises UnexpectedEof. -/
def Obligations.ZlibHeader : Prop :=
  (∀ (bytes : List Byte) (s : State), exec (.zhdr bytes) s = .next { s with phase := .block }) ∧
  ∀ s : State, coreTurn s → s.phase = .zhdr → s.ip = 0 → s.ib = 0 →
    (s.acc.length < s.cfg.zlibHdrSkip → step s = .next (trap .unexpectedEof s)) ∧
    (s.cfg.zlibHdrSkip ≤ s.acc.length → step s = .next { s with ip := s.cfg.zlibHdrSkip, phase := .block })

/-- R232, R105: a block header is one bit of BFINAL and two of BTYPE; BTYPE 0, 1 and 2 select a block body; R233: BTYPE 3
raises UnsupportedFeature. Where fewer than three bits are left the trap is stated of the state before the header: a trap
keeps neither cursor nor BFINAL (the model's choice, logs 12 and 13). -/
def Obligations.BlockHeader : Prop :=
  (∀ (f : Bool) (s : State),
    exec (.blkStored f) s = .next { s with bfinal := f, btype := 0, phase := .storedBody } ∧
    exec (.blkDynamic f) s = .next { s with bfinal := f, btype := 2, phase := .dynHdr } ∧
    exec (.blkReserved f) s = .next (trap .unsupportedFeature { s with bfinal := f, btype := 3 })) ∧
  ∀ s : State, coreTurn s → s.phase = .block → s.ib < 8 →
    (¬payHas s 3 → step s = .next (trap .unexpectedEof s)) ∧
    (payHas s 3 → ∀ f, f = payBit s (payPos s) →
      (payBits (payMoved s 1) 2 = 0 → step s = exec (.blkStored f) (payMoved s 3)) ∧
      (payBits (payMoved s 1) 2 = 1 → step s = exec (.blkStatic f) (payMoved s 3)) ∧
      (payBits (payMoved s 1) 2 = 2 → step s = exec (.blkDynamic f) (payMoved s 3)) ∧
      (payBits (payMoved s 1) 2 = 3 → step s = exec (.blkReserved f) (payMoved s 3)))

/-- R234: a stored block is byte-aligned, LEN and NLEN are little-endian, NLEN is not compared, and LEN bytes are
appended to OUT. Where LEN or NLEN is missing the trap is stated of the state before the alignment that R234 has made: a
trap keeps no cursor (the model's choice, logs 12 and 13). -/
def Obligations.StoredBlock : Prop :=
  (∀ s : State, coreTurn s → s.phase = .storedBody → s.ib < 8 → ∀ p, p = (payPos s + 7) / 8 →
    (s.acc.length < p + 4 → step s = .next (trap .unexpectedEof s)) ∧
    (p + 4 ≤ s.acc.length →
      step s = exec (.storedBody (byteAt s.acc (p + 1) ++ byteAt s.acc p) (byteAt s.acc (p + 3) ++ byteAt s.acc (p + 2)))
        { s with ip := p + 4, ib := 0 })) ∧
  ∀ (len nlen : Half) (s : State), s.ib = 0 → s.ip ≤ s.acc.length →
    (¬grants s 1 len.toNat → exec (.storedBody len nlen) s = .next (trap .allocationFailure (requested s 1))) ∧
    (grants s 1 len.toNat →
      (s.ip + len.toNat ≤ s.acc.length → exec (.storedBody len nlen) s
        = .next { requested s 1 with
            out := s.out ++ (s.acc.drop s.ip).take len.toNat, ip := s.ip + len.toNat
            phase := if s.bfinal then .inflated else .block }) ∧
      (s.acc.length < s.ip + len.toNat → exec (.storedBody len nlen) s
        = .next (trap .unexpectedEof
            { requested s 1 with out := s.out ++ s.acc.drop s.ip, ip := s.acc.length })))

/-- R237, R241 with R214: a literal appends its byte to OUT; the end of a block frees the trees and goes on to the next
header, or ends inflate after the final block. -/
def Obligations.LiteralAndEndOfBlock : Prop :=
  ∀ (s : State) (b : Byte),
    (¬grants s 1 1 → exec (.lit b) s = .next (trap .allocationFailure (requested s 1))) ∧
    (grants s 1 1 → exec (.lit b) s = .next { requested s 1 with out := s.out ++ [b], phase := .litLen }) ∧
    exec .eob s = .next { s with
      tLit := ⟨.absent, false, true⟩, tDist := ⟨.absent, false, true⟩, tCl := ⟨.absent, false, true⟩
      phase := if s.bfinal then .inflated else .block }

/-- R238 with R110, R239 with R111: a length is the symbol's real value plus its extra bits, and so is a distance; length
symbols 286 and 287 and distance symbols 30 and 31 raise UnsupportedFeature. Where extra bits are missing the trap is
stated of the state before they are read: a trap keeps no cursor (the model's choice, logs 12 and 13). -/
def Obligations.MatchSymbols : Prop :=
  ∀ s : State, s.ib < 8 →
    (∀ e ∈ lengthTable,
      (e.2.1 = 0 ∨ payHas s e.2.1 → exec e.1 s
        = .next { payMoved s e.2.1 with mlen := e.2.2 + payBits s e.2.1, phase := .dist }) ∧
      (e.2.1 ≠ 0 → ¬payHas s e.2.1 → exec e.1 s = .next (trap .unexpectedEof s))) ∧
    (∀ e ∈ distanceTable,
      (e.2.1 = 0 ∨ payHas s e.2.1 → exec e.1 s
        = .next { payMoved s e.2.1 with mdist := e.2.2 + payBits s e.2.1, phase := .copy }) ∧
      (e.2.1 ≠ 0 → ¬payHas s e.2.1 → exec e.1 s = .next (trap .unexpectedEof s))) ∧
    ∀ i ∈ [Instr.len286, .len287, .dist30, .dist31], exec i s = .next (trap .unsupportedFeature s)

/-- R240: a copy beyond the produced output raises InvalidLength; otherwise `length` bytes are appended, byte k being
the byte `distance` before it, so that an overlapping copy sees the bytes it has written. -/
def Obligations.MatchCopy : Prop :=
  ∀ (s : State) (length distance : Nat), 1 ≤ distance →
    (s.out.length < distance → exec (.matchCopy length distance) s = .next (trap .invalidLength s)) ∧
    (distance ≤ s.out.length → ¬grants s 1 length → exec (.matchCopy length distance) s
      = .next (trap .allocationFailure (requested s 1))) ∧
    (distance ≤ s.out.length → grants s 1 length → ∃ t, exec (.matchCopy length distance) s = .next t
      ∧ t = { requested s 1 with out := t.out, phase := .litLen }
      ∧ t.out.length = s.out.length + length ∧ t.out.take s.out.length = s.out
      ∧ ∀ k < length, t.out[s.out.length + k]? = t.out[s.out.length + k - distance]?)

/-! ## Scanline reconstructor -/

/-- R270 to R277: a filter adds, modulo 256, its predictor of the reconstructed neighbours to each byte of the current
row, ascending, and changes nothing else of OUT; any other filter type raises UnsupportedFeature. -/
def Obligations.Filters : Prop :=
  ∀ s : State, (∀ b, exec (.fIllegal b) s = .next (trap .unsupportedFeature s)) ∧
    (s.haveIhdr = true → 1 ≤ s.hdr.bytespp → (s.job.row + 1) * (1 + s.job.bpl) ≤ s.out.length → ∀ e ∈ filterTable,
      ∃ t, exec e.1 s = .next t ∧ t = { s with out := t.out, phase := .pixels } ∧ t.out.length = s.out.length
        ∧ (∀ i, i < rowBase s ∨ rowBase s + s.job.bpl ≤ i → t.out[i]? = s.out[i]?)
        ∧ ∀ x < s.job.bpl, byteAt t.out (rowBase s + x) = byteAt s.out (rowBase s + x)
            + BitVec.ofNat 8 (e.2 (left s t.out x) (up s t.out x) (upLeft s t.out x)))

/-- R279: a row filtered with a filter's predictor over the original bytes, the row above it being original, is
restored by that filter. -/
def Obligations.FilterRoundTrip : Prop :=
  ∀ (s : State) (orig : List Byte), s.haveIhdr = true → 1 ≤ s.hdr.bytespp →
    (s.job.row + 1) * (1 + s.job.bpl) ≤ s.out.length → orig.length = s.out.length → ∀ e ∈ filterTable,
    (∀ i, i < rowBase s ∨ rowBase s + s.job.bpl ≤ i → s.out[i]? = orig[i]?) →
    (∀ x < s.job.bpl, byteAt s.out (rowBase s + x) = byteAt orig (rowBase s + x)
      - BitVec.ofNat 8 (e.2 (left s orig x) (up s orig x) (upLeft s orig x))) →
    exec e.1 s = .next { s with out := orig, phase := .pixels }

/-! ## Pixel expander -/

/-- R300 to R304 with R292, R293, R295 to R297: the grey formats. -/
def Obligations.GreyFormats : Prop :=
  ∀ s : State,
    (∀ e ∈ [(Instr.g1, 1), (Instr.g2, 2), (Instr.g4, 4)], rowThere s e.2 → expandsTo e.1 s fun x =>
      keyAlpha s (sample s e.2 x) ++ greyTable s.cfg.greyScale e.2 (sample s e.2 x)
        ++ greyTable s.cfg.greyScale e.2 (sample s e.2 x) ++ greyTable s.cfg.greyScale e.2 (sample s e.2 x)) ∧
    (rowThere s 8 → expandsTo .g8 s fun x =>
      keyAlpha s (rowByte s x).toNat ++ rowByte s x ++ rowByte s x ++ rowByte s x) ∧
    (rowThere s 16 → expandsTo .g16 s fun x =>
      keyAlpha s (sample16 s (2 * x)) ++ rowByte s (2 * x) ++ rowByte s (2 * x) ++ rowByte s (2 * x))

/-- R305, R306, R311 to R314: the truecolour formats, and the formats with an alpha channel. -/
def Obligations.ColourFormats : Prop :=
  ∀ s : State,
    (rowThere s 24 → expandsTo .rgb8 s fun x =>
      keyAlpha3 s (rowByte s (3 * x)).toNat (rowByte s (3 * x + 1)).toNat (rowByte s (3 * x + 2)).toNat
        ++ rowByte s (3 * x) ++ rowByte s (3 * x + 1) ++ rowByte s (3 * x + 2)) ∧
    (rowThere s 48 → expandsTo .rgb16 s fun x =>
      keyAlpha3 s (sample16 s (6 * x)) (sample16 s (6 * x + 2)) (sample16 s (6 * x + 4))
        ++ rowByte s (6 * x) ++ rowByte s (6 * x + 2) ++ rowByte s (6 * x + 4)) ∧
    (rowThere s 16 → expandsTo .ga8 s fun x =>
      rowByte s (2 * x + 1) ++ rowByte s (2 * x) ++ rowByte s (2 * x) ++ rowByte s (2 * x)) ∧
    (rowThere s 32 → expandsTo .ga16 s fun x =>
      rowByte s (4 * x + 2) ++ rowByte s (4 * x) ++ rowByte s (4 * x) ++ rowByte s (4 * x)) ∧
    (rowThere s 32 → expandsTo .rgba8 s fun x =>
      rowByte s (4 * x + 3) ++ rowByte s (4 * x) ++ rowByte s (4 * x + 1) ++ rowByte s (4 * x + 2)) ∧
    (rowThere s 64 → expandsTo .rgba16 s fun x =>
      rowByte s (8 * x + 6) ++ rowByte s (8 * x) ++ rowByte s (8 * x + 2) ++ rowByte s (8 * x + 4))

/-- R307 to R310 with R298: the indexed formats look every pixel up in the palette; the first index that is no valid
entry raises InvalidLength. -/
def Obligations.IndexedFormats : Prop :=
  ∀ s : State, s.palN ≤ s.pal.length →
    ∀ e ∈ [(Instr.p1, 1), (Instr.p2, 2), (Instr.p4, 4), (Instr.p8, 8)], rowThere s e.2 →
      ((∀ x < s.job.w.toNat, sample s e.2 x < s.palN) → ∃ px, expandsTo e.1 s px
        ∧ ∀ x < s.job.w.toNat, ∃ c, s.pal[sample s e.2 x]? = some c ∧ px x = c.a ++ c.r ++ c.g ++ c.b) ∧
      ((∃ x < s.job.w.toNat, s.palN ≤ sample s e.2 x) → exec e.1 s = .next (trap .invalidLength s))

/-! ## Frame compositor -/

/-- R66 with R340: a canvas pixel is four bytes at CANVAS_BASE + y * CANVAS_STRIDE + 4 * x, blue at the lowest address,
then green, red and alpha; a canvas write stores exactly them and sets PAINTED; a canvas read assembles them. -/
def Obligations.CanvasPixels : Prop :=
  ∀ (s : State) (x y a : Nat) (v : Pixel), Memory.wf s.mem = true → s.cfg.canvasByteOrder = .little →
    a = s.cap.canvasBase.toNat + y * s.cap.canvasStride.toNat + 4 * x →
    canvasRead s x y
      = Memory.read s.mem (a + 3) ++ Memory.read s.mem (a + 2) ++ Memory.read s.mem (a + 1) ++ Memory.read s.mem a ∧
    ∃ m, canvasWrite s x y v = { s with mem := m, painted := true } ∧ Memory.wf m = true
      ∧ Memory.read m a = v.extractLsb' 0 8 ∧ Memory.read m (a + 1) = v.extractLsb' 8 8
      ∧ Memory.read m (a + 2) = v.extractLsb' 16 8 ∧ Memory.read m (a + 3) = v.extractLsb' 24 8
      ∧ (∀ b, b < a ∨ a + 4 ≤ b → Memory.read m b = Memory.read s.mem b)
      ∧ canvasRead (canvasWrite s x y v) x y = v

/-- R342 with R341, R344: B_SOURCE writes every pixel of the frame's rectangle: the frame pixel if opaque, BG if fully
transparent, else the blend over BG; every byte outside the rectangle stays as it was. -/
def Obligations.SourceBlend : Prop :=
  ∀ (s : State) (f : Frame), Paints s f → ∃ t, exec .bSource s = .next t
    ∧ t = { s with mem := t.mem, painted := t.painted, phase := if s.animated then .hold else .complete }
    ∧ Memory.wf t.mem = true
    ∧ (∀ i j p, i < f.w.toNat → j < f.h.toNat → f.pix[j * f.w.toNat + i]? = some p →
        pixelAt s t f i j = if alphaOf p = 0xFF then p else if alphaOf p = 0 then s.bg else blended p s.bg)
    ∧ (∀ a, outsideFrame s f a → Memory.read t.mem a = Memory.read s.mem a)
    ∧ (t.painted = true ↔ s.painted = true ∨ (1 ≤ f.w.toNat ∧ 1 ≤ f.h.toNat))

/-- R343 with R341, R344: B_OVER writes the frame pixel if opaque, leaves the canvas pixel if fully transparent, else
writes the blend over the canvas pixel as it was; every byte outside the rectangle stays as it was. -/
def Obligations.OverBlend : Prop :=
  ∀ (s : State) (f : Frame), Paints s f → ∃ t, exec .bOver s = .next t
    ∧ t = { s with mem := t.mem, painted := t.painted, phase := if s.animated then .hold else .complete }
    ∧ Memory.wf t.mem = true
    ∧ (∀ i j p, i < f.w.toNat → j < f.h.toNat → f.pix[j * f.w.toNat + i]? = some p →
        pixelAt s t f i j = if alphaOf p = 0xFF then p else if alphaOf p = 0 then pixelAt s s f i j
          else blended p (pixelAt s s f i j))
    ∧ (∀ a, outsideFrame s f a → Memory.read t.mem a = Memory.read s.mem a)
    ∧ (t.painted = true ↔ s.painted = true ∨ ∃ p ∈ f.pix, alphaOf p ≠ 0)

/-- R347: D_NONE changes nothing; D_BACKGROUND writes BG to every pixel of the frame's rectangle; every byte outside the
rectangle stays as it was. -/
def Obligations.Disposal : Prop :=
  (∀ s : State, exec .dNone s = .next { s with phase := .nextFrame }) ∧
  ∀ (s : State) (f : Frame), Paints s f → ∃ t, exec .dBackground s = .next t
    ∧ t = { s with mem := t.mem, painted := t.painted, phase := .nextFrame } ∧ Memory.wf t.mem = true
    ∧ (∀ i j, i < f.w.toNat → j < f.h.toNat → pixelAt s t f i j = s.bg)
    ∧ (∀ a, outsideFrame s f a → Memory.read t.mem a = Memory.read s.mem a)
    ∧ (t.painted = true ↔ s.painted = true ∨ (1 ≤ f.w.toNat ∧ 1 ≤ f.h.toNat))

/-- R348: before the composite of a frame whose effective dispose is PREVIOUS, SNAP is allocated and takes the canvas
pixels of the frame's rectangle, or AllocationFailure is raised before anything is painted; D_PREVIOUS writes SNAP back
and empties it; every byte outside the rectangle stays as it was. -/
def Obligations.SnapshotAndRestore : Prop :=
  ∀ (s : State) (f : Frame), Paints s f →
    (coreTurn s → s.phase = .loop → s.animated = true → s.play < s.plays → s.fidx < s.numFrames.toNat →
      effective s f = 2 →
      (¬grants s 1 (f.w.toNat * f.h.toNat) → step s = .next (trap .allocationFailure (requested s 1))) ∧
      (grants s 1 (f.w.toNat * f.h.toNat) → ∃ t, step s = .next t
        ∧ t = { requested s 1 with snap := t.snap, phase := .composite } ∧ t.snap.length = f.w.toNat * f.h.toNat
        ∧ ∀ i j, i < f.w.toNat → j < f.h.toNat → t.snap[j * f.w.toNat + i]? = some (pixelAt s s f i j))) ∧
    (s.snap.length = f.w.toNat * f.h.toNat → ∃ t, exec .dPrevious s = .next t
      ∧ t = { s with mem := t.mem, painted := t.painted, snap := [], phase := .nextFrame } ∧ Memory.wf t.mem = true
      ∧ (∀ i j p, i < f.w.toNat → j < f.h.toNat → s.snap[j * f.w.toNat + i]? = some p → pixelAt s t f i j = p)
      ∧ (∀ a, outsideFrame s f a → Memory.read t.mem a = Memory.read s.mem a)
      ∧ (t.painted = true ↔ s.painted = true ∨ (1 ≤ f.w.toNat ∧ 1 ≤ f.h.toNat)))

/-! ## Orchestrator -/

/-- R334: placement. A coordinate is the origin, or is added to the canvas's extent where it is negative; an image that
does not fit raises InvalidLength, and nothing else is done. -/
def Obligations.Placement : Prop :=
  ∀ (s : State) (ox oy : Int), coreTurn s → s.phase = .place → s.haveIhdr = true →
    ox = originOf s.cfg.negPlacement s.cap.x s.cap.canvasW s.hdr.width →
    oy = originOf s.cfg.negPlacement s.cap.y s.cap.canvasH s.hdr.height →
    (ox < 0 ∨ oy < 0 ∨ (s.cap.canvasW.toNat : Int) < ox + s.hdr.width.toNat
        ∨ (s.cap.canvasH.toNat : Int) < oy + s.hdr.height.toNat → step s = .next (trap .invalidLength s)) ∧
    (0 ≤ ox → 0 ≤ oy → ox + s.hdr.width.toNat ≤ s.cap.canvasW.toNat → oy + s.hdr.height.toNat ≤ s.cap.canvasH.toNat →
      ∃ t, step s = .next t ∧ (t.ox : Int) = ox ∧ (t.oy : Int) = oy
        ∧ t = { s with ox := t.ox, oy := t.oy, phase := if s.animated then .animate else .composite })

/-- R345, R349: PLAYS is NUM_PLAYS, or DEFAULT_PLAYS for 0; PLAY and FIDX count play-throughs and frames in index order;
each frame is shown with its effective dispose: NONE for the final frame, BACKGROUND for a first frame's PREVIOUS. The
loops run only in AnimatedLoop (R331); statement IllegalElementsAndStops says what happens where ANIMATED = 0. -/
def Obligations.AnimationLoop : Prop :=
  ∀ s : State, coreTurn s →
    (s.phase = .animate → s.animated = true → step s = .next { s with
      plays := if s.numPlays = 0 then s.cfg.defaultPlays else s.numPlays.toNat, play := 0, fidx := 0
      phase := .loop }) ∧
    (s.phase = .loop → s.animated = true →
      (s.plays ≤ s.play → step s = .next { s with phase := .complete }) ∧
      (s.play < s.plays → s.numFrames.toNat ≤ s.fidx → step s = .next { s with play := s.play + 1, fidx := 0 }) ∧
      (s.play < s.plays → s.fidx < s.numFrames.toNat → ∀ f, s.frames[s.fidx]? = some f → effective s f ≠ 2 →
        step s = .next { s with phase := .composite })) ∧
    (s.phase = .dispose → s.animated = true → ∀ f, s.frames[s.fidx]? = some f →
      (effective s f = 0 → step s = exec .dNone s) ∧ (effective s f = 1 → step s = exec .dBackground s) ∧
      (effective s f = 2 → step s = exec .dPrevious s)) ∧
    (s.phase = .nextFrame → step s = .next { s with fidx := s.fidx + 1, phase := .loop })

/-- R352: a hold appends to the trace the frame's delay with the canvas contents, and changes nothing else. R332 with R45:
completion sets STATE to DONE, releases what the core allocated, and emits nothing; ERRCODE, FRAMES_OUT, PAINTED, ANIM,
the other host-interface registers and the canvas keep their values. What a released register is left with is the
model's choice (log 13). -/
def Obligations.HoldAndComplete : Prop :=
  ∀ s : State, coreTurn s →
    (s.phase = .hold → s.animated = true → ∀ f, s.frames[s.fidx]? = some f → ∃ px : List Pixel,
      step s = .next { s with trace := s.trace ++ [.hold f.delay px], phase := .dispose }
      ∧ px.length = s.cap.canvasW.toNat * s.cap.canvasH.toNat
      ∧ ∀ x y, x < s.cap.canvasW.toNat → y < s.cap.canvasH.toNat →
          px[y * s.cap.canvasW.toNat + x]? = some (canvasRead s x y)) ∧
    (s.phase = .complete → step s = .next (launchEnded s .done) ∧ nothingHeld (launchEnded s .done))

/-! ## Errors -/

/-- R390 with R381, R391: trap entry writes ERRCODE, emits one Log event, releases what the core allocated and sets STATE
to ERROR; the other host-interface registers, PAINTED, ANIM and FRAMES_OUT among them, and the canvas keep their values
(R45); nothing executes after it. What a released register is left with is the model's choice (log 13). -/
def Obligations.TrapEntry : Prop :=
  ∀ (s : State) (e : ErrKind) (n : BitVec 3), (∀ k, Config.errCode s.cfg k = Config.errCode Config.standard k) →
    (e, n) ∈ codeTable →
    trap e s = { launchEnded s .error with errcode := n, trace := s.trace ++ [.log n] } ∧ nothingHeld (trap e s) ∧
    (s.hostQ = [] → step (trap e s) = .next (trap e s))

/-! ## Host interface -/

/-- R23 with R46 and R24: a write of 1 to START while not BUSY starts a launch from the launch-start values, with the
configuration sampled, under the host duties of R69 and R81 (an empty range overlaps nothing); the requests to ALLOC are
counted anew (R386, log 9), the trace begins empty (R13, log 16), and the parameters, the oracle and the rest of the
host's script stay. A write of 1 while BUSY is ignored (R23, V6). That a write of 0 while BUSY has no effect either is the
model's reading (log 21, DEDUCED): R23 says without a condition that a write of 0 does nothing, while R428 and V5 put a
register write while BUSY outside the spec. What the registers that R46 leaves unspecified hold is not said (log 3). -/
def Obligations.Launch : Prop :=
  ∀ (s : State) (v : Word) (rest : List HostOp), s.hostQ = .writeReg .ctrl v :: rest →
    (s.runState = .busy ∨ v.getLsbD 0 = false → step s = .next { s with hostQ := rest }) ∧
    (s.runState ≠ .busy → v.getLsbD 0 = true → s.canvasBase.toNat % 4 = 0 → s.canvasStride.toNat % 4 = 0 →
      4 * s.canvasW.toNat ≤ s.canvasStride.toNat → ¬rangesOverlap s →
      ∃ t, step s = .next t ∧ t.runState = .busy ∧ t.painted = false ∧ t.anim = false ∧ t.errcode = 0
        ∧ t.framesOut = 0 ∧ configTable t = configTable s ∧ t.mem = s.mem
        ∧ t.cap = ⟨s.srcBase, s.srcLen, s.canvasBase, s.canvasStride, s.canvasW, s.canvasH, s.cfgX, s.cfgY⟩
        ∧ t.cp = 0 ∧ t.ip = 0 ∧ t.ib = 0
        ∧ [t.haveIhdr, t.havePlte, t.keyValid, t.haveBkgd, t.haveGamma, t.animated, t.fctlValid, t.seenIend, t.bfinal]
          = List.replicate 9 false
        ∧ t.palN = 0 ∧ t.bg = 0xFF#8 ++ s.cfgBg ∧ t.nextSeq = 0 ∧ t.fctlSeen = 0 ∧ t.framesDone = 0
        ∧ t.acc = [] ∧ t.out = [] ∧ t.snap = [] ∧ t.frames = []
        ∧ [t.tLit, t.tDist, t.tCl] = List.replicate 3 ⟨.absent, false, true⟩ ∧ t.play = 0 ∧ t.fidx = 0
        ∧ t.phase = .signature ∧ t.trace = [] ∧ t.allocN = 0 ∧ t.cfg = s.cfg ∧ t.allocDenied = s.allocDenied
        ∧ t.hostQ = rest ∧ t.hostRd = s.hostRd ∧ t.freeN = s.freeN)

/-- R21, R22: while no launch runs, the nine configuration registers read as written (CFG_BG its 24 bits), and STATUS,
ERRCODE and FRAMES_OUT ignore writes (while BUSY see statement HostPort: R428 puts them outside the spec). CTRL reads 0,
STATUS, ERRCODE and FRAMES_OUT read as R22 and R381 say at any time (V7 of spec/93; log 21). -/
def Obligations.RegisterAccess : Prop :=
  ∀ (s : State) (rest : List HostOp) (v : Word),
    (∀ r x, (r, x) ∈ [(HostReg.ctrl, 0#32),
        (.status, BitVec.ofNat 32 ((match s.runState with | .idle => 0 | .busy => 1 | .done => 2 | .error => 3)
          + 4 * s.painted.toNat + 8 * s.anim.toNat)),
        (.errcode, 0#29 ++ s.errcode), (.framesOut, s.framesOut)] →
      (s.hostQ = .readReg r :: rest → step s = .next { s with hostQ := rest, hostRd := x }) ∧
      (r ≠ .ctrl → s.runState ≠ .busy → s.hostQ = .writeReg r v :: rest → step s = .next { s with hostQ := rest })) ∧
    (s.runState ≠ .busy → ∀ r x, (r, x) ∈ configTable s →
      (s.hostQ = .readReg r :: rest → step s = .next { s with hostQ := rest, hostRd := x }) ∧
      (s.hostQ = .writeReg r v :: rest → ∃ t, step s = .next t
        ∧ (r, if r = .cfgBg then 0#8 ++ v.extractLsb' 0 24 else v) ∈ configTable t
        ∧ (∀ r' x', r' ≠ r → (r', x') ∈ configTable s → (r', x') ∈ configTable t)
        ∧ t = { s with
            hostQ := rest, srcBase := t.srcBase, srcLen := t.srcLen, canvasBase := t.canvasBase
            canvasStride := t.canvasStride, canvasW := t.canvasW, canvasH := t.canvasH, cfgBg := t.cfgBg
            cfgX := t.cfgX, cfgY := t.cfgY }))

/-- What the host may do otherwise, as acts of its script (log 7). Its duties broken are refusals (R428, V5 of spec/93;
log 6): a launch with a geometry that breaks R69 or an overlap that breaks R81, and, while BUSY, a write of any register
but CTRL (logs 6 and 21; statement Launch has CTRL), a read of a configuration register (log 21), or a store into the
source or the canvas. Any other store changes one byte. The
allocator's oracle is a parameter (R386), given as a list (log 9). Platform reset (R420, R423): what V4 of spec/93 says of
the image rectangle is the model's free value, in the painting phases only (log 15); that the trace stays is the model's
choice (log 16). -/
def Obligations.HostPort : Prop :=
  ∀ (s : State) (rest : List HostOp),
    (∀ v : Word, s.hostQ = .writeReg .ctrl v :: rest → s.runState ≠ .busy → v.getLsbD 0 = true →
      (s.canvasBase.toNat % 4 ≠ 0 ∨ s.canvasStride.toNat % 4 ≠ 0 ∨ s.canvasStride.toNat < 4 * s.canvasW.toNat →
        step s = .refused .canvasGeometry) ∧
      (s.canvasBase.toNat % 4 = 0 → s.canvasStride.toNat % 4 = 0 → 4 * s.canvasW.toNat ≤ s.canvasStride.toNat →
        rangesOverlap s → step s = .refused .sourceCanvasOverlap)) ∧
    (s.runState = .busy → ∀ r v,
      (r ≠ .ctrl → s.hostQ = .writeReg r v :: rest → step s = .refused .hostWriteWhileBusy) ∧
      (r ∈ (configTable s).map Prod.fst → s.hostQ = .readReg r :: rest → step s = .refused .hostReadWhileBusy)) ∧
    (∀ a b, s.hostQ = .store a b :: rest →
      (s.runState = .busy →
        (s.cap.srcBase.toNat ≤ a ∧ a < s.cap.srcBase.toNat + s.cap.srcLen.toNat) ∨ (s.cap.canvasBase.toNat ≤ a
          ∧ a < s.cap.canvasBase.toNat + s.cap.canvasH.toNat * s.cap.canvasStride.toNat) →
        step s = .refused .hostStoreWhileBusy) ∧
      (s.runState ≠ .busy ∨ ¬((s.cap.srcBase.toNat ≤ a ∧ a < s.cap.srcBase.toNat + s.cap.srcLen.toNat)
          ∨ (s.cap.canvasBase.toNat ≤ a
            ∧ a < s.cap.canvasBase.toNat + s.cap.canvasH.toNat * s.cap.canvasStride.toNat)) →
        Memory.wf s.mem = true → ∃ m, step s = .next { s with hostQ := rest, mem := m }
        ∧ Memory.read m a = b ∧ ∀ a', a' ≠ a → Memory.read m a' = Memory.read s.mem a')) ∧
    (∀ denied, s.hostQ = .oracle denied :: rest → step s = .next { s with hostQ := rest, allocDenied := denied }) ∧
    (s.hostQ = .reset :: rest → Memory.wf s.mem = true → ∃ t, step s = .next t ∧ t.hostQ = rest
      ∧ t.runState = .idle ∧ t.painted = false ∧ t.anim = false ∧ t.errcode = 0 ∧ t.framesOut = 0
      ∧ t.trace = s.trace ∧ t.phase = .idle
      ∧ (s.runState ≠ .busy
          ∨ s.phase ∉ [Phase.animate, .loop, .composite, .hold, .dispose, .nextFrame, .complete] → t.mem = s.mem)
      ∧ ∀ a, outsideImage s a → Memory.read t.mem a = Memory.read s.mem a)

/-- R47: after power-on reset CTRL, STATUS, ERRCODE and FRAMES_OUT read 0; nothing executes until the host acts. -/
def Obligations.ResetValues : Prop :=
  State.reset.runState = .idle ∧ State.reset.painted = false ∧ State.reset.anim = false ∧ State.reset.errcode = 0
  ∧ State.reset.framesOut = 0 ∧ step State.reset = .next State.reset
  ∧ ∀ r ∈ [HostReg.ctrl, .status, .errcode, .framesOut],
      step { State.reset with hostQ := [.readReg r], hostRd := 1 } = .next State.reset

/-! ## The whole machine -/

/-- R24: the core changes none of the configuration registers and none of the values sampled at launch, in any step. R22:
STATE leaves BUSY only by completion or by trap entry. -/
def Obligations.CoreKeepsConfiguration : Prop :=
  ∀ s t : State, coreTurn s → step s = .next t →
    SameConfiguration s t ∧ t.runState ≠ .idle ∧
    (t.runState = .done → s.phase = .complete ∧ t.errcode = s.errcode ∧ t.trace = s.trace) ∧
    (t.runState = .error → ∃ e u, t = trap e u ∧ SameConfiguration s u ∧ u.mem = s.mem ∧ u.painted = s.painted
      ∧ u.anim = s.anim ∧ u.trace = s.trace)

/-- The frame of every element: the configuration stays; memory and PAINTED stay but for the four elements that write the
canvas (R340); FRAMES_OUT stays. The element's own effect `u` keeps the compositor's place and loop registers, STATE, the
trace, ERRCODE, FRAMES and FRAMES_DONE; it is the next state, or the state in which a trap is taken (R390), which ends
the launch with one Log event. That FRAMES, FRAMES_DONE and FRAMES_OUT stay holds of IEND and fcTL because of the model's
granularity (log 8, DESIGN CHOICE): the spec has these two chunks store the frame they finish (R170, R174, R176, R178);
in the model their own step only begins the decode, and the storing is a step of its own (statement DecodeFrame). -/
def Obligations.ElementFrame : Prop :=
  ∀ (i : Instr) (s t : State), exec i s = .next t →
    SameConfiguration s t ∧ (i ∉ painters → t.mem = s.mem ∧ t.painted = s.painted) ∧ t.framesOut = s.framesOut
    ∧ ∃ u, u.ox = s.ox ∧ u.oy = s.oy ∧ u.plays = s.plays ∧ u.play = s.play ∧ u.fidx = s.fidx
      ∧ u.framesDone = s.framesDone ∧ u.runState = s.runState ∧ u.trace = s.trace ∧ u.errcode = s.errcode
      ∧ u.frames = s.frames
      ∧ (t = u ∨ ∃ e, t = trap e u ∧ t.runState = .error ∧ t.errcode = Config.errCode s.cfg e
          ∧ t.trace = s.trace ++ [.log (Config.errCode s.cfg e)] ∧ t.mem = s.mem)

/-- R29: every flag is written by the elements its row of the table names and by no other (BFINAL and the trees' flags
also by what R230 initialises at the start of a frame's decode). This holds of the element's own effect `u`: the next
state, or the state in which a trap is taken. A trap ends the launch, and with it every flag but PAINTED and ANIM (R45;
that the others become 0 is the model's choice, log 13). -/
def Obligations.FlagWriters : Prop :=
  ∀ (i : Instr) (s t : State), exec i s = .next t → ∃ u, (t = u ∨ ∃ e, t = trap e u ∧ t.painted = u.painted
      ∧ t.anim = u.anim) ∧
    (u.haveIhdr ≠ s.haveIhdr → ∃ d c, i = .ihdr d c) ∧ (u.havePlte ≠ s.havePlte → ∃ d c, i = .plte d c) ∧
    (u.keyValid ≠ s.keyValid → ∃ d c, i = .trns d c) ∧ (u.haveBkgd ≠ s.haveBkgd → ∃ d c, i = .bkgd d c) ∧
    (u.haveGamma ≠ s.haveGamma → ∃ d c, i = .gama d c) ∧ (u.animated ≠ s.animated → ∃ d c, i = .actl d c) ∧
    (u.anim ≠ s.anim → ∃ d c, i = .actl d c) ∧
    (u.fctlValid ≠ s.fctlValid → ∃ d c, i = .fctl d c ∨ i = .iend d c) ∧
    (u.seenIend ≠ s.seenIend → ∃ d c, i = .iend d c) ∧
    (u.bfinal ≠ s.bfinal → (∃ f, i = .blkStored f ∨ i = .blkStatic f ∨ i = .blkDynamic f ∨ i = .blkReserved f)
      ∨ ∃ d c, i = .fctl d c ∨ i = .iend d c) ∧
    (u.painted ≠ s.painted → i ∈ painters) ∧
    (u.tLit ≠ s.tLit ∨ u.tDist ≠ s.tDist ∨ u.tCl ≠ s.tCl → i = .eob ∨ (∃ f, i = .blkStatic f)
      ∨ (∃ a b c v, i = .dynHdr a b c v) ∨ ∃ d c, i = .fctl d c ∨ i = .iend d c)

/-- R72, R79, R354: in a state of the invariant a step of the core changes no byte outside the image rectangle on the
canvas, no source byte, and no byte at all while PAINTED stays 0. -/
def Obligations.CoreWritesOnlyTheImage : Prop :=
  ∀ s t : State, s.Inv → coreTurn s → step s = .next t →
    (∀ a, outsideImage s a → Memory.read t.mem a = Memory.read s.mem a) ∧
    (∀ i < s.cap.srcLen.toNat, srcByte t i = srcByte s i) ∧ (t.painted = false → t.mem = s.mem)

/-- The elements that R120 calls illegal raise UnsupportedFeature (their meaning is the trap of R158, R170, R277; log 24),
and the forms that no rule gives an effect stop by name. Log 11: a byte read, and a stored block's copy, off a byte
boundary. Log 4: the rules that read the header without one (R46; where the tests stand is the model's choice; fcTL is in
statement Fctl), tRNS and bKGD under a colour type that no IHDR accepts, and the animation rules with ANIMATED = 0 (the
rest of fcTL after a decode is in statement DecodeFrame). Log 22, the model's choice: a copy of distance 0, a code length
beyond the counts, a leaf outside its alphabet, a row that is not there (for a filter, a format, or the filter byte's
fetch), a frame that is not there, one that is not whole or not on the canvas, and a snapshot of another size. -/
def Obligations.IllegalElementsAndStops : Prop :=
  ∀ s : State,
    (∀ ct d, exec (.pixfmtIllegal ct d) s = .next (trap .unsupportedFeature s)) ∧
    (∀ b, exec (.dIllegal b) s = .next (trap .unsupportedFeature s)
      ∧ exec (.bIllegal b) s = .next (trap .unsupportedFeature s)) ∧
    (s.ib ≠ 0 → (∀ i ∈ [Instr.readU8 .pay, .readU16be .pay, .readU32be .pay, .readType .pay],
        exec i s = .fault .readerNotAligned) ∧
      ∀ len nlen : Half, grants s 1 len.toNat → exec (.storedBody len nlen) s = .fault .readerNotAligned) ∧
    (∀ n, exec (.matchCopy n 0) s = .fault .zeroDistance) ∧
    (s.hlit + s.hdist ≤ s.li → ∀ i ∈ clTable.map Prod.fst ++ repeatTable.map Prod.fst,
      exec i s = .fault .lengthSlotOutOfRange) ∧
    (∀ k t n l, coreTurn s → s.ib < 8 → streamLevel s = some (.pay, .sym k t) → t.empty = false → t.malformed = false →
      payHas s n → follow t.root (nextBits s n) = .leaf l → (∀ i, ¬standsFor k l.symbol i) →
      step s = .fault .symbolOutsideAlphabet) ∧
    (s.haveIhdr = false →
      (∀ e ∈ filterTable, exec e.1 s = .fault .headerNotValid) ∧
      (s.fctlValid = true ∨ (s.acc ≠ [] ∧ s.animated = false) → ∀ data crc,
        exec (.iend data crc) s = .fault .headerNotValid) ∧
      (coreTurn s → s.phase = .pixels ∨ s.phase = .place ∨ (s.phase = .rows ∧ s.job.h.toNat ≤ s.job.row) →
        step s = .fault .headerNotValid)) ∧
    (s.haveIhdr = true → s.hdr.ctype.toNat ∉ channelTable.map Prod.fst → ∀ data crc,
      exec (.trns data crc) s = .fault .headerNotValid ∧ exec (.bkgd data crc) s = .fault .headerNotValid) ∧
    (coreTurn s → s.phase ∈ [Phase.animate, .loop, .dispose] → s.animated = false →
      step s = .fault .animationNotValid) ∧
    (s.haveIhdr = true → s.out.length < (s.job.row + 1) * (1 + s.job.bpl) →
      ∀ e ∈ filterTable, exec e.1 s = .fault .rowOutOfRange) ∧
    (∀ e ∈ bppTable, ¬rowThere s e.2 → exec e.1 s = .fault .rowOutOfRange) ∧
    (coreTurn s → s.phase = .rows → s.job.row < s.job.h.toNat → s.out.length ≤ s.job.row * (1 + s.job.bpl) →
      step s = .fault .rowOutOfRange) ∧
    (s.frames[if s.animated then s.fidx else 0]? = none →
      (∀ i ∈ painters, exec i s = .fault .noSuchFrame) ∧
      (coreTurn s → s.phase = .composite ∨ s.phase = .hold ∨ (s.animated = true ∧ (s.phase = .dispose
          ∨ (s.phase = .loop ∧ s.play < s.plays ∧ s.fidx < s.numFrames.toNat))) → step s = .fault .noSuchFrame)) ∧
    ∀ f, s.frames[if s.animated then s.fidx else 0]? = some f →
      (f.pix.length ≠ f.w.toNat * f.h.toNat → visitStops s f .frameIncomplete) ∧
      (f.pix.length = f.w.toNat * f.h.toNat →
        (s.cap.canvasW.toNat < s.ox + f.x.toNat + f.w.toNat ∨ s.cap.canvasH.toNat < s.oy + f.y.toNat + f.h.toNat →
          visitStops s f .frameOffCanvas) ∧
        (s.ox + f.x.toNat + f.w.toNat ≤ s.cap.canvasW.toNat → s.oy + f.y.toNat + f.h.toNat ≤ s.cap.canvasH.toNat →
          s.snap.length ≠ f.w.toNat * f.h.toNat → exec .dPrevious s = .fault .snapshotIncomplete))

/-! ## Decoding and the step -/

/-- A step of the core runs the element that is due: decoded at the reader's cursor and the cursor moved past it, or
selected by the row's filter byte, by the header's format, by a frame's operation codes, or by the pending match. Where
nothing decodes, the rejection raises its error. Nothing executes while no launch runs (R422). The model's choices: the
host's script and its act `pass` (log 7), one element or rule per step (log 8), and that the cursor moves past an element
before its meaning runs and stays where the element began on a rejection (log 12). -/
def Obligations.StepRunsElement : Prop :=
  ∀ s : State,
    (s.hostQ = [] → step s = coreStep s) ∧
    (∀ rest, s.hostQ = .pass :: rest → step s = coreStep { s with hostQ := rest }) ∧
    (s.hostQ = [] → s.runState ≠ .busy → step s = .next s) ∧
    (coreTurn s →
      (∀ r lv, streamLevel s = some (r, lv) →
        (∀ i c, decode lv (s.cur r) = .ok (i, c) → step s = exec i (s.putCur r c)) ∧
        (∀ e k, decode lv (s.cur r) = .error e → rejectKind e = some k → step s = .next (trap k s))) ∧
      (s.phase = .rows → s.job.row < s.job.h.toNat → ∀ b, s.out[s.job.row * (1 + s.job.bpl)]? = some b →
        step s = exec (decodeFilter b) s) ∧
      (s.phase = .pixels → s.haveIhdr = true → step s = exec (decodeFormat s.hdr.ctype s.hdr.depth) s) ∧
      (s.phase = .copy → step s = exec (.matchCopy s.mlen s.mdist) s) ∧
      (s.phase = .composite → ∀ f, s.frames[if s.animated then s.fidx else 0]? = some f →
        step s = exec (decodeBlend f.blend) s) ∧
      (s.phase = .dispose → s.animated = true → ∀ f, s.frames[s.fidx]? = some f →
        step s = exec (decodeDispose (effective s f)) s))

/-- Words written out from the encodings of R91 to R118, one or more of each level, decode to the elements they stand
for. -/
def Obligations.DecodeWords : Prop :=
  decode .signature ⟨[0x89, 0x50, 0x4E, 0x47, 0x0D, 0x0A, 0x1A, 0x0A], 0, 0⟩
    = .ok (.sig [0x50, 0x4E, 0x47, 0x0D, 0x0A, 0x1A, 0x0A],
        ⟨[0x89, 0x50, 0x4E, 0x47, 0x0D, 0x0A, 0x1A, 0x0A], 8, 0⟩) ∧
  decode (.chunk 100 0x66644154) ⟨[0, 0, 0, 4, 0x67, 0x41, 0x4D, 0x41, 0, 0, 0xB1, 0x8F, 1, 2, 3, 4], 0, 0⟩
    = .ok (.gama [0, 0, 0xB1, 0x8F] 0x01020304,
        ⟨[0, 0, 0, 4, 0x67, 0x41, 0x4D, 0x41, 0, 0, 0xB1, 0x8F, 1, 2, 3, 4], 16, 0⟩) ∧
  decode (.zhdr 2) ⟨[0x78, 0x9C], 0, 0⟩ = .ok (.zhdr [0x78, 0x9C], ⟨[0x78, 0x9C], 2, 0⟩) ∧
  decode .blkHdr ⟨[0b00000101], 0, 0⟩ = .ok (.blkDynamic true, ⟨[0b00000101], 0, 3⟩) ∧
  decode .stored ⟨[0xFF, 0x34, 0x12, 0xCB, 0xED], 0, 3⟩
    = .ok (.storedBody 0x1234 0xEDCB, ⟨[0xFF, 0x34, 0x12, 0xCB, 0xED], 5, 0⟩) ∧
  decode .dynHdr ⟨[0b10100010, 0b10000001, 0b10110001, 0b00001010], 0, 0⟩
    = .ok (.dynHdr 2 13 0 [6, 0, 3, 5], ⟨[0b10100010, 0b10000001, 0b10110001, 0b00001010], 3, 2⟩) ∧
  decode (.sym .cl ⟨.node (.leaf ⟨16, 16, 2, false⟩) (.leaf ⟨1, 1, 0, false⟩), false, false⟩) ⟨[0], 0, 0⟩
    = .ok (.cl16, ⟨[0], 0, 1⟩) ∧
  decode (.sym .litlen ⟨.node (.leaf ⟨256, 256, 0, false⟩) (.leaf ⟨65, 65, 0, false⟩), false, false⟩) ⟨[1], 0, 0⟩
    = .ok (.lit 65, ⟨[1], 0, 1⟩) ∧
  decode .scanline ⟨[4], 0, 0⟩ = .ok (.fPaeth, ⟨[4], 1, 0⟩) ∧
  decode .pixFmt ⟨[8, 6], 0, 0⟩ = .ok (.rgba8, ⟨[8, 6], 2, 0⟩) ∧
  decode .dispose ⟨[2], 0, 0⟩ = .ok (.dPrevious, ⟨[2], 1, 0⟩) ∧
  decode .blend ⟨[1], 0, 0⟩ = .ok (.bOver, ⟨[1], 1, 0⟩)

/-- Decoding what the encoder wrote gives the element back, with every operand, and stands just past it, whatever bytes
stand before and after: the elements that are whole bytes (signature, chunks, zlib header, filter, format, dispose and
blend bytes). -/
def Obligations.DecodeEncodeBytes : Prop :=
  ∀ (c : Config) (i : Instr) (lv : Level) (before bytes after : List Byte), Config.legal c = true → i.wf c = true →
    i.byteLevel c = some lv → encodeBytes c.fdatType i = some bytes →
    decode lv ⟨before ++ bytes ++ after, before.length, 0⟩
      = .ok (i, ⟨before ++ bytes ++ after, before.length + bytes.length, 0⟩)

/-- The same for the elements of the bit stream with fields: the block headers, the stored block's header (from the next
byte boundary) and the dynamic header, at every bit position; for the Huffman symbols see DecodeEncodeSymbols. -/
def Obligations.DecodeEncodeBits : Prop :=
  ∀ (c : Config) (i : Instr) (lv : Level) (lens : List Nat) (bits : List Bool) (d e : Cur), i.wf c = true →
    i.bitLevel = some lv → encodeBits lens i = some bits → d.bit < 8 → e = (if lv = .stored then d.align else d) →
    e.bits.take bits.length = bits → decode lv d = .ok (i, e.advance bits.length)

/-! ## The invariant -/

/-- The state after power-on reset satisfies the invariant. -/
def Obligations.ResetInv : Prop := State.reset.Inv

/-- Every step, of the core or of the host, keeps the invariant: the register ranges and array sizes of R26 to R40, the
canonical form of memory, the validity of header, frame table and trees, and what each point of the pseudocode needs. -/
def Obligations.StepKeepsInv : Prop := ∀ s t : State, s.Inv → step s = .next t → t.Inv

/-- From a state of the invariant no step stops with a fault: no rule reads a guarded register, no access is out of range
and no copy has distance 0 (R46, R60, R72, R240, R280). -/
def Obligations.NoFault : Prop := ∀ s : State, s.Inv → SafeStep s

/-! ## The Huffman symbols as encodings -/

/-- R109, R111, R113: which element each symbol number of the three alphabets stands for, in the decoder and in the
encoder. R108: under any code lengths up to 15 that satisfy the Kraft inequality (R215), a symbol with a code is encoded
as its canonical code (R205), the most significant bit first; and where those bits stand at the cursor, decoding through
the tree of the same lengths (R206, R212) gives its element back and stands just past them. -/
def Obligations.DecodeEncodeSymbols : Prop :=
  (∀ k n i, (symInstr k n = some i ↔ standsFor k n i) ∧ (i.symbol = some (k, n) ↔ standsFor k n i)) ∧
  ∀ (k : Kind) (n : Nat) (i : Instr) (lens : List Nat) (a c : Nat) (d : Cur), standsFor k n i →
    (∀ l ∈ lens, l ≤ 15) → kraft lens → lens[n]? = some a → a ≠ 0 → (assignCodes lens)[n]? = some c →
    encodeBits lens i = some (codeBits a c)
      ∧ (d.bit < 8 → d.bits.take a = codeBits a c → decode (.sym k (buildTree k lens).1) d = .ok (i, d.advance a))
end

