-- ==== Sys2Proof/Laws/Reader.lean ====
section
/-! SUPPORT. What the reader operations and the decoder do to a cursor: they never write the buffer (R130), never move
backwards, and stay inside the buffer (R26, R27, R140); and what they read, in terms of the bits still to come. -/

namespace Sys2Proof

/-- The bit offset of a cursor from the start of its buffer. -/
def Cur.offset (c : Cur) : Nat := 8 * c.pos + c.bit

/-- A cursor inside its buffer (R26, R27). -/
structure Cur.Valid (c : Cur) : Prop where
  bit : c.bit < 8
  inside : c.offset ≤ 8 * c.buf.length

/-- A cursor further on in the same buffer. -/
structure Cur.Ahead (c d : Cur) : Prop where
  buf : d.buf = c.buf
  mono : c.offset ≤ d.offset
  valid : d.Valid

theorem Cur.Ahead.refl {c : Cur} (h : c.Valid) : c.Ahead c := ⟨rfl, Nat.le_refl _, h⟩

theorem Cur.Ahead.trans {a b c : Cur} (h : a.Ahead b) (g : b.Ahead c) : a.Ahead c :=
  ⟨g.buf.trans h.buf, Nat.le_trans h.mono g.mono, g.valid⟩

/-! ## Bytes -/

/-- A cursor at a byte boundary moved on by whole bytes that are there. -/
theorem Cur.ahead_bytes {c : Cur} {k : Nat} (h : c.has k = true) (h0 : c.bit = 0) :
    c.Ahead { c with pos := c.pos + k } := by
  simp only [Cur.has, decide_eq_true_eq] at h
  refine ⟨rfl, ?_, ?_, ?_⟩ <;> simp only [Cur.offset, h0] <;> omega

theorem Cur.readU8_ok {c d : Cur} {b : Byte} (h : c.readU8 = .ok (b, d)) :
    c.has 1 = true ∧ b = byteAt c.buf c.pos ∧ d = { c with pos := c.pos + 1 } := by
  unfold Cur.readU8 at h
  split at h
  · simp only [Except.ok.injEq, Prod.mk.injEq] at h
    exact ⟨‹_›, h.1.symm, h.2.symm⟩
  · simp at h

theorem Cur.readU32be_ok {c d : Cur} {w : Word} (h : c.readU32be = .ok (w, d)) :
    c.has 4 = true ∧ w = u32At c.buf c.pos ∧ d = { c with pos := c.pos + 4 } := by
  unfold Cur.readU32be at h
  split at h
  · simp only [Except.ok.injEq, Prod.mk.injEq] at h
    exact ⟨‹_›, h.1.symm, h.2.symm⟩
  · simp at h

theorem Cur.take_ok {c d : Cur} {k : Nat} {bs : List Byte} (h : c.take k = .ok (bs, d)) :
    c.has k = true ∧ bs = (c.buf.drop c.pos).take k ∧ d = { c with pos := c.pos + k } := by
  unfold Cur.take at h
  split at h
  · simp only [Except.ok.injEq, Prod.mk.injEq] at h
    exact ⟨‹_›, h.1.symm, h.2.symm⟩
  · simp at h

/-! ## Bits -/

theorem Cur.readBit_ok {c d : Cur} {b : Bool} (hc : c.bit < 8) (h : c.readBit = .ok (b, d)) :
    c.pos < c.buf.length ∧ b = (byteAt c.buf c.pos).getLsbD c.bit ∧ d.buf = c.buf ∧ d.offset = c.offset + 1
      ∧ d.bit < 8 ∧ d.pos ≤ c.pos + 1 := by
  unfold Cur.readBit at h
  split at h
  · simp at h
  · simp only [Except.ok.injEq, Prod.mk.injEq] at h
    obtain ⟨rfl, rfl⟩ := h
    refine ⟨by omega, rfl, ?_, ?_, ?_, ?_⟩ <;> split <;> simp_all [Cur.offset] <;> omega

theorem Cur.readBit_ahead {c d : Cur} {b : Bool} (hc : c.Valid) (h : c.readBit = .ok (b, d)) : c.Ahead d := by
  obtain ⟨h1, -, h2, h3, h4, -⟩ := Cur.readBit_ok hc.bit h
  refine ⟨h2, by omega, h4, ?_⟩
  rw [h2, h3]
  have := hc.bit
  simp only [Cur.offset]
  omega

theorem Cur.readBits_ahead (n : Nat) {c d : Cur} {v : Nat} (hc : c.Valid) (h : c.readBits n = .ok (v, d)) :
    c.Ahead d ∧ d.offset = c.offset + n ∧ v < 2 ^ n := by
  induction n generalizing c d v with
  | zero =>
    simp only [Cur.readBits, Except.ok.injEq, Prod.mk.injEq] at h
    obtain ⟨rfl, rfl⟩ := h
    exact ⟨Cur.Ahead.refl hc, rfl, by simp⟩
  | succ n ih =>
    simp only [Cur.readBits] at h
    split at h
    · simp at h
    · rename_i b c1 h1
      split at h
      · simp at h
      · rename_i w c2 h2
        simp only [Except.ok.injEq, Prod.mk.injEq] at h
        obtain ⟨rfl, rfl⟩ := h
        have a1 := Cur.readBit_ahead hc h1
        obtain ⟨a2, o2, w2⟩ := ih a1.valid h2
        obtain ⟨-, -, -, o1, -, -⟩ := Cur.readBit_ok hc.bit h1
        refine ⟨a1.trans a2, by omega, ?_⟩
        rw [Nat.pow_succ]
        cases b <;> simp only [Bool.toNat_true, Bool.toNat_false] <;> omega

theorem Cur.align_ahead {c : Cur} (hc : c.Valid) : c.Ahead c.align ∧ c.align.bit = 0 := by
  unfold Cur.align
  split
  · exact ⟨Cur.Ahead.refl hc, ‹_›⟩
  · refine ⟨⟨rfl, ?_, ?_, ?_⟩, rfl⟩ <;> have h1 := hc.bit <;> have h2 := hc.inside <;>
      simp only [Cur.offset] at * <;> omega

theorem Tree.walk_ahead {t : Tree} {c d : Cur} {l : Leaf} (hc : c.Valid) (h : t.walk c = .ok (l, d)) :
    c.Ahead d := by
  induction t generalizing c d l with
  | absent => simp [Tree.walk] at h
  | leaf m =>
    simp only [Tree.walk, Except.ok.injEq, Prod.mk.injEq] at h
    exact h.2 ▸ Cur.Ahead.refl hc
  | node left right ihl ihr =>
    simp only [Tree.walk] at h
    split at h
    · simp at h
    · rename_i b c1 h1
      have a1 := Cur.readBit_ahead hc h1
      split at h
      · exact a1.trans (ihr a1.valid h)
      · exact a1.trans (ihl a1.valid h)

/-! ## The decoder -/

/-- The levels whose elements are whole bytes; they are read at a byte boundary only. -/
def Level.bytes : Level → Bool
  | .signature | .chunk _ _ | .zhdr _ | .scanline | .pixFmt | .dispose | .blend => true
  | .blkHdr | .stored | .dynHdr | .sym _ _ => false

theorem readClLens_ahead (n : Nat) {c d : Cur} {vs : List (BitVec 3)} (hc : c.Valid)
    (h : readClLens n c = .ok (vs, d)) : c.Ahead d ∧ vs.length = n := by
  induction n generalizing c d vs with
  | zero =>
    simp only [readClLens, Except.ok.injEq, Prod.mk.injEq] at h
    obtain ⟨rfl, rfl⟩ := h
    exact ⟨Cur.Ahead.refl hc, rfl⟩
  | succ n ih =>
    simp only [readClLens] at h
    split at h
    · simp at h
    · rename_i v c1 h1
      split at h
      · simp at h
      · rename_i ws c2 h2
        simp only [Except.ok.injEq, Prod.mk.injEq] at h
        obtain ⟨rfl, rfl⟩ := h
        have a1 := (Cur.readBits_ahead 3 hc h1).1
        obtain ⟨a2, e2⟩ := ih a1.valid h2
        exact ⟨a1.trans a2, by simp [e2]⟩

theorem decodeSig_ahead {c d : Cur} {i : Instr} (h0 : c.bit = 0) (hc : c.Valid) (h : decodeSig c = .ok (i, d)) :
    c.Ahead d := by
  unfold decodeSig at h
  split at h
  · simp at h
  · rename_i b c1 h1
    obtain ⟨a1, -, rfl⟩ := Cur.readU8_ok h1
    split at h
    · split at h
      · simp at h
      · rename_i rest c2 h2
        obtain ⟨a2, -, rfl⟩ := Cur.take_ok h2
        simp only [Except.ok.injEq, Prod.mk.injEq] at h
        rw [← h.2]
        exact (Cur.ahead_bytes a1 h0).trans (Cur.ahead_bytes a2 h0)
    · simp only [Except.ok.injEq, Prod.mk.injEq] at h
      rw [← h.2]
      exact Cur.Ahead.refl hc

theorem decodeChunk_ahead {c d : Cur} {i : Instr} {m : Nat} {f : Word} (h0 : c.bit = 0)
    (h : decodeChunk m f c = .ok (i, d)) : c.Ahead d := by
  unfold decodeChunk at h
  split at h
  · simp at h
  · rename_i l c1 h1
    obtain ⟨a1, -, rfl⟩ := Cur.readU32be_ok h1
    split at h
    · simp at h
    · rename_i t c2 h2
      obtain ⟨a2, -, rfl⟩ := Cur.take_ok h2
      split at h
      · simp at h
      · split at h
        · split at h
          · simp at h
          · rename_i dat c3 h3
            obtain ⟨a3, -, rfl⟩ := Cur.take_ok h3
            split at h
            · simp at h
            · rename_i crc c4 h4
              obtain ⟨a4, -, rfl⟩ := Cur.readU32be_ok h4
              simp only [Except.ok.injEq, Prod.mk.injEq] at h
              rw [← h.2]
              exact (((Cur.ahead_bytes a1 h0).trans (Cur.ahead_bytes a2 h0)).trans (Cur.ahead_bytes a3 h0)).trans
                (Cur.ahead_bytes a4 h0)
        · simp at h

theorem decodeBlkHdr_ahead {c d : Cur} {i : Instr} (hc : c.Valid) (h : decodeBlkHdr c = .ok (i, d)) :
    c.Ahead d := by
  unfold decodeBlkHdr at h
  split at h
  · simp at h
  · rename_i f c1 h1
    have a1 := (Cur.readBits_ahead 1 hc h1).1
    split at h
    · simp at h
    · rename_i t c2 h2
      have a2 := (Cur.readBits_ahead 2 a1.valid h2).1
      split at h <;> simp only [Except.ok.injEq, Prod.mk.injEq] at h <;> rw [← h.2] <;> exact a1.trans a2

/-- The header fields of a stored block end at a byte boundary (R234). -/
theorem decodeStored_ahead {c d : Cur} {i : Instr} (hc : c.Valid) (h : decodeStored c = .ok (i, d)) :
    c.Ahead d ∧ d.bit = 0 := by
  unfold decodeStored at h
  obtain ⟨a0, z⟩ := Cur.align_ahead hc
  split at h
  · simp at h
  · rename_i len c1 h1
    obtain ⟨a1, o1, -⟩ := Cur.readBits_ahead 16 a0.valid h1
    split at h
    · simp at h
    · rename_i nlen c2 h2
      obtain ⟨a2, o2, -⟩ := Cur.readBits_ahead 16 a1.valid h2
      simp only [Except.ok.injEq, Prod.mk.injEq] at h
      rw [← h.2]
      refine ⟨(a0.trans a1).trans a2, ?_⟩
      have b1 := a1.valid.bit
      have b2 := a2.valid.bit
      simp only [Cur.offset, z] at o1 o2
      omega

theorem decodeDynHdr_ahead {c d : Cur} {i : Instr} (hc : c.Valid) (h : decodeDynHdr c = .ok (i, d)) :
    c.Ahead d := by
  unfold decodeDynHdr at h
  split at h
  · simp at h
  · rename_i hl c1 h1
    have a1 := (Cur.readBits_ahead 5 hc h1).1
    split at h
    · simp at h
    · rename_i hd c2 h2
      have a2 := (Cur.readBits_ahead 5 a1.valid h2).1
      split at h
      · simp at h
      · rename_i hcl c3 h3
        have a3 := (Cur.readBits_ahead 4 a2.valid h3).1
        split at h
        · simp at h
        · rename_i vs c4 h4
          have a4 := (readClLens_ahead _ a3.valid h4).1
          simp only [Except.ok.injEq, Prod.mk.injEq] at h
          rw [← h.2]
          exact ((a1.trans a2).trans a3).trans a4

theorem decodeSym_ahead {c d : Cur} {i : Instr} {k : Kind} {t : TreeReg} (hc : c.Valid)
    (h : decodeSym k t c = .ok (i, d)) : c.Ahead d := by
  unfold decodeSym TreeReg.decode at h
  split at h
  · simp at h
  · rename_i l c1 h1
    split at h
    · simp at h
    · simp only [Except.ok.injEq, Prod.mk.injEq] at h
      rw [← h.2]
      split at h1
      · simp at h1
      · split at h1
        · simp at h1
        · exact Tree.walk_ahead hc h1

/-- The decoder leaves a valid cursor of the same buffer, not behind where it began (R26, R27, R130). -/
theorem decode_ahead {lv : Level} {c d : Cur} {i : Instr} (hc : c.Valid) (h0 : lv.bytes = true → c.bit = 0)
    (h : decode lv c = .ok (i, d)) : c.Ahead d := by
  have byte1 {f : Byte → Instr} (z : c.bit = 0)
      (h : (match c.readU8 with | .error e => .error e | .ok (b, c1) => .ok (f b, c1)) = Except.ok (ε := Reject) (i, d)) :
      c.Ahead d := by
    split at h
    · simp at h
    · rename_i b c1 h1
      obtain ⟨a1, -, rfl⟩ := Cur.readU8_ok h1
      simp only [Except.ok.injEq, Prod.mk.injEq] at h
      rw [← h.2]
      exact Cur.ahead_bytes a1 z
  cases lv with
  | signature => exact decodeSig_ahead (h0 rfl) hc h
  | chunk m f => exact decodeChunk_ahead (h0 rfl) h
  | zhdr n =>
    simp only [decode, decodeZhdr] at h
    split at h
    · simp at h
    · rename_i bs c1 h1
      obtain ⟨a1, -, rfl⟩ := Cur.take_ok h1
      simp only [Except.ok.injEq, Prod.mk.injEq] at h
      rw [← h.2]
      exact Cur.ahead_bytes a1 (h0 rfl)
  | blkHdr => exact decodeBlkHdr_ahead hc h
  | stored => exact (decodeStored_ahead hc h).1
  | dynHdr => exact decodeDynHdr_ahead hc h
  | sym k t => exact decodeSym_ahead hc h
  | scanline => exact byte1 (h0 rfl) h
  | pixFmt =>
    simp only [decode] at h
    split at h
    · simp at h
    · rename_i bs c1 h1
      obtain ⟨a1, -, rfl⟩ := Cur.take_ok h1
      simp only [Except.ok.injEq, Prod.mk.injEq] at h
      rw [← h.2]
      exact Cur.ahead_bytes a1 (h0 rfl)
  | dispose => exact byte1 (h0 rfl) h
  | blend => exact byte1 (h0 rfl) h

end Sys2Proof
end

