-- ==== Sys2Proof/Laws/Bits.lean ====
section
/-! SUPPORT. The bit reads in closed form (R137, R138, R140): the value read, the cursor left, and when they raise. -/

namespace Sys2Proof

/-- Bit `j` of a byte sequence in reading order. -/
def bitAt (d : List Byte) (j : Nat) : Bool := (byteAt d (j / 8)).getLsbD (j % 8)

/-- The number of `n` bits from bit `j` on, bit i weighted 2^i. -/
def bitsAt (d : List Byte) (j n : Nat) : Nat := ((List.range n).map fun i => (bitAt d (j + i)).toNat * 2 ^ i).sum

theorem bitsAt_succ (d : List Byte) (j n : Nat) : bitsAt d j (n + 1) = (bitAt d j).toNat + 2 * bitsAt d (j + 1) n := by
  simp only [bitsAt, List.range_succ_eq_map, List.map_cons, List.map_map, List.sum_cons, Nat.add_zero, Nat.pow_zero,
    Nat.mul_one]
  congr 1
  rw [← List.sum_map_mul_left]
  congr 1
  refine List.map_congr_left fun i _ => ?_
  simp only [Function.comp, Nat.succ_eq_add_one, Nat.pow_succ]
  rw [show j + (i + 1) = j + 1 + i by omega]
  ring

theorem Cur.readBit_spec (c : Cur) (hc : c.bit < 8) :
    c.readBit = if c.pos < c.buf.length then .ok (bitAt c.buf c.offset, c.advance 1) else .error .eof := by
  unfold Cur.readBit
  by_cases h : c.pos < c.buf.length
  · rw [if_neg (by omega), if_pos h]
    have e1 : c.offset / 8 = c.pos := by simp only [Cur.offset]; omega
    have e2 : c.offset % 8 = c.bit := by simp only [Cur.offset]; omega
    simp only [bitAt, e1, e2, Cur.advance]
    congr 2
    split
    · congr 1 <;> omega
    · congr 1 <;> omega
  · rw [if_pos (by omega), if_neg h]

theorem Cur.advance_advance (c : Cur) (m n : Nat) : (c.advance m).advance n = c.advance (m + n) := by
  simp only [Cur.advance]
  congr 1 <;> omega

@[simp] theorem Cur.advance_buf (c : Cur) (n : Nat) : (c.advance n).buf = c.buf := rfl

@[simp] theorem Cur.advance_offset (c : Cur) (n : Nat) : (c.advance n).offset = c.offset + n := by
  simp only [Cur.advance, Cur.offset]
  omega

theorem Cur.advance_bit (c : Cur) (n : Nat) : (c.advance n).bit < 8 := Nat.mod_lt _ (by decide)

theorem Cur.advance_zero (c : Cur) (hc : c.bit < 8) : c.advance 0 = c := by
  obtain ⟨b, p, i⟩ := c
  simp only [Cur.advance] at *
  congr 1 <;> omega

/-- R138 whole: what `read_bits` returns, where it leaves the cursor, and when it raises. -/
theorem Cur.readBits_spec (n : Nat) (c : Cur) (hc : c.bit < 8) :
    c.readBits n = if n = 0 ∨ c.offset + n ≤ 8 * c.buf.length then .ok (bitsAt c.buf c.offset n, c.advance n)
      else .error .eof := by
  induction n generalizing c with
  | zero => simp [Cur.readBits, bitsAt, Cur.advance_zero c hc]
  | succ n ih =>
    simp only [Cur.readBits, Cur.readBit_spec c hc]
    have ho : c.offset = 8 * c.pos + c.bit := rfl
    by_cases h : c.pos < c.buf.length
    · rw [if_pos h]
      simp only []
      rw [ih _ (Cur.advance_bit c 1)]
      simp only [Cur.advance_buf, Cur.advance_offset]
      by_cases h2 : c.offset + (n + 1) ≤ 8 * c.buf.length
      · rw [if_pos (by omega), if_pos (by omega)]
        simp only [Cur.advance_advance, bitsAt_succ]
        rw [Nat.add_comm 1 n]
      · have hn : n ≠ 0 := by rintro rfl; omega
        rw [if_neg (by omega), if_neg (by omega)]
    · rw [if_neg h, if_neg (by omega)]

theorem bitsAt_lt (d : List Byte) (j n : Nat) : bitsAt d j n < 2 ^ n := by
  induction n generalizing j with
  | zero => simp [bitsAt]
  | succ n ih =>
    rw [bitsAt_succ, Nat.pow_succ]
    have := ih (j + 1)
    have := Bool.toNat_le (bitAt d j)
    omega

/-- Two reads are one (R140). -/
theorem bitsAt_add (d : List Byte) (j a b : Nat) : bitsAt d j (a + b) = bitsAt d j a + bitsAt d (j + a) b * 2 ^ a := by
  induction a generalizing j with
  | zero => simp [bitsAt]
  | succ a ih =>
    rw [Nat.succ_add_eq_add_succ, show a + (b + 1) = (a + b) + 1 by omega, bitsAt_succ, bitsAt_succ, ih]
    rw [show j + 1 + a = j + (a + 1) by omega, Nat.pow_succ]
    ring

/-! ## Bits in reading order against the reads -/

theorem byteBits_length (b : Byte) : (byteBits b).length = 8 := by simp [byteBits]

theorem flatBits_length (l : List Byte) : (l.flatMap byteBits).length = 8 * l.length := by
  induction l with
  | nil => rfl
  | cons b l ih => rw [List.flatMap_cons, List.length_append, ih, byteBits_length, List.length_cons]; omega

theorem flatBits_drop (l : List Byte) (p : Nat) : (l.drop p).flatMap byteBits = (l.flatMap byteBits).drop (8 * p) := by
  induction l generalizing p with
  | nil => simp
  | cons b l ih =>
    cases p with
    | zero => rfl
    | succ p =>
      have h0 : (byteBits b).drop (8 * (p + 1)) = [] := List.drop_eq_nil_of_le (by rw [byteBits_length]; omega)
      rw [List.drop_succ_cons, ih, List.flatMap_cons, List.drop_append, byteBits_length, h0, List.nil_append]
      rfl

theorem flatBits_get (l : List Byte) (j : Nat) (h : j < 8 * l.length) : (l.flatMap byteBits)[j]? = some (bitAt l j) := by
  induction l generalizing j with
  | nil => simp at h
  | cons b l ih =>
    rw [List.flatMap_cons]
    rcases Nat.lt_or_ge j 8 with hj | hj
    · rw [List.getElem?_append_left (by rw [byteBits_length]; exact hj)]
      have : j / 8 = 0 := by omega
      have h2 : j % 8 = j := by omega
      simp [byteBits, bitAt, byteAt, this, h2, hj]
    · rw [List.getElem?_append_right (by rw [byteBits_length]; exact hj), byteBits_length, ih _ (by simp only [List.length_cons] at h; omega)]
      have : j / 8 = (j - 8) / 8 + 1 := by omega
      have h2 : j % 8 = (j - 8) % 8 := by omega
      simp only [bitAt, byteAt, this, h2, List.getD_cons_succ]

theorem Cur.bits_eq (c : Cur) : c.bits = (c.buf.flatMap byteBits).drop c.offset := by
  rw [Cur.bits, flatBits_drop, List.drop_drop]; rfl

theorem Cur.bits_advance (c : Cur) (n : Nat) : (c.advance n).bits = c.bits.drop n := by
  rw [Cur.bits_eq, Cur.bits_eq, Cur.advance_buf, Cur.advance_offset, List.drop_drop]

theorem sum_testBit (n v : Nat) (h : v < 2 ^ n) : ((List.range n).map fun i => (v.testBit i).toNat * 2 ^ i).sum = v := by
  induction n generalizing v with
  | zero => simp at h; simp [h]
  | succ n ih =>
    rw [List.range_succ_eq_map, List.map_cons, List.sum_cons, List.map_map]
    have := ih (v / 2) (by rw [Nat.pow_succ] at h; omega)
    have e : ((List.range n).map ((fun i => (v.testBit i).toNat * 2 ^ i) ∘ Nat.succ)).sum = 2 * (v / 2) := by
      rw [← this, ← List.sum_map_mul_left]
      congr 1
      refine List.map_congr_left fun i _ => ?_
      simp only [Function.comp, Nat.succ_eq_add_one, Nat.testBit_succ, Nat.pow_succ]
      ring
    have h0 : (v.testBit 0).toNat = v % 2 := by rw [Nat.toNat_testBit]; simp
    rw [e, h0, Nat.pow_zero]
    omega

theorem Cur.readBits_of (d : Cur) (n v : Nat) (hd : d.bit < 8) (hv : v < 2 ^ n) (h : d.bits.take n = natBits n v) : d.readBits n = .ok (v, d.advance n) := by
  have hl : (d.bits.take n).length = n := by rw [h]; simp [natBits]
  have hlen : d.offset + n ≤ 8 * d.buf.length ∨ n = 0 := by
    rw [List.length_take, Cur.bits_eq, List.length_drop, flatBits_length] at hl
    omega
  rw [Cur.readBits_spec n d hd, if_pos (by omega)]
  congr 2
  rw [← sum_testBit n v hv]
  unfold bitsAt
  congr 1
  refine List.map_congr_left fun i hi => ?_
  have hi := List.mem_range.1 hi
  have g := congrArg (·[i]?) h
  simp only [List.getElem?_take, hi, if_true, Cur.bits_eq, List.getElem?_drop] at g
  rw [flatBits_get _ _ (by omega)] at g
  simp [natBits, hi] at g
  rw [g]

theorem take_bits_append {a : List Bool} {x y : List Bool} (h : a.take (x ++ y).length = x ++ y) : a.take x.length = x ∧ (a.drop x.length).take y.length = y := by
  rw [List.length_append] at h
  constructor
  · have := congrArg (List.take x.length) h
    simpa [List.take_take] using this
  · have := congrArg (List.drop x.length) h
    simpa [List.drop_take] using this

theorem natBits_length (n v : Nat) : (natBits n v).length = n := by simp [natBits]

/-- One field of a bit-level element. -/
theorem Cur.field {d : Cur} {n v : Nat} {y : List Bool} (hd : d.bit < 8) (hv : v < 2 ^ n) (h : d.bits.take (natBits n v ++ y).length = natBits n v ++ y) :
    d.readBits n = .ok (v, d.advance n) ∧ (d.advance n).bits.take y.length = y := by
  obtain ⟨h1, h2⟩ := take_bits_append h
  rw [natBits_length] at h1 h2
  exact ⟨Cur.readBits_of d n v hd hv h1, by rw [Cur.bits_advance]; exact h2⟩

theorem readClLens_of (vs : List (BitVec 3)) (d : Cur) (hd : d.bit < 8) (h : d.bits.take (vs.flatMap fun v => natBits 3 v.toNat).length = vs.flatMap fun v => natBits 3 v.toNat) :
    readClLens vs.length d = .ok (vs, d.advance (3 * vs.length)) := by
  induction vs generalizing d with
  | nil => simp [readClLens, Cur.advance_zero d hd]
  | cons v vs ih =>
    rw [List.flatMap_cons] at h
    obtain ⟨h1, h2⟩ := Cur.field hd v.isLt h
    simp only [List.length_cons, readClLens, h1, ih _ (Cur.advance_bit d 3) h2]
    simp only [BitVec.ofNat_toNat, BitVec.setWidth_eq, Cur.advance_advance]
    congr 3; omega

theorem triple_length (vs : List (BitVec 3)) : (vs.flatMap fun v => natBits 3 v.toNat).length = 3 * vs.length := by
  induction vs with
  | nil => rfl
  | cons v vs ih => rw [List.flatMap_cons, List.length_append, ih, natBits_length, List.length_cons]; omega

end Sys2Proof
end

