-- ==== Sys2Proof/Laws/Memory.lean ====
section
/-! SUPPORT. The laws of the memory list: a read after a write, the canonical form, and that canonical memories that
read alike are equal. -/

namespace Sys2Proof.Machine

theorem Memory.read_cons (a b : Nat) (v : Byte) (m : Memory) (hm : a < b ∨ Memory.read m a = unlistedByte) :
    Memory.read (Memory.cons a v m) b = if b = a then v else Memory.read m b := by
  unfold Memory.cons
  split
  · rename_i h
    split
    · rename_i hb
      rcases hm with hm | hm
      · omega
      · rw [hb, hm, h]
    · rfl
  · simp only [Memory.read]
    split <;> split <;> first | rfl | omega

/-- Every listed address of a memory lies above `a`. -/
def Memory.above (a : Nat) (m : Memory) : Prop := ∀ c ∈ m, a < c.1

theorem Memory.wf_cons_iff (k : Nat) (v : Byte) (m : Memory) :
    Memory.wf ((k, v) :: m) = true ↔ v ≠ unlistedByte ∧ Memory.above k m ∧ Memory.wf m = true := by
  induction m generalizing k v with
  | nil => simp [Memory.wf, Memory.above]
  | cons c m ih =>
    obtain ⟨k', v'⟩ := c
    have h2 := ih k' v'
    simp only [Memory.wf, Bool.and_eq_true, decide_eq_true_eq]
    constructor
    · rintro ⟨⟨hv, hk⟩, hw⟩
      refine ⟨hv, ?_, hw⟩
      intro c hc
      rcases List.mem_cons.mp hc with rfl | hc
      · exact hk
      · exact Nat.lt_trans hk ((h2.mp hw).2.1 c hc)
    · rintro ⟨hv, ha, hw⟩
      exact ⟨⟨hv, ha (k', v') (by simp)⟩, hw⟩

theorem Memory.read_above (a : Nat) (m : Memory) (h : Memory.above a m) : Memory.read m a = unlistedByte := by
  induction m with
  | nil => rfl
  | cons c m ih =>
    obtain ⟨k, v⟩ := c
    have hk : a < k := h (k, v) (by simp)
    simp only [Memory.read]
    rw [if_neg (by omega)]
    exact ih fun c hc => h c (by simp [hc])

/-- A read after a write, of a canonical memory. -/
theorem Memory.read_write (m : Memory) (hm : Memory.wf m = true) (a b : Nat) (v : Byte) :
    Memory.read (Memory.write m a v) b = if b = a then v else Memory.read m b := by
  induction m with
  | nil => exact Memory.read_cons a b v [] (Or.inr rfl)
  | cons c m ih =>
    obtain ⟨k, w⟩ := c
    obtain ⟨hw, ha, hwf⟩ := (Memory.wf_cons_iff k w m).mp hm
    simp only [Memory.write]
    split
    · rename_i hak
      refine Memory.read_cons a b v ((k, w) :: m) (Or.inr (Memory.read_above a _ ?_))
      intro c hc
      rcases List.mem_cons.mp hc with rfl | hc
      · exact hak
      · exact Nat.lt_trans hak (ha c hc)
    · split
      · rename_i h1 h2
        rw [Memory.read_cons a b v m (Or.inr (Memory.read_above a _ (h2 ▸ ha)))]
        simp only [Memory.read]
        split
        · rfl
        · rw [if_neg (by omega)]
      · simp only [Memory.read]
        split
        · rw [if_neg (by omega)]
        · exact ih hwf

theorem Memory.above_write (k a : Nat) (m : Memory) (v : Byte) (h : Memory.above k m) (ha : k < a) :
    Memory.above k (Memory.write m a v) := by
  induction m with
  | nil =>
    simp only [Memory.write, Memory.cons]
    split
    · exact h
    · intro c hc
      simp at hc
      subst hc
      exact ha
  | cons c m ih =>
    obtain ⟨k', w⟩ := c
    have hk' : k < k' := h (k', w) (by simp)
    have hm : Memory.above k m := fun c hc => h c (by simp [hc])
    simp only [Memory.write]
    split
    · simp only [Memory.cons]
      split
      · exact h
      · intro c hc
        rcases List.mem_cons.mp hc with rfl | hc
        · exact ha
        · exact h c hc
    · split
      · simp only [Memory.cons]
        split
        · exact hm
        · intro c hc
          rcases List.mem_cons.mp hc with rfl | hc
          · exact ha
          · exact hm c hc
      · intro c hc
        rcases List.mem_cons.mp hc with rfl | hc
        · exact hk'
        · exact ih hm c hc

/-- A write keeps the canonical form. -/
theorem Memory.wf_write (m : Memory) (hm : Memory.wf m = true) (a : Nat) (v : Byte) :
    Memory.wf (Memory.write m a v) = true := by
  induction m with
  | nil =>
    simp only [Memory.write, Memory.cons]
    split
    · rfl
    · simpa [Memory.wf] using ‹¬ v = unlistedByte›
  | cons c m ih =>
    obtain ⟨k, w⟩ := c
    obtain ⟨hw, ha, hwf⟩ := (Memory.wf_cons_iff k w m).mp hm
    simp only [Memory.write]
    split
    · rename_i hak
      simp only [Memory.cons]
      split
      · exact hm
      · rename_i hv
        refine (Memory.wf_cons_iff a v _).mpr ⟨hv, ?_, hm⟩
        intro c hc
        rcases List.mem_cons.mp hc with rfl | hc
        · exact hak
        · exact Nat.lt_trans hak (ha c hc)
    · split
      · rename_i h2
        simp only [Memory.cons]
        split
        · exact hwf
        · rename_i hv
          exact (Memory.wf_cons_iff a v m).mpr ⟨hv, h2 ▸ ha, hwf⟩
      · exact (Memory.wf_cons_iff k w _).mpr ⟨hw, Memory.above_write k a m v ha (by omega), ih hwf⟩

/-- A run of writes keeps the canonical form. -/
theorem Memory.wf_writeList (bs : List Byte) (m : Memory) (hm : Memory.wf m = true) (a : Nat) :
    Memory.wf (Memory.writeList m a bs) = true := by
  induction bs generalizing m a with
  | nil => exact hm
  | cons b bs ih => exact ih _ (Memory.wf_write m hm a b) (a + 1)

/-- What a run of writes leaves at each address. -/
theorem Memory.read_writeList (bs : List Byte) (m : Memory) (hm : Memory.wf m = true) (a b : Nat) :
    Memory.read (Memory.writeList m a bs) b
      = if a ≤ b ∧ b < a + bs.length then bs.getD (b - a) 0 else Memory.read m b := by
  induction bs generalizing m a with
  | nil =>
    rw [if_neg (by simp only [List.length_nil]; omega)]
    rfl
  | cons v bs ih =>
    simp only [Memory.writeList, List.length_cons]
    rw [ih _ (Memory.wf_write m hm a v) (a + 1), Memory.read_write m hm]
    by_cases h1 : a + 1 ≤ b ∧ b < a + 1 + bs.length
    · rw [if_pos h1, if_pos (by omega)]
      obtain ⟨d, rfl⟩ : ∃ d, b = a + 1 + d := ⟨b - (a + 1), by omega⟩
      have e1 : a + 1 + d - (a + 1) = d := by omega
      have e2 : a + 1 + d - a = d + 1 := by omega
      rw [e1, e2]
      rfl
    · rw [if_neg h1]
      by_cases h2 : b = a
      · subst h2
        rw [if_pos rfl, if_pos (by omega)]
        simp
      · rw [if_neg h2, if_neg (by omega)]

/-- A run of writes leaves every address outside it as it was, whatever the memory. -/
theorem Memory.read_write_other (m : Memory) (a b : Nat) (v : Byte) (h : b ≠ a) :
    Memory.read (Memory.write m a v) b = Memory.read m b := by
  have hc (m : Memory) : Memory.read (Memory.cons a v m) b = Memory.read m b := by
    simp only [Memory.cons]
    split
    · rfl
    · simp only [Memory.read]
      rw [if_neg (Ne.symm h)]
  induction m with
  | nil => exact hc []
  | cons c m ih =>
    obtain ⟨k, w⟩ := c
    simp only [Memory.write]
    split
    · exact hc _
    · split
      · rename_i h2
        rw [hc]
        simp only [Memory.read]
        rw [if_neg (by omega)]
      · simp only [Memory.read]
        rw [ih]

theorem Memory.read_writeList_other (bs : List Byte) (m : Memory) (a b : Nat) (h : ¬(a ≤ b ∧ b < a + bs.length)) :
    Memory.read (Memory.writeList m a bs) b = Memory.read m b := by
  induction bs generalizing m a with
  | nil => rfl
  | cons v bs ih =>
    simp only [Memory.writeList, List.length_cons] at *
    rw [ih _ (a + 1) (by omega), Memory.read_write_other _ _ _ _ (by omega)]

/-- Canonical memories that read alike are equal. -/
theorem Memory.ext_read (m n : Memory) (hm : Memory.wf m = true) (hn : Memory.wf n = true)
    (h : ∀ a, Memory.read m a = Memory.read n a) : m = n := by
  induction m generalizing n with
  | nil =>
    cases n with
    | nil => rfl
    | cons c n =>
      obtain ⟨k, v⟩ := c
      have h1 := h k
      simp only [Memory.read, if_pos] at h1
      exact absurd h1.symm ((Memory.wf_cons_iff k v n).mp hn).1
  | cons c m ih =>
    obtain ⟨k, v⟩ := c
    obtain ⟨hv, ha, hw⟩ := (Memory.wf_cons_iff k v m).mp hm
    cases n with
    | nil =>
      have h1 := h k
      simp only [Memory.read, if_pos] at h1
      exact absurd h1 hv
    | cons d n =>
      obtain ⟨k', v'⟩ := d
      obtain ⟨hv', ha', hw'⟩ := (Memory.wf_cons_iff k' v' n).mp hn
      have hk : k = k' := by
        rcases Nat.lt_trichotomy k k' with hlt | heq | hgt
        · exfalso
          have h1 := h k
          simp only [Memory.read, if_pos] at h1
          rw [if_neg (by omega), Memory.read_above k n fun c hc => Nat.lt_trans hlt (ha' c hc)] at h1
          exact hv h1
        · exact heq
        · exfalso
          have h1 := h k'
          simp only [Memory.read, if_pos] at h1
          rw [if_neg (by omega), Memory.read_above k' m fun c hc => Nat.lt_trans hgt (ha c hc)] at h1
          exact hv' h1.symm
      subst hk
      have hvv : v = v' := by simpa [Memory.read] using h k
      subst hvv
      rw [ih n hw hw' ?_]
      intro a
      by_cases hak : a = k
      · subst hak
        rw [Memory.read_above a m ha, Memory.read_above a n ha']
      · have h1 := h a
        simp only [Memory.read] at h1
        rwa [if_neg (by omega), if_neg (by omega)] at h1

end Sys2Proof.Machine
end

