-- ==== Sys2Proof/Laws/State.lean ====
section
/-! SUPPORT. What each named update of the state does to each field: one lemma per field per update, so that no later
proof unfolds a record update. -/

namespace Sys2Proof.Machine

/-! ## `release` -/

@[simp] theorem release_cfg (s : State) : (release s).cfg = s.cfg := rfl
@[simp] theorem release_runState (s : State) : (release s).runState = s.runState := rfl
@[simp] theorem release_painted (s : State) : (release s).painted = s.painted := rfl
@[simp] theorem release_anim (s : State) : (release s).anim = s.anim := rfl
@[simp] theorem release_errcode (s : State) : (release s).errcode = s.errcode := rfl
@[simp] theorem release_srcBase (s : State) : (release s).srcBase = s.srcBase := rfl
@[simp] theorem release_srcLen (s : State) : (release s).srcLen = s.srcLen := rfl
@[simp] theorem release_canvasBase (s : State) : (release s).canvasBase = s.canvasBase := rfl
@[simp] theorem release_canvasStride (s : State) : (release s).canvasStride = s.canvasStride := rfl
@[simp] theorem release_canvasW (s : State) : (release s).canvasW = s.canvasW := rfl
@[simp] theorem release_canvasH (s : State) : (release s).canvasH = s.canvasH := rfl
@[simp] theorem release_cfgBg (s : State) : (release s).cfgBg = s.cfgBg := rfl
@[simp] theorem release_cfgX (s : State) : (release s).cfgX = s.cfgX := rfl
@[simp] theorem release_cfgY (s : State) : (release s).cfgY = s.cfgY := rfl
@[simp] theorem release_framesOut (s : State) : (release s).framesOut = s.framesOut := rfl
@[simp] theorem release_cap (s : State) : (release s).cap = s.cap := rfl
@[simp] theorem release_cp (s : State) : (release s).cp = 0 := rfl
@[simp] theorem release_ip (s : State) : (release s).ip = 0 := rfl
@[simp] theorem release_ib (s : State) : (release s).ib = 0 := rfl
@[simp] theorem release_haveIhdr (s : State) : (release s).haveIhdr = false := rfl
@[simp] theorem release_havePlte (s : State) : (release s).havePlte = false := rfl
@[simp] theorem release_keyValid (s : State) : (release s).keyValid = false := rfl
@[simp] theorem release_haveBkgd (s : State) : (release s).haveBkgd = false := rfl
@[simp] theorem release_haveGamma (s : State) : (release s).haveGamma = false := rfl
@[simp] theorem release_animated (s : State) : (release s).animated = false := rfl
@[simp] theorem release_fctlValid (s : State) : (release s).fctlValid = false := rfl
@[simp] theorem release_seenIend (s : State) : (release s).seenIend = false := rfl
@[simp] theorem release_bfinal (s : State) : (release s).bfinal = false := rfl
@[simp] theorem release_hdr (s : State) : (release s).hdr = ⟨0, 0, 0, 0, 0, 0, 0, 0, 0, 0, 0⟩ := rfl
@[simp] theorem release_key0 (s : State) : (release s).key0 = 0 := rfl
@[simp] theorem release_key1 (s : State) : (release s).key1 = 0 := rfl
@[simp] theorem release_key2 (s : State) : (release s).key2 = 0 := rfl
@[simp] theorem release_bg (s : State) : (release s).bg = 0 := rfl
@[simp] theorem release_bkgd0 (s : State) : (release s).bkgd0 = 0 := rfl
@[simp] theorem release_bkgd1 (s : State) : (release s).bkgd1 = 0 := rfl
@[simp] theorem release_bkgd2 (s : State) : (release s).bkgd2 = 0 := rfl
@[simp] theorem release_gamma (s : State) : (release s).gamma = 0 := rfl
@[simp] theorem release_pal (s : State) : (release s).pal = List.replicate 256 ⟨0, 0, 0, 0⟩ := rfl
@[simp] theorem release_palN (s : State) : (release s).palN = 0 := rfl
@[simp] theorem release_numFrames (s : State) : (release s).numFrames = 0 := rfl
@[simp] theorem release_numPlays (s : State) : (release s).numPlays = 0 := rfl
@[simp] theorem release_nextSeq (s : State) : (release s).nextSeq = 0 := rfl
@[simp] theorem release_fctlSeen (s : State) : (release s).fctlSeen = 0 := rfl
@[simp] theorem release_fW (s : State) : (release s).fW = 0 := rfl
@[simp] theorem release_fH (s : State) : (release s).fH = 0 := rfl
@[simp] theorem release_fX (s : State) : (release s).fX = 0 := rfl
@[simp] theorem release_fY (s : State) : (release s).fY = 0 := rfl
@[simp] theorem release_fDelay (s : State) : (release s).fDelay = 0 := rfl
@[simp] theorem release_fDispose (s : State) : (release s).fDispose = 0 := rfl
@[simp] theorem release_fBlend (s : State) : (release s).fBlend = 0 := rfl
@[simp] theorem release_framesDone (s : State) : (release s).framesDone = 0 := rfl
@[simp] theorem release_acc (s : State) : (release s).acc = [] := rfl
@[simp] theorem release_frames (s : State) : (release s).frames = [] := rfl
@[simp] theorem release_tLit (s : State) : (release s).tLit = noTree := rfl
@[simp] theorem release_tDist (s : State) : (release s).tDist = noTree := rfl
@[simp] theorem release_tCl (s : State) : (release s).tCl = noTree := rfl
@[simp] theorem release_btype (s : State) : (release s).btype = 0 := rfl
@[simp] theorem release_hlit (s : State) : (release s).hlit = 0 := rfl
@[simp] theorem release_hdist (s : State) : (release s).hdist = 0 := rfl
@[simp] theorem release_hclen (s : State) : (release s).hclen = 0 := rfl
@[simp] theorem release_cllen (s : State) : (release s).cllen = List.replicate 19 0 := rfl
@[simp] theorem release_lens (s : State) : (release s).lens = List.replicate 320 0 := rfl
@[simp] theorem release_out (s : State) : (release s).out = [] := rfl
@[simp] theorem release_ox (s : State) : (release s).ox = 0 := rfl
@[simp] theorem release_oy (s : State) : (release s).oy = 0 := rfl
@[simp] theorem release_plays (s : State) : (release s).plays = 0 := rfl
@[simp] theorem release_play (s : State) : (release s).play = 0 := rfl
@[simp] theorem release_fidx (s : State) : (release s).fidx = 0 := rfl
@[simp] theorem release_snap (s : State) : (release s).snap = [] := rfl
@[simp] theorem release_mem (s : State) : (release s).mem = s.mem := rfl
@[simp] theorem release_trace (s : State) : (release s).trace = s.trace := rfl
@[simp] theorem release_phase (s : State) : (release s).phase = .idle := rfl
@[simp] theorem release_li (s : State) : (release s).li = 0 := rfl
@[simp] theorem release_mlen (s : State) : (release s).mlen = 0 := rfl
@[simp] theorem release_mdist (s : State) : (release s).mdist = 0 := rfl
@[simp] theorem release_job (s : State) : (release s).job = ⟨0, 0, 0, 0, 0, 0, 0, 0, 0, [], .iend⟩ := rfl
@[simp] theorem release_res (s : State) : (release s).res = none := rfl
@[simp] theorem release_allocN (s : State) : (release s).allocN = s.allocN := rfl
@[simp] theorem release_allocDenied (s : State) : (release s).allocDenied = s.allocDenied := rfl
@[simp] theorem release_hostQ (s : State) : (release s).hostQ = s.hostQ := rfl
@[simp] theorem release_hostRd (s : State) : (release s).hostRd = s.hostRd := rfl
@[simp] theorem release_freeN (s : State) : (release s).freeN = s.freeN := rfl

/-! ## `trap` -/

@[simp] theorem trap_cfg (e : ErrKind) (s : State) : (trap e s).cfg = s.cfg := rfl
@[simp] theorem trap_runState (e : ErrKind) (s : State) : (trap e s).runState = .error := rfl
@[simp] theorem trap_painted (e : ErrKind) (s : State) : (trap e s).painted = s.painted := rfl
@[simp] theorem trap_anim (e : ErrKind) (s : State) : (trap e s).anim = s.anim := rfl
@[simp] theorem trap_errcode (e : ErrKind) (s : State) : (trap e s).errcode = Config.errCode s.cfg e := rfl
@[simp] theorem trap_srcBase (e : ErrKind) (s : State) : (trap e s).srcBase = s.srcBase := rfl
@[simp] theorem trap_srcLen (e : ErrKind) (s : State) : (trap e s).srcLen = s.srcLen := rfl
@[simp] theorem trap_canvasBase (e : ErrKind) (s : State) : (trap e s).canvasBase = s.canvasBase := rfl
@[simp] theorem trap_canvasStride (e : ErrKind) (s : State) : (trap e s).canvasStride = s.canvasStride := rfl
@[simp] theorem trap_canvasW (e : ErrKind) (s : State) : (trap e s).canvasW = s.canvasW := rfl
@[simp] theorem trap_canvasH (e : ErrKind) (s : State) : (trap e s).canvasH = s.canvasH := rfl
@[simp] theorem trap_cfgBg (e : ErrKind) (s : State) : (trap e s).cfgBg = s.cfgBg := rfl
@[simp] theorem trap_cfgX (e : ErrKind) (s : State) : (trap e s).cfgX = s.cfgX := rfl
@[simp] theorem trap_cfgY (e : ErrKind) (s : State) : (trap e s).cfgY = s.cfgY := rfl
@[simp] theorem trap_framesOut (e : ErrKind) (s : State) : (trap e s).framesOut = s.framesOut := rfl
@[simp] theorem trap_cap (e : ErrKind) (s : State) : (trap e s).cap = s.cap := rfl
@[simp] theorem trap_cp (e : ErrKind) (s : State) : (trap e s).cp = 0 := rfl
@[simp] theorem trap_ip (e : ErrKind) (s : State) : (trap e s).ip = 0 := rfl
@[simp] theorem trap_ib (e : ErrKind) (s : State) : (trap e s).ib = 0 := rfl
@[simp] theorem trap_haveIhdr (e : ErrKind) (s : State) : (trap e s).haveIhdr = false := rfl
@[simp] theorem trap_havePlte (e : ErrKind) (s : State) : (trap e s).havePlte = false := rfl
@[simp] theorem trap_keyValid (e : ErrKind) (s : State) : (trap e s).keyValid = false := rfl
@[simp] theorem trap_haveBkgd (e : ErrKind) (s : State) : (trap e s).haveBkgd = false := rfl
@[simp] theorem trap_haveGamma (e : ErrKind) (s : State) : (trap e s).haveGamma = false := rfl
@[simp] theorem trap_animated (e : ErrKind) (s : State) : (trap e s).animated = false := rfl
@[simp] theorem trap_fctlValid (e : ErrKind) (s : State) : (trap e s).fctlValid = false := rfl
@[simp] theorem trap_seenIend (e : ErrKind) (s : State) : (trap e s).seenIend = false := rfl
@[simp] theorem trap_bfinal (e : ErrKind) (s : State) : (trap e s).bfinal = false := rfl
@[simp] theorem trap_hdr (e : ErrKind) (s : State) : (trap e s).hdr = ⟨0, 0, 0, 0, 0, 0, 0, 0, 0, 0, 0⟩ := rfl
@[simp] theorem trap_key0 (e : ErrKind) (s : State) : (trap e s).key0 = 0 := rfl
@[simp] theorem trap_key1 (e : ErrKind) (s : State) : (trap e s).key1 = 0 := rfl
@[simp] theorem trap_key2 (e : ErrKind) (s : State) : (trap e s).key2 = 0 := rfl
@[simp] theorem trap_bg (e : ErrKind) (s : State) : (trap e s).bg = 0 := rfl
@[simp] theorem trap_bkgd0 (e : ErrKind) (s : State) : (trap e s).bkgd0 = 0 := rfl
@[simp] theorem trap_bkgd1 (e : ErrKind) (s : State) : (trap e s).bkgd1 = 0 := rfl
@[simp] theorem trap_bkgd2 (e : ErrKind) (s : State) : (trap e s).bkgd2 = 0 := rfl
@[simp] theorem trap_gamma (e : ErrKind) (s : State) : (trap e s).gamma = 0 := rfl
@[simp] theorem trap_pal (e : ErrKind) (s : State) : (trap e s).pal = List.replicate 256 ⟨0, 0, 0, 0⟩ := rfl
@[simp] theorem trap_palN (e : ErrKind) (s : State) : (trap e s).palN = 0 := rfl
@[simp] theorem trap_numFrames (e : ErrKind) (s : State) : (trap e s).numFrames = 0 := rfl
@[simp] theorem trap_numPlays (e : ErrKind) (s : State) : (trap e s).numPlays = 0 := rfl
@[simp] theorem trap_nextSeq (e : ErrKind) (s : State) : (trap e s).nextSeq = 0 := rfl
@[simp] theorem trap_fctlSeen (e : ErrKind) (s : State) : (trap e s).fctlSeen = 0 := rfl
@[simp] theorem trap_fW (e : ErrKind) (s : State) : (trap e s).fW = 0 := rfl
@[simp] theorem trap_fH (e : ErrKind) (s : State) : (trap e s).fH = 0 := rfl
@[simp] theorem trap_fX (e : ErrKind) (s : State) : (trap e s).fX = 0 := rfl
@[simp] theorem trap_fY (e : ErrKind) (s : State) : (trap e s).fY = 0 := rfl
@[simp] theorem trap_fDelay (e : ErrKind) (s : State) : (trap e s).fDelay = 0 := rfl
@[simp] theorem trap_fDispose (e : ErrKind) (s : State) : (trap e s).fDispose = 0 := rfl
@[simp] theorem trap_fBlend (e : ErrKind) (s : State) : (trap e s).fBlend = 0 := rfl
@[simp] theorem trap_framesDone (e : ErrKind) (s : State) : (trap e s).framesDone = 0 := rfl
@[simp] theorem trap_acc (e : ErrKind) (s : State) : (trap e s).acc = [] := rfl
@[simp] theorem trap_frames (e : ErrKind) (s : State) : (trap e s).frames = [] := rfl
@[simp] theorem trap_tLit (e : ErrKind) (s : State) : (trap e s).tLit = noTree := rfl
@[simp] theorem trap_tDist (e : ErrKind) (s : State) : (trap e s).tDist = noTree := rfl
@[simp] theorem trap_tCl (e : ErrKind) (s : State) : (trap e s).tCl = noTree := rfl
@[simp] theorem trap_btype (e : ErrKind) (s : State) : (trap e s).btype = 0 := rfl
@[simp] theorem trap_hlit (e : ErrKind) (s : State) : (trap e s).hlit = 0 := rfl
@[simp] theorem trap_hdist (e : ErrKind) (s : State) : (trap e s).hdist = 0 := rfl
@[simp] theorem trap_hclen (e : ErrKind) (s : State) : (trap e s).hclen = 0 := rfl
@[simp] theorem trap_cllen (e : ErrKind) (s : State) : (trap e s).cllen = List.replicate 19 0 := rfl
@[simp] theorem trap_lens (e : ErrKind) (s : State) : (trap e s).lens = List.replicate 320 0 := rfl
@[simp] theorem trap_out (e : ErrKind) (s : State) : (trap e s).out = [] := rfl
@[simp] theorem trap_ox (e : ErrKind) (s : State) : (trap e s).ox = 0 := rfl
@[simp] theorem trap_oy (e : ErrKind) (s : State) : (trap e s).oy = 0 := rfl
@[simp] theorem trap_plays (e : ErrKind) (s : State) : (trap e s).plays = 0 := rfl
@[simp] theorem trap_play (e : ErrKind) (s : State) : (trap e s).play = 0 := rfl
@[simp] theorem trap_fidx (e : ErrKind) (s : State) : (trap e s).fidx = 0 := rfl
@[simp] theorem trap_snap (e : ErrKind) (s : State) : (trap e s).snap = [] := rfl
@[simp] theorem trap_mem (e : ErrKind) (s : State) : (trap e s).mem = s.mem := rfl
@[simp] theorem trap_trace (e : ErrKind) (s : State) : (trap e s).trace = s.trace ++ [.log (Config.errCode s.cfg e)] := rfl
@[simp] theorem trap_phase (e : ErrKind) (s : State) : (trap e s).phase = .idle := rfl
@[simp] theorem trap_li (e : ErrKind) (s : State) : (trap e s).li = 0 := rfl
@[simp] theorem trap_mlen (e : ErrKind) (s : State) : (trap e s).mlen = 0 := rfl
@[simp] theorem trap_mdist (e : ErrKind) (s : State) : (trap e s).mdist = 0 := rfl
@[simp] theorem trap_job (e : ErrKind) (s : State) : (trap e s).job = ⟨0, 0, 0, 0, 0, 0, 0, 0, 0, [], .iend⟩ := rfl
@[simp] theorem trap_res (e : ErrKind) (s : State) : (trap e s).res = none := rfl
@[simp] theorem trap_allocN (e : ErrKind) (s : State) : (trap e s).allocN = s.allocN := rfl
@[simp] theorem trap_allocDenied (e : ErrKind) (s : State) : (trap e s).allocDenied = s.allocDenied := rfl
@[simp] theorem trap_hostQ (e : ErrKind) (s : State) : (trap e s).hostQ = s.hostQ := rfl
@[simp] theorem trap_hostRd (e : ErrKind) (s : State) : (trap e s).hostRd = s.hostRd := rfl
@[simp] theorem trap_freeN (e : ErrKind) (s : State) : (trap e s).freeN = s.freeN := rfl

/-! ## `putCur` -/

@[simp] theorem putCur_cfg (s : State) (r : Reader) (c : Cur) : (s.putCur r c).cfg = s.cfg := by cases r <;> rfl
@[simp] theorem putCur_runState (s : State) (r : Reader) (c : Cur) : (s.putCur r c).runState = s.runState := by cases r <;> rfl
@[simp] theorem putCur_painted (s : State) (r : Reader) (c : Cur) : (s.putCur r c).painted = s.painted := by cases r <;> rfl
@[simp] theorem putCur_anim (s : State) (r : Reader) (c : Cur) : (s.putCur r c).anim = s.anim := by cases r <;> rfl
@[simp] theorem putCur_errcode (s : State) (r : Reader) (c : Cur) : (s.putCur r c).errcode = s.errcode := by cases r <;> rfl
@[simp] theorem putCur_srcBase (s : State) (r : Reader) (c : Cur) : (s.putCur r c).srcBase = s.srcBase := by cases r <;> rfl
@[simp] theorem putCur_srcLen (s : State) (r : Reader) (c : Cur) : (s.putCur r c).srcLen = s.srcLen := by cases r <;> rfl
@[simp] theorem putCur_canvasBase (s : State) (r : Reader) (c : Cur) : (s.putCur r c).canvasBase = s.canvasBase := by cases r <;> rfl
@[simp] theorem putCur_canvasStride (s : State) (r : Reader) (c : Cur) : (s.putCur r c).canvasStride = s.canvasStride := by cases r <;> rfl
@[simp] theorem putCur_canvasW (s : State) (r : Reader) (c : Cur) : (s.putCur r c).canvasW = s.canvasW := by cases r <;> rfl
@[simp] theorem putCur_canvasH (s : State) (r : Reader) (c : Cur) : (s.putCur r c).canvasH = s.canvasH := by cases r <;> rfl
@[simp] theorem putCur_cfgBg (s : State) (r : Reader) (c : Cur) : (s.putCur r c).cfgBg = s.cfgBg := by cases r <;> rfl
@[simp] theorem putCur_cfgX (s : State) (r : Reader) (c : Cur) : (s.putCur r c).cfgX = s.cfgX := by cases r <;> rfl
@[simp] theorem putCur_cfgY (s : State) (r : Reader) (c : Cur) : (s.putCur r c).cfgY = s.cfgY := by cases r <;> rfl
@[simp] theorem putCur_framesOut (s : State) (r : Reader) (c : Cur) : (s.putCur r c).framesOut = s.framesOut := by cases r <;> rfl
@[simp] theorem putCur_cap (s : State) (r : Reader) (c : Cur) : (s.putCur r c).cap = s.cap := by cases r <;> rfl
@[simp] theorem putCur_haveIhdr (s : State) (r : Reader) (c : Cur) : (s.putCur r c).haveIhdr = s.haveIhdr := by cases r <;> rfl
@[simp] theorem putCur_havePlte (s : State) (r : Reader) (c : Cur) : (s.putCur r c).havePlte = s.havePlte := by cases r <;> rfl
@[simp] theorem putCur_keyValid (s : State) (r : Reader) (c : Cur) : (s.putCur r c).keyValid = s.keyValid := by cases r <;> rfl
@[simp] theorem putCur_haveBkgd (s : State) (r : Reader) (c : Cur) : (s.putCur r c).haveBkgd = s.haveBkgd := by cases r <;> rfl
@[simp] theorem putCur_haveGamma (s : State) (r : Reader) (c : Cur) : (s.putCur r c).haveGamma = s.haveGamma := by cases r <;> rfl
@[simp] theorem putCur_animated (s : State) (r : Reader) (c : Cur) : (s.putCur r c).animated = s.animated := by cases r <;> rfl
@[simp] theorem putCur_fctlValid (s : State) (r : Reader) (c : Cur) : (s.putCur r c).fctlValid = s.fctlValid := by cases r <;> rfl
@[simp] theorem putCur_seenIend (s : State) (r : Reader) (c : Cur) : (s.putCur r c).seenIend = s.seenIend := by cases r <;> rfl
@[simp] theorem putCur_bfinal (s : State) (r : Reader) (c : Cur) : (s.putCur r c).bfinal = s.bfinal := by cases r <;> rfl
@[simp] theorem putCur_hdr (s : State) (r : Reader) (c : Cur) : (s.putCur r c).hdr = s.hdr := by cases r <;> rfl
@[simp] theorem putCur_key0 (s : State) (r : Reader) (c : Cur) : (s.putCur r c).key0 = s.key0 := by cases r <;> rfl
@[simp] theorem putCur_key1 (s : State) (r : Reader) (c : Cur) : (s.putCur r c).key1 = s.key1 := by cases r <;> rfl
@[simp] theorem putCur_key2 (s : State) (r : Reader) (c : Cur) : (s.putCur r c).key2 = s.key2 := by cases r <;> rfl
@[simp] theorem putCur_bg (s : State) (r : Reader) (c : Cur) : (s.putCur r c).bg = s.bg := by cases r <;> rfl
@[simp] theorem putCur_bkgd0 (s : State) (r : Reader) (c : Cur) : (s.putCur r c).bkgd0 = s.bkgd0 := by cases r <;> rfl
@[simp] theorem putCur_bkgd1 (s : State) (r : Reader) (c : Cur) : (s.putCur r c).bkgd1 = s.bkgd1 := by cases r <;> rfl
@[simp] theorem putCur_bkgd2 (s : State) (r : Reader) (c : Cur) : (s.putCur r c).bkgd2 = s.bkgd2 := by cases r <;> rfl
@[simp] theorem putCur_gamma (s : State) (r : Reader) (c : Cur) : (s.putCur r c).gamma = s.gamma := by cases r <;> rfl
@[simp] theorem putCur_pal (s : State) (r : Reader) (c : Cur) : (s.putCur r c).pal = s.pal := by cases r <;> rfl
@[simp] theorem putCur_palN (s : State) (r : Reader) (c : Cur) : (s.putCur r c).palN = s.palN := by cases r <;> rfl
@[simp] theorem putCur_numFrames (s : State) (r : Reader) (c : Cur) : (s.putCur r c).numFrames = s.numFrames := by cases r <;> rfl
@[simp] theorem putCur_numPlays (s : State) (r : Reader) (c : Cur) : (s.putCur r c).numPlays = s.numPlays := by cases r <;> rfl
@[simp] theorem putCur_nextSeq (s : State) (r : Reader) (c : Cur) : (s.putCur r c).nextSeq = s.nextSeq := by cases r <;> rfl
@[simp] theorem putCur_fctlSeen (s : State) (r : Reader) (c : Cur) : (s.putCur r c).fctlSeen = s.fctlSeen := by cases r <;> rfl
@[simp] theorem putCur_fW (s : State) (r : Reader) (c : Cur) : (s.putCur r c).fW = s.fW := by cases r <;> rfl
@[simp] theorem putCur_fH (s : State) (r : Reader) (c : Cur) : (s.putCur r c).fH = s.fH := by cases r <;> rfl
@[simp] theorem putCur_fX (s : State) (r : Reader) (c : Cur) : (s.putCur r c).fX = s.fX := by cases r <;> rfl
@[simp] theorem putCur_fY (s : State) (r : Reader) (c : Cur) : (s.putCur r c).fY = s.fY := by cases r <;> rfl
@[simp] theorem putCur_fDelay (s : State) (r : Reader) (c : Cur) : (s.putCur r c).fDelay = s.fDelay := by cases r <;> rfl
@[simp] theorem putCur_fDispose (s : State) (r : Reader) (c : Cur) : (s.putCur r c).fDispose = s.fDispose := by cases r <;> rfl
@[simp] theorem putCur_fBlend (s : State) (r : Reader) (c : Cur) : (s.putCur r c).fBlend = s.fBlend := by cases r <;> rfl
@[simp] theorem putCur_framesDone (s : State) (r : Reader) (c : Cur) : (s.putCur r c).framesDone = s.framesDone := by cases r <;> rfl
@[simp] theorem putCur_acc (s : State) (r : Reader) (c : Cur) : (s.putCur r c).acc = s.acc := by cases r <;> rfl
@[simp] theorem putCur_frames (s : State) (r : Reader) (c : Cur) : (s.putCur r c).frames = s.frames := by cases r <;> rfl
@[simp] theorem putCur_tLit (s : State) (r : Reader) (c : Cur) : (s.putCur r c).tLit = s.tLit := by cases r <;> rfl
@[simp] theorem putCur_tDist (s : State) (r : Reader) (c : Cur) : (s.putCur r c).tDist = s.tDist := by cases r <;> rfl
@[simp] theorem putCur_tCl (s : State) (r : Reader) (c : Cur) : (s.putCur r c).tCl = s.tCl := by cases r <;> rfl
@[simp] theorem putCur_btype (s : State) (r : Reader) (c : Cur) : (s.putCur r c).btype = s.btype := by cases r <;> rfl
@[simp] theorem putCur_hlit (s : State) (r : Reader) (c : Cur) : (s.putCur r c).hlit = s.hlit := by cases r <;> rfl
@[simp] theorem putCur_hdist (s : State) (r : Reader) (c : Cur) : (s.putCur r c).hdist = s.hdist := by cases r <;> rfl
@[simp] theorem putCur_hclen (s : State) (r : Reader) (c : Cur) : (s.putCur r c).hclen = s.hclen := by cases r <;> rfl
@[simp] theorem putCur_cllen (s : State) (r : Reader) (c : Cur) : (s.putCur r c).cllen = s.cllen := by cases r <;> rfl
@[simp] theorem putCur_lens (s : State) (r : Reader) (c : Cur) : (s.putCur r c).lens = s.lens := by cases r <;> rfl
@[simp] theorem putCur_out (s : State) (r : Reader) (c : Cur) : (s.putCur r c).out = s.out := by cases r <;> rfl
@[simp] theorem putCur_ox (s : State) (r : Reader) (c : Cur) : (s.putCur r c).ox = s.ox := by cases r <;> rfl
@[simp] theorem putCur_oy (s : State) (r : Reader) (c : Cur) : (s.putCur r c).oy = s.oy := by cases r <;> rfl
@[simp] theorem putCur_plays (s : State) (r : Reader) (c : Cur) : (s.putCur r c).plays = s.plays := by cases r <;> rfl
@[simp] theorem putCur_play (s : State) (r : Reader) (c : Cur) : (s.putCur r c).play = s.play := by cases r <;> rfl
@[simp] theorem putCur_fidx (s : State) (r : Reader) (c : Cur) : (s.putCur r c).fidx = s.fidx := by cases r <;> rfl
@[simp] theorem putCur_snap (s : State) (r : Reader) (c : Cur) : (s.putCur r c).snap = s.snap := by cases r <;> rfl
@[simp] theorem putCur_mem (s : State) (r : Reader) (c : Cur) : (s.putCur r c).mem = s.mem := by cases r <;> rfl
@[simp] theorem putCur_trace (s : State) (r : Reader) (c : Cur) : (s.putCur r c).trace = s.trace := by cases r <;> rfl
@[simp] theorem putCur_phase (s : State) (r : Reader) (c : Cur) : (s.putCur r c).phase = s.phase := by cases r <;> rfl
@[simp] theorem putCur_li (s : State) (r : Reader) (c : Cur) : (s.putCur r c).li = s.li := by cases r <;> rfl
@[simp] theorem putCur_mlen (s : State) (r : Reader) (c : Cur) : (s.putCur r c).mlen = s.mlen := by cases r <;> rfl
@[simp] theorem putCur_mdist (s : State) (r : Reader) (c : Cur) : (s.putCur r c).mdist = s.mdist := by cases r <;> rfl
@[simp] theorem putCur_job (s : State) (r : Reader) (c : Cur) : (s.putCur r c).job = s.job := by cases r <;> rfl
@[simp] theorem putCur_res (s : State) (r : Reader) (c : Cur) : (s.putCur r c).res = s.res := by cases r <;> rfl
@[simp] theorem putCur_allocN (s : State) (r : Reader) (c : Cur) : (s.putCur r c).allocN = s.allocN := by cases r <;> rfl
@[simp] theorem putCur_allocDenied (s : State) (r : Reader) (c : Cur) : (s.putCur r c).allocDenied = s.allocDenied := by cases r <;> rfl
@[simp] theorem putCur_hostQ (s : State) (r : Reader) (c : Cur) : (s.putCur r c).hostQ = s.hostQ := by cases r <;> rfl
@[simp] theorem putCur_hostRd (s : State) (r : Reader) (c : Cur) : (s.putCur r c).hostRd = s.hostRd := by cases r <;> rfl
@[simp] theorem putCur_freeN (s : State) (r : Reader) (c : Cur) : (s.putCur r c).freeN = s.freeN := by cases r <;> rfl
@[simp] theorem putCur_src_cp (s : State) (c : Cur) : (s.putCur .src c).cp = c.pos := rfl
@[simp] theorem putCur_src_ip (s : State) (c : Cur) : (s.putCur .src c).ip = s.ip := rfl
@[simp] theorem putCur_src_ib (s : State) (c : Cur) : (s.putCur .src c).ib = s.ib := rfl
@[simp] theorem putCur_pay_cp (s : State) (c : Cur) : (s.putCur .pay c).cp = s.cp := rfl
@[simp] theorem putCur_pay_ip (s : State) (c : Cur) : (s.putCur .pay c).ip = c.pos := rfl
@[simp] theorem putCur_pay_ib (s : State) (c : Cur) : (s.putCur .pay c).ib = c.bit := rfl

/-! ## `canvasPut` -/

@[simp] theorem canvasPut_cfg (s : State) (x y : Nat) (v : Pixel) : (canvasPut s x y v).cfg = s.cfg := rfl
@[simp] theorem canvasPut_runState (s : State) (x y : Nat) (v : Pixel) : (canvasPut s x y v).runState = s.runState := rfl
@[simp] theorem canvasPut_painted (s : State) (x y : Nat) (v : Pixel) : (canvasPut s x y v).painted = s.painted := rfl
@[simp] theorem canvasPut_anim (s : State) (x y : Nat) (v : Pixel) : (canvasPut s x y v).anim = s.anim := rfl
@[simp] theorem canvasPut_errcode (s : State) (x y : Nat) (v : Pixel) : (canvasPut s x y v).errcode = s.errcode := rfl
@[simp] theorem canvasPut_srcBase (s : State) (x y : Nat) (v : Pixel) : (canvasPut s x y v).srcBase = s.srcBase := rfl
@[simp] theorem canvasPut_srcLen (s : State) (x y : Nat) (v : Pixel) : (canvasPut s x y v).srcLen = s.srcLen := rfl
@[simp] theorem canvasPut_canvasBase (s : State) (x y : Nat) (v : Pixel) : (canvasPut s x y v).canvasBase = s.canvasBase := rfl
@[simp] theorem canvasPut_canvasStride (s : State) (x y : Nat) (v : Pixel) : (canvasPut s x y v).canvasStride = s.canvasStride := rfl
@[simp] theorem canvasPut_canvasW (s : State) (x y : Nat) (v : Pixel) : (canvasPut s x y v).canvasW = s.canvasW := rfl
@[simp] theorem canvasPut_canvasH (s : State) (x y : Nat) (v : Pixel) : (canvasPut s x y v).canvasH = s.canvasH := rfl
@[simp] theorem canvasPut_cfgBg (s : State) (x y : Nat) (v : Pixel) : (canvasPut s x y v).cfgBg = s.cfgBg := rfl
@[simp] theorem canvasPut_cfgX (s : State) (x y : Nat) (v : Pixel) : (canvasPut s x y v).cfgX = s.cfgX := rfl
@[simp] theorem canvasPut_cfgY (s : State) (x y : Nat) (v : Pixel) : (canvasPut s x y v).cfgY = s.cfgY := rfl
@[simp] theorem canvasPut_framesOut (s : State) (x y : Nat) (v : Pixel) : (canvasPut s x y v).framesOut = s.framesOut := rfl
@[simp] theorem canvasPut_cap (s : State) (x y : Nat) (v : Pixel) : (canvasPut s x y v).cap = s.cap := rfl
@[simp] theorem canvasPut_cp (s : State) (x y : Nat) (v : Pixel) : (canvasPut s x y v).cp = s.cp := rfl
@[simp] theorem canvasPut_ip (s : State) (x y : Nat) (v : Pixel) : (canvasPut s x y v).ip = s.ip := rfl
@[simp] theorem canvasPut_ib (s : State) (x y : Nat) (v : Pixel) : (canvasPut s x y v).ib = s.ib := rfl
@[simp] theorem canvasPut_haveIhdr (s : State) (x y : Nat) (v : Pixel) : (canvasPut s x y v).haveIhdr = s.haveIhdr := rfl
@[simp] theorem canvasPut_havePlte (s : State) (x y : Nat) (v : Pixel) : (canvasPut s x y v).havePlte = s.havePlte := rfl
@[simp] theorem canvasPut_keyValid (s : State) (x y : Nat) (v : Pixel) : (canvasPut s x y v).keyValid = s.keyValid := rfl
@[simp] theorem canvasPut_haveBkgd (s : State) (x y : Nat) (v : Pixel) : (canvasPut s x y v).haveBkgd = s.haveBkgd := rfl
@[simp] theorem canvasPut_haveGamma (s : State) (x y : Nat) (v : Pixel) : (canvasPut s x y v).haveGamma = s.haveGamma := rfl
@[simp] theorem canvasPut_animated (s : State) (x y : Nat) (v : Pixel) : (canvasPut s x y v).animated = s.animated := rfl
@[simp] theorem canvasPut_fctlValid (s : State) (x y : Nat) (v : Pixel) : (canvasPut s x y v).fctlValid = s.fctlValid := rfl
@[simp] theorem canvasPut_seenIend (s : State) (x y : Nat) (v : Pixel) : (canvasPut s x y v).seenIend = s.seenIend := rfl
@[simp] theorem canvasPut_bfinal (s : State) (x y : Nat) (v : Pixel) : (canvasPut s x y v).bfinal = s.bfinal := rfl
@[simp] theorem canvasPut_hdr (s : State) (x y : Nat) (v : Pixel) : (canvasPut s x y v).hdr = s.hdr := rfl
@[simp] theorem canvasPut_key0 (s : State) (x y : Nat) (v : Pixel) : (canvasPut s x y v).key0 = s.key0 := rfl
@[simp] theorem canvasPut_key1 (s : State) (x y : Nat) (v : Pixel) : (canvasPut s x y v).key1 = s.key1 := rfl
@[simp] theorem canvasPut_key2 (s : State) (x y : Nat) (v : Pixel) : (canvasPut s x y v).key2 = s.key2 := rfl
@[simp] theorem canvasPut_bg (s : State) (x y : Nat) (v : Pixel) : (canvasPut s x y v).bg = s.bg := rfl
@[simp] theorem canvasPut_bkgd0 (s : State) (x y : Nat) (v : Pixel) : (canvasPut s x y v).bkgd0 = s.bkgd0 := rfl
@[simp] theorem canvasPut_bkgd1 (s : State) (x y : Nat) (v : Pixel) : (canvasPut s x y v).bkgd1 = s.bkgd1 := rfl
@[simp] theorem canvasPut_bkgd2 (s : State) (x y : Nat) (v : Pixel) : (canvasPut s x y v).bkgd2 = s.bkgd2 := rfl
@[simp] theorem canvasPut_gamma (s : State) (x y : Nat) (v : Pixel) : (canvasPut s x y v).gamma = s.gamma := rfl
@[simp] theorem canvasPut_pal (s : State) (x y : Nat) (v : Pixel) : (canvasPut s x y v).pal = s.pal := rfl
@[simp] theorem canvasPut_palN (s : State) (x y : Nat) (v : Pixel) : (canvasPut s x y v).palN = s.palN := rfl
@[simp] theorem canvasPut_numFrames (s : State) (x y : Nat) (v : Pixel) : (canvasPut s x y v).numFrames = s.numFrames := rfl
@[simp] theorem canvasPut_numPlays (s : State) (x y : Nat) (v : Pixel) : (canvasPut s x y v).numPlays = s.numPlays := rfl
@[simp] theorem canvasPut_nextSeq (s : State) (x y : Nat) (v : Pixel) : (canvasPut s x y v).nextSeq = s.nextSeq := rfl
@[simp] theorem canvasPut_fctlSeen (s : State) (x y : Nat) (v : Pixel) : (canvasPut s x y v).fctlSeen = s.fctlSeen := rfl
@[simp] theorem canvasPut_fW (s : State) (x y : Nat) (v : Pixel) : (canvasPut s x y v).fW = s.fW := rfl
@[simp] theorem canvasPut_fH (s : State) (x y : Nat) (v : Pixel) : (canvasPut s x y v).fH = s.fH := rfl
@[simp] theorem canvasPut_fX (s : State) (x y : Nat) (v : Pixel) : (canvasPut s x y v).fX = s.fX := rfl
@[simp] theorem canvasPut_fY (s : State) (x y : Nat) (v : Pixel) : (canvasPut s x y v).fY = s.fY := rfl
@[simp] theorem canvasPut_fDelay (s : State) (x y : Nat) (v : Pixel) : (canvasPut s x y v).fDelay = s.fDelay := rfl
@[simp] theorem canvasPut_fDispose (s : State) (x y : Nat) (v : Pixel) : (canvasPut s x y v).fDispose = s.fDispose := rfl
@[simp] theorem canvasPut_fBlend (s : State) (x y : Nat) (v : Pixel) : (canvasPut s x y v).fBlend = s.fBlend := rfl
@[simp] theorem canvasPut_framesDone (s : State) (x y : Nat) (v : Pixel) : (canvasPut s x y v).framesDone = s.framesDone := rfl
@[simp] theorem canvasPut_acc (s : State) (x y : Nat) (v : Pixel) : (canvasPut s x y v).acc = s.acc := rfl
@[simp] theorem canvasPut_frames (s : State) (x y : Nat) (v : Pixel) : (canvasPut s x y v).frames = s.frames := rfl
@[simp] theorem canvasPut_tLit (s : State) (x y : Nat) (v : Pixel) : (canvasPut s x y v).tLit = s.tLit := rfl
@[simp] theorem canvasPut_tDist (s : State) (x y : Nat) (v : Pixel) : (canvasPut s x y v).tDist = s.tDist := rfl
@[simp] theorem canvasPut_tCl (s : State) (x y : Nat) (v : Pixel) : (canvasPut s x y v).tCl = s.tCl := rfl
@[simp] theorem canvasPut_btype (s : State) (x y : Nat) (v : Pixel) : (canvasPut s x y v).btype = s.btype := rfl
@[simp] theorem canvasPut_hlit (s : State) (x y : Nat) (v : Pixel) : (canvasPut s x y v).hlit = s.hlit := rfl
@[simp] theorem canvasPut_hdist (s : State) (x y : Nat) (v : Pixel) : (canvasPut s x y v).hdist = s.hdist := rfl
@[simp] theorem canvasPut_hclen (s : State) (x y : Nat) (v : Pixel) : (canvasPut s x y v).hclen = s.hclen := rfl
@[simp] theorem canvasPut_cllen (s : State) (x y : Nat) (v : Pixel) : (canvasPut s x y v).cllen = s.cllen := rfl
@[simp] theorem canvasPut_lens (s : State) (x y : Nat) (v : Pixel) : (canvasPut s x y v).lens = s.lens := rfl
@[simp] theorem canvasPut_out (s : State) (x y : Nat) (v : Pixel) : (canvasPut s x y v).out = s.out := rfl
@[simp] theorem canvasPut_ox (s : State) (x y : Nat) (v : Pixel) : (canvasPut s x y v).ox = s.ox := rfl
@[simp] theorem canvasPut_oy (s : State) (x y : Nat) (v : Pixel) : (canvasPut s x y v).oy = s.oy := rfl
@[simp] theorem canvasPut_plays (s : State) (x y : Nat) (v : Pixel) : (canvasPut s x y v).plays = s.plays := rfl
@[simp] theorem canvasPut_play (s : State) (x y : Nat) (v : Pixel) : (canvasPut s x y v).play = s.play := rfl
@[simp] theorem canvasPut_fidx (s : State) (x y : Nat) (v : Pixel) : (canvasPut s x y v).fidx = s.fidx := rfl
@[simp] theorem canvasPut_snap (s : State) (x y : Nat) (v : Pixel) : (canvasPut s x y v).snap = s.snap := rfl
@[simp] theorem canvasPut_mem (s : State) (x y : Nat) (v : Pixel) : (canvasPut s x y v).mem = Memory.writeList s.mem (canvasAddr s x y) (pixelBytes s.cfg.canvasByteOrder v) := rfl
@[simp] theorem canvasPut_trace (s : State) (x y : Nat) (v : Pixel) : (canvasPut s x y v).trace = s.trace := rfl
@[simp] theorem canvasPut_phase (s : State) (x y : Nat) (v : Pixel) : (canvasPut s x y v).phase = s.phase := rfl
@[simp] theorem canvasPut_li (s : State) (x y : Nat) (v : Pixel) : (canvasPut s x y v).li = s.li := rfl
@[simp] theorem canvasPut_mlen (s : State) (x y : Nat) (v : Pixel) : (canvasPut s x y v).mlen = s.mlen := rfl
@[simp] theorem canvasPut_mdist (s : State) (x y : Nat) (v : Pixel) : (canvasPut s x y v).mdist = s.mdist := rfl
@[simp] theorem canvasPut_job (s : State) (x y : Nat) (v : Pixel) : (canvasPut s x y v).job = s.job := rfl
@[simp] theorem canvasPut_res (s : State) (x y : Nat) (v : Pixel) : (canvasPut s x y v).res = s.res := rfl
@[simp] theorem canvasPut_allocN (s : State) (x y : Nat) (v : Pixel) : (canvasPut s x y v).allocN = s.allocN := rfl
@[simp] theorem canvasPut_allocDenied (s : State) (x y : Nat) (v : Pixel) : (canvasPut s x y v).allocDenied = s.allocDenied := rfl
@[simp] theorem canvasPut_hostQ (s : State) (x y : Nat) (v : Pixel) : (canvasPut s x y v).hostQ = s.hostQ := rfl
@[simp] theorem canvasPut_hostRd (s : State) (x y : Nat) (v : Pixel) : (canvasPut s x y v).hostRd = s.hostRd := rfl
@[simp] theorem canvasPut_freeN (s : State) (x y : Nat) (v : Pixel) : (canvasPut s x y v).freeN = s.freeN := rfl

/-! ## `canvasWrite` -/

@[simp] theorem canvasWrite_cfg (s : State) (x y : Nat) (v : Pixel) : (canvasWrite s x y v).cfg = s.cfg := rfl
@[simp] theorem canvasWrite_runState (s : State) (x y : Nat) (v : Pixel) : (canvasWrite s x y v).runState = s.runState := rfl
@[simp] theorem canvasWrite_painted (s : State) (x y : Nat) (v : Pixel) : (canvasWrite s x y v).painted = true := rfl
@[simp] theorem canvasWrite_anim (s : State) (x y : Nat) (v : Pixel) : (canvasWrite s x y v).anim = s.anim := rfl
@[simp] theorem canvasWrite_errcode (s : State) (x y : Nat) (v : Pixel) : (canvasWrite s x y v).errcode = s.errcode := rfl
@[simp] theorem canvasWrite_srcBase (s : State) (x y : Nat) (v : Pixel) : (canvasWrite s x y v).srcBase = s.srcBase := rfl
@[simp] theorem canvasWrite_srcLen (s : State) (x y : Nat) (v : Pixel) : (canvasWrite s x y v).srcLen = s.srcLen := rfl
@[simp] theorem canvasWrite_canvasBase (s : State) (x y : Nat) (v : Pixel) : (canvasWrite s x y v).canvasBase = s.canvasBase := rfl
@[simp] theorem canvasWrite_canvasStride (s : State) (x y : Nat) (v : Pixel) : (canvasWrite s x y v).canvasStride = s.canvasStride := rfl
@[simp] theorem canvasWrite_canvasW (s : State) (x y : Nat) (v : Pixel) : (canvasWrite s x y v).canvasW = s.canvasW := rfl
@[simp] theorem canvasWrite_canvasH (s : State) (x y : Nat) (v : Pixel) : (canvasWrite s x y v).canvasH = s.canvasH := rfl
@[simp] theorem canvasWrite_cfgBg (s : State) (x y : Nat) (v : Pixel) : (canvasWrite s x y v).cfgBg = s.cfgBg := rfl
@[simp] theorem canvasWrite_cfgX (s : State) (x y : Nat) (v : Pixel) : (canvasWrite s x y v).cfgX = s.cfgX := rfl
@[simp] theorem canvasWrite_cfgY (s : State) (x y : Nat) (v : Pixel) : (canvasWrite s x y v).cfgY = s.cfgY := rfl
@[simp] theorem canvasWrite_framesOut (s : State) (x y : Nat) (v : Pixel) : (canvasWrite s x y v).framesOut = s.framesOut := rfl
@[simp] theorem canvasWrite_cap (s : State) (x y : Nat) (v : Pixel) : (canvasWrite s x y v).cap = s.cap := rfl
@[simp] theorem canvasWrite_cp (s : State) (x y : Nat) (v : Pixel) : (canvasWrite s x y v).cp = s.cp := rfl
@[simp] theorem canvasWrite_ip (s : State) (x y : Nat) (v : Pixel) : (canvasWrite s x y v).ip = s.ip := rfl
@[simp] theorem canvasWrite_ib (s : State) (x y : Nat) (v : Pixel) : (canvasWrite s x y v).ib = s.ib := rfl
@[simp] theorem canvasWrite_haveIhdr (s : State) (x y : Nat) (v : Pixel) : (canvasWrite s x y v).haveIhdr = s.haveIhdr := rfl
@[simp] theorem canvasWrite_havePlte (s : State) (x y : Nat) (v : Pixel) : (canvasWrite s x y v).havePlte = s.havePlte := rfl
@[simp] theorem canvasWrite_keyValid (s : State) (x y : Nat) (v : Pixel) : (canvasWrite s x y v).keyValid = s.keyValid := rfl
@[simp] theorem canvasWrite_haveBkgd (s : State) (x y : Nat) (v : Pixel) : (canvasWrite s x y v).haveBkgd = s.haveBkgd := rfl
@[simp] theorem canvasWrite_haveGamma (s : State) (x y : Nat) (v : Pixel) : (canvasWrite s x y v).haveGamma = s.haveGamma := rfl
@[simp] theorem canvasWrite_animated (s : State) (x y : Nat) (v : Pixel) : (canvasWrite s x y v).animated = s.animated := rfl
@[simp] theorem canvasWrite_fctlValid (s : State) (x y : Nat) (v : Pixel) : (canvasWrite s x y v).fctlValid = s.fctlValid := rfl
@[simp] theorem canvasWrite_seenIend (s : State) (x y : Nat) (v : Pixel) : (canvasWrite s x y v).seenIend = s.seenIend := rfl
@[simp] theorem canvasWrite_bfinal (s : State) (x y : Nat) (v : Pixel) : (canvasWrite s x y v).bfinal = s.bfinal := rfl
@[simp] theorem canvasWrite_hdr (s : State) (x y : Nat) (v : Pixel) : (canvasWrite s x y v).hdr = s.hdr := rfl
@[simp] theorem canvasWrite_key0 (s : State) (x y : Nat) (v : Pixel) : (canvasWrite s x y v).key0 = s.key0 := rfl
@[simp] theorem canvasWrite_key1 (s : State) (x y : Nat) (v : Pixel) : (canvasWrite s x y v).key1 = s.key1 := rfl
@[simp] theorem canvasWrite_key2 (s : State) (x y : Nat) (v : Pixel) : (canvasWrite s x y v).key2 = s.key2 := rfl
@[simp] theorem canvasWrite_bg (s : State) (x y : Nat) (v : Pixel) : (canvasWrite s x y v).bg = s.bg := rfl
@[simp] theorem canvasWrite_bkgd0 (s : State) (x y : Nat) (v : Pixel) : (canvasWrite s x y v).bkgd0 = s.bkgd0 := rfl
@[simp] theorem canvasWrite_bkgd1 (s : State) (x y : Nat) (v : Pixel) : (canvasWrite s x y v).bkgd1 = s.bkgd1 := rfl
@[simp] theorem canvasWrite_bkgd2 (s : State) (x y : Nat) (v : Pixel) : (canvasWrite s x y v).bkgd2 = s.bkgd2 := rfl
@[simp] theorem canvasWrite_gamma (s : State) (x y : Nat) (v : Pixel) : (canvasWrite s x y v).gamma = s.gamma := rfl
@[simp] theorem canvasWrite_pal (s : State) (x y : Nat) (v : Pixel) : (canvasWrite s x y v).pal = s.pal := rfl
@[simp] theorem canvasWrite_palN (s : State) (x y : Nat) (v : Pixel) : (canvasWrite s x y v).palN = s.palN := rfl
@[simp] theorem canvasWrite_numFrames (s : State) (x y : Nat) (v : Pixel) : (canvasWrite s x y v).numFrames = s.numFrames := rfl
@[simp] theorem canvasWrite_numPlays (s : State) (x y : Nat) (v : Pixel) : (canvasWrite s x y v).numPlays = s.numPlays := rfl
@[simp] theorem canvasWrite_nextSeq (s : State) (x y : Nat) (v : Pixel) : (canvasWrite s x y v).nextSeq = s.nextSeq := rfl
@[simp] theorem canvasWrite_fctlSeen (s : State) (x y : Nat) (v : Pixel) : (canvasWrite s x y v).fctlSeen = s.fctlSeen := rfl
@[simp] theorem canvasWrite_fW (s : State) (x y : Nat) (v : Pixel) : (canvasWrite s x y v).fW = s.fW := rfl
@[simp] theorem canvasWrite_fH (s : State) (x y : Nat) (v : Pixel) : (canvasWrite s x y v).fH = s.fH := rfl
@[simp] theorem canvasWrite_fX (s : State) (x y : Nat) (v : Pixel) : (canvasWrite s x y v).fX = s.fX := rfl
@[simp] theorem canvasWrite_fY (s : State) (x y : Nat) (v : Pixel) : (canvasWrite s x y v).fY = s.fY := rfl
@[simp] theorem canvasWrite_fDelay (s : State) (x y : Nat) (v : Pixel) : (canvasWrite s x y v).fDelay = s.fDelay := rfl
@[simp] theorem canvasWrite_fDispose (s : State) (x y : Nat) (v : Pixel) : (canvasWrite s x y v).fDispose = s.fDispose := rfl
@[simp] theorem canvasWrite_fBlend (s : State) (x y : Nat) (v : Pixel) : (canvasWrite s x y v).fBlend = s.fBlend := rfl
@[simp] theorem canvasWrite_framesDone (s : State) (x y : Nat) (v : Pixel) : (canvasWrite s x y v).framesDone = s.framesDone := rfl
@[simp] theorem canvasWrite_acc (s : State) (x y : Nat) (v : Pixel) : (canvasWrite s x y v).acc = s.acc := rfl
@[simp] theorem canvasWrite_frames (s : State) (x y : Nat) (v : Pixel) : (canvasWrite s x y v).frames = s.frames := rfl
@[simp] theorem canvasWrite_tLit (s : State) (x y : Nat) (v : Pixel) : (canvasWrite s x y v).tLit = s.tLit := rfl
@[simp] theorem canvasWrite_tDist (s : State) (x y : Nat) (v : Pixel) : (canvasWrite s x y v).tDist = s.tDist := rfl
@[simp] theorem canvasWrite_tCl (s : State) (x y : Nat) (v : Pixel) : (canvasWrite s x y v).tCl = s.tCl := rfl
@[simp] theorem canvasWrite_btype (s : State) (x y : Nat) (v : Pixel) : (canvasWrite s x y v).btype = s.btype := rfl
@[simp] theorem canvasWrite_hlit (s : State) (x y : Nat) (v : Pixel) : (canvasWrite s x y v).hlit = s.hlit := rfl
@[simp] theorem canvasWrite_hdist (s : State) (x y : Nat) (v : Pixel) : (canvasWrite s x y v).hdist = s.hdist := rfl
@[simp] theorem canvasWrite_hclen (s : State) (x y : Nat) (v : Pixel) : (canvasWrite s x y v).hclen = s.hclen := rfl
@[simp] theorem canvasWrite_cllen (s : State) (x y : Nat) (v : Pixel) : (canvasWrite s x y v).cllen = s.cllen := rfl
@[simp] theorem canvasWrite_lens (s : State) (x y : Nat) (v : Pixel) : (canvasWrite s x y v).lens = s.lens := rfl
@[simp] theorem canvasWrite_out (s : State) (x y : Nat) (v : Pixel) : (canvasWrite s x y v).out = s.out := rfl
@[simp] theorem canvasWrite_ox (s : State) (x y : Nat) (v : Pixel) : (canvasWrite s x y v).ox = s.ox := rfl
@[simp] theorem canvasWrite_oy (s : State) (x y : Nat) (v : Pixel) : (canvasWrite s x y v).oy = s.oy := rfl
@[simp] theorem canvasWrite_plays (s : State) (x y : Nat) (v : Pixel) : (canvasWrite s x y v).plays = s.plays := rfl
@[simp] theorem canvasWrite_play (s : State) (x y : Nat) (v : Pixel) : (canvasWrite s x y v).play = s.play := rfl
@[simp] theorem canvasWrite_fidx (s : State) (x y : Nat) (v : Pixel) : (canvasWrite s x y v).fidx = s.fidx := rfl
@[simp] theorem canvasWrite_snap (s : State) (x y : Nat) (v : Pixel) : (canvasWrite s x y v).snap = s.snap := rfl
@[simp] theorem canvasWrite_mem (s : State) (x y : Nat) (v : Pixel) : (canvasWrite s x y v).mem = Memory.writeList s.mem (canvasAddr s x y) (pixelBytes s.cfg.canvasByteOrder v) := rfl
@[simp] theorem canvasWrite_trace (s : State) (x y : Nat) (v : Pixel) : (canvasWrite s x y v).trace = s.trace := rfl
@[simp] theorem canvasWrite_phase (s : State) (x y : Nat) (v : Pixel) : (canvasWrite s x y v).phase = s.phase := rfl
@[simp] theorem canvasWrite_li (s : State) (x y : Nat) (v : Pixel) : (canvasWrite s x y v).li = s.li := rfl
@[simp] theorem canvasWrite_mlen (s : State) (x y : Nat) (v : Pixel) : (canvasWrite s x y v).mlen = s.mlen := rfl
@[simp] theorem canvasWrite_mdist (s : State) (x y : Nat) (v : Pixel) : (canvasWrite s x y v).mdist = s.mdist := rfl
@[simp] theorem canvasWrite_job (s : State) (x y : Nat) (v : Pixel) : (canvasWrite s x y v).job = s.job := rfl
@[simp] theorem canvasWrite_res (s : State) (x y : Nat) (v : Pixel) : (canvasWrite s x y v).res = s.res := rfl
@[simp] theorem canvasWrite_allocN (s : State) (x y : Nat) (v : Pixel) : (canvasWrite s x y v).allocN = s.allocN := rfl
@[simp] theorem canvasWrite_allocDenied (s : State) (x y : Nat) (v : Pixel) : (canvasWrite s x y v).allocDenied = s.allocDenied := rfl
@[simp] theorem canvasWrite_hostQ (s : State) (x y : Nat) (v : Pixel) : (canvasWrite s x y v).hostQ = s.hostQ := rfl
@[simp] theorem canvasWrite_hostRd (s : State) (x y : Nat) (v : Pixel) : (canvasWrite s x y v).hostRd = s.hostRd := rfl
@[simp] theorem canvasWrite_freeN (s : State) (x y : Nat) (v : Pixel) : (canvasWrite s x y v).freeN = s.freeN := rfl

/-! ## `launchState` -/

@[simp] theorem launchState_cfg (s : State) : (launchState s).cfg = s.cfg := rfl
@[simp] theorem launchState_runState (s : State) : (launchState s).runState = .busy := rfl
@[simp] theorem launchState_painted (s : State) : (launchState s).painted = false := rfl
@[simp] theorem launchState_anim (s : State) : (launchState s).anim = false := rfl
@[simp] theorem launchState_errcode (s : State) : (launchState s).errcode = 0 := rfl
@[simp] theorem launchState_srcBase (s : State) : (launchState s).srcBase = s.srcBase := rfl
@[simp] theorem launchState_srcLen (s : State) : (launchState s).srcLen = s.srcLen := rfl
@[simp] theorem launchState_canvasBase (s : State) : (launchState s).canvasBase = s.canvasBase := rfl
@[simp] theorem launchState_canvasStride (s : State) : (launchState s).canvasStride = s.canvasStride := rfl
@[simp] theorem launchState_canvasW (s : State) : (launchState s).canvasW = s.canvasW := rfl
@[simp] theorem launchState_canvasH (s : State) : (launchState s).canvasH = s.canvasH := rfl
@[simp] theorem launchState_cfgBg (s : State) : (launchState s).cfgBg = s.cfgBg := rfl
@[simp] theorem launchState_cfgX (s : State) : (launchState s).cfgX = s.cfgX := rfl
@[simp] theorem launchState_cfgY (s : State) : (launchState s).cfgY = s.cfgY := rfl
@[simp] theorem launchState_framesOut (s : State) : (launchState s).framesOut = 0 := rfl
@[simp] theorem launchState_cap (s : State) : (launchState s).cap = captured s := rfl
@[simp] theorem launchState_cp (s : State) : (launchState s).cp = 0 := rfl
@[simp] theorem launchState_ip (s : State) : (launchState s).ip = 0 := rfl
@[simp] theorem launchState_ib (s : State) : (launchState s).ib = 0 := rfl
@[simp] theorem launchState_haveIhdr (s : State) : (launchState s).haveIhdr = false := rfl
@[simp] theorem launchState_havePlte (s : State) : (launchState s).havePlte = false := rfl
@[simp] theorem launchState_keyValid (s : State) : (launchState s).keyValid = false := rfl
@[simp] theorem launchState_haveBkgd (s : State) : (launchState s).haveBkgd = false := rfl
@[simp] theorem launchState_haveGamma (s : State) : (launchState s).haveGamma = false := rfl
@[simp] theorem launchState_animated (s : State) : (launchState s).animated = false := rfl
@[simp] theorem launchState_fctlValid (s : State) : (launchState s).fctlValid = false := rfl
@[simp] theorem launchState_seenIend (s : State) : (launchState s).seenIend = false := rfl
@[simp] theorem launchState_bfinal (s : State) : (launchState s).bfinal = false := rfl
@[simp] theorem launchState_hdr (s : State) : (launchState s).hdr = s.hdr := rfl
@[simp] theorem launchState_key0 (s : State) : (launchState s).key0 = s.key0 := rfl
@[simp] theorem launchState_key1 (s : State) : (launchState s).key1 = s.key1 := rfl
@[simp] theorem launchState_key2 (s : State) : (launchState s).key2 = s.key2 := rfl
@[simp] theorem launchState_bg (s : State) : (launchState s).bg = (0xFF : Byte) ++ s.cfgBg := rfl
@[simp] theorem launchState_bkgd0 (s : State) : (launchState s).bkgd0 = s.bkgd0 := rfl
@[simp] theorem launchState_bkgd1 (s : State) : (launchState s).bkgd1 = s.bkgd1 := rfl
@[simp] theorem launchState_bkgd2 (s : State) : (launchState s).bkgd2 = s.bkgd2 := rfl
@[simp] theorem launchState_gamma (s : State) : (launchState s).gamma = s.gamma := rfl
@[simp] theorem launchState_pal (s : State) : (launchState s).pal = s.pal := rfl
@[simp] theorem launchState_palN (s : State) : (launchState s).palN = 0 := rfl
@[simp] theorem launchState_numFrames (s : State) : (launchState s).numFrames = s.numFrames := rfl
@[simp] theorem launchState_numPlays (s : State) : (launchState s).numPlays = s.numPlays := rfl
@[simp] theorem launchState_nextSeq (s : State) : (launchState s).nextSeq = 0 := rfl
@[simp] theorem launchState_fctlSeen (s : State) : (launchState s).fctlSeen = 0 := rfl
@[simp] theorem launchState_fW (s : State) : (launchState s).fW = s.fW := rfl
@[simp] theorem launchState_fH (s : State) : (launchState s).fH = s.fH := rfl
@[simp] theorem launchState_fX (s : State) : (launchState s).fX = s.fX := rfl
@[simp] theorem launchState_fY (s : State) : (launchState s).fY = s.fY := rfl
@[simp] theorem launchState_fDelay (s : State) : (launchState s).fDelay = s.fDelay := rfl
@[simp] theorem launchState_fDispose (s : State) : (launchState s).fDispose = s.fDispose := rfl
@[simp] theorem launchState_fBlend (s : State) : (launchState s).fBlend = s.fBlend := rfl
@[simp] theorem launchState_framesDone (s : State) : (launchState s).framesDone = 0 := rfl
@[simp] theorem launchState_acc (s : State) : (launchState s).acc = [] := rfl
@[simp] theorem launchState_frames (s : State) : (launchState s).frames = [] := rfl
@[simp] theorem launchState_tLit (s : State) : (launchState s).tLit = noTree := rfl
@[simp] theorem launchState_tDist (s : State) : (launchState s).tDist = noTree := rfl
@[simp] theorem launchState_tCl (s : State) : (launchState s).tCl = noTree := rfl
@[simp] theorem launchState_btype (s : State) : (launchState s).btype = s.btype := rfl
@[simp] theorem launchState_hlit (s : State) : (launchState s).hlit = s.hlit := rfl
@[simp] theorem launchState_hdist (s : State) : (launchState s).hdist = s.hdist := rfl
@[simp] theorem launchState_hclen (s : State) : (launchState s).hclen = s.hclen := rfl
@[simp] theorem launchState_cllen (s : State) : (launchState s).cllen = s.cllen := rfl
@[simp] theorem launchState_lens (s : State) : (launchState s).lens = s.lens := rfl
@[simp] theorem launchState_out (s : State) : (launchState s).out = [] := rfl
@[simp] theorem launchState_ox (s : State) : (launchState s).ox = s.ox := rfl
@[simp] theorem launchState_oy (s : State) : (launchState s).oy = s.oy := rfl
@[simp] theorem launchState_plays (s : State) : (launchState s).plays = s.plays := rfl
@[simp] theorem launchState_play (s : State) : (launchState s).play = 0 := rfl
@[simp] theorem launchState_fidx (s : State) : (launchState s).fidx = 0 := rfl
@[simp] theorem launchState_snap (s : State) : (launchState s).snap = [] := rfl
@[simp] theorem launchState_mem (s : State) : (launchState s).mem = s.mem := rfl
@[simp] theorem launchState_trace (s : State) : (launchState s).trace = [] := rfl
@[simp] theorem launchState_phase (s : State) : (launchState s).phase = .signature := rfl
@[simp] theorem launchState_li (s : State) : (launchState s).li = s.li := rfl
@[simp] theorem launchState_mlen (s : State) : (launchState s).mlen = s.mlen := rfl
@[simp] theorem launchState_mdist (s : State) : (launchState s).mdist = s.mdist := rfl
@[simp] theorem launchState_job (s : State) : (launchState s).job = s.job := rfl
@[simp] theorem launchState_res (s : State) : (launchState s).res = s.res := rfl
@[simp] theorem launchState_allocN (s : State) : (launchState s).allocN = 0 := rfl
@[simp] theorem launchState_allocDenied (s : State) : (launchState s).allocDenied = s.allocDenied := rfl
@[simp] theorem launchState_hostQ (s : State) : (launchState s).hostQ = s.hostQ := rfl
@[simp] theorem launchState_hostRd (s : State) : (launchState s).hostRd = s.hostRd := rfl
@[simp] theorem launchState_freeN (s : State) : (launchState s).freeN = s.freeN := rfl

/-! ## The cursor of a reader -/

@[simp] theorem cur_pay_buf (s : State) : (s.cur .pay).buf = s.acc := rfl
@[simp] theorem cur_pay_pos (s : State) : (s.cur .pay).pos = s.ip := rfl
@[simp] theorem cur_pay_bit (s : State) : (s.cur .pay).bit = s.ib := rfl
@[simp] theorem cur_src_buf (s : State) : (s.cur .src).buf = s.source := rfl
@[simp] theorem cur_src_pos (s : State) : (s.cur .src).pos = s.cp := rfl
@[simp] theorem cur_src_bit (s : State) : (s.cur .src).bit = 0 := rfl
@[simp] theorem source_length (s : State) : s.source.length = s.cap.srcLen.toNat := by simp [State.source]
@[simp] theorem noTree_root : noTree.root = .absent := rfl
@[simp] theorem noTree_empty : noTree.empty = true := rfl
@[simp] theorem noTree_malformed : noTree.malformed = false := rfl

end Sys2Proof.Machine
end

