-- ==== Sys2Proof/Laws/Ops.lean ====
section
/-! SUPPORT. One lemma per shared operation that says everything it can do: errors and rejections (R11, R390),
allocation (R386), extra bits (R119), trees (R206), and the canvas (R66, R335). -/

namespace Sys2Proof.Machine

/-! ## Errors -/

@[simp] theorem raise_eq (e : ErrKind) (s : State) : raise e s = .next (trap e s) := rfl

/-- A trap keeps nothing of the decode context (R45): where the cursor stood does not show in its result. -/
@[simp] theorem trap_putCur (e : ErrKind) (s : State) (r : Reader) (c : Cur) : trap e (s.putCur r c) = trap e s := by
  cases r <;> rfl

/-- A rejection raises the error of its kind; only a symbol outside its alphabet is no error of the spec. -/
theorem rejected_cases (r : Reject) (s : State) :
    (∃ e, rejectKind r = some e ∧ rejected r s = .next (trap e s)) ∨
      (r = .outsideAlphabet ∧ rejected r s = .fault .symbolOutsideAlphabet) := by
  cases r <;> simp [rejected, rejectKind]

theorem rejected_eof (s : State) : rejected .eof s = .next (trap .unexpectedEof s) := rfl

/-! ## Allocation -/

/-- What an allocation does when the oracle grants it. -/
theorem allocs_granted {count size : Nat} {s : State} (k : State → Out)
    (h : denies s.allocDenied s.allocN count size = false) :
    allocs count size s k = k { s with allocN := s.allocN + count } := by
  simp [allocs, h]

/-- What an allocation does when the oracle denies it. -/
theorem allocs_denied {count size : Nat} {s : State} (k : State → Out)
    (h : denies s.allocDenied s.allocN count size = true) :
    allocs count size s k = .next (trap .allocationFailure { s with allocN := s.allocN + count }) := by
  simp [allocs, h]

/-- An oracle that denies nothing grants everything (V8). -/
@[simp] theorem denies_nil (n count size : Nat) : denies [] n count size = false := rfl

/-! ## Extra bits -/

/-- Reading operand bits either ends in UnexpectedEof or goes on with the cursor moved past them. -/
theorem withBits_cases (n : Nat) (s : State) (k : Nat → State → Out) :
    (∃ v c, (s.cur .pay).readBits n = .ok (v, c) ∧ withBits n s k = k v (s.putCur .pay c)) ∨
      (∃ e, (s.cur .pay).readBits n = .error e ∧ withBits n s k = rejected e s) := by
  unfold withBits
  split
  · exact Or.inr ⟨_, ‹_›, rfl⟩
  · exact Or.inl ⟨_, _, ‹_›, rfl⟩

@[simp] theorem readBits_zero (c : Cur) : c.readBits 0 = .ok (0, c) := rfl

theorem Cur.readBits_error {n : Nat} {c : Cur} {e : Reject} (h : Cur.readBits n c = .error e) : e = .eof := by
  induction n generalizing c with
  | zero => simp [Cur.readBits] at h
  | succ n ih =>
    simp only [Cur.readBits] at h
    split at h
    · rename_i e' h1
      unfold Cur.readBit at h1
      split at h1
      · simp only [Except.error.injEq] at h h1
        exact h ▸ h1.symm
      · simp at h1
    · split at h
      · rename_i h2
        simp only [Except.error.injEq] at h
        exact ih (h ▸ h2)
      · simp at h

/-! ## The canvas -/

theorem raster_length (w h : Nat) : (raster w h).length = w * h := by
  simp [raster, Nat.mul_comm]

theorem mem_raster {w h : Nat} {p : Nat × Nat} : p ∈ raster w h ↔ p.1 < w ∧ p.2 < h := by
  simp only [raster, List.mem_flatMap, List.mem_range, List.mem_map]
  constructor
  · rintro ⟨j, hj, i, hi, rfl⟩
    exact ⟨hi, hj⟩
  · rintro ⟨h1, h2⟩
    exact ⟨p.2, h2, p.1, h1, rfl⟩

@[simp] theorem pixelBytes_length (o : ByteOrder) (v : Pixel) : (pixelBytes o v).length = 4 := by
  cases o <;> rfl

/-- Painting a rectangle changes memory and PAINTED, nothing else. -/
theorem paint_frame (v : State → Nat × Nat → Option Pixel) (f : Frame) (ps : List (Nat × Nat)) (s : State) :
    ∃ m b, ps.foldl (fun t p => match v t p with | some c => writeAt t f p c | none => t) s
      = { s with mem := m, painted := b } := by
  induction ps generalizing s with
  | nil => exact ⟨s.mem, s.painted, rfl⟩
  | cons p ps ih =>
    simp only [List.foldl_cons]
    split
    · obtain ⟨m, b, h⟩ := ih (writeAt s f p ‹_›)
      exact ⟨m, b, h⟩
    · exact ih s

theorem paintRect_frame (v : State → Nat × Nat → Option Pixel) (f : Frame) (s : State) :
    ∃ m b, paintRect v f s = { s with mem := m, painted := b } := paint_frame v f _ s

/-- Painting keeps the canonical form of memory. -/
theorem paint_wf (v : State → Nat × Nat → Option Pixel) (f : Frame) (ps : List (Nat × Nat)) (s : State)
    (hm : Memory.wf s.mem = true) :
    Memory.wf (ps.foldl (fun t p => match v t p with | some c => writeAt t f p c | none => t) s).mem = true := by
  induction ps generalizing s with
  | nil => exact hm
  | cons p ps ih =>
    simp only [List.foldl_cons]
    apply ih
    split
    · exact Memory.wf_writeList _ _ hm _
    · exact hm

theorem paintRect_wf (v : State → Nat × Nat → Option Pixel) (f : Frame) (s : State) (hm : Memory.wf s.mem = true) :
    Memory.wf (paintRect v f s).mem = true := paint_wf v f _ s hm

theorem freeImage_frame (s : State) : ∃ m, freeImage s = { s with mem := m, freeN := s.freeN + 1 } := by
  have h (g : State → Nat × Nat → State) (hg : ∀ t p, ∃ m, g t p = { t with mem := m }) (ps : List (Nat × Nat))
      (t : State) : ∃ m, ps.foldl g t = { t with mem := m } := by
    induction ps generalizing t with
    | nil => exact ⟨t.mem, rfl⟩
    | cons p ps ih =>
      obtain ⟨m, hm⟩ := hg t p
      obtain ⟨m', hm'⟩ := ih (g t p)
      refine ⟨m', ?_⟩
      rw [List.foldl_cons, hm', hm]
  obtain ⟨m, hm⟩ := h (fun t p => canvasPut t (s.ox + p.1) (s.oy + p.2)
    (freePixel s.freeN (s.ox + p.1) (s.oy + p.2))) (fun t p => ⟨_, rfl⟩)
    (raster s.hdr.width.toNat s.hdr.height.toNat) { s with freeN := s.freeN + 1 }
  exact ⟨m, hm⟩

theorem freeImage_wf (s : State) (hm : Memory.wf s.mem = true) : Memory.wf (freeImage s).mem = true := by
  have h (ps : List (Nat × Nat)) (t : State) (ht : Memory.wf t.mem = true) :
      Memory.wf (ps.foldl (fun t p => canvasPut t (s.ox + p.1) (s.oy + p.2)
        (freePixel s.freeN (s.ox + p.1) (s.oy + p.2))) t).mem = true := by
    induction ps generalizing t with
    | nil => exact ht
    | cons p ps ih =>
      rw [List.foldl_cons]
      exact ih _ (Memory.wf_writeList _ _ ht _)
  exact h _ _ hm

end Sys2Proof.Machine
end

