-- ==== Sys2Proof/Laws/Canvas.lean ====
section
/-! SUPPORT. The canvas as an array of pixels (R66), and what painting a rectangle leaves (R335, R340, R344, R77). -/

namespace Sys2Proof.Machine

theorem pixel_bytes (o : ByteOrder) (v : Pixel) : pixelOfBytes o (pixelBytes o v) = v := by
  have h : (v.extractLsb' 24 8 ++ v.extractLsb' 16 8 ++ v.extractLsb' 8 8 ++ v.extractLsb' 0 8 : BitVec 32) = v := by
    apply BitVec.eq_of_getLsbD_eq
    intro i hi
    simp only [BitVec.getLsbD_append, BitVec.getLsbD_extractLsb']
    interval_cases i <;> simp
  cases o <;> exact h

theorem canvasRead_congr {s t : State} (hc : t.cap = s.cap) (hf : t.cfg = s.cfg) {x y : Nat}
    (h : ∀ i < 4, Memory.read t.mem (canvasAddr s x y + i) = Memory.read s.mem (canvasAddr s x y + i)) :
    canvasRead t x y = canvasRead s x y := by
  have ha : canvasAddr t x y = canvasAddr s x y := by simp only [canvasAddr, hc]
  simp only [canvasRead, ha, hf]
  congr 1
  exact List.map_congr_left fun i hi => h i (by simpa using hi)

theorem canvasRead_put (s : State) (hm : Memory.wf s.mem = true) (x y : Nat) (v : Pixel) :
    canvasRead (canvasPut s x y v) x y = v := by
  have hl : (List.range 4).map (fun i => Memory.read (canvasPut s x y v).mem (canvasAddr s x y + i)) = pixelBytes s.cfg.canvasByteOrder v := by
    apply List.ext_getElem
    · simp
    · intro i h1 h2
      simp only [List.length_map, List.length_range] at h1
      simp only [List.getElem_map, List.getElem_range, canvasPut_mem]
      rw [Memory.read_writeList _ _ hm, if_pos (by simp; omega)]
      rw [show canvasAddr s x y + i - canvasAddr s x y = i by omega, List.getD_eq_getElem?_getD, List.getElem?_eq_getElem h2]; rfl
  unfold canvasRead
  change pixelOfBytes s.cfg.canvasByteOrder ((List.range 4).map fun i => Memory.read (canvasPut s x y v).mem (canvasAddr s x y + i)) = v
  rw [hl, pixel_bytes]

/-! ## Raster order -/

theorem raster_nodup (w h : Nat) : (raster w h).Nodup := by
  rw [raster, List.nodup_flatMap]
  refine ⟨fun j _ => ?_, ?_⟩
  · exact List.Nodup.map (fun a b h => (Prod.mk.inj h).1) List.nodup_range
  · refine List.Pairwise.imp_of_mem ?_ List.nodup_range
    intro a b _ _ hab x hx hy
    simp only [List.mem_map] at hx hy
    obtain ⟨i, -, rfl⟩ := hx
    obtain ⟨k, -, h⟩ := hy
    exact hab (Prod.mk.inj h).2.symm

theorem raster_get (w h x y : Nat) (hx : x < w) (hy : y < h) : (raster w h)[y * w + x]? = some (x, y) := by
  unfold raster
  induction h generalizing y with
  | zero => omega
  | succ h ih =>
    rw [List.range_succ, List.flatMap_append]
    have hl : ((List.range h).flatMap fun j => (List.range w).map fun i => (i, j)).length = w * h := raster_length w h
    rcases Nat.lt_or_ge y h with h1 | h1
    · rw [List.getElem?_append_left, ih y h1]
      rw [hl]
      calc y * w + x < (y + 1) * w := by rw [Nat.add_mul]; omega
        _ ≤ w * h := by rw [Nat.mul_comm w]; exact Nat.mul_le_mul_right _ h1
    · obtain rfl : y = h := by omega
      rw [List.getElem?_append_right (by rw [hl, Nat.mul_comm]; omega), hl, Nat.mul_comm, show w * y + x - w * y = x by omega]
      simp [hx]

/-! ## Painting -/

/-- Two pixels of a rectangle do not share a byte, the rows of the canvas being apart (R69). -/
theorem cells_apart {s : State} {f : Frame} (hc : s.ox + f.x.toNat + f.w.toNat ≤ s.cap.canvasW.toNat)
    (hs : 4 * s.cap.canvasW.toNat ≤ s.cap.canvasStride.toNat) {p q : Nat × Nat} (h1 : p.1 < f.w.toNat) (h2 : q.1 < f.w.toNat) (hne : p ≠ q) :
    canvasAddr s (canvasX s f p) (canvasY s f p) + 4 ≤ canvasAddr s (canvasX s f q) (canvasY s f q) ∨ canvasAddr s (canvasX s f q) (canvasY s f q) + 4 ≤ canvasAddr s (canvasX s f p) (canvasY s f p) := by
  obtain ⟨p1, p2⟩ := p
  obtain ⟨q1, q2⟩ := q
  simp only [canvasAddr, canvasX, canvasY] at *
  rcases Nat.lt_trichotomy p2 q2 with h | h | h
  · left
    have : (s.oy + f.y.toNat + p2 + 1) * s.cap.canvasStride.toNat ≤ (s.oy + f.y.toNat + q2) * s.cap.canvasStride.toNat := Nat.mul_le_mul_right _ (by omega)
    rw [Nat.add_mul _ 1, Nat.one_mul] at this
    omega
  · subst h
    have : p1 ≠ q1 := by rintro rfl; exact hne rfl
    omega
  · right
    have : (s.oy + f.y.toNat + q2 + 1) * s.cap.canvasStride.toNat ≤ (s.oy + f.y.toNat + p2) * s.cap.canvasStride.toNat := Nat.mul_le_mul_right _ (by omega)
    rw [Nat.add_mul _ 1, Nat.one_mul] at this
    omega

/-- A state that differs in memory and PAINTED only. -/
def Repainted (s t : State) : Prop := t = { s with mem := t.mem, painted := t.painted }

theorem Repainted.trans {s t u : State} (h : Repainted s t) (g : Repainted t u) : Repainted s u := by
  unfold Repainted at *
  rw [h] at g
  exact g

/-- What painting distinct pixels leaves: each has what was painted on it or what it had, no other byte changes, and
PAINTED is set exactly if something was painted. -/
theorem fold_paint {s0 : State} {f : Frame} (hc : s0.ox + f.x.toNat + f.w.toNat ≤ s0.cap.canvasW.toNat)
    (hst : 4 * s0.cap.canvasW.toNat ≤ s0.cap.canvasStride.toNat) (v : State → Nat × Nat → Option Pixel) (g : Nat × Nat → Option Pixel)
    (ps : List (Nat × Nat)) (hnd : ps.Nodup) (hin : ∀ p ∈ ps, p.1 < f.w.toNat) (s : State) (hs : Repainted s0 s) (hm : Memory.wf s.mem = true)
    (hv : ∀ t p, Repainted s t → p ∈ ps → readAt t f p = readAt s f p → v t p = g p) (t : State)
    (ht : t = ps.foldl (fun t p => match v t p with | some c => writeAt t f p c | none => t) s) :
    Repainted s t ∧ Memory.wf t.mem = true ∧
    (∀ b, (∀ p ∈ ps, ¬(canvasAddr s0 (canvasX s0 f p) (canvasY s0 f p) ≤ b ∧ b < canvasAddr s0 (canvasX s0 f p) (canvasY s0 f p) + 4)) → Memory.read t.mem b = Memory.read s.mem b) ∧
    (∀ p ∈ ps, readAt t f p = (g p).getD (readAt s f p)) ∧ (t.painted = true ↔ s.painted = true ∨ ∃ p ∈ ps, (g p).isSome = true) := by
  induction ps generalizing s with
  | nil =>
    subst ht
    exact ⟨rfl, hm, fun _ _ => rfl, by simp, by simp⟩
  | cons p ps ih =>
    rw [List.foldl_cons, hv s p rfl (by simp) rfl] at ht
    obtain ⟨hp1, hnd2⟩ := List.nodup_cons.1 hnd
    have hcap {u : State} (hu : Repainted s0 u) : u.cap = s0.cap ∧ u.ox = s0.ox ∧ u.oy = s0.oy ∧ u.cfg = s0.cfg := by
      unfold Repainted at hu; rw [hu]; exact ⟨rfl, rfl, rfl, rfl⟩
    have haddr {u : State} (hu : Repainted s0 u) (q : Nat × Nat) : canvasAddr u (canvasX u f q) (canvasY u f q) = canvasAddr s0 (canvasX s0 f q) (canvasY s0 f q) := by
      obtain ⟨e1, e2, e3, -⟩ := hcap hu
      simp only [canvasAddr, canvasX, canvasY, e1, e2, e3]
    have hread {u w : State} (hu : Repainted s0 u) (hw : Repainted s0 w) (q : Nat × Nat)
        (h : ∀ i < 4, Memory.read w.mem (canvasAddr s0 (canvasX s0 f q) (canvasY s0 f q) + i) = Memory.read u.mem (canvasAddr s0 (canvasX s0 f q) (canvasY s0 f q) + i)) : readAt w f q = readAt u f q := by
      obtain ⟨e1, e2, e3, e4⟩ := hcap hu
      obtain ⟨d1, d2, d3, d4⟩ := hcap hw
      have ex : canvasX w f q = canvasX u f q := by simp only [canvasX, e2, d2]
      have ey : canvasY w f q = canvasY u f q := by simp only [canvasY, e3, d3]
      unfold readAt
      rw [ex, ey]
      exact canvasRead_congr (d1.trans e1.symm) (d4.trans e4.symm) (by rw [haddr hu]; exact h)
    cases hg : g p with
    | none =>
      rw [hg] at ht
      obtain ⟨i1, i2, i3, i4, i5⟩ := ih hnd2 (fun q hq => hin q (by simp [hq])) s hs hm (fun t q h1 h2 h3 => hv t q h1 (by simp [h2]) h3) ht
      refine ⟨i1, i2, fun b hb => i3 b fun q hq => hb q (by simp [hq]), fun q hq => ?_, by simp [i5, hg]⟩
      rcases List.mem_cons.1 hq with rfl | hq
      · rw [hg]
        refine hread hs (hs.trans i1) _ fun i hi => i3 _ fun r hr => ?_
        have hne : q ≠ r := by rintro rfl; exact hp1 hr
        have := cells_apart hc hst (hin q (by simp)) (hin r (by simp [hr])) hne
        omega
      · exact i4 q hq
    | some c =>
      rw [hg] at ht
      simp only [] at ht
      have h1 : Repainted s (writeAt s f p c) := rfl
      have hmem (b : Nat) : Memory.read (writeAt s f p c).mem b = if canvasAddr s0 (canvasX s0 f p) (canvasY s0 f p) ≤ b ∧ b < canvasAddr s0 (canvasX s0 f p) (canvasY s0 f p) + 4 then (pixelBytes s.cfg.canvasByteOrder c).getD (b - canvasAddr s0 (canvasX s0 f p) (canvasY s0 f p)) 0 else Memory.read s.mem b := by
        have := Memory.read_writeList (pixelBytes s.cfg.canvasByteOrder c) s.mem hm (canvasAddr s (canvasX s f p) (canvasY s f p)) b
        rw [haddr hs, pixelBytes_length] at this
        rw [← this, ← haddr hs]; rfl
      have hwf : Memory.wf (writeAt s f p c).mem = true := Memory.wf_writeList _ _ hm _
      have hother (q : Nat × Nat) (hq : q ∈ ps) : readAt (writeAt s f p c) f q = readAt s f q := by
        refine hread hs (hs.trans h1) q fun i hi => ?_
        have hne : p ≠ q := by rintro rfl; exact hp1 hq
        have := cells_apart hc hst (hin p (by simp)) (hin q (by simp [hq])) hne
        rw [hmem, if_neg (by omega)]
      obtain ⟨i1, i2, i3, i4, i5⟩ := ih hnd2 (fun q hq => hin q (by simp [hq])) (writeAt s f p c) (hs.trans h1) hwf
        (fun t q g1 g2 g3 => hv t q (h1.trans g1) (by simp [g2]) (g3.trans (hother q g2))) ht
      refine ⟨h1.trans i1, i2, fun b hb => ?_, fun q hq => ?_, ?_⟩
      · rw [i3 b fun q hq => hb q (by simp [hq]), hmem, if_neg (hb p (by simp))]
      · rcases List.mem_cons.1 hq with rfl | hq
        · rw [hg]
          have e1 : readAt t f q = readAt (writeAt s f q c) f q := by
            refine hread (hs.trans h1) (hs.trans (h1.trans i1)) q fun i hi => i3 _ fun r hr => ?_
            have hne : q ≠ r := by rintro rfl; exact hp1 hr
            have := cells_apart hc hst (hin q (by simp)) (hin r (by simp [hr])) hne
            omega
          rw [e1]
          exact canvasRead_put s hm _ _ c
        · rw [i4 q hq, hother q hq]
      · rw [i5]
        simp [writeAt, canvasWrite, hg]

/-- Painting that leaves PAINTED 0 writes nothing. -/
theorem paint_none (v : State → Nat × Nat → Option Pixel) (f : Frame) (ps : List (Nat × Nat)) (s : State) :
    (ps.foldl (fun t p => match v t p with | some c => writeAt t f p c | none => t) s).painted = false →
      ps.foldl (fun t p => match v t p with | some c => writeAt t f p c | none => t) s = s := by
  have mono (ps : List (Nat × Nat)) (s : State) (h : s.painted = true) :
      (ps.foldl (fun t p => match v t p with | some c => writeAt t f p c | none => t) s).painted = true := by
    induction ps generalizing s with
    | nil => exact h
    | cons p ps ih =>
      rw [List.foldl_cons]
      apply ih
      split
      · rfl
      · exact h
  induction ps generalizing s with
  | nil => exact fun _ => rfl
  | cons p ps ih =>
    rw [List.foldl_cons]
    split
    · intro h
      rw [mono ps _ rfl] at h
      exact nomatch h
    · exact ih s

/-- Painting changes no byte outside the rectangle. -/
theorem paint_outside {s0 : State} {f : Frame} (v : State → Nat × Nat → Option Pixel) (a : Nat) (ps : List (Nat × Nat)) (hin : ∀ p ∈ ps, ¬(canvasAddr s0 (canvasX s0 f p) (canvasY s0 f p) ≤ a ∧ a < canvasAddr s0 (canvasX s0 f p) (canvasY s0 f p) + 4)) (s : State) (hs : Repainted s0 s) :
    Memory.read (ps.foldl (fun t p => match v t p with | some c => writeAt t f p c | none => t) s).mem a = Memory.read s.mem a := by
  induction ps generalizing s with
  | nil => rfl
  | cons p ps ih =>
    rw [List.foldl_cons]
    have h2 := fun q hq => hin q (List.mem_cons_of_mem _ hq)
    split
    · rename_i c _
      rw [ih h2 _ (hs.trans (show Repainted s (writeAt s f p c) from rfl))]
      have := hin p (by simp)
      simp only [writeAt, canvasWrite, canvasPut]
      rw [Memory.read_writeList_other]
      have hl : (pixelBytes s.cfg.canvasByteOrder c).length = 4 := by cases s.cfg.canvasByteOrder <;> rfl
      rw [hl]
      have e : canvasAddr s (canvasX s f p) (canvasY s f p) = canvasAddr s0 (canvasX s0 f p) (canvasY s0 f p) := by
        unfold Repainted at hs
        rw [hs]; rfl
      rw [e]; exact this
    · exact ih h2 _ hs

end Sys2Proof.Machine
end

