-- ==== Sys2Proof/Laws/Codes.lean ====
section
/-! SUPPORT. Canonical codes (R205, R215): the code of a symbol in closed form, the order of codes, that no code is a
prefix of another under the Kraft inequality; trees as maps from bit paths (R212), and what building one gives (R206). -/

namespace Sys2Proof

/-- The subtree a bit path leads to (R212). -/
def Tree.along : Tree → List Bool → Tree
  | t, [] => t
  | .node l r, b :: bs => Tree.along (if b then r else l) bs
  | .absent, _ :: _ => .absent
  | .leaf _, _ :: _ => .absent

/-- The next `n` bits a cursor reads. -/
def Cur.next (c : Cur) (n : Nat) : List Bool := (List.range n).map fun i => bitAt c.buf (c.offset + i)

theorem Cur.next_succ (c : Cur) (n : Nat) : Cur.next c (n + 1) = bitAt c.buf c.offset :: Cur.next (c.advance 1) n := by
  simp only [Cur.next, List.range_succ_eq_map, List.map_cons, List.map_map, Cur.advance_buf, Cur.advance_offset, Nat.add_zero]
  congr 1
  refine List.map_congr_left fun i _ => ?_
  simp only [Function.comp, Nat.succ_eq_add_one]
  congr 1; omega

/-- Bits that stand at a cursor are the ones it reads next. -/
theorem Cur.next_of_take {d : Cur} {a : Nat} {w : List Bool} (hw : w.length = a) (h : d.bits.take a = w) :
    Cur.next d a = w ∧ (a = 0 ∨ d.offset + a ≤ 8 * d.buf.length) := by
  rw [Cur.bits_eq] at h
  have hlen : d.offset + a ≤ 8 * d.buf.length ∨ a = 0 := by
    have := congrArg List.length h
    rw [List.length_take, List.length_drop, flatBits_length, hw] at this
    omega
  refine ⟨?_, hlen.symm⟩
  rcases hlen with hlen | rfl
  · rw [← h]
    apply List.ext_getElem?
    intro i
    simp only [Cur.next, List.getElem?_map, List.getElem?_take, List.getElem?_drop]
    by_cases hi : i < a
    · rw [List.getElem?_range hi, if_pos hi, flatBits_get _ _ (by omega)]; rfl
    · rw [if_neg hi, List.getElem?_eq_none (by simpa using hi)]; rfl
  · simp [Cur.next, ← h]

theorem walk_along_leaf (n : Nat) (t : Tree) (c : Cur) (l : Leaf) (hb : c.bit < 8) (hn : n = 0 ∨ c.offset + n ≤ 8 * c.buf.length) (h : Tree.along t (Cur.next c n) = .leaf l) :
    t.walk c = .ok (l, c.advance n) := by
  induction n generalizing t c with
  | zero =>
    simp only [Cur.next, List.range_zero, List.map_nil, Tree.along] at h
    subst h
    rw [Tree.walk, Cur.advance_zero c hb]
  | succ n ih =>
    rw [Cur.next_succ] at h
    cases t with
    | absent => simp [Tree.along] at h
    | leaf m => simp [Tree.along] at h
    | node x y =>
      simp only [Tree.along] at h
      have ho : c.offset = 8 * c.pos + c.bit := rfl
      rw [Tree.walk, Cur.readBit_spec c hb, if_pos (by omega)]
      simp only []
      have := ih (if bitAt c.buf c.offset then y else x) (c.advance 1) (Cur.advance_bit c 1) (by right; rw [Cur.advance_offset, Cur.advance_buf]; omega) h
      rw [Cur.advance_advance, Nat.add_comm 1 n] at this
      split at this <;> simp_all

theorem walk_along_absent (n : Nat) (t x y : Tree) (c : Cur) (hb : c.bit < 8) (hn : c.offset + (n + 1) ≤ 8 * c.buf.length) (h1 : Tree.along t (Cur.next c n) = .node x y)
    (h : Tree.along t (Cur.next c (n + 1)) = .absent) : t.walk c = .error .noLeaf := by
  induction n generalizing t c with
  | zero =>
    simp only [Cur.next, List.range_zero, List.map_nil, Tree.along] at h1
    subst h1
    rw [Cur.next_succ] at h
    have ho : c.offset = 8 * c.pos + c.bit := rfl
    rw [Tree.walk, Cur.readBit_spec c hb, if_pos (by omega)]
    simp only [Cur.next, Tree.along, List.range_zero, List.map_nil] at h ⊢
    split at h <;> simp_all [Tree.walk]
  | succ n ih =>
    rw [Cur.next_succ] at h h1
    cases t with
    | absent => simp [Tree.along] at h1
    | leaf m => simp [Tree.along] at h1
    | node x y =>
      simp only [Tree.along] at h h1
      have ho : c.offset = 8 * c.pos + c.bit := rfl
      rw [Tree.walk, Cur.readBit_spec c hb, if_pos (by omega)]
      simp only []
      have := ih (if bitAt c.buf c.offset then y else x) (c.advance 1) (Cur.advance_bit c 1) (by rw [Cur.advance_offset, Cur.advance_buf]; omega) h1 h
      split at this <;> simp_all

theorem walk_along_eof (n : Nat) (t x y : Tree) (c : Cur) (hb : c.bit < 8) (hn : c.offset + n = 8 * c.buf.length) (h1 : Tree.along t (Cur.next c n) = .node x y) : t.walk c = .error .eof := by
  induction n generalizing t c with
  | zero =>
    simp only [Cur.next, List.range_zero, List.map_nil, Tree.along] at h1
    subst h1
    have ho : c.offset = 8 * c.pos + c.bit := rfl
    rw [Tree.walk, Cur.readBit_spec c hb, if_neg (by omega)]
  | succ n ih =>
    rw [Cur.next_succ] at h1
    cases t with
    | absent => simp [Tree.along] at h1
    | leaf m => simp [Tree.along] at h1
    | node x y =>
      simp only [Tree.along] at h1
      have ho : c.offset = 8 * c.pos + c.bit := rfl
      rw [Tree.walk, Cur.readBit_spec c hb, if_pos (by omega)]
      simp only []
      have := ih (if bitAt c.buf c.offset then y else x) (c.advance 1) (Cur.advance_bit c 1) (by rw [Cur.advance_offset, Cur.advance_buf]; omega) h1
      split at this <;> simp_all

end Sys2Proof

namespace Sys2Proof.Machine

/-! ## Codes -/

/-- The first code of a length. -/
def firstCode (lens : List Nat) : Nat → Nat
  | 0 => 0
  | b + 1 => (firstCode lens b + lenCount lens b) * 2

theorem nextFrom_length (lens : List Nat) (n b code : Nat) : (nextFrom lens n b code).length = n := by
  induction n generalizing b code with
  | zero => rfl
  | succ n ih => simp only [nextFrom, List.length_cons, ih]

theorem nextFrom_get (lens : List Nat) (n b k : Nat) (hk : k < n) :
    (nextFrom lens n (b + 1) (firstCode lens b)).getD k 0 = firstCode lens (b + 1 + k) := by
  induction n generalizing b k with
  | zero => omega
  | succ n ih =>
    simp only [nextFrom, Nat.add_sub_cancel]
    cases k with
    | zero => rfl
    | succ k =>
      rw [List.getD_cons_succ]
      have := ih (b + 1) k (by omega)
      rw [show firstCode lens (b + 1) = (firstCode lens b + lenCount lens b) * 2 from rfl] at this
      rw [this]
      congr 1; omega

theorem nextCodes_get (lens : List Nat) (l : Nat) (h : l ≤ 15) : (nextCodes lens).getD l 0 = firstCode lens l := by
  unfold nextCodes
  cases l with
  | zero => rfl
  | succ l =>
    rw [List.getD_cons_succ]
    have := nextFrom_get lens 15 0 l (by omega)
    rw [show firstCode lens 0 = 0 from rfl] at this
    simp only [Nat.zero_add] at this
    rw [this]
    congr 1; omega

theorem assignFrom_get (lens next : List Nat) (i a : Nat) (h : lens[i]? = some a) (hn : a < next.length) :
    (assignFrom lens next)[i]? = some (if a = 0 then 0 else next.getD a 0 + (lens.take i).count a) := by
  induction lens generalizing next i with
  | nil => simp at h
  | cons l ls ih =>
    cases i with
    | zero =>
      simp at h; subst h
      unfold assignFrom
      split <;> simp
    | succ i =>
      simp only [List.getElem?_cons_succ] at h
      unfold assignFrom
      split
      · rename_i hl
        rw [List.getElem?_cons_succ, ih _ _ h hn]
        simp only [List.take_succ_cons]
        by_cases ha : a = 0
        · simp [ha]
        · rw [if_neg ha, if_neg ha, List.count_cons_of_ne (by omega)]
      · rename_i hl
        rw [List.getElem?_cons_succ, ih _ _ h (by simpa using hn)]
        simp only [List.take_succ_cons]
        by_cases ha : a = 0
        · simp [ha]
        · rw [if_neg ha, if_neg ha]
          by_cases e : l = a
          · subst e
            rw [List.count_cons_self]
            simp [List.getD_eq_getElem?_getD, hn]; omega
          · rw [List.count_cons_of_ne e]
            simp [List.getD_eq_getElem?_getD, List.getElem?_set_ne e]

theorem code_eq {lens : List Nat} (hl : ∀ l ∈ lens, l ≤ 15) {s a c : Nat} (h : lens[s]? = some a) (h0 : a ≠ 0) (hc : (assignCodes lens)[s]? = some c) :
    c = firstCode lens a + (lens.take s).count a := by
  have ha := hl a (List.mem_of_getElem? h)
  have hlen : (nextCodes lens).length = 16 := by simp [nextCodes, nextFrom_length]
  rw [assignCodes, assignFrom_get lens _ s a h (by omega), if_neg h0, nextCodes_get lens a ha] at hc
  exact (Option.some.inj hc).symm

theorem count_take_lt {lens : List Nat} {s a : Nat} (h : lens[s]? = some a) {t : Nat} (ht : s < t) : (lens.take s).count a < (lens.take t).count a := by
  have h1 : lens.take (s + 1) = lens.take s ++ [a] := by rw [List.take_add_one, h]; rfl
  have h2 : (lens.take (s + 1)).Sublist (lens.take t) := by
    rw [show lens.take (s + 1) = (lens.take t).take (s + 1) by rw [List.take_take]; congr 1; omega]
    exact List.take_sublist _ _
  have := h2.count_le a
  rw [h1, List.count_append] at this
  simp at this; omega

theorem first_mono (lens : List Nat) (a k : Nat) : (firstCode lens a + lenCount lens a) * 2 ^ (k + 1) ≤ firstCode lens (a + k + 1) := by
  induction k with
  | zero => simp [firstCode]
  | succ k ih =>
    rw [show a + (k + 1) + 1 = (a + k + 1) + 1 by omega]
    simp only [firstCode]
    rw [Nat.pow_succ]
    calc (firstCode lens a + lenCount lens a) * (2 ^ (k + 1) * 2) = ((firstCode lens a + lenCount lens a) * 2 ^ (k + 1)) * 2 := by ring
      _ ≤ firstCode lens (a + k + 1) * 2 := Nat.mul_le_mul_right _ ih
      _ ≤ _ := by simp only [firstCode]; omega

theorem code_lt {lens : List Nat} (hl : ∀ l ∈ lens, l ≤ 15) {s a c : Nat} (h : lens[s]? = some a) (h0 : a ≠ 0) (hc : (assignCodes lens)[s]? = some c) :
    c < firstCode lens a + lenCount lens a := by
  rw [code_eq hl h h0 hc, lenCount, if_neg h0]
  have := count_take_lt h (t := lens.length) (List.getElem?_eq_some_iff.1 h).1
  rw [List.take_length] at this
  omega

theorem code_order {lens : List Nat} (hl : ∀ l ∈ lens, l ≤ 15) {s t a b c d : Nat} (hs : lens[s]? = some a) (ht : lens[t]? = some b) (h0 : a ≠ 0)
    (hc : (assignCodes lens)[s]? = some c) (hd : (assignCodes lens)[t]? = some d) (hab : a < b) : (c + 1) * 2 ^ (b - a) ≤ d := by
  have h1 := code_lt hl hs h0 hc
  have h2 := first_mono lens a (b - a - 1)
  rw [show b - a - 1 + 1 = b - a by omega, show a + (b - a - 1) + 1 = b by omega] at h2
  have h3 := code_eq hl ht (by omega) hd
  calc (c + 1) * 2 ^ (b - a) ≤ (firstCode lens a + lenCount lens a) * 2 ^ (b - a) := Nat.mul_le_mul_right _ h1
    _ ≤ _ := by omega

/-- The part of the Kraft sum of lengths up to `b`. -/
def kraftTo (lens : List Nat) (b : Nat) : Nat := (lens.map fun l => if l = 0 ∨ b < l then 0 else 2 ^ (15 - l)).sum

theorem kraftTo_succ (lens : List Nat) (b : Nat) : kraftTo lens (b + 1) = kraftTo lens b + lenCount lens (b + 1) * 2 ^ (15 - (b + 1)) := by
  induction lens with
  | nil => simp [kraftTo, lenCount]
  | cons l ls ih =>
    simp only [kraftTo, lenCount, List.map_cons, List.sum_cons, Nat.add_one_ne_zero, if_false] at *
    rw [ih]
    rcases Nat.lt_trichotomy l (b + 1) with h | h | h
    · rw [List.count_cons_of_ne (by omega)]
      by_cases h0 : l = 0
      · simp [h0]
      · rw [if_neg (by omega), if_neg (by omega)]; ring
    · subst h
      rw [List.count_cons_self, if_neg (by omega), if_pos (by omega)]; ring
    · rw [List.count_cons_of_ne (by omega), if_pos (by omega), if_pos (by omega)]; ring

theorem kraftTo_le (lens : List Nat) (b : Nat) : kraftTo lens b ≤ (lens.map fun l => if l = 0 then 0 else 2 ^ (15 - l)).sum := by
  induction lens with
  | nil => simp [kraftTo]
  | cons l ls ih =>
    simp only [kraftTo, List.map_cons, List.sum_cons] at *
    have : (if l = 0 ∨ b < l then 0 else 2 ^ (15 - l)) ≤ (if l = 0 then 0 else 2 ^ (15 - l)) := by
      split
      · exact Nat.zero_le _
      · rw [if_neg (by omega)]
    omega

theorem first_kraft (lens : List Nat) (b : Nat) (hb : b ≤ 15) : (firstCode lens b + lenCount lens b) * 2 ^ (15 - b) = kraftTo lens b := by
  induction b with
  | zero =>
    have : kraftTo lens 0 = 0 := by
      unfold kraftTo
      rw [List.sum_eq_zero]
      intro x hx
      obtain ⟨l, -, rfl⟩ := List.mem_map.1 hx
      exact if_pos (by omega)
    rw [this]; simp [firstCode, lenCount]
  | succ b ih =>
    rw [kraftTo_succ, ← ih (by omega)]
    simp only [firstCode]
    rw [show 15 - b = 15 - (b + 1) + 1 by omega, Nat.pow_succ]
    ring

theorem code_bound {lens : List Nat} (hl : ∀ l ∈ lens, l ≤ 15) (hk : (lens.map fun l => if l = 0 then 0 else 2 ^ (15 - l)).sum ≤ 2 ^ 15) {s a c : Nat} (h : lens[s]? = some a) (h0 : a ≠ 0) (hc : (assignCodes lens)[s]? = some c) :
    c < 2 ^ a := by
  have ha := hl a (List.mem_of_getElem? h)
  have h1 := code_lt hl h h0 hc
  have h2 := first_kraft lens a ha
  have h3 := kraftTo_le lens a
  have h4 : (firstCode lens a + lenCount lens a) * 2 ^ (15 - a) ≤ 2 ^ a * 2 ^ (15 - a) := by
    rw [h2, ← Nat.pow_add, show a + (15 - a) = 15 by omega]
    exact Nat.le_trans h3 hk
  have h5 := Nat.le_of_mul_le_mul_right h4 (Nat.two_pow_pos _)
  omega

theorem codeBits_length (a c : Nat) : (codeBits a c).length = a := by simp [codeBits]

theorem prefix_code {a b c d : Nat} (hc : c < 2 ^ a) (hd : d < 2 ^ b) (h : codeBits a c <+: codeBits b d) : a ≤ b ∧ c = d / 2 ^ (b - a) := by
  have hab : a ≤ b := by have := h.length_le; rwa [codeBits_length, codeBits_length] at this
  refine ⟨hab, Nat.eq_of_testBit_eq fun j => ?_⟩
  rw [Nat.testBit_div_two_pow]
  rcases Nat.lt_or_ge j a with hj | hj
  · have hg := List.prefix_iff_getElem?.1 h (a - 1 - j) (by rw [codeBits_length]; omega)
    simp only [codeBits, List.getElem?_map, List.getElem_map, List.getElem_range] at hg
    rw [List.getElem?_range (by omega)] at hg
    simp only [Option.map_some, Option.some.injEq] at hg
    rw [show b - 1 - (a - 1 - j) = j + (b - a) by omega, show a - 1 - (a - 1 - j) = j by omega] at hg
    exact hg.symm
  · rw [Nat.testBit_lt_two_pow (Nat.lt_of_lt_of_le hc (Nat.pow_le_pow_right (by decide) hj)),
      Nat.testBit_lt_two_pow (Nat.lt_of_lt_of_le hd (Nat.pow_le_pow_right (by decide) (by omega)))]

theorem codes_apart {lens : List Nat} (hl : ∀ l ∈ lens, l ≤ 15) (hk : (lens.map fun l => if l = 0 then 0 else 2 ^ (15 - l)).sum ≤ 2 ^ 15) {s t a b c d : Nat} (hst : s ≠ t) (hs : lens[s]? = some a) (ht : lens[t]? = some b) (ha : a ≠ 0) (hb : b ≠ 0)
    (hc : (assignCodes lens)[s]? = some c) (hd : (assignCodes lens)[t]? = some d) : ¬ codeBits a c <+: codeBits b d := by
  intro hp
  obtain ⟨hab, he⟩ := prefix_code (code_bound hl hk hs ha hc) (code_bound hl hk ht hb hd) hp
  rcases Nat.lt_or_ge a b with h | h
  · have := code_order hl hs ht ha hc hd h
    have h2 : c + 1 ≤ d / 2 ^ (b - a) := (Nat.le_div_iff_mul_le (Nat.two_pow_pos _)).2 this
    omega
  · obtain rfl : a = b := by omega
    simp at he
    subst he
    have e1 := code_eq hl hs ha hc
    have e2 := code_eq hl ht hb hd
    rcases Nat.lt_or_ge s t with h | h
    · have := count_take_lt hs h; omega
    · have := count_take_lt ht (show t < s by omega); omega

/-! ## Trees -/

@[simp] theorem along_nil (t : Tree) : Tree.along t [] = t := by cases t <;> rfl

@[simp] theorem along_node (l r : Tree) (b : Bool) (bs : List Bool) : Tree.along (.node l r) (b :: bs) = Tree.along (if b then r else l) bs := rfl

@[simp] theorem along_absent (bs : List Bool) : Tree.along .absent bs = .absent := by cases bs <;> rfl

@[simp] theorem along_leaf (l : Leaf) (b : Bool) (bs : List Bool) : Tree.along (.leaf l) (b :: bs) = .absent := rfl

/-- What inserting a leaf does. -/
structure PutOk (l : Leaf) (w : List Bool) (t t' : Tree) : Prop where
  here : Tree.along t' w = .leaf l
  within : ∀ v, v <+: w → v ≠ w → ∃ x y, Tree.along t' v = .node x y
  beside : ∀ v, ¬ v <+: w → ¬ w <+: v → Tree.along t' v = Tree.along t v

theorem put_spec (l : Leaf) (w : List Bool) (t : Tree) (h1 : ∀ p, p <+: w → p ≠ w → ∀ m, Tree.along t p ≠ .leaf m) (h2 : Tree.along t w = .absent) :
    ∃ t' k, Tree.put l w t = some (t', k) ∧ PutOk l w t t' := by
  induction w generalizing t with
  | nil =>
    rw [along_nil] at h2; subst h2
    refine ⟨_, _, rfl, rfl, fun v hv hn => ?_, fun v hv hw => absurd (List.nil_prefix) hw⟩
    exact absurd (List.prefix_nil.1 hv) hn
  | cons b bs ih =>
    have lift {side side' other : Tree} (hs : PutOk l bs side side') {t t' : Tree} (ht' : t' = if b then .node other side' else .node side' other)
        (hside : ∀ v, Tree.along t (b :: v) = Tree.along side v) (hother : ∀ v, Tree.along t ((!b) :: v) = Tree.along other v) : PutOk l (b :: bs) t t' := by
      have f1 (v : List Bool) : Tree.along t' (b :: v) = Tree.along side' v := by subst ht'; cases b <;> rfl
      have f2 (v : List Bool) : Tree.along t' ((!b) :: v) = Tree.along other v := by subst ht'; cases b <;> rfl
      refine ⟨by rw [f1]; exact hs.here, fun v hv hn => ?_, fun v hv hw => ?_⟩
      · cases v with
        | nil => subst ht'; cases b <;> exact ⟨_, _, along_nil _⟩
        | cons c v =>
          obtain ⟨hc, hv'⟩ := List.cons_prefix_cons.1 hv
          rw [hc] at hn ⊢
          rw [f1]
          exact hs.within v hv' (fun e => hn (by rw [e]))
      · cases v with
        | nil => exact absurd List.nil_prefix hv
        | cons c v =>
          by_cases hc : c = b
          · subst hc
            rw [f1, hside]
            exact hs.beside v (fun e => hv (List.cons_prefix_cons.2 ⟨rfl, e⟩)) (fun e => hw (List.cons_prefix_cons.2 ⟨rfl, e⟩))
          · obtain rfl : c = !b := by cases c <;> cases b <;> simp_all
            rw [f2, hother]
    cases t with
    | absent =>
      obtain ⟨t', k, e, ok⟩ := ih .absent (by simp) (by simp)
      refine ⟨if b then .node .absent t' else .node t' .absent, k + 1, by simp [Tree.put, e], lift (other := .absent) ok rfl (by simp) (by simp)⟩
    | leaf m => exact absurd (along_nil _) (h1 [] List.nil_prefix (by simp) m)
    | node left right =>
      cases b with
      | true =>
        obtain ⟨t', k, e, ok⟩ := ih right (fun p hp hn m => by
          have := h1 (true :: p) (List.cons_prefix_cons.2 ⟨rfl, hp⟩) (by simpa using hn) m
          exact this) h2
        exact ⟨.node left t', k, by simp [Tree.put, e], lift (other := left) ok rfl (fun _ => rfl) (fun _ => rfl)⟩
      | false =>
        obtain ⟨t', k, e, ok⟩ := ih left (fun p hp hn m => by
          have := h1 (false :: p) (List.cons_prefix_cons.2 ⟨rfl, hp⟩) (by simpa using hn) m
          exact this) h2
        exact ⟨.node t' right, k, by simp [Tree.put, e], lift (other := right) ok rfl (fun _ => rfl) (fun _ => rfl)⟩

/-- A tree holds exactly the listed paths. -/
structure Rep (t : Tree) (L : List (List Bool × Leaf)) : Prop where
  has : ∀ e ∈ L, Tree.along t e.1 = .leaf e.2
  leaf : ∀ v m, Tree.along t v = .leaf m → (v, m) ∈ L
  node : ∀ v x y, Tree.along t v = .node x y → v = [] ∨ ∃ e ∈ L, v <+: e.1

theorem Rep.put {t : Tree} {L : List (List Bool × Leaf)} (h : Rep t L) {w : List Bool} (hw : w ≠ []) (l : Leaf)
    (ha : ∀ e ∈ L, ¬ e.1 <+: w ∧ ¬ w <+: e.1) : ∃ t' k, Tree.put l w t = some (t', k) ∧ Rep t' ((w, l) :: L) := by
  obtain ⟨t', k, e, ok⟩ := put_spec l w t
    (fun p hp _ m hm => (ha _ (h.leaf p m hm)).1 hp)
    (by
      cases hf : Tree.along t w with
      | absent => rfl
      | leaf m => exact absurd (List.prefix_refl w) (ha _ (h.leaf w m hf)).1
      | node x y =>
        rcases h.node w x y hf with h | ⟨e, he, hp⟩
        · exact absurd h hw
        · exact absurd hp (ha e he).2)
  have ext (v : List Bool) (hv : w <+: v) (hn : v ≠ w) : Tree.along t' v = .absent := by
    obtain ⟨x, rfl⟩ := hv
    have app (t : Tree) (a b : List Bool) : Tree.along t (a ++ b) = Tree.along (Tree.along t a) b := by
      induction a generalizing t with
      | nil => simp
      | cons c a ih =>
        cases t with
        | absent => simp
        | leaf m => simp
        | node p q => exact ih _
    rw [app, ok.here]
    cases x with
    | nil => simp at hn
    | cons c x => rfl
  refine ⟨t', k, e, ?_, fun v m hm => ?_, fun v x y hv => ?_⟩
  · rintro e' he
    rcases List.mem_cons.1 he with rfl | he
    · exact ok.here
    · rw [ok.beside _ (ha _ he).1 (ha _ he).2]; exact h.has _ he
  · by_cases hvw : v = w
    · subst hvw
      rw [ok.here] at hm
      cases hm
      exact List.mem_cons_self
    · by_cases h1 : v <+: w
      · obtain ⟨x, y, e⟩ := ok.within v h1 hvw
        rw [e] at hm; cases hm
      · by_cases h2 : w <+: v
        · rw [ext v h2 hvw] at hm; cases hm
        · rw [ok.beside v h1 h2] at hm
          exact List.mem_cons_of_mem _ (h.leaf v m hm)
  · by_cases hvw : v = w
    · exact .inr ⟨_, List.mem_cons_self, by rw [hvw]⟩
    · by_cases h1 : v <+: w
      · exact .inr ⟨_, List.mem_cons_self, h1⟩
      · by_cases h2 : w <+: v
        · rw [ext v h2 hvw] at hv; cases hv
        · rw [ok.beside v h1 h2] at hv
          rcases h.node v x y hv with h | ⟨e', he, hp⟩
          · exact .inl h
          · exact .inr ⟨e', List.mem_cons_of_mem _ he, hp⟩

/-- Inserting symbols whose codes are in range and prefix-free gives a tree in which each code leads to its leaf. -/
theorem insertAll_spec (kind : Kind) (W : List (Nat × Nat)) (sym : Nat) (t : TreeReg) (n : Nat) (L : List (List Bool × Leaf)) (hm : t.malformed = false) (hr : Rep t.root L)
    (h1 : ∀ (i : Nat) p, W[i]? = some p → p.1 ≠ 0 → p.2 < 2 ^ p.1)
    (h2 : ∀ (i j : Nat) p q, i ≠ j → W[i]? = some p → W[j]? = some q → p.1 ≠ 0 → q.1 ≠ 0 → ¬ codeBits p.1 p.2 <+: codeBits q.1 q.2)
    (h3 : ∀ e ∈ L, ∀ (i : Nat) p, W[i]? = some p → p.1 ≠ 0 → ¬ e.1 <+: codeBits p.1 p.2 ∧ ¬ codeBits p.1 p.2 <+: e.1) :
    (insertAll kind W sym t n).1.malformed = false ∧ (∀ e ∈ L, Tree.along (insertAll kind W sym t n).1.root e.1 = .leaf e.2) ∧
    (t.empty = false → (insertAll kind W sym t n).1.empty = false) ∧
    ∀ (i : Nat) p, W[i]? = some p → p.1 ≠ 0 → Tree.along (insertAll kind W sym t n).1.root (codeBits p.1 p.2) = .leaf (leafOf kind (sym + i)) ∧ (insertAll kind W sym t n).1.empty = false := by
  induction W generalizing sym t n L with
  | nil => exact ⟨hm, hr.has, fun h => h, by simp⟩
  | cons p W ih =>
    obtain ⟨len, code⟩ := p
    unfold insertAll
    have g1 : ∀ (i : Nat) p, W[i]? = some p → p.1 ≠ 0 → p.2 < 2 ^ p.1 := fun i p hp => h1 (i + 1) p (by simpa using hp)
    have g2 : ∀ (i j : Nat) p q, i ≠ j → W[i]? = some p → W[j]? = some q → p.1 ≠ 0 → q.1 ≠ 0 → ¬ codeBits p.1 p.2 <+: codeBits q.1 q.2 :=
      fun i j p q hij hp hq => h2 (i + 1) (j + 1) p q (by omega) (by simpa using hp) (by simpa using hq)
    by_cases h0 : len = 0
    · simp only [h0, if_true]
      obtain ⟨a, b, c, d⟩ := ih (sym + 1) t n L hm hr g1 g2 (fun e he i p hp => h3 e he (i + 1) p (by simpa using hp))
      refine ⟨a, b, c, fun i p hp hn => ?_⟩
      cases i with
      | zero => simp at hp; subst hp; exact absurd rfl hn
      | succ i => have := d i p (by simpa using hp) hn; rwa [show sym + 1 + i = sym + (i + 1) by omega] at this
    · simp only [h0, if_false]
      rw [if_neg (by have := h1 0 (len, code) rfl h0; simp only at this; omega)]
      obtain ⟨t', k, e, hr'⟩ := hr.put (w := codeBits len code) (by intro h; have := congrArg List.length h; rw [codeBits_length] at this; exact h0 this) (leafOf kind sym)
        (fun e he => h3 e he 0 (len, code) rfl h0)
      rw [e]
      simp only []
      obtain ⟨a, b, c, d⟩ := ih (sym + 1) (TreeReg.setRoot t t') (n + k) _ hm hr' g1 g2 (fun e he i p hp hn => by
        rcases List.mem_cons.1 he with rfl | he
        · exact ⟨h2 0 (i + 1) (len, code) p (by omega) rfl (by simpa using hp) h0 hn, h2 (i + 1) 0 p (len, code) (by omega) (by simpa using hp) rfl hn h0⟩
        · exact h3 e he (i + 1) p (by simpa using hp) hn)
      refine ⟨a, fun e he => b e (List.mem_cons_of_mem _ he), fun _ => c rfl, fun i p hp hn => ?_⟩
      cases i with
      | zero =>
        simp at hp; subst hp
        exact ⟨b _ List.mem_cons_self, c rfl⟩
      | succ i => have := d i p (by simpa using hp) hn; rwa [show sym + 1 + i = sym + (i + 1) by omega] at this

end Sys2Proof.Machine
end

