-- ==== Sys2Proof/Laws/Frame.lean ====
section
/-! SUPPORT. What each element may change (R29, R71, R24): one lemma over all elements, `eff_exec`, that later proofs
cite instead of unfolding the meanings. -/

namespace Sys2Proof.Machine

set_option linter.unreachableTactic false
set_option linter.unusedTactic false

/-- Every next state satisfies P. -/
def All (P : State → Prop) : Out → Prop
  | .next t => P t
  | _ => True

theorem All.mono {P Q : State → Prop} (h : ∀ t, P t → Q t) {o : Out} (ho : All P o) : All Q o := by
  cases o <;> first | exact h _ ho | trivial

theorem ite_all {P : State → Prop} {c : Prop} [Decidable c] {a b : Out} (h : All P a) (g : All P b) :
    All P (if c then a else b) := by split <;> assumption

/-- The groups of state an element may change, beside what every element may. -/
structure Perm where
  paint : Bool := false
  ihdr : Bool := false
  plte : Bool := false
  trns : Bool := false
  bkgd : Bool := false
  gama : Bool := false
  actl : Bool := false
  fctl : Bool := false
  iend : Bool := false
  blk : Bool := false
  tree : Bool := false

/-- What no element changes: the parameters, the configuration, sampled or not, and the environment. -/
structure Conf (s t : State) : Prop where
  cfg : t.cfg = s.cfg := by rfl
  cap : t.cap = s.cap := by rfl
  regs : (t.srcBase, t.srcLen, t.canvasBase, t.canvasStride, t.canvasW, t.canvasH, t.cfgBg, t.cfgX, t.cfgY)
    = (s.srcBase, s.srcLen, s.canvasBase, s.canvasStride, s.canvasW, s.canvasH, s.cfgBg, s.cfgX, s.cfgY) := by rfl
  environment : (t.allocDenied, t.hostQ, t.hostRd, t.freeN) = (s.allocDenied, s.hostQ, s.hostRd, s.freeN) := by rfl

theorem Conf.trans {s t u : State} (h : Conf s t) (g : Conf t u) : Conf s u :=
  ⟨g.cfg.trans h.cfg, g.cap.trans h.cap, g.regs.trans h.regs, g.environment.trans h.environment⟩

/-- What stays the same under a permission. -/
structure Same (p : Perm) (s t : State) : Prop where
  conf : Conf s t := by exact {}
  place : (t.ox, t.oy, t.plays, t.play, t.fidx) = (s.ox, s.oy, s.plays, s.play, s.fidx) := by rfl
  count : (t.framesDone, t.framesOut) = (s.framesDone, s.framesOut) := by rfl
  ends : (t.runState, t.trace, t.errcode, t.frames) = (s.runState, s.trace, s.errcode, s.frames) := by rfl
  paint : p.paint = false → (t.mem, t.painted) = (s.mem, s.painted) := by first | exact fun _ => rfl | exact nofun
  ihdr : p.ihdr = false → t.haveIhdr = s.haveIhdr := by first | exact fun _ => rfl | exact nofun
  plte : p.plte = false → t.havePlte = s.havePlte := by first | exact fun _ => rfl | exact nofun
  trns : p.trns = false → t.keyValid = s.keyValid := by first | exact fun _ => rfl | exact nofun
  bkgd : p.bkgd = false → t.haveBkgd = s.haveBkgd := by first | exact fun _ => rfl | exact nofun
  gama : p.gama = false → t.haveGamma = s.haveGamma := by first | exact fun _ => rfl | exact nofun
  actl : p.actl = false → (t.animated, t.anim) = (s.animated, s.anim) := by first | exact fun _ => rfl | exact nofun
  fctl : p.fctl = false → t.fctlValid = s.fctlValid := by first | exact fun _ => rfl | exact nofun
  iend : p.iend = false → t.seenIend = s.seenIend := by first | exact fun _ => rfl | exact nofun
  blk : p.blk = false → t.bfinal = s.bfinal := by first | exact fun _ => rfl | exact nofun
  tree : p.tree = false → (t.tLit, t.tDist, t.tCl) = (s.tLit, s.tDist, s.tCl) := by first | exact fun _ => rfl | exact nofun

theorem Same.trans {p : Perm} {s t u : State} (h : Same p s t) (g : Same p t u) : Same p s u where
  conf := h.conf.trans g.conf
  place := g.place.trans h.place
  count := g.count.trans h.count
  ends := g.ends.trans h.ends
  paint := fun e => (g.paint e).trans (h.paint e)
  ihdr := fun e => (g.ihdr e).trans (h.ihdr e)
  plte := fun e => (g.plte e).trans (h.plte e)
  trns := fun e => (g.trns e).trans (h.trns e)
  bkgd := fun e => (g.bkgd e).trans (h.bkgd e)
  gama := fun e => (g.gama e).trans (h.gama e)
  actl := fun e => (g.actl e).trans (h.actl e)
  fctl := fun e => (g.fctl e).trans (h.fctl e)
  iend := fun e => (g.iend e).trans (h.iend e)
  blk := fun e => (g.blk e).trans (h.blk e)
  tree := fun e => (g.tree e).trans (h.tree e)

/-- What an element does to the state: a permitted change, or a trap after one that left memory alone. -/
def Eff (p : Perm) (s t : State) : Prop :=
  Same p s t ∨ ∃ e u, t = trap e u ∧ Same p s u ∧ (u.mem, u.painted, u.anim) = (s.mem, s.painted, s.anim)

theorem Eff.after {p : Perm} {s t u : State} (h : Same p s t)
    (hm : (t.mem, t.painted, t.anim) = (s.mem, s.painted, s.anim)) (g : Eff p t u) : Eff p s u := by
  rcases g with g | ⟨e, v, rfl, g, g1⟩
  · exact .inl (h.trans g)
  · exact .inr ⟨e, v, rfl, h.trans g, g1.trans hm⟩

theorem Eff.all {p : Perm} {s t : State} {o : Out} (h : Same p s t)
    (hm : (t.mem, t.painted, t.anim) = (s.mem, s.painted, s.anim)) (g : All (Eff p t) o) : All (Eff p s) o :=
  All.mono (fun _ ht => Eff.after h hm ht) g

theorem eff_next {p : Perm} {s t : State} (h : Same p s t := by exact {}) : All (Eff p s) (.next t) := .inl h

theorem eff_trap {p : Perm} {s u : State} {e : ErrKind} (h : Same p s u := by exact {})
    (hm : (u.mem, u.painted, u.anim) = (s.mem, s.painted, s.anim) := by rfl) : All (Eff p s) (.next (trap e u)) :=
  .inr ⟨e, u, rfl, h, hm⟩

theorem eff_rejected {p : Perm} {s : State} (r : Reject) : All (Eff p s) (rejected r s) := by
  rcases rejected_cases r s with ⟨k', -, e'⟩ | ⟨-, e'⟩ <;> rw [e'] <;> (first | trivial | exact eff_trap | exact eff_next)

theorem eff_withBits {p : Perm} {s : State} (n : Nat) (k : Nat → State → Out) (hk : ∀ v ip ib, All (Eff p s) (k v { s with ip := ip, ib := ib })) : All (Eff p s) (withBits n s k) := by
  rcases withBits_cases n s k with ⟨v, c, -, e⟩ | ⟨er, -, e⟩
  · rw [e]; exact hk v c.pos c.bit
  · rw [e]; exact eff_rejected er

theorem eff_byteOp {p : Perm} {s : State} {α : Type} (r : Reader) (read : Cur → Except Reject (α × Cur)) (res : α → ReadResult) : All (Eff p s) (byteOp r read res s) := by
  unfold byteOp
  split
  · trivial
  · split
    · exact eff_rejected _
    · cases r <;> (first | trivial | exact eff_trap | exact eff_next)

theorem eff_allocs {p : Perm} {s : State} {count size : Nat} {k : State → Out} (hk : All (Eff p s) (k { s with allocN := s.allocN + count })) : All (Eff p s) (allocs count size s k) := by
  unfold allocs
  simp only []
  split
  · (first | trivial | exact eff_trap | exact eff_next)
  · exact hk

theorem eff_alloc {p : Perm} {s : State} {size : Nat} {k : State → Out} (hk : All (Eff p s) (k { s with allocN := s.allocN + 1 })) : All (Eff p s) (alloc size s k) := eff_allocs hk

theorem eff_paint {s : State} (v : Frame → State → Nat × Nat → Option Pixel) (ph : Phase) (sn : State → List Pixel) : All (Eff { paint := true } s) (withFrame s fun f => .next { paintRect (v f) f s with snap := sn (paintRect (v f) f s), phase := ph }) := by
  unfold withFrame
  split
  · trivial
  · split
    · trivial
    · split
      · trivial
      · rename_i f _ _ _
        obtain ⟨m, p, e⟩ := paintRect_frame (v f) f s
        simp only [All, e]
        (first | trivial | exact eff_trap | exact eff_next)

theorem eff_length {s : State} (n : Nat) : All (Eff {} s) (lengthSymbol n s) := by
  unfold lengthSymbol; split; (first | trivial | exact eff_trap | exact eff_next); exact eff_withBits _ _ fun v ip ib => by (first | trivial | exact eff_trap | exact eff_next)

theorem eff_distance {s : State} (n : Nat) : All (Eff {} s) (distanceSymbol n s) := by
  unfold distanceSymbol; split; (first | trivial | exact eff_trap | exact eff_next); exact eff_withBits _ _ fun v ip ib => by (first | trivial | exact eff_trap | exact eff_next)

theorem eff_clLength {s : State} (n : Nat) : All (Eff {} s) (clLength n s) := by
  unfold clLength; split <;> (first | trivial | exact eff_trap | exact eff_next)

theorem eff_clRepeat {s : State} (rep v : Nat) (ip ib : Nat) : All (Eff {} s) (clRepeat rep v { s with ip := ip, ib := ib }) := by
  unfold clRepeat; split <;> (first | trivial | exact eff_trap | exact eff_next)

theorem eff_filter {s : State} (pr : Nat → Nat → Nat → Nat) : All (Eff {} s) (filterRow pr s) := by
  unfold filterRow; split; (first | trivial | exact eff_trap | exact eff_next); split <;> (first | trivial | exact eff_trap | exact eff_next)

theorem eff_expand {s : State} (bpp : Nat) (px : State → (Nat → Byte) → Nat → Option Pixel) : All (Eff {} s) (expandRow bpp px s) := by
  unfold expandRow; simp only []; split; (first | trivial | exact eff_trap | exact eff_next); split <;> (first | trivial | exact eff_trap | exact eff_next)

theorem eff_start {p : Perm} (h1 : p.blk = true) (h2 : p.tree = true) {s : State} {w h x y : Word} {d : Nat} {a b : Byte}
    {k : Resume} : All (Eff p s) (startDecode w h x y d a b k s) := by
  unfold startDecode
  split
  · (first | trivial | exact eff_trap | exact eff_next)
  · exact .inl { blk := fun h => (nomatch h.symm.trans h1), tree := fun h => nomatch h.symm.trans h2 }

theorem eff_latch {p : Perm} (h1 : p.fctl = true) {f : FctlFields} {s : State} : All (Eff p s) (latchFctl f s) := by
  unfold latchFctl
  iterate 5 (split; (first | trivial | exact eff_trap | exact eff_next))
  exact .inl { fctl := fun h => nomatch h.symm.trans h1 }

theorem eff_finish (k : Resume) {p : Perm} {s : State} (h1 : p.blk = true) (h2 : p.tree = true) (h3 : p.fctl = true)
    (hk : k = .iend → p.iend = true) : All (Eff p s) (finishFrame k s) := by
  unfold finishFrame
  split
  · exact eff_start h1 h2
  · split
    · exact eff_start h1 h2
    · unfold afterFinish
      cases k with
      | iend =>
        exact .inl { fctl := fun h => (nomatch h.symm.trans h3), iend := fun h => nomatch h.symm.trans (hk rfl) }
      | fctl f =>
        exact Eff.all (t := { s with acc := [], fctlValid := false }) { fctl := fun h => nomatch h.symm.trans h3 } rfl
          (eff_latch h3)

/-- What each element may change. -/
def permOf : Instr → Perm
  | .ihdr _ _ => { ihdr := true }
  | .plte _ _ => { plte := true }
  | .trns _ _ => { trns := true }
  | .bkgd _ _ => { bkgd := true }
  | .gama _ _ => { gama := true }
  | .actl _ _ => { actl := true }
  | .fctl _ _ => { fctl := true, blk := true, tree := true }
  | .iend _ _ => { fctl := true, iend := true, blk := true, tree := true }
  | .blkStored _ => { blk := true }
  | .blkStatic _ => { blk := true, tree := true }
  | .blkDynamic _ => { blk := true }
  | .blkReserved _ => { blk := true }
  | .dynHdr _ _ _ _ => { tree := true }
  | .eob => { tree := true }
  | .bSource => { paint := true }
  | .bOver => { paint := true }
  | .dBackground => { paint := true }
  | .dPrevious => { paint := true }
  | _ => {}

/-- The effect of every element is permitted to it. -/
theorem eff_exec (i : Instr) (s : State) : All (Eff (permOf i) s) (exec i s) := by
  cases i
  case need r k => change All _ (execNeed r k s); unfold execNeed; split <;> (first | trivial | exact eff_trap | exact eff_next)
  case skip r k =>
    change All _ (execSkip r k s); unfold execSkip; split
    · exact eff_rejected _
    · cases r <;> (first | trivial | exact eff_trap | exact eff_next)
  case readU8 => exact eff_byteOp _ _ _
  case readU16be => exact eff_byteOp _ _ _
  case readU32be => exact eff_byteOp _ _ _
  case readType => exact eff_byteOp _ _ _
  case readBit =>
    change All _ (execReadBit  s); unfold execReadBit; split
    · exact eff_rejected _
    · (first | trivial | exact eff_trap | exact eff_next)
  case readBits n =>
    change All _ (execReadBits n s); unfold execReadBits
    refine eff_withBits _ _ fun v ip ib => ?_
    (first | trivial | exact eff_trap | exact eff_next)
  case alignToByte r => change All _ (execAlignToByte r s); unfold execAlignToByte; cases r <;> (first | trivial | exact eff_trap | exact eff_next)
  case ihdr a b =>
    change All _ (execIhdr a b s); unfold execIhdr; simp only []
    repeat' split
    all_goals (first | trivial | exact eff_trap | exact eff_next)
  case plte a b =>
    change All _ (execPlte a b s); unfold execPlte
    repeat' split
    iterate 3 (first | trivial | exact eff_trap | exact eff_next)
    refine eff_alloc ?_; (first | trivial | exact eff_trap | exact eff_next)
  case trns a b =>
    change All _ (execTrns a b s); unfold execTrns
    repeat' split
    all_goals (first | trivial | exact eff_trap | exact eff_next)
  case bkgd a b =>
    change All _ (execBkgd a b s); unfold execBkgd
    repeat' split
    all_goals first | (first | trivial | exact eff_trap | exact eff_next) | (unfold finishBkgd; repeat' split) <;> (first | trivial | exact eff_trap | exact eff_next)
  case gama a b =>
    change All _ (execGama a b s); unfold execGama
    repeat' split
    all_goals (first | trivial | exact eff_trap | exact eff_next)
  case idat a b =>
    change All _ (execIdat a b s); unfold execIdat; split
    · (first | trivial | exact eff_trap | exact eff_next)
    · refine eff_alloc ?_; (first | trivial | exact eff_trap | exact eff_next)
  case actl a b =>
    change All _ (execActl a b s); unfold execActl
    repeat' split
    iterate 4 (first | trivial | exact eff_trap | exact eff_next)
    refine eff_alloc ?_; (first | trivial | exact eff_trap | exact eff_next)
  case fctl a b =>
    change All _ (execFctl a b s); unfold execFctl
    repeat' split
    iterate 3 (first | trivial | exact eff_trap | exact eff_next)
    refine Eff.all ?_ ?_ (eff_finish _ rfl rfl rfl ?_)
    · exact {}
    · rfl
    · intro h; simp at h
  case fdat a b =>
    change All _ (execFdat a b s); unfold execFdat; simp only []
    repeat' split
    iterate 4 (first | trivial | exact eff_trap | exact eff_next)
    refine Eff.all ?_ ?_ (eff_alloc ?_)
    · exact {}
    · rfl
    refine Or.inl ?_
    exact {}
  case iend => exact eff_finish _ rfl rfl rfl fun _ => rfl
  case blkStatic a =>
    change All _ (execBlkStatic a s); unfold execBlkStatic withTree
    generalize buildTree .litlen staticLit = L
    generalize buildTree .dist staticDist = D
    refine Eff.all ?_ ?_ (eff_allocs ?_)
    · exact {}
    · rfl
    refine Eff.all ?_ ?_ (eff_allocs ?_)
    · exact {}
    · rfl
    refine Or.inl ?_
    exact {}
  case dynHdr a b c d =>
    change All _ (execDynHdr a b c d s); unfold execDynHdr withTree; simp only []
    refine Eff.all ?_ ?_ (eff_allocs ?_)
    · exact {}
    · rfl
    refine Or.inl ?_
    exact {}
  case storedBody a b =>
    change All _ (execStoredBody a b s); unfold execStoredBody
    refine eff_alloc ?_
    unfold storedBytes
    repeat' split
    all_goals (first | trivial | exact eff_trap | exact eff_next)
  case lit b => change All _ (execLit b s); unfold execLit; refine eff_alloc ?_; (first | trivial | exact eff_trap | exact eff_next)
  case matchCopy a b =>
    change All _ (execMatchCopy a b s); unfold execMatchCopy
    repeat' split
    iterate 2 (first | trivial | exact eff_trap | exact eff_next)
    refine eff_alloc ?_; (first | trivial | exact eff_trap | exact eff_next)
  case cl16 =>
    change All _ (execCl16  s); unfold execCl16
    repeat' split
    iterate 2 (first | trivial | exact eff_trap | exact eff_next)
    exact eff_withBits _ _ fun v ip ib => eff_clRepeat _ _ _ _
  case cl17 =>
    change All _ (execCl17  s); unfold execCl17
    split
    (first | trivial | exact eff_trap | exact eff_next)
    exact eff_withBits _ _ fun v ip ib => eff_clRepeat _ _ _ _
  case cl18 =>
    change All _ (execCl18  s); unfold execCl18
    split
    (first | trivial | exact eff_trap | exact eff_next)
    exact eff_withBits _ _ fun v ip ib => eff_clRepeat _ _ _ _
  case bSource =>
    change All _ (execBSource  s); unfold execBSource
    exact eff_paint (fun f t p => some (sourcePixel t.bg (framePixel f p))) _ (fun t => t.snap)
  case bOver => exact eff_paint (fun f t p => overPixel (readAt t f p) (framePixel f p)) _ (fun t => t.snap)
  case dBackground => exact eff_paint (fun f t p => some t.bg) _ (fun t => t.snap)
  case dPrevious =>
    change All _ (execDPrevious  s); unfold execDPrevious withFrame
    repeat' split
    iterate 3 trivial
    rename_i f _ _ _
    refine ite_all ?_ ?_
    · trivial
    obtain ⟨m, p, e⟩ := paintRect_frame (fun t p => some (t.snap.getD (p.2 * f.w.toNat + p.1) 0)) f s
    simp only [All, e]
    (first | trivial | exact eff_trap | exact eff_next)
  all_goals simp only [exec, permOf]
  all_goals first
    | exact eff_distance _
    | exact eff_length _
    | exact eff_clLength _
    | exact eff_filter _
    | exact eff_expand _ _
    | (first | trivial | exact eff_trap | exact eff_next)

end Sys2Proof.Machine
end

