-- ==== Sys2Proof/Laws/Trees.lean ====
section
/-! SUPPORT. Trees: what insertion and construction keep (R206), and that a tree built for an alphabet decodes to
symbols of the alphabet only (R202 to R204, R212). -/

namespace Sys2Proof.Machine

theorem groupLeaf_symbol (gs : List SymGroup) (s : Nat) : (groupLeaf gs s).symbol = s := by
  unfold groupLeaf
  split <;> rfl

@[simp] theorem leafOf_symbol (k : Kind) (s : Nat) : (leafOf k s).symbol = s := by
  cases k
  · rfl
  · simp only [leafOf, litLenLeaf]
    split
    · rfl
    · exact groupLeaf_symbol _ _
  · exact groupLeaf_symbol _ _

theorem Tree.put_symbolsBelow {n k : Nat} {l : Leaf} (hl : l.symbol < n) (bs : List Bool) {t u : Tree}
    (ht : Tree.symbolsBelow n t = true) (h : Tree.put l bs t = some (u, k)) : Tree.symbolsBelow n u = true := by
  induction bs generalizing t u k with
  | nil =>
    cases t with
    | absent =>
      simp only [Tree.put, Option.some.injEq, Prod.mk.injEq] at h
      rw [← h.1]
      simpa [Tree.symbolsBelow] using hl
    | leaf m => simp [Tree.put] at h
    | node a b => simp [Tree.put] at h
  | cons b bs ih =>
    cases t with
    | absent =>
      simp only [Tree.put, Option.map_eq_some_iff, Prod.mk.injEq] at h
      obtain ⟨⟨v, j⟩, hv, rfl, -⟩ := h
      have := ih (t := .absent) rfl hv
      cases b <;> simp [Tree.symbolsBelow, this]
    | leaf m => simp [Tree.put] at h
    | node x y =>
      simp only [Tree.symbolsBelow, Bool.and_eq_true] at ht
      cases b <;> simp only [Tree.put, Option.map_eq_some_iff, Prod.mk.injEq] at h <;>
        obtain ⟨⟨v, j⟩, hv, rfl, -⟩ := h
      · simp [Tree.symbolsBelow, ih ht.1 hv, ht.2]
      · simp [Tree.symbolsBelow, ih ht.2 hv, ht.1]

theorem insertAll_symbolsBelow {n : Nat} (kind : Kind) (ls : List (Nat × Nat)) (s : Nat) (t : TreeReg) (m : Nat)
    (hn : s + ls.length ≤ n) (ht : Tree.symbolsBelow n t.root = true) :
    Tree.symbolsBelow n (insertAll kind ls s t m).1.root = true := by
  induction ls generalizing s t m with
  | nil => exact ht
  | cons p ls ih =>
    obtain ⟨len, code⟩ := p
    simp only [List.length_cons] at hn
    simp only [insertAll]
    split
    · exact ih _ _ _ (by omega) ht
    · split
      · exact ht
      · split
        · exact ht
        · rename_i root k hp
          refine ih _ _ _ (by omega) ?_
          exact Tree.put_symbolsBelow (by simp; omega) _ ht hp

/-- Every leaf of a tree that R206 builds carries a symbol of the array it was built from. -/
theorem buildTree_symbolsBelow (kind : Kind) (lens : List Nat) {n : Nat} (hn : lens.length ≤ n) :
    Tree.symbolsBelow n (buildTree kind lens).1.root = true := by
  refine insertAll_symbolsBelow kind _ 0 _ 1 ?_ rfl
  have := List.length_zip (l₁ := lens) (l₂ := assignCodes lens)
  omega

theorem Tree.walk_symbolsBelow {n : Nat} {t : Tree} {c d : Cur} {l : Leaf} (ht : Tree.symbolsBelow n t = true)
    (h : t.walk c = .ok (l, d)) : l.symbol < n := by
  induction t generalizing c d l with
  | absent => simp [Tree.walk] at h
  | leaf m =>
    simp only [Tree.walk, Except.ok.injEq, Prod.mk.injEq] at h
    simpa [← h.1, Tree.symbolsBelow] using ht
  | node x y ihx ihy =>
    simp only [Tree.symbolsBelow, Bool.and_eq_true] at ht
    simp only [Tree.walk] at h
    split at h
    · simp at h
    · split at h
      · exact ihy ht.2 h
      · exact ihx ht.1 h

/-- The number of symbols of an alphabet. -/
def Kind.size : Kind → Nat
  | .cl => 19
  | .litlen => 288
  | .dist => 32

theorem symInstr_isSome (k : Kind) (s : Nat) (h : s < Kind.size k) : (symInstr k s).isSome = true := by
  cases k with
  | cl =>
    simp only [Kind.size] at h
    simp only [symInstr]
    interval_cases s <;> rfl
  | litlen =>
    simp only [Kind.size] at h
    simp only [symInstr, litLenInstr]
    split
    · rfl
    · interval_cases s <;> first | omega | rfl
  | dist =>
    simp only [Kind.size] at h
    simp only [symInstr]
    interval_cases s <;> rfl

/-- The decoder's table of a symbol and the encoder's agree (R109, R111, R113). -/
theorem symInstr_symbol (k : Kind) (n : Nat) (i : Instr) : symInstr k n = some i ↔ i.symbol = some (k, n) := by
  constructor <;> intro h
  · cases k <;> simp only [symInstr] at h
    · unfold clInstr at h
      split at h <;> cases h <;> rfl
    · unfold litLenInstr at h
      split at h
      · cases h
        simp only [Instr.symbol, BitVec.toNat_ofNat]
        congr 2
        omega
      · unfold eobLenInstr at h
        split at h <;> cases h <;> rfl
    · unfold distInstr at h
      split at h <;> cases h <;> rfl
  · cases i <;> cases h <;> try rfl
    rename_i b
    simp only [symInstr, litLenInstr, if_pos b.isLt, BitVec.ofNat_toNat, BitVec.setWidth_eq]

/-- The walk of R212 stops only for the reasons R212 names. -/
theorem Tree.walk_error {t : Tree} {c : Cur} {e : Reject} (h : t.walk c = .error e) : e = .noLeaf ∨ e = .eof := by
  induction t generalizing c with
  | absent =>
    simp only [Tree.walk, Except.error.injEq] at h
    exact Or.inl h.symm
  | leaf m => simp [Tree.walk] at h
  | node x y ihx ihy =>
    simp only [Tree.walk] at h
    split at h
    · rename_i e' h1
      unfold Cur.readBit at h1
      split at h1
      · simp only [Except.error.injEq] at h h1
        exact Or.inr (h ▸ h1.symm)
      · simp at h1
    · split at h
      · exact ihy h
      · exact ihx h

/-- A symbol decoded through a tree of its alphabet is an element of the alphabet. -/
theorem decodeSym_inside {k : Kind} {t : TreeReg} {c : Cur} (ht : Tree.symbolsBelow (Kind.size k) t.root = true) :
    decodeSym k t c ≠ .error .outsideAlphabet := by
  unfold decodeSym TreeReg.decode
  split
  · rename_i e h1
    intro h
    simp only [Except.error.injEq] at h
    subst h
    split at h1
    · simp at h1
    · split at h1
      · simp at h1
      · rcases Tree.walk_error h1 with h2 | h2 <;> simp at h2
  · rename_i l c1 h1
    split
    · rename_i h2
      exfalso
      have hl : l.symbol < Kind.size k := by
        split at h1
        · simp at h1
        · split at h1
          · simp at h1
          · exact Tree.walk_symbolsBelow ht h1
      have := symInstr_isSome k l.symbol hl
      simp [h2] at this
    · simp

end Sys2Proof.Machine
end

