-- ==== Sys2Proof/Laws/Invariant.lean ====
section
/-! SUPPORT. The meanings and rules against the invariant of Safety.lean: for each, from a live state at its point of
the pseudocode, the outcome is a state with the invariant or a refusal, never a fault. -/

namespace Sys2Proof.Machine

/-- An outcome that is no fault, and whose next state satisfies `P`. -/
def Good (P : State → Prop) : Out → Prop
  | .next t => P t
  | .fault _ => False
  | .refused _ => True

/-- The part of the invariant that does not speak of a launch. -/
structure Base (s : State) : Prop where
  params : Config.legal s.cfg = true
  memory : Memory.wf s.mem = true
  arrays : s.pal.length = 256 ∧ s.palN ≤ 256 ∧ s.cllen.length = 19 ∧ s.lens.length = 320
  bit : s.ib < 8

/-- A running launch, without what its point of the pseudocode adds. -/
structure Live (s : State) : Prop where
  base : Base s
  busy : s.runState = .busy
  ctx : ContextOk s

theorem Live.inv {s : State} (h : Live s) (p : PhaseOk s) : s.Inv where
  params := h.base.params
  memory := h.base.memory
  arrays := h.base.arrays
  bit := h.base.bit
  busy := by
    refine ⟨fun _ hp => ?_, fun _ => h.busy⟩
    simp [PhaseOk, hp] at p
  launch := fun _ => ⟨h.ctx, p⟩

theorem State.Inv.base {s : State} (h : s.Inv) : Base s := ⟨h.params, h.memory, h.arrays, h.bit⟩

/-- The end of a launch, in any state but BUSY, leaves a state with the invariant (R45). -/
theorem Base.ended {s : State} (h : Base s) {r : RunState} (hr : r ≠ .busy) :
    ({ release s with runState := r } : State).Inv where
  params := h.params
  memory := h.memory
  arrays := ⟨List.length_replicate, Nat.zero_le _, List.length_replicate, List.length_replicate⟩
  bit := Nat.zero_lt_succ _
  busy := ⟨fun hb => absurd hb hr, fun hp => absurd rfl hp⟩
  launch := fun hb => absurd hb hr

/-- Trap entry leaves a state with the invariant. -/
theorem Base.trap {s : State} (h : Base s) (e : ErrKind) : (trap e s).Inv :=
  Base.ended (r := .error)
    (s := { s with errcode := Config.errCode s.cfg e, trace := s.trace ++ [.log (Config.errCode s.cfg e)] })
    ⟨h.1, h.2, h.3, h.4⟩ nofun

theorem good_raise {s : State} (h : Base s) (e : ErrKind) : Good State.Inv (raise e s) := h.trap e

theorem good_rejected {s : State} (h : Base s) {r : Reject} (hr : r ≠ .outsideAlphabet) :
    Good State.Inv (rejected r s) := by
  rcases rejected_cases r s with ⟨e, -, he⟩ | ⟨h1, -⟩
  · rw [he]; exact h.trap e
  · exact absurd h1 hr

theorem good_allocs {count size : Nat} {s : State} {k : State → Out} (h : Base s)
    (hk : Good State.Inv (k { s with allocN := s.allocN + count })) : Good State.Inv (allocs count size s k) := by
  unfold allocs
  simp only
  split
  · exact Base.trap (s := { s with allocN := s.allocN + count }) ⟨h.1, h.2, h.3, h.4⟩ _
  · exact hk

theorem good_alloc {size : Nat} {s : State} {k : State → Out} (h : Base s)
    (hk : Good State.Inv (k { s with allocN := s.allocN + 1 })) : Good State.Inv (alloc size s k) := good_allocs h hk

theorem Live.allocN {s : State} (h : Live s) (n : Nat) : Live { s with allocN := n } :=
  ⟨⟨h.base.1, h.base.2, h.base.3, h.base.4⟩, h.busy,
    ⟨h.ctx.1, h.ctx.2, h.ctx.3, h.ctx.4, h.ctx.5, h.ctx.6, h.ctx.7, h.ctx.8, h.ctx.9, h.ctx.10, h.ctx.11, h.ctx.12⟩⟩

/-- The payload cursor inside ACC. -/
def PayOk (s : State) : Prop := 8 * s.ip + s.ib ≤ 8 * s.acc.length

theorem Live.payCur {s : State} (h : Live s) (hp : PayOk s) : (s.cur .pay).Valid := ⟨h.base.bit, hp⟩

theorem Live.putPay {s : State} (h : Live s) {c : Cur} (hc : c.bit < 8) : Live (s.putCur .pay c) :=
  ⟨⟨h.base.1, h.base.2, h.base.3, hc⟩, h.busy,
    ⟨h.ctx.1, h.ctx.2, h.ctx.3, h.ctx.4, h.ctx.5, h.ctx.6, h.ctx.7, h.ctx.8, h.ctx.9, h.ctx.10, h.ctx.11, h.ctx.12⟩⟩

theorem Live.putSrc {s : State} (h : Live s) {c : Cur} (hc : c.pos ≤ s.cap.srcLen.toNat) : Live (s.putCur .src c) :=
  ⟨⟨h.base.1, h.base.2, h.base.3, h.base.4⟩, h.busy,
    ⟨h.ctx.1, hc, h.ctx.3, h.ctx.4, h.ctx.5, h.ctx.6, h.ctx.7, h.ctx.8, h.ctx.9, h.ctx.10, h.ctx.11, h.ctx.12⟩⟩

theorem JobOk.putPay {s : State} (h : JobOk s) {c : Cur} (hc : (s.cur .pay).Ahead c) : JobOk (s.putCur .pay c) :=
  ⟨h.1, h.2, h.3, h.4, by have := hc.valid.inside; rw [hc.buf] at this; exact this, h.6⟩

theorem JobOk.allocN {s : State} (h : JobOk s) (n : Nat) : JobOk { s with allocN := n } :=
  ⟨h.1, h.2, h.3, h.4, h.5, h.6⟩

/-- Operand bits of an element of the payload. -/
theorem good_withBits {n : Nat} {s : State} {k : Nat → State → Out} (h : Live s) (j : JobOk s)
    (hk : ∀ v c, v < 2 ^ n → (s.cur .pay).Ahead c → Good State.Inv (k v (s.putCur .pay c))) :
    Good State.Inv (withBits n s k) := by
  rcases withBits_cases n s k with ⟨v, c, h1, h2⟩ | ⟨e, h1, h2⟩
  · rw [h2]
    obtain ⟨a, -, hv⟩ := Cur.readBits_ahead n (h.payCur j.cursor) h1
    exact hk v c hv a
  · rw [h2]
    refine good_rejected h.base ?_
    rw [Cur.readBits_error h1]
    simp

/-! ## Container -/

theorem good_sig {s : State} (h : Live s) (rest : List Byte) : Good State.Inv (execSig rest s) :=
  Live.inv (s := { s with phase := .walk }) ⟨⟨h.base.1, h.base.2, h.base.3, h.base.4⟩, h.busy,
    ⟨h.ctx.1, h.ctx.2, h.ctx.3, h.ctx.4, h.ctx.5, h.ctx.6, h.ctx.7, h.ctx.8, h.ctx.9, h.ctx.10, h.ctx.11, h.ctx.12⟩⟩
    trivial

theorem walk_point {t : State} (h : t.phase = .walk) : PhaseOk t := by simp [PhaseOk, h]

theorem Live.stays {s : State} (h : Live s) (hp : s.phase = .walk) : s.Inv := h.inv (walk_point hp)

theorem good_ihdr {s : State} (h : Live s) (hp : s.phase = .walk) (data : List Byte) (crc : Word) :
    Good State.Inv (execIhdr data crc s) := by
  unfold execIhdr
  simp only
  split
  · exact good_raise h.base _
  · split
    · exact good_raise h.base _
    · split
      · exact good_raise h.base _
      · split
        · exact good_raise h.base _
        · split
          · exact good_raise h.base _
          · rename_i h1 h2 h3 h4 h5
            have hn : s.haveIhdr = false := by simpa using h1
            obtain ⟨ha, hf, hacc, hd⟩ := h.ctx.headerFirst hn
            have hfr : s.frames = [] := by
              have := h.ctx.table.1
              rw [hd] at this
              exact List.length_eq_zero_iff.mp this
            refine Live.inv ⟨⟨h.base.1, h.base.2, h.base.3, h.base.4⟩, h.busy, ?_⟩ (walk_point hp)
            refine ⟨h.ctx.1, h.ctx.2, h.ctx.3, h.ctx.4, ?_, ?_, ?_, h.ctx.8, ?_, h.ctx.10, h.ctx.11, h.ctx.12⟩
            · intro _
              simp only [not_or, not_lt, not_not, ne_eq, Bool.not_eq_true', Bool.not_eq_false] at h3 h4 h5
              exact ⟨h4, ⟨by simp only [mkHeader]; omega, h3.2.1⟩, ⟨by simp only [mkHeader]; omega, h3.2.2.2⟩, h5, rfl⟩
            · intro hc; simp at hc
            · intro hc; simp [hf] at hc
            · intro f hc; simp [hfr] at hc

theorem good_plte {s : State} (h : Live s) (hp : s.phase = .walk) (data : List Byte) (crc : Word) :
    Good State.Inv (execPlte data crc s) := by
  unfold execPlte
  split
  · exact good_raise h.base _
  · split
    · exact good_raise h.base _
    · split
      · exact good_raise h.base _
      · rename_i h1 h2 h3
        refine good_alloc h.base ?_
        refine Live.inv ⟨⟨h.base.1, h.base.2, ?_, h.base.4⟩, h.busy,
          ⟨h.ctx.1, h.ctx.2, h.ctx.3, h.ctx.4, h.ctx.5, h.ctx.6, h.ctx.7, h.ctx.8, h.ctx.9, h.ctx.10, h.ctx.11,
            h.ctx.12⟩⟩ (walk_point hp)
        have hm : s.cfg.maxPalette ≤ 256 := by
          have := h.base.params
          simp only [Config.legal, Bool.and_eq_true, decide_eq_true_eq] at this
          exact this.1.2
        have ha := h.base.arrays
        simp only [not_or, not_lt] at h3
        refine ⟨?_, by simp only; omega, ha.2.2⟩
        simp only [List.length_append, List.length_map, List.length_range, List.length_drop, ha.1]
        omega

theorem setAlphas_length (p : List Rgba) (as : List Byte) : (setAlphas p as).length = p.length := by
  induction p generalizing as with
  | nil => cases as <;> rfl
  | cons x p ih => cases as <;> simp [setAlphas, ih]

/-- The colour types a legal format has. -/
theorem legal_ctype {ct d : Byte} (h : legalFormat ct d = true) :
    ct.toNat = 0 ∨ ct.toNat = 2 ∨ ct.toNat = 3 ∨ ct.toNat = 4 ∨ ct.toNat = 6 := by
  unfold legalFormat at h
  split at h <;> simp_all

theorem good_trns {s : State} (h : Live s) (hp : s.phase = .walk) (data : List Byte) (crc : Word) :
    Good State.Inv (execTrns data crc s) := by
  have keys (k0 k1 k2 : Half) (v : Bool) :
      Good State.Inv (.next { s with key0 := k0, key1 := k1, key2 := k2, keyValid := v }) :=
    Live.inv (s := { s with key0 := k0, key1 := k1, key2 := k2, keyValid := v })
      ⟨⟨h.base.1, h.base.2, h.base.3, h.base.4⟩, h.busy,
        ⟨h.ctx.1, h.ctx.2, h.ctx.3, h.ctx.4, h.ctx.5, h.ctx.6, h.ctx.7, h.ctx.8, h.ctx.9, h.ctx.10, h.ctx.11,
          h.ctx.12⟩⟩ (walk_point hp)
  unfold execTrns
  split
  · exact good_raise h.base _
  · rename_i h1
    have hc := legal_ctype (h.ctx.header (by simpa using h1)).format
    split
    · split
      · exact good_raise h.base _
      · exact Live.inv (s := { s with pal := setAlphas s.pal data })
          ⟨⟨h.base.1, h.base.2, ⟨by simp only [setAlphas_length]; exact h.base.3.1, h.base.3.2⟩, h.base.4⟩, h.busy,
            ⟨h.ctx.1, h.ctx.2, h.ctx.3, h.ctx.4, h.ctx.5, h.ctx.6, h.ctx.7, h.ctx.8, h.ctx.9, h.ctx.10, h.ctx.11,
              h.ctx.12⟩⟩ (walk_point hp)
    · split
      · exact good_raise h.base _
      · exact keys _ _ _ _
    · split
      · exact good_raise h.base _
      · exact keys _ _ _ _
    · exact h.stays hp
    · exact h.stays hp
    · simp_all

theorem good_finishBkgd {s : State} (h : Live s) (hp : s.phase = .walk) : Good State.Inv (finishBkgd s) := by
  unfold finishBkgd
  split
  · split
    · exact good_raise h.base _
    · exact Live.inv (s := { s with bg := _ }) ⟨⟨h.base.1, h.base.2, h.base.3, h.base.4⟩, h.busy,
        ⟨h.ctx.1, h.ctx.2, h.ctx.3, h.ctx.4, h.ctx.5, h.ctx.6, h.ctx.7, h.ctx.8, h.ctx.9, h.ctx.10, h.ctx.11,
          h.ctx.12⟩⟩ (walk_point hp)
  · exact h.stays hp

theorem good_bkgd {s : State} (h : Live s) (hp : s.phase = .walk) (data : List Byte) (crc : Word) :
    Good State.Inv (execBkgd data crc s) := by
  have raw (b0 b1 b2 : Half) (v : Bool) :
      Good State.Inv (finishBkgd { s with bkgd0 := b0, bkgd1 := b1, bkgd2 := b2, haveBkgd := v }) :=
    good_finishBkgd (s := { s with bkgd0 := b0, bkgd1 := b1, bkgd2 := b2, haveBkgd := v })
      ⟨⟨h.base.1, h.base.2, h.base.3, h.base.4⟩, h.busy,
        ⟨h.ctx.1, h.ctx.2, h.ctx.3, h.ctx.4, h.ctx.5, h.ctx.6, h.ctx.7, h.ctx.8, h.ctx.9, h.ctx.10, h.ctx.11,
          h.ctx.12⟩⟩ hp
  unfold execBkgd
  split
  · exact good_raise h.base _
  · rename_i h1
    have hc := legal_ctype (h.ctx.header (by simpa using h1)).format
    split
    · rename_i hb
      unfold bkgdLen at hb
      split at hb <;> simp_all
    · split
      · exact good_raise h.base _
      · split
        · exact raw _ _ _ _
        · exact raw _ _ _ _
        · exact raw _ _ _ _

theorem good_gama {s : State} (h : Live s) (hp : s.phase = .walk) (data : List Byte) (crc : Word) :
    Good State.Inv (execGama data crc s) := by
  unfold execGama
  split
  · exact good_raise h.base _
  · split
    · exact good_raise h.base _
    · exact Live.inv (s := { s with gamma := _, haveGamma := _ }) ⟨⟨h.base.1, h.base.2, h.base.3, h.base.4⟩, h.busy,
        ⟨h.ctx.1, h.ctx.2, h.ctx.3, h.ctx.4, h.ctx.5, h.ctx.6, h.ctx.7, h.ctx.8, h.ctx.9, h.ctx.10, h.ctx.11,
          h.ctx.12⟩⟩ (walk_point hp)

theorem good_append {s : State} (h : Live s) (hp : s.phase = .walk) (hi : s.haveIhdr = true) (d : List Byte) (n : Nat) :
    Good State.Inv (.next { s with allocN := n, acc := s.acc ++ d }) :=
  Live.inv (s := { s with allocN := n, acc := s.acc ++ d }) ⟨⟨h.base.1, h.base.2, h.base.3, h.base.4⟩, h.busy,
    ⟨h.ctx.1, h.ctx.2, h.ctx.3, h.ctx.4, h.ctx.5, fun hc => absurd (hi.symm.trans hc) (by simp), h.ctx.7, h.ctx.8,
      h.ctx.9, h.ctx.10, h.ctx.11, h.ctx.12⟩⟩ (walk_point hp)

theorem good_idat {s : State} (h : Live s) (hp : s.phase = .walk) (data : List Byte) (crc : Word) :
    Good State.Inv (execIdat data crc s) := by
  unfold execIdat
  split
  · exact good_raise h.base _
  · rename_i h1
    exact good_alloc h.base (good_append h hp (by simpa using h1) _ _)

theorem good_actl {s : State} (h : Live s) (hp : s.phase = .walk) (data : List Byte) (crc : Word) :
    Good State.Inv (execActl data crc s) := by
  unfold execActl
  split
  · exact good_raise h.base _
  · split
    · exact good_raise h.base _
    · split
      · exact good_raise h.base _
      · split
        · exact good_raise h.base _
        · rename_i h1 h2 h3 h4
          refine good_alloc h.base ?_
          obtain ⟨hs, hv⟩ := h.ctx.still (by simpa using h2)
          have hi : s.haveIhdr = true := by simpa using h1
          exact Live.inv ⟨⟨h.base.1, h.base.2, h.base.3, h.base.4⟩, h.busy,
            ⟨h.ctx.1, h.ctx.2, h.ctx.3, rfl, h.ctx.5, fun hc => absurd (hi.symm.trans hc) (by simp), h.ctx.7, h.ctx.8,
              h.ctx.9, fun _ => by simp [hs], fun hc => by simp at hc, h.ctx.12⟩⟩ (walk_point hp)

theorem good_startDecode {s : State} (h : Live s) (hi : s.haveIhdr = true) {w hh x y : Word} {d : Nat} {dop bop : Byte}
    {k : Resume} (hin : inImage s.hdr w hh x y) (hops : legalOps dop bop)
    (hk : ∀ f, k = .fctl f → s.animated = true) : Good State.Inv (startDecode w hh x y d dop bop k s) := by
  unfold startDecode
  rw [if_neg (by simp [hi])]
  refine Live.inv ⟨⟨h.base.1, h.base.2, ⟨h.base.3.1, h.base.3.2.1, List.length_replicate, List.length_replicate⟩, by simp⟩,
    h.busy,
    ⟨h.ctx.1, h.ctx.2, h.ctx.3, h.ctx.4, h.ctx.5, fun hc => absurd (hi.symm.trans hc) (by simp), h.ctx.7, h.ctx.8,
      h.ctx.9, h.ctx.10, h.ctx.11, ⟨rfl, rfl, rfl⟩⟩⟩ ?_
  exact ⟨⟨hi, hin, hops, rfl, by simp, hk⟩, rfl, rfl⟩

theorem good_latchFctl {s : State} (h : Live s) (hi : s.haveIhdr = true) (ha : s.animated = true) (f : FctlFields) :
    Good State.Inv (latchFctl f s) := by
  unfold latchFctl
  rw [if_neg (by simp [ha])]
  split
  · exact good_raise h.base _
  · split
    · rename_i h2; simp [hi] at h2
    · split
      · exact good_raise h.base _
      · split
        · exact good_raise h.base _
        · rename_i h1 h2 h3 h4
          simp only [not_or, not_lt] at h3 h4
          have hle := h.ctx.announced ha
          refine Live.inv ⟨⟨h.base.1, h.base.2, h.base.3, h.base.4⟩, h.busy,
            ⟨h.ctx.1, h.ctx.2, h.ctx.3, h.ctx.4, h.ctx.5, fun hc => absurd (hi.symm.trans hc) (by simp), fun _ => ?_,
              h.ctx.8, h.ctx.9, fun _ => by simp only; omega, fun hc => absurd (ha.symm.trans hc) (by simp),
              h.ctx.12⟩⟩ trivial
          exact ⟨⟨Nat.pos_of_ne_zero h3.1, Nat.pos_of_ne_zero h3.2.1, h3.2.2.1, h3.2.2.2⟩, h4⟩

theorem good_afterFinish {s : State} (h : Live s) {k : Resume}
    (hk : ∀ f, k = .fctl f → s.haveIhdr = true ∧ s.animated = true) : Good State.Inv (afterFinish k s) := by
  have hl : Live { s with acc := [], fctlValid := false } :=
    ⟨⟨h.base.1, h.base.2, h.base.3, h.base.4⟩, h.busy,
      ⟨h.ctx.1, h.ctx.2, h.ctx.3, h.ctx.4, h.ctx.5, fun hc => ⟨(h.ctx.6 hc).1, rfl, rfl, (h.ctx.6 hc).2.2.2⟩,
        fun hc => by simp at hc, h.ctx.8, h.ctx.9, h.ctx.10, fun hc => ⟨(h.ctx.11 hc).1, rfl⟩, h.ctx.12⟩⟩
  cases k with
  | iend =>
    exact Live.inv (s := { s with acc := [], fctlValid := false, seenIend := true, phase := .walk })
      ⟨⟨hl.base.1, hl.base.2, hl.base.3, hl.base.4⟩, hl.busy,
      ⟨hl.ctx.1, hl.ctx.2, hl.ctx.3, hl.ctx.4, hl.ctx.5, hl.ctx.6, hl.ctx.7, hl.ctx.8, hl.ctx.9, hl.ctx.10, hl.ctx.11,
        hl.ctx.12⟩⟩ trivial
  | fctl f =>
    obtain ⟨h1, h2⟩ := hk f rfl
    exact good_latchFctl hl h1 h2 f

theorem good_finishFrame {s : State} (h : Live s) {k : Resume}
    (hk : ∀ f, k = .fctl f → s.haveIhdr = true ∧ s.animated = true) : Good State.Inv (finishFrame k s) := by
  unfold finishFrame
  split
  · rename_i h1
    have hi : s.haveIhdr = true := by
      by_contra hc
      have := (h.ctx.headerFirst (by simpa using hc)).2.1
      simp [h1] at this
    obtain ⟨hin, hops⟩ := h.ctx.pending h1
    exact good_startDecode h hi hin hops fun f hf => (hk f hf).2
  · split
    · rename_i h1 h2
      have hi : s.haveIhdr = true := by
        by_contra hc
        exact h2.1 (h.ctx.headerFirst (by simpa using hc)).2.2.1
      have hh := h.ctx.header hi
      refine good_startDecode h hi ⟨hh.width.1, hh.height.1, by simp, by simp⟩ ⟨by simp, by simp⟩
        fun f hf => (hk f hf).2
    · exact good_afterFinish h hk

theorem animated_header {s : State} (h : Live s) (ha : s.animated = true) : s.haveIhdr = true := by
  by_contra hc
  have := (h.ctx.headerFirst (by simpa using hc)).1
  simp [ha] at this

theorem Live.nextSeq {s : State} (h : Live s) (n : Nat) : Live { s with nextSeq := n } :=
  ⟨⟨h.base.1, h.base.2, h.base.3, h.base.4⟩, h.busy,
    ⟨h.ctx.1, h.ctx.2, h.ctx.3, h.ctx.4, h.ctx.5, h.ctx.6, h.ctx.7, h.ctx.8, h.ctx.9, h.ctx.10, h.ctx.11, h.ctx.12⟩⟩

theorem good_fctl {s : State} (h : Live s) (hp : s.phase = .walk) (data : List Byte) (crc : Word) :
    Good State.Inv (execFctl data crc s) := by
  unfold execFctl
  split
  · exact h.stays hp
  · rename_i h1
    have ha : s.animated = true := by simpa using h1
    split
    · exact good_raise h.base _
    · split
      · exact good_raise h.base _
      · exact good_finishFrame (h.nextSeq _) fun f _ => ⟨animated_header (h.nextSeq (s.nextSeq + 1)) ha, ha⟩

theorem good_fdat {s : State} (h : Live s) (hp : s.phase = .walk) (data : List Byte) (crc : Word) :
    Good State.Inv (execFdat data crc s) := by
  unfold execFdat
  split
  · exact h.stays hp
  · rename_i h1
    have ha : s.animated = true := by simpa using h1
    split
    · exact good_raise h.base _
    · split
      · exact good_raise h.base _
      · simp only
        split
        · exact good_raise (h.nextSeq _).base _
        · exact good_alloc (h.nextSeq _).base (good_append (h.nextSeq (s.nextSeq + 1)) hp
          (animated_header (h.nextSeq (s.nextSeq + 1)) ha) _ _)

theorem good_chunk {s : State} (h : Live s) (hp : s.phase = .walk) (fd t : Word) (data : List Byte) (crc : Word) :
    Good State.Inv (exec (decodeChunkType fd t data crc) s) := by
  unfold decodeChunkType
  split
  · exact good_ihdr h hp data crc
  split
  · exact good_plte h hp data crc
  split
  · exact good_trns h hp data crc
  split
  · exact good_bkgd h hp data crc
  split
  · exact good_gama h hp data crc
  split
  · exact good_idat h hp data crc
  split
  · exact good_actl h hp data crc
  split
  · exact good_fctl h hp data crc
  split
  · exact good_fdat h hp data crc
  split
  · exact good_finishFrame h fun f hf => by simp at hf
  · exact h.stays hp

/-! ## Payload -/

/-- A live state with any of the inflate engine's registers changed. -/
theorem Live.inflate {s : State} (h : Live s) (ip ib : Nat) (bf : Bool) (bt : BitVec 2) (hl hd hc li ml md : Nat)
    (cll lens : List Nat) (out : List Byte) (tl td tc : TreeReg) (ph : Phase) (hib : ib < 8)
    (hcl : cll.length = 19) (hle : lens.length = 320) (hc19 : Tree.symbolsBelow 19 tc.root = true)
    (hl288 : Tree.symbolsBelow 288 tl.root = true) (hd32 : Tree.symbolsBelow 32 td.root = true) :
    Live { s with
      ip := ip, ib := ib, bfinal := bf, btype := bt, hlit := hl, hdist := hd, hclen := hc, li := li, mlen := ml
      mdist := md, cllen := cll, lens := lens, out := out, tLit := tl, tDist := td, tCl := tc, phase := ph } :=
  ⟨⟨h.base.1, h.base.2, ⟨h.base.3.1, h.base.3.2.1, hcl, hle⟩, hib⟩, h.busy,
    ⟨h.ctx.1, h.ctx.2, h.ctx.3, h.ctx.4, h.ctx.5, h.ctx.6, h.ctx.7, h.ctx.8, h.ctx.9, h.ctx.10, h.ctx.11,
      ⟨hc19, hl288, hd32⟩⟩⟩

/-- The same with what a live state gives by itself. -/
theorem Live.inflate' {s : State} (h : Live s) (bf : Bool) (bt : BitVec 2) (hl hd hc li ml md : Nat)
    (out : List Byte) (ph : Phase) :
    Live { s with
      bfinal := bf, btype := bt, hlit := hl, hdist := hd, hclen := hc, li := li, mlen := ml
      mdist := md, out := out, phase := ph } :=
  h.inflate s.ip s.ib bf bt hl hd hc li ml md s.cllen s.lens out s.tLit s.tDist s.tCl ph h.base.4 h.base.3.2.2.1
    h.base.3.2.2.2 h.ctx.12.1 h.ctx.12.2.1 h.ctx.12.2.2

theorem good_zhdr {s : State} (h : Live s) (j : JobOk s) (bs : List Byte) : Good State.Inv (execZhdr bs s) :=
  (h.inflate' s.bfinal s.btype s.hlit s.hdist s.hclen s.li s.mlen s.mdist s.out .block).inv
    (show JobOk _ from ⟨j.1, j.2, j.3, j.4, j.5, j.6⟩)

theorem good_withTree {kind : Kind} {lens : List Nat} {s : State} {k : TreeReg → State → Out} (h : Base s)
    (hk : ∀ t n, (∀ m, lens.length ≤ m → Tree.symbolsBelow m t.root = true) →
      Good State.Inv (k t { s with allocN := n })) : Good State.Inv (withTree kind lens s k) :=
  good_allocs h (hk _ _ fun _ hm => buildTree_symbolsBelow kind lens hm)

theorem good_blkStored {s : State} (h : Live s) (j : JobOk s) (f : Bool) : Good State.Inv (execBlkStored f s) :=
  (h.inflate' f 0 s.hlit s.hdist s.hclen s.li s.mlen s.mdist s.out .storedBody).inv
    (show JobOk _ from ⟨j.1, j.2, j.3, j.4, j.5, j.6⟩)

theorem good_blkDynamic {s : State} (h : Live s) (j : JobOk s) (f : Bool) : Good State.Inv (execBlkDynamic f s) :=
  (h.inflate' f 2 s.hlit s.hdist s.hclen s.li s.mlen s.mdist s.out .dynHdr).inv
    (show JobOk _ from ⟨j.1, j.2, j.3, j.4, j.5, j.6⟩)

theorem good_blkReserved {s : State} (h : Live s) (f : Bool) : Good State.Inv (execBlkReserved f s) :=
  good_raise (h.inflate' f 3 s.hlit s.hdist s.hclen s.li s.mlen s.mdist s.out s.phase).base _

/-- The two trees of a block, and the symbol loop after them. -/
theorem good_trees {s : State} (h : Live s) (j : JobOk s) {a b : List Nat} (ha : a.length ≤ 288) (hb : b.length ≤ 32)
    (g : State → Out)
    (hg : ∀ t n, g { s with allocN := n, tLit := t } =
      withTree .dist b { s with allocN := n, tLit := t } fun u s2 => .next { s2 with tDist := u, phase := .litLen }) :
    Good State.Inv (withTree .litlen a s fun t s1 => g { s1 with tLit := t }) := by
  refine good_withTree h.base fun t n ht => ?_
  rw [show ({ ({ s with allocN := n } : State) with tLit := t } : State) = { s with allocN := n, tLit := t } from rfl,
    hg]
  have h1 : Live { s with allocN := n, tLit := t } :=
    (h.allocN n).inflate s.ip s.ib s.bfinal s.btype s.hlit s.hdist s.hclen s.li s.mlen s.mdist s.cllen s.lens s.out t
      s.tDist s.tCl s.phase h.base.4 h.base.3.2.2.1 h.base.3.2.2.2 h.ctx.12.1 (ht 288 ha) h.ctx.12.2.2
  refine good_withTree h1.base fun u m hu => ?_
  exact ((h1.allocN m).inflate s.ip s.ib s.bfinal s.btype s.hlit s.hdist s.hclen s.li s.mlen s.mdist s.cllen s.lens
    s.out t u s.tCl .litLen h.base.4 h.base.3.2.2.1 h.base.3.2.2.2 h.ctx.12.1 (ht 288 ha) (hu 32 hb)).inv
    (show JobOk _ from ⟨j.1, j.2, j.3, j.4, j.5, j.6⟩)

theorem good_blkStatic {s : State} (h : Live s) (j : JobOk s) (f : Bool) : Good State.Inv (execBlkStatic f s) := by
  have h1 := h.inflate' f 1 s.hlit s.hdist s.hclen s.li s.mlen s.mdist s.out s.phase
  exact good_trees h1 ⟨j.1, j.2, j.3, j.4, j.5, j.6⟩ (a := staticLit) (b := staticDist)
    (by simp only [staticLit, List.length_append, List.length_replicate]; omega)
    (by simp only [staticDist, List.length_replicate]; omega)
    (fun x => withTree .dist staticDist x fun u s2 => .next { s2 with tDist := u, phase := .litLen }) fun _ _ => rfl

theorem good_buildTrees {s : State} (h : Live s) (j : JobOk s) (h1 : s.hlit ≤ 288) (h2 : s.hdist ≤ 32) :
    Good State.Inv (buildTrees s) := by
  refine good_trees h j (a := s.lens.take s.hlit) (b := (s.lens.drop s.hlit).take s.hdist) ?_ ?_
    (fun x => withTree .dist ((x.lens.drop x.hlit).take x.hdist) x fun u s2 =>
      .next { s2 with tDist := u, phase := .litLen }) fun _ _ => rfl
  · rw [List.length_take]; omega
  · rw [List.length_take]; omega

theorem permute_length (ps : List Nat) (vs : List (BitVec 3)) (acc : List Nat) :
    (permute ps vs acc).length = acc.length := by
  induction ps generalizing vs acc with
  | nil => cases vs <;> rfl
  | cons p ps ih =>
    cases vs with
    | nil => rfl
    | cons v vs => simp [permute, ih]

theorem good_dynHdr {s : State} (h : Live s) (j : JobOk s) (hl hd : BitVec 5) (hc : BitVec 4) (cl : List (BitVec 3)) :
    Good State.Inv (execDynHdr hl hd hc cl s) := by
  have hlen : (permute clOrder cl (List.replicate 19 0)).length = 19 := by rw [permute_length]; simp
  have h1 := h.inflate s.ip s.ib s.bfinal s.btype (hl.toNat + 257) (hd.toNat + 1) (hc.toNat + 4) s.li s.mlen s.mdist
    (permute clOrder cl (List.replicate 19 0)) s.lens s.out s.tLit s.tDist s.tCl s.phase h.base.4 hlen h.base.3.2.2.2
    h.ctx.12.1 h.ctx.12.2.1 h.ctx.12.2.2
  unfold execDynHdr
  refine good_withTree (s := { s with
    hlit := hl.toNat + 257, hdist := hd.toNat + 1, hclen := hc.toNat + 4
    cllen := permute clOrder cl (List.replicate 19 0) }) h1.base fun t n ht => ?_
  refine ((h1.allocN n).inflate s.ip s.ib s.bfinal s.btype (hl.toNat + 257) (hd.toNat + 1) (hc.toNat + 4) 0 s.mlen
    s.mdist _ s.lens s.out s.tLit s.tDist t .codeLens h.base.4 hlen h.base.3.2.2.2 (ht 19 (by omega)) h.ctx.12.2.1
    h.ctx.12.2.2).inv (show _ ∧ _ from ⟨⟨j.1, j.2, j.3, j.4, j.5, j.6⟩, ?_⟩)
  have b1 := hl.isLt
  have b2 := hd.isLt
  show hl.toNat + 257 ≤ 288 ∧ hd.toNat + 1 ≤ 32
  omega

/-- The point of the code lengths (R210). -/
structure LensOk (s : State) : Prop where
  job : JobOk s
  lit : s.hlit ≤ 288
  dist : s.hdist ≤ 32
  phase : s.phase = .codeLens

theorem fillFrom_length (v n i : Nat) (a : List Nat) : (fillFrom v n i a).length = a.length := by
  induction n generalizing i a with
  | zero => rfl
  | succ n ih => simp [fillFrom, ih]

theorem LensOk.putPay {s : State} (l : LensOk s) {c : Cur} (hc : (s.cur .pay).Ahead c) : LensOk (s.putCur .pay c) :=
  ⟨l.1.putPay hc, l.2, l.3, l.4⟩

theorem LensOk.next {s : State} (h : Live s) (l : LensOk s) (lens : List Nat) (li : Nat) (hl : lens.length = 320) :
    Good State.Inv (.next { s with lens := lens, li := li }) := by
  refine (h.inflate s.ip s.ib s.bfinal s.btype s.hlit s.hdist s.hclen li s.mlen s.mdist s.cllen lens s.out s.tLit
    s.tDist s.tCl s.phase h.base.4 h.base.3.2.2.1 hl h.ctx.12.1 h.ctx.12.2.1 h.ctx.12.2.2).inv ?_
  have hp := l.phase
  simp only [PhaseOk, hp]
  exact ⟨⟨l.1.1, l.1.2, l.1.3, l.1.4, l.1.5, l.1.6⟩, l.2, l.3⟩

theorem good_clRepeat {s : State} (h : Live s) (l : LensOk s) (rep v : Nat) : Good State.Inv (clRepeat rep v s) := by
  unfold clRepeat
  split
  · exact good_raise h.base _
  · exact LensOk.next h l _ _ (by rw [fillFrom_length]; exact h.base.3.2.2.2)

theorem good_clLength {s : State} (h : Live s) (l : LensOk s) (ok : lengthSlotOk s = true) (v : Nat) :
    Good State.Inv (clLength v s) := by
  unfold clLength
  rw [if_neg (by simp [ok])]
  exact LensOk.next h l _ _ (by rw [List.length_set]; exact h.base.3.2.2.2)

theorem good_cl16 {s : State} (h : Live s) (l : LensOk s) (ok : lengthSlotOk s = true) :
    Good State.Inv (execCl16 s) := by
  unfold execCl16
  rw [if_neg (by simp [ok])]
  split
  · exact good_raise h.base _
  · exact good_withBits h l.1 fun v c _ a => good_clRepeat (h.putPay a.valid.bit) (l.putPay a) _ _

theorem good_cl17 {s : State} (h : Live s) (l : LensOk s) (ok : lengthSlotOk s = true) :
    Good State.Inv (execCl17 s) := by
  unfold execCl17
  rw [if_neg (by simp [ok])]
  exact good_withBits h l.1 fun v c _ a => good_clRepeat (h.putPay a.valid.bit) (l.putPay a) _ _

theorem good_cl18 {s : State} (h : Live s) (l : LensOk s) (ok : lengthSlotOk s = true) :
    Good State.Inv (execCl18 s) := by
  unfold execCl18
  rw [if_neg (by simp [ok])]
  exact good_withBits h l.1 fun v c _ a => good_clRepeat (h.putPay a.valid.bit) (l.putPay a) _ _

/-- What a code-length symbol runs. -/
theorem exec_cl {n : Nat} {i : Instr} (hi : clInstr n = some i) (s : State) :
    exec i s = clLength n s ∨ exec i s = execCl16 s ∨ exec i s = execCl17 s ∨ exec i s = execCl18 s := by
  unfold clInstr at hi
  split at hi <;> first
    | (simp only [Option.some.injEq] at hi; subst hi; first
        | exact Or.inl rfl
        | exact Or.inr (Or.inl rfl)
        | exact Or.inr (Or.inr (Or.inl rfl))
        | exact Or.inr (Or.inr (Or.inr rfl)))
    | simp at hi

theorem good_cl {n : Nat} {i : Instr} (hi : clInstr n = some i) {s : State} (h : Live s) (l : LensOk s)
    (ok : lengthSlotOk s = true) : Good State.Inv (exec i s) := by
  rcases exec_cl hi s with e | e | e | e <;> rw [e]
  · exact good_clLength h l ok n
  · exact good_cl16 h l ok
  · exact good_cl17 h l ok
  · exact good_cl18 h l ok

theorem good_lit {s : State} (h : Live s) (j : JobOk s) (b : Byte) : Good State.Inv (execLit b s) :=
  good_alloc h.base
    (((h.allocN (s.allocN + 1)).inflate' s.bfinal s.btype s.hlit s.hdist s.hclen s.li s.mlen s.mdist (s.out ++ [b])
      .litLen).inv (show JobOk _ from ⟨j.1, j.2, j.3, j.4, j.5, j.6⟩))

/-- After a block (R230): the next header, or the end of inflate. -/
theorem good_afterBlock {t : State} (h : Live t) (j : JobOk t) {f : Bool} (hp : t.phase = afterBlock f) : t.Inv := by
  refine h.inv ?_
  cases f <;> simp only [PhaseOk, hp, afterBlock, if_true, if_false, Bool.false_eq_true] <;> exact j

theorem good_eob {s : State} (h : Live s) (j : JobOk s) : Good State.Inv (execEob s) :=
  good_afterBlock (f := s.bfinal)
    (h.inflate s.ip s.ib s.bfinal s.btype s.hlit s.hdist s.hclen s.li s.mlen s.mdist s.cllen s.lens s.out noTree noTree
      noTree (afterBlock s.bfinal) h.base.4 h.base.3.2.2.1 h.base.3.2.2.2 rfl rfl rfl)
    ⟨j.1, j.2, j.3, j.4, j.5, j.6⟩ rfl

theorem good_lengthSymbol {s : State} (h : Live s) (j : JobOk s) (n : Nat) : Good State.Inv (lengthSymbol n s) := by
  unfold lengthSymbol
  split
  · exact good_raise h.base _
  · refine good_withBits h j fun v c _ a => ?_
    have h1 := h.putPay a.valid.bit
    have j1 := j.putPay a
    exact (h1.inflate' s.bfinal s.btype s.hlit s.hdist s.hclen s.li _ s.mdist s.out .dist).inv
      (show JobOk _ from ⟨j1.1, j1.2, j1.3, j1.4, j1.5, j1.6⟩)

theorem distLeaf_pos {n : Nat} (hn : (distLeaf n).illegal = false) : 1 ≤ (distLeaf n).realValue := by
  unfold distLeaf groupLeaf at *
  split at hn
  · rename_i g hg
    have hm := List.mem_of_find?_eq_some hg
    have hall : ∀ g ∈ distGroups, 1 ≤ g.base := by decide
    have := hall g hm
    simp only
    omega
  · simp at hn

theorem good_distanceSymbol {s : State} (h : Live s) (j : JobOk s) (n : Nat) :
    Good State.Inv (distanceSymbol n s) := by
  unfold distanceSymbol
  split
  · exact good_raise h.base _
  · rename_i hn
    refine good_withBits h j fun v c _ a => ?_
    have h1 := h.putPay a.valid.bit
    have j1 := j.putPay a
    have hpos := distLeaf_pos (n := n) (by simpa using hn)
    exact (h1.inflate' s.bfinal s.btype s.hlit s.hdist s.hclen s.li s.mlen _ s.out .copy).inv
      (show JobOk _ ∧ _ from ⟨⟨j1.1, j1.2, j1.3, j1.4, j1.5, j1.6⟩, by show 1 ≤ _ + _; omega⟩)

/-- What a symbol of the literal/length alphabet runs. -/
theorem exec_litLen {n : Nat} {i : Instr} (hi : litLenInstr n = some i) (s : State) :
    (∃ b, exec i s = execLit b s) ∨ exec i s = execEob s ∨ exec i s = lengthSymbol n s := by
  unfold litLenInstr at hi
  split at hi
  · simp only [Option.some.injEq] at hi
    subst hi
    exact Or.inl ⟨_, rfl⟩
  · unfold eobLenInstr at hi
    split at hi <;> first
      | (simp only [Option.some.injEq] at hi; subst hi; first
          | exact Or.inr (Or.inl rfl)
          | exact Or.inr (Or.inr rfl))
      | simp at hi

theorem good_litLen {n : Nat} {i : Instr} (hi : litLenInstr n = some i) {s : State} (h : Live s) (j : JobOk s) :
    Good State.Inv (exec i s) := by
  rcases exec_litLen hi s with ⟨b, e⟩ | e | e <;> rw [e]
  · exact good_lit h j b
  · exact good_eob h j
  · exact good_lengthSymbol h j n

/-- What a symbol of the distance alphabet runs. -/
theorem exec_dist {n : Nat} {i : Instr} (hi : distInstr n = some i) (s : State) : exec i s = distanceSymbol n s := by
  unfold distInstr at hi
  split at hi <;> first
    | (simp only [Option.some.injEq] at hi; subst hi; rfl)
    | simp at hi

theorem good_matchCopy {s : State} (h : Live s) (j : JobOk s) {len d : Nat} (hd : 1 ≤ d) :
    Good State.Inv (execMatchCopy len d s) := by
  unfold execMatchCopy
  rw [if_neg (by omega)]
  split
  · exact good_raise h.base _
  · exact good_alloc h.base
      (((h.allocN (s.allocN + 1)).inflate' s.bfinal s.btype s.hlit s.hdist s.hclen s.li s.mlen s.mdist _ .litLen).inv
        (show JobOk _ from ⟨j.1, j.2, j.3, j.4, j.5, j.6⟩))

theorem good_storedBody {s : State} (h : Live s) (j : JobOk s) (hb : s.ib = 0) (len nlen : Half) :
    Good State.Inv (execStoredBody len nlen s) := by
  refine good_alloc h.base ?_
  have h1 := h.allocN (s.allocN + 1)
  unfold storedBytes
  rw [if_neg (by simp [hb])]
  split
  · rename_i hl
    refine good_afterBlock (f := s.bfinal)
      (h1.inflate (s.ip + len.toNat) s.ib s.bfinal s.btype s.hlit s.hdist s.hclen s.li s.mlen s.mdist s.cllen s.lens
        _ s.tLit s.tDist s.tCl (afterBlock s.bfinal) h.base.4 h.base.3.2.2.1 h.base.3.2.2.2 h.ctx.12.1 h.ctx.12.2.1
        h.ctx.12.2.2) ⟨j.1, j.2, j.3, j.4, ?_, j.6⟩ rfl
    simp only at hl
    show 8 * (s.ip + len.toNat) + s.ib ≤ 8 * s.acc.length
    omega
  · apply good_raise
    exact ⟨h.base.1, h.base.2, h.base.3, h.base.4⟩

/-! ## Rows -/

/-- A live state with OUT, the job and the point changed. -/
theorem Live.rows {s : State} (h : Live s) (out : List Byte) (job : Job) (ph : Phase) :
    Live { s with out := out, job := job, phase := ph } :=
  ⟨⟨h.base.1, h.base.2, h.base.3, h.base.4⟩, h.busy,
    ⟨h.ctx.1, h.ctx.2, h.ctx.3, h.ctx.4, h.ctx.5, h.ctx.6, h.ctx.7, h.ctx.8, h.ctx.9, h.ctx.10, h.ctx.11, h.ctx.12⟩⟩

theorem filterFrom_length (pred : Nat → Nat → Nat → Nat) (S bpp r n x : Nat) (out : List Byte) :
    (filterFrom pred S bpp r n x out).length = out.length := by
  induction n generalizing x out with
  | zero => rfl
  | succ n ih => simp [filterFrom, ih]

theorem row_bound {r h S : Nat} (hr : r < h) : (r + 1) * S ≤ h * S := Nat.mul_le_mul_right S hr

theorem good_filterRow {s : State} (h : Live s) (r : RowsOk s) (hr : s.job.row < s.job.h.toNat)
    (pred : Nat → Nat → Nat → Nat) : Good State.Inv (filterRow pred s) := by
  unfold filterRow
  rw [if_neg (by simp [r.job.header])]
  have hb := row_bound (S := 1 + s.job.bpl) hr
  rw [if_neg (by have := r.output; omega)]
  refine (h.rows _ s.job .pixels).inv (show RowsOk _ ∧ _ from ⟨⟨⟨r.1.1, r.1.2, r.1.3, r.1.4, r.1.5, r.1.6⟩, ?_, r.3, r.4⟩, hr⟩)
  show s.job.h.toNat * (1 + s.job.bpl) ≤ (filterFrom _ _ _ _ _ _ _).length
  rw [filterFrom_length]
  exact r.output

theorem good_filter {s : State} (h : Live s) (r : RowsOk s) (hr : s.job.row < s.job.h.toNat) (b : Byte) :
    Good State.Inv (exec (decodeFilter b) s) := by
  unfold decodeFilter
  split
  · exact good_filterRow h r hr _
  · exact good_filterRow h r hr _
  · exact good_filterRow h r hr _
  · exact good_filterRow h r hr _
  · exact good_filterRow h r hr _
  · exact good_raise h.base _

theorem expandPixels_length (f : Nat → Option Pixel) (n x : Nat) (ps : List Pixel)
    (h : expandPixels f n x = some ps) : ps.length = n := by
  induction n generalizing x ps with
  | zero => simp only [expandPixels, Option.some.injEq] at h; simp [← h]
  | succ n ih =>
    simp only [expandPixels] at h
    split at h
    · simp at h
    · simp only [Option.map_eq_some_iff] at h
      obtain ⟨qs, hq, rfl⟩ := h
      simp [ih _ _ hq]

theorem good_expandRow {s : State} (h : Live s) (r : RowsOk s) (hr : s.job.row < s.job.h.toNat) {bpp : Nat}
    (hb : s.hdr.bpp = bpp) (pixel : State → (Nat → Byte) → Nat → Option Pixel) :
    Good State.Inv (expandRow bpp pixel s) := by
  unfold expandRow
  simp only
  have hlen : s.job.row * (1 + s.job.bpl) + 1 + ceilDiv (s.job.w.toNat * bpp) 8 ≤ s.out.length := by
    have h1 := row_bound (S := 1 + s.job.bpl) hr
    have h2 := r.output
    have h3 := r.job.bpl
    rw [bytesPl, hb] at h3
    rw [Nat.add_mul] at h1
    omega
  rw [if_neg (by omega)]
  split
  · exact good_raise h.base _
  · rename_i ps hp
    refine (h.rows s.out { s.job with pix := s.job.pix ++ ps, row := s.job.row + 1 } .rows).inv
      (show RowsOk _ from ⟨⟨r.1.1, r.1.2, r.1.3, r.1.4, r.1.5, r.1.6⟩, r.2, hr, ?_⟩)
    show (s.job.pix ++ ps).length = (s.job.row + 1) * s.job.w.toNat
    rw [List.length_append, r.pixels, expandPixels_length _ _ _ _ hp, Nat.add_mul, Nat.one_mul]

theorem good_format {s : State} (h : Live s) (r : RowsOk s) (hr : s.job.row < s.job.h.toNat) :
    Good State.Inv (exec (decodeFormat s.hdr.ctype s.hdr.depth) s) := by
  have hh := h.ctx.header r.job.header
  have hb : s.hdr.bpp = channels s.hdr.ctype * s.hdr.depth.toNat := by
    have := congrArg Header.bpp hh.derived
    simpa [mkHeader] using this
  have hf := hh.format
  unfold decodeFormat
  unfold channels at hb
  split <;> first
    | (refine good_expandRow h r hr ?_ _; simp_all)
    | (exfalso; unfold legalFormat at hf; split at hf <;> simp_all)

theorem good_afterInflate {s : State} (h : Live s) (j : JobOk s) : Good State.Inv (afterInflate s) := by
  unfold afterInflate
  split
  · exact good_raise h.base _
  · rename_i hl
    refine good_alloc h.base ?_
    refine (((h.allocN (s.allocN + 1)).rows s.out { s.job with row := 0, pix := [] } .rows)).inv
      (show RowsOk _ from ⟨⟨j.1, j.2, j.3, j.4, j.5, j.6⟩, ?_, Nat.zero_le _, by simp⟩)
    show s.job.h.toNat * (1 + s.job.bpl) ≤ s.out.length
    omega

theorem good_storeFrame {s : State} (h : Live s) (r : RowsOk s) (hr : s.job.h.toNat ≤ s.job.row) :
    Good State.Inv (storeFrame s) := by
  unfold storeFrame
  rw [if_neg (by simp [r.job.header])]
  refine good_afterFinish ?_ fun f hf => ⟨r.job.header, r.job.resumed f hf⟩
  have hi := r.job.header
  refine ⟨⟨h.base.1, h.base.2, h.base.3, h.base.4⟩, h.busy,
    ⟨h.ctx.1, h.ctx.2, h.ctx.3, h.ctx.4, h.ctx.5, fun hc => absurd (hi.symm.trans hc) (by simp), h.ctx.7, ?_, ?_,
      h.ctx.10, h.ctx.11, h.ctx.12⟩⟩
  · refine ⟨?_, rfl⟩
    show (s.frames ++ [jobFrame s]).length = s.framesDone + 1
    rw [List.length_append, h.ctx.table.1]
    rfl
  · intro f hf
    rcases List.mem_append.mp hf with hf | hf
    · exact h.ctx.frames f hf
    · simp only [List.mem_singleton] at hf
      subst hf
      refine ⟨r.job.inside, r.job.ops, ?_⟩
      show s.job.pix.length = s.job.w.toNat * s.job.h.toNat
      rw [r.pixels, Nat.le_antisymm r.row hr, Nat.mul_comm]

/-! ## Composition -/

theorem good_endOfWalk {s : State} (h : Live s) : Good State.Inv (endOfWalk s) := by
  unfold endOfWalk
  split
  · exact good_raise h.base _
  · split
    · exact good_raise h.base _
    · rename_i h1 h2
      refine Live.inv (s := { s with phase := .place }) ⟨⟨h.base.1, h.base.2, h.base.3, h.base.4⟩, h.busy,
        ⟨h.ctx.1, h.ctx.2, h.ctx.3, h.ctx.4, h.ctx.5, h.ctx.6, h.ctx.7, h.ctx.8, h.ctx.9, h.ctx.10, h.ctx.11,
          h.ctx.12⟩⟩ (show TableOk _ from ⟨?_, ?_⟩)
      · show s.haveIhdr = true
        by_contra hc
        have hf := h.ctx.headerFirst (by simpa using hc)
        simp [hf.1, hf.2.2.2] at h2
      · show s.framesDone = if s.animated then s.numFrames.toNat else 1
        cases ha : s.animated <;> simp [ha] at h1 h2 ⊢ <;> omega

/-- A live state with the compositor's registers, the snapshot, the trace and the point changed. -/
theorem Live.paint {s : State} (h : Live s) (ox oy plays play fidx : Nat) (snap : List Pixel) (tr : List Event)
    (ph : Phase) :
    Live { s with
      ox := ox, oy := oy, plays := plays, play := play, fidx := fidx, snap := snap, trace := tr, phase := ph } :=
  ⟨⟨h.base.1, h.base.2, h.base.3, h.base.4⟩, h.busy,
    ⟨h.ctx.1, h.ctx.2, h.ctx.3, h.ctx.4, h.ctx.5, h.ctx.6, h.ctx.7, h.ctx.8, h.ctx.9, h.ctx.10, h.ctx.11, h.ctx.12⟩⟩

theorem good_place {s : State} (h : Live s) (p : TableOk s) : Good State.Inv (place s) := by
  unfold place
  rw [if_neg (by simp [p.header])]
  simp only
  split
  · exact good_raise h.base _
  · rename_i hc
    simp only [not_or, not_lt] at hc
    obtain ⟨hx, hy, hw, hh⟩ := hc
    refine (h.paint (origin s.cfg.negPlacement s.cap.x s.cap.canvasW.toNat s.hdr.width.toNat).toNat
      (origin s.cfg.negPlacement s.cap.y s.cap.canvasH.toNat s.hdr.height.toNat).toNat s.plays s.play s.fidx s.snap
      s.trace (if s.animated then .animate else .composite)).inv ?_
    have hp : imageOnCanvas { s with
        ox := (origin s.cfg.negPlacement s.cap.x s.cap.canvasW.toNat s.hdr.width.toNat).toNat
        oy := (origin s.cfg.negPlacement s.cap.y s.cap.canvasH.toNat s.hdr.height.toNat).toNat } = true := by
      simp only [imageOnCanvas, Bool.and_eq_true, decide_eq_true_eq]
      omega
    have ht := p.count
    rcases Bool.eq_false_or_eq_true s.animated with ha | ha
    · rw [show (if s.animated then Phase.animate else Phase.composite) = .animate by simp [ha]]
      exact (show LoopOk _ from ⟨⟨p.header, p.count⟩, ha, hp⟩)
    · rw [show (if s.animated then Phase.animate else Phase.composite) = .composite by simp [ha]]
      rw [if_neg (by simp [ha])] at ht
      refine (show PaintOk _ from ⟨⟨p.header, p.count⟩, hp, ?_, fun hc => absurd (ha.symm.trans hc) (by simp)⟩)
      show (if s.animated then s.fidx else 0) < s.framesDone
      simp [ha, ht]

theorem good_animate {s : State} (h : Live s) (p : LoopOk s) : Good State.Inv (animate s) := by
  unfold animate
  rw [if_neg (by simp [p.animated])]
  exact (h.paint s.ox s.oy _ 0 0 s.snap s.trace .loop).inv
    (show LoopOk _ from ⟨⟨p.table.header, p.table.count⟩, p.animated, p.placed⟩)

theorem good_nextFrame {s : State} (h : Live s) (p : LoopOk s) : Good State.Inv (nextFrame s) :=
  (h.paint s.ox s.oy s.plays s.play (s.fidx + 1) s.snap s.trace .loop).inv
    (show LoopOk _ from ⟨⟨p.table.header, p.table.count⟩, p.animated, p.placed⟩)

/-- A frame of the table lies on the canvas once the image is placed (R72). -/
theorem frame_placed {s : State} (hp : imageOnCanvas s = true) {f : Frame} (hf : FrameOk s.hdr f) :
    frameOnCanvas s f = true := by
  have h1 := hf.inside.2.2
  simp only [imageOnCanvas, frameOnCanvas, Bool.and_eq_true, decide_eq_true_eq] at *
  omega

theorem good_withFrame {s : State} (h : Live s) (hp : imageOnCanvas s = true) (hi : frameIndex s < s.framesDone)
    {k : Frame → Out} (hk : ∀ f, s.frames[frameIndex s]? = some f → FrameOk s.hdr f → Good State.Inv (k f)) :
    Good State.Inv (withFrame s k) := by
  have hlt : frameIndex s < s.frames.length := by rw [h.ctx.table.1]; exact hi
  have hget : s.frames[frameIndex s]? = some s.frames[frameIndex s] := List.getElem?_eq_getElem hlt
  have hf : FrameOk s.hdr s.frames[frameIndex s] := h.ctx.frames _ (List.getElem_mem hlt)
  unfold withFrame
  rw [hget]
  simp only
  rw [if_neg (by simp [hf.whole]), if_neg (by simp [frame_placed hp hf])]
  exact hk _ hget hf

theorem Live.mem {s : State} (h : Live s) (m : Memory) (b : Bool) (hm : Memory.wf m = true) :
    Live { s with mem := m, painted := b } :=
  ⟨⟨h.base.1, hm, h.base.3, h.base.4⟩, h.busy,
    ⟨h.ctx.1, h.ctx.2, h.ctx.3, h.ctx.4, h.ctx.5, h.ctx.6, h.ctx.7, h.ctx.8, h.ctx.9, h.ctx.10, h.ctx.11, h.ctx.12⟩⟩

/-- What painting leaves of a live state. -/
theorem Live.painted {s : State} (h : Live s) (v : State → Nat × Nat → Option Pixel) (f : Frame) :
    ∃ m b, paintRect v f s = { s with mem := m, painted := b } ∧ Memory.wf m = true := by
  obtain ⟨m, b, e⟩ := paintRect_frame v f s
  have := paintRect_wf v f s h.base.memory
  rw [e] at this
  exact ⟨m, b, e, this⟩

theorem good_composite {s : State} (h : Live s) (p : PaintOk s) (v : Frame → State → Nat × Nat → Option Pixel) :
    Good State.Inv (withFrame s fun f => .next { paintRect (v f) f s with phase := afterComposite s }) := by
  refine good_withFrame h p.placed p.current fun f _ _ => ?_
  obtain ⟨m, b, e, hm⟩ := h.painted (v f) f
  rw [e]
  refine ((h.mem m b hm).paint s.ox s.oy s.plays s.play s.fidx s.snap s.trace (afterComposite s)).inv ?_
  rcases Bool.eq_false_or_eq_true s.animated with ha | ha
  · rw [show afterComposite s = .hold by simp [afterComposite, ha]]
    exact (show PaintOk _ ∧ _ from ⟨⟨⟨p.table.header, p.table.count⟩, p.placed, p.current, p.snapshot⟩, ha⟩)
  · rw [show afterComposite s = .complete by simp [afterComposite, ha]]
    trivial

theorem good_blend {s : State} (h : Live s) (p : PaintOk s) {b : Byte} (hb : b.toNat ≤ 1) :
    Good State.Inv (exec (decodeBlend b) s) := by
  unfold decodeBlend
  split
  · exact good_composite h p fun f t q => some (sourcePixel t.bg (framePixel f q))
  · exact good_composite h p fun f t q => overPixel (readAt t f q) (framePixel f q)
  · rename_i h0 h1
    exfalso
    rcases Nat.le_one_iff_eq_zero_or_eq_one.mp hb with h2 | h2
    · exact h0 h2
    · exact h1 h2

theorem PaintOk.loop {s : State} (p : PaintOk s) (ha : s.animated = true) : LoopOk s := ⟨p.table, ha, p.placed⟩

theorem effDispose_le {s : State} {f : Frame} (hf : legalOps f.dispose f.blend) : (effDispose s f).toNat ≤ 2 := by
  have := hf.1
  unfold effDispose
  split
  · simp
  · split
    · simp
    · exact this

theorem good_dispose {s : State} (h : Live s) (p : PaintOk s) (ha : s.animated = true) {f : Frame}
    (hf : s.frames[frameIndex s]? = some f) (ho : FrameOk s.hdr f) :
    Good State.Inv (exec (decodeDispose (effDispose s f)) s) := by
  have hle := effDispose_le (s := s) ho.ops
  unfold decodeDispose
  split
  · exact (h.paint s.ox s.oy s.plays s.play s.fidx s.snap s.trace .nextFrame).inv
      (show LoopOk _ from ⟨⟨p.table.header, p.table.count⟩, ha, p.placed⟩)
  · refine good_withFrame h p.placed p.current fun g _ _ => ?_
    obtain ⟨m, b, e, hm⟩ := h.painted (fun t _ => some t.bg) g
    rw [e]
    exact ((h.mem m b hm).paint s.ox s.oy s.plays s.play s.fidx s.snap s.trace .nextFrame).inv
      (show LoopOk _ from ⟨⟨p.table.header, p.table.count⟩, ha, p.placed⟩)
  · rename_i h2
    refine good_withFrame h p.placed p.current fun g hg _ => ?_
    have hgf : g = f := by rw [hg] at hf; exact Option.some.inj hf
    subst hgf
    have hidx : frameIndex s = s.fidx := by simp [frameIndex, ha]
    rw [hidx] at hg
    have hs := p.snapshot ha g hg (BitVec.eq_of_toNat_eq h2)
    rw [if_neg (by simp [hs])]
    obtain ⟨m, b, e, hm⟩ := h.painted (fun t p => some (t.snap.getD (p.2 * g.w.toNat + p.1) 0)) g
    rw [e]
    exact ((h.mem m b hm).paint s.ox s.oy s.plays s.play s.fidx [] s.trace .nextFrame).inv
      (show LoopOk _ from ⟨⟨p.table.header, p.table.count⟩, ha, p.placed⟩)
  · rename_i h0 h1 h2
    exfalso
    have : (effDispose s f).toNat = 0 ∨ (effDispose s f).toNat = 1 ∨ (effDispose s f).toNat = 2 := by omega
    rcases this with h3 | h3 | h3
    · exact h0 h3
    · exact h1 h3
    · exact h2 h3

theorem good_hold {s : State} (h : Live s) (p : PaintOk s) (ha : s.animated = true) : Good State.Inv (hold s) := by
  have hlt : frameIndex s < s.frames.length := by rw [h.ctx.table.1]; exact p.current
  unfold hold
  rw [List.getElem?_eq_getElem hlt]
  exact (h.paint s.ox s.oy s.plays s.play s.fidx s.snap _ .dispose).inv
    (show PaintOk _ ∧ _ from ⟨⟨⟨p.table.header, p.table.count⟩, p.placed, p.current, p.snapshot⟩, ha⟩)

theorem good_takeSnapshot {s : State} (h : Live s) (p : LoopOk s) (hi : s.fidx < s.framesDone) :
    Good State.Inv (takeSnapshot s) := by
  have hidx : frameIndex s = s.fidx := by simp [frameIndex, p.animated]
  refine good_withFrame h p.placed (hidx ▸ hi) fun f hf _ => ?_
  refine good_alloc h.base ?_
  refine ((h.allocN (s.allocN + 1)).paint s.ox s.oy s.plays s.play s.fidx _ s.trace .composite).inv
    (show PaintOk _ from ⟨⟨p.table.header, p.table.count⟩, p.placed, ?_, ?_⟩)
  · show (if s.animated then s.fidx else 0) < s.framesDone
    simp [p.animated, hi]
  · intro _ g hg _
    have hgf : g = f := by
      rw [hidx] at hf
      exact Option.some.inj (hg.symm.trans hf)
    subst hgf
    show (List.map _ (rect g)).length = _
    rw [List.length_map, rect, raster_length]

theorem good_loopTest {s : State} (h : Live s) (p : LoopOk s) (hp : s.phase = .loop) :
    Good State.Inv (loopTest s) := by
  have hcount : s.framesDone = s.numFrames.toNat := by simpa [p.animated] using p.table.count
  unfold loopTest
  rw [if_neg (by simp [p.animated])]
  split
  · exact (h.paint s.ox s.oy s.plays s.play s.fidx s.snap s.trace .complete).inv trivial
  · split
    · refine (h.paint s.ox s.oy s.plays (s.play + 1) 0 s.snap s.trace s.phase).inv ?_
      rw [hp]
      exact (show LoopOk _ from ⟨⟨p.table.header, p.table.count⟩, p.animated, p.placed⟩)
    · rename_i h1 h2
      have hi : s.fidx < s.framesDone := by omega
      have hlt : s.fidx < s.frames.length := by rw [h.ctx.table.1]; exact hi
      rw [List.getElem?_eq_getElem hlt]
      simp only
      split
      · exact good_takeSnapshot h p hi
      · rename_i hne
        refine (h.paint s.ox s.oy s.plays s.play s.fidx s.snap s.trace .composite).inv
          (show PaintOk _ from ⟨⟨p.table.header, p.table.count⟩, p.placed, ?_, ?_⟩)
        · show (if s.animated then s.fidx else 0) < s.framesDone
          simp [p.animated, hi]
        · intro _ f hf he
          have hfe : s.frames[s.fidx] = f := by
            have : s.frames[s.fidx]? = some f := hf
            rw [List.getElem?_eq_getElem hlt] at this
            exact Option.some.inj this
          rw [hfe] at hne
          exact absurd he hne

theorem good_complete {s : State} (h : Live s) : Good State.Inv (complete s) :=
  h.base.ended (r := .done) nofun

/-! ## Fetching -/

/-- An element decoded from the payload: a live state, its job, and the same point. -/
theorem pay_fetched {s : State} (h : Live s) (j : JobOk s) {lv : Level} (h0 : lv.bytes = true → s.ib = 0) {i : Instr}
    {c : Cur} (hd : decode lv (s.cur .pay) = .ok (i, c)) :
    Live (s.putCur .pay c) ∧ JobOk (s.putCur .pay c) := by
  have a := decode_ahead (h.payCur j.cursor) h0 hd
  exact ⟨h.putPay a.valid.bit, j.putPay a⟩

theorem src_fetched {s : State} (h : Live s) {lv : Level} {i : Instr} {c : Cur}
    (hd : decode lv (s.cur .src) = .ok (i, c)) : Live (s.putCur .src c) := by
  have hc := h.ctx.cursor
  have v : (s.cur .src).Valid :=
    ⟨by simp, by simp only [Cur.offset, cur_src_pos, cur_src_bit, cur_src_buf, source_length]; omega⟩
  have a := decode_ahead v (fun _ => rfl) hd
  refine h.putSrc ?_
  have := a.valid.inside
  rw [a.buf] at this
  simp only [Cur.offset, cur_src_buf, source_length] at this
  omega

/-- The errors of a level that is not a symbol's are those of the reader, or the length check of a chunk. -/
theorem decode_inside {lv : Level} {c : Cur} (h : ∀ k t, lv = .sym k t → Tree.symbolsBelow (Kind.size k) t.root = true) :
    decode lv c ≠ .error .outsideAlphabet := by
  have u8 (c : Cur) : c.readU8 ≠ .error .outsideAlphabet := by unfold Cur.readU8; split <;> simp
  have u32 (c : Cur) : c.readU32be ≠ .error .outsideAlphabet := by unfold Cur.readU32be; split <;> simp
  have tk (k : Nat) (c : Cur) : c.take k ≠ .error .outsideAlphabet := by unfold Cur.take; split <;> simp
  have rb (n : Nat) (c : Cur) : c.readBits n ≠ .error .outsideAlphabet := by
    intro hc
    have := Cur.readBits_error hc
    simp at this
  have cl (n : Nat) (c : Cur) : readClLens n c ≠ .error .outsideAlphabet := by
    induction n generalizing c with
    | zero => simp [readClLens]
    | succ n ih =>
      simp only [readClLens]
      split
      · rename_i e he
        exact fun hc => rb 3 c (by rw [he]; simpa using hc)
      · split
        · rename_i e he
          exact fun hc => ih _ (by rw [he]; simpa using hc)
        · simp
  cases lv with
  | sym k t => exact decodeSym_inside (h k t rfl)
  | _ =>
    simp only [decode, decodeSig, decodeChunk, decodeZhdr, decodeBlkHdr, decodeStored, decodeDynHdr, Cur.readType]
    repeat' split
    all_goals first
      | simp; done
      | (intro hc; simp only [Except.error.injEq] at hc; subst hc; exact u8 _ ‹_›)
      | (intro hc; simp only [Except.error.injEq] at hc; subst hc; exact u32 _ ‹_›)
      | (intro hc; simp only [Except.error.injEq] at hc; subst hc; exact tk _ _ ‹_›)
      | (intro hc; simp only [Except.error.injEq] at hc; subst hc; exact rb _ _ ‹_›)
      | (intro hc; simp only [Except.error.injEq] at hc; subst hc; exact cl _ _ ‹_›)

end Sys2Proof.Machine
end

