-- ==== Sys2Proof/Laws/Loops.lean ====
section
/-! SUPPORT. What the loops of the meanings compute: the filters (R271), the expansion of a row (R291), the match copy
(R240), the repeats and the permutation of the code lengths (R209, R210), tRNS's alphas (R162). -/

namespace Sys2Proof.Machine

theorem byteAt_set (l : List Byte) (i : Nat) (v : Byte) (hi : i < l.length) (j : Nat) : byteAt (l.set i v) j = if j = i then v else byteAt l j := by
  simp only [byteAt, List.getD_eq_getElem?_getD]
  by_cases h : j = i
  · subst h; simp [List.getElem?_set_self hi]
  · rw [List.getElem?_set_ne (Ne.symm h), if_neg h]

theorem byteAt_congr {u v : List Byte} {i : Nat} (h : u[i]? = v[i]?) : byteAt u i = byteAt v i := by
  simp only [byteAt, List.getD_eq_getElem?_getD, h]

/-- A predictor of the three neighbours of a byte (R270). -/
def nbr (pred : Nat → Nat → Nat → Nat) (S bpp r : Nat) (out : List Byte) (x : Nat) : Nat :=
  pred (leftByte out S bpp r x) (upByte out S r x) (upLeftByte out S bpp r x)

theorem nbr_congr (pred : Nat → Nat → Nat → Nat) (S bpp r : Nat) (u v : List Byte) (x : Nat) (hS1 : 1 ≤ S) (hb : 1 ≤ bpp)
    (h : ∀ i, i < r * S + 1 + x → byteAt u i = byteAt v i) : nbr pred S bpp r u x = nbr pred S bpp r v x := by
  have hS : 1 ≤ r → (r - 1) * S + S = r * S := fun h1 => by
    obtain ⟨k, rfl⟩ : ∃ k, r = k + 1 := ⟨r - 1, by omega⟩
    simp [Nat.succ_mul]
  unfold nbr
  congr 1
  · unfold leftByte
    split
    · rw [h _ (by omega)]
    · rfl
  · unfold upByte
    split
    · rename_i h1
      have := hS h1
      rw [h _ (by omega)]
    · rfl
  · unfold upLeftByte
    split
    · rename_i h1
      have := hS h1.1
      rw [h _ (by omega)]
    · rfl

theorem filterFrom_spec (pred : Nat → Nat → Nat → Nat) (S bpp r n x : Nat) (out : List Byte) (hS1 : 1 ≤ S) (hb : 1 ≤ bpp)
    (hl : r * S + 1 + x + n ≤ out.length) :
    (∀ i, i < r * S + 1 + x ∨ r * S + 1 + x + n ≤ i → (filterFrom pred S bpp r n x out)[i]? = out[i]?) ∧
    ∀ y, x ≤ y → y < x + n → byteAt (filterFrom pred S bpp r n x out) (r * S + 1 + y)
      = byteAt out (r * S + 1 + y) + BitVec.ofNat 8 (nbr pred S bpp r (filterFrom pred S bpp r n x out) y) := by
  induction n generalizing x out with
  | zero => exact ⟨fun i _ => rfl, fun y h1 h2 => by omega⟩
  | succ n ih =>
    rw [filterFrom]
    set v := BitVec.ofNat 8 ((byteAt out (r * S + 1 + x)).toNat
          + pred (leftByte out S bpp r x) (upByte out S r x) (upLeftByte out S bpp r x)) with hv
    obtain ⟨i1, i2⟩ := ih (x + 1) (out.set (r * S + 1 + x) v) (by rw [List.length_set]; omega)
    have hlow (i : Nat) (hi : i < r * S + 1 + x ∨ r * S + 1 + x + (n + 1) ≤ i) :
        (filterFrom pred S bpp r n (x + 1) (out.set (r * S + 1 + x) v))[i]? = out[i]? := by
      rw [i1 i (by omega), List.getElem?_set_ne (by omega)]
    refine ⟨hlow, fun y h1 h2 => ?_⟩
    by_cases hy : y = x
    · subst hy
      have e1 : byteAt (filterFrom pred S bpp r n (y + 1) (out.set (r * S + 1 + y) v)) (r * S + 1 + y) = v := by
        rw [byteAt_congr (i1 _ (by omega)), byteAt_set _ _ _ (by omega), if_pos rfl]
      rw [e1, nbr_congr pred S bpp r _ out y hS1 hb fun i hi => byteAt_congr (hlow i (by omega)), hv, BitVec.ofNat_add, BitVec.ofNat_toNat, BitVec.setWidth_eq]
      rfl
    · rw [i2 y (by omega) (by omega), byteAt_set _ _ _ (by omega), if_neg (by omega)]

theorem expandPixels_some (pixel : Nat → Option Pixel) (px : Nat → Pixel) (n x : Nat) (h : ∀ y, x ≤ y → y < x + n → pixel y = some (px y)) :
    expandPixels pixel n x = some ((List.range n).map fun i => px (x + i)) := by
  induction n generalizing x with
  | zero => rfl
  | succ n ih =>
    rw [expandPixels, h x (by omega) (by omega)]
    simp only []
    rw [ih (x + 1) fun y h1 h2 => h y (by omega) (by omega)]
    simp only [Option.map_some, List.range_succ_eq_map, List.map_cons, List.map_map, Nat.add_zero]
    congr 2
    refine List.map_congr_left fun i _ => ?_
    simp only [Function.comp]
    congr 1; omega

theorem expandPixels_none (pixel : Nat → Option Pixel) (n x : Nat) (h : ∃ y, x ≤ y ∧ y < x + n ∧ pixel y = none) : expandPixels pixel n x = none := by
  induction n generalizing x with
  | zero => obtain ⟨y, h1, h2, -⟩ := h; omega
  | succ n ih =>
    obtain ⟨y, h1, h2, h3⟩ := h
    rw [expandPixels]
    cases hp : pixel x with
    | none => rfl
    | some p =>
      simp only []
      have : y ≠ x := by rintro rfl; rw [h3] at hp; simp at hp
      rw [ih (x + 1) ⟨y, by omega, by omega, h3⟩]
      rfl

theorem copyFrom_spec (d n : Nat) (out : List Byte) (h1 : 1 ≤ d) (h2 : d ≤ out.length) :
    (copyFrom d n out).length = out.length + n ∧ (copyFrom d n out).take out.length = out ∧
    ∀ k < n, (copyFrom d n out)[out.length + k]? = (copyFrom d n out)[out.length + k - d]? := by
  induction n generalizing out with
  | zero => simp [copyFrom]
  | succ n ih =>
    obtain ⟨i1, i2, i3⟩ := ih (out ++ [byteAt out (out.length - d)]) (by simp; omega)
    rw [List.length_append, List.length_singleton] at *
    refine ⟨by rw [copyFrom]; omega, ?_, fun k hk => ?_⟩
    · rw [copyFrom]
      have := congrArg (List.take out.length) i2
      rw [List.take_take, min_eq_left (by omega)] at this
      rw [this]; simp
    · rw [copyFrom]
      have hpre (j : Nat) (hj : j < out.length + 1) : (copyFrom d n (out ++ [byteAt out (out.length - d)]))[j]? = (out ++ [byteAt out (out.length - d)])[j]? := by
        conv_rhs => rw [← i2]
        rw [List.getElem?_take, if_pos hj]
      cases k with
      | zero =>
        rw [hpre _ (by omega), hpre _ (by omega)]
        rw [Nat.add_zero, List.getElem?_append_right (by omega), List.getElem?_append_left (by omega)]
        simp [byteAt, List.getD_eq_getElem?_getD]
        rw [List.getElem?_eq_getElem (by omega)]; rfl
      | succ k =>
        have := i3 k (by omega)
        rw [show out.length + (k + 1) = out.length + 1 + k by omega]
        exact this

theorem fillFrom_get (v n i : Nat) (a : List Nat) (h : i + n ≤ a.length) (j : Nat) :
    (fillFrom v n i a).getD j 0 = if i ≤ j ∧ j < i + n then v else a.getD j 0 := by
  induction n generalizing i a with
  | zero => rw [fillFrom, if_neg (by omega)]
  | succ n ih =>
    rw [fillFrom, ih _ _ (by rw [List.length_set]; omega)]
    by_cases h1 : i + 1 ≤ j ∧ j < i + 1 + n
    · rw [if_pos h1, if_pos (by omega)]
    · rw [if_neg h1]
      by_cases h2 : j = i
      · subst h2
        rw [if_pos (by omega)]
        simp [List.getD_eq_getElem?_getD, List.getElem?_set_self (show j < a.length by omega)]
      · rw [if_neg (by omega)]
        simp [List.getD_eq_getElem?_getD, List.getElem?_set_ne (Ne.symm h2)]

theorem permute_get (ps : List Nat) (vs : List (BitVec 3)) (acc : List Nat) (hnd : ps.Nodup) (hlt : ∀ p ∈ ps, p < acc.length) :
    (∀ (k p : Nat) (v : BitVec 3), ps[k]? = some p → vs[k]? = some v → (permute ps vs acc)[p]? = some v.toNat) ∧
    (∀ p, (∀ k, ps[k]? = some p → vs.length ≤ k) → (permute ps vs acc)[p]? = acc[p]?) := by
  induction ps generalizing vs acc with
  | nil => exact ⟨by simp, fun p _ => by simp [permute]⟩
  | cons q ps ih =>
    cases vs with
    | nil => exact ⟨by simp, fun p _ => by simp [permute]⟩
    | cons w vs =>
      obtain ⟨i1, i2⟩ := ih vs (acc.set q w.toNat) (List.nodup_cons.1 hnd).2 (by
        intro p hp; rw [List.length_set]; exact hlt p (by simp [hp]))
      refine ⟨fun k p v hp hv => ?_, fun p hp => ?_⟩
      · cases k with
        | zero =>
          simp only [List.getElem?_cons_zero, Option.some.injEq] at hp hv
          subst hp hv
          simp only [permute]
          rw [i2 q]
          · rw [List.getElem?_set_self (hlt q (by simp))]
          · intro k hk
            exact absurd (List.mem_of_getElem? hk) (List.nodup_cons.1 hnd).1
        | succ k => exact i1 k p v (by simpa using hp) (by simpa using hv)
      · simp only [permute]
        rw [i2 p]
        · rw [List.getElem?_set_ne]
          rintro rfl
          have := hp 0 (by simp)
          simp at this
        · intro k hk
          have := hp (k + 1) (by simpa using hk)
          simpa using this

theorem setAlphas_get (ps : List Rgba) (as : List Byte) (i : Nat) :
    (setAlphas ps as)[i]? = (ps[i]?).map fun e => if i < as.length then { e with a := byteAt as i } else e := by
  induction ps generalizing as i with
  | nil => cases as <;> simp [setAlphas]
  | cons p ps ih =>
    cases as with
    | nil => simp [setAlphas]
    | cons a as =>
      cases i with
      | zero => simp [setAlphas, byteAt]
      | succ i => simp [setAlphas, ih, byteAt]

end Sys2Proof.Machine
end

