-- ==== Sys2Proof/Laws/Step.lean ====
section
/-! SUPPORT. What a step of the core is, by what is fetched (R330, R90), and the reads of the source array (R61, R62). -/

namespace Sys2Proof.Machine

/-! ## The step -/

theorem step_core {s : State} (hq : s.hostQ = []) : step s = coreStep s := by simp only [step, hq]

theorem step_element {s t : State} {i : Instr} (hq : s.hostQ = []) (hb : s.runState = .busy)
    (hf : fetch s = .element i t) : step s = exec i t := by
  simp only [step_core hq, coreStep, hb, hf]

theorem step_act {s : State} {a : Act} (hq : s.hostQ = []) (hb : s.runState = .busy) (hf : fetch s = .act a) :
    step s = runAct a s := by
  simp only [step_core hq, coreStep, hb, hf]

theorem step_reject {s : State} {r : Reject} (hq : s.hostQ = []) (hb : s.runState = .busy)
    (hf : fetch s = .reject r) : step s = rejected r s := by
  simp only [step_core hq, coreStep, hb, hf]

theorem fetchAt_ok {r : Reader} {lv : Level} {s : State} {i : Instr} {c : Cur}
    (h : decode lv (s.cur r) = .ok (i, c)) : fetchAt r lv s = .element i (s.putCur r c) := by
  simp only [fetchAt, h]

theorem fetchAt_error {r : Reader} {lv : Level} {s : State} {e : Reject} (h : decode lv (s.cur r) = .error e) :
    fetchAt r lv s = .reject e := by
  simp only [fetchAt, h]

/-- Putting a cursor back changes CP, or IP and IB, and nothing else. -/
theorem putCur_form (s : State) (r : Reader) (c : Cur) :
    ∃ cp ip ib, s.putCur r c = { s with cp := cp, ip := ip, ib := ib } := by
  cases r
  · exact ⟨c.pos, s.ip, s.ib, rfl⟩
  · exact ⟨s.cp, c.pos, c.bit, rfl⟩

/-- Everything that can be fetched: an element with at most the cursors moved, a rule (completion only in its phase),
a rejection, a stop, or nothing. -/
theorem fetch_cases (s : State) : (∃ i cp ip ib, fetch s = .element i { s with cp := cp, ip := ip, ib := ib }) ∨
    (∃ a, fetch s = .act a ∧ (a = .complete → s.phase = .complete)) ∨ (∃ r, fetch s = .reject r) ∨ (∃ f, fetch s = .stop f) ∨ fetch s = .nothing := by
  unfold fetch
  split
  · unfold fetchAt
    split
    · exact .inr (.inr (.inl ⟨_, rfl⟩))
    · rename_i i c _
      obtain ⟨a, b, d, e⟩ := putCur_form s ‹_› c
      exact .inl ⟨i, a, b, d, by rw [e]⟩
  · have self (i : Instr) : ∃ j cp ip ib, Fetch.element i s = .element j { s with cp := cp, ip := ip, ib := ib } := ⟨i, s.cp, s.ip, s.ib, rfl⟩
    unfold fetchOther fetchRow
    repeat' split
    all_goals first
      | exact .inl (self _)
      | exact .inr (.inl ⟨_, rfl, fun _ => ‹_›⟩)
      | exact .inr (.inl ⟨_, rfl, nofun⟩)
      | exact .inr (.inr (.inl ⟨_, rfl⟩))
      | exact .inr (.inr (.inr (.inl ⟨_, rfl⟩)))
      | exact .inr (.inr (.inr (.inr rfl)))

/-! ## The source array -/

theorem byteAt_source (s : State) (i : Nat) (h : i < s.cap.srcLen.toNat) :
    byteAt s.source i = Memory.read s.mem (s.cap.srcBase.toNat + i) := by
  simp [byteAt, State.source, List.getD_eq_getElem?_getD, h]

/-- A big-endian field of the source (R62). -/
theorem u32At_source (s : State) (i : Nat) (h : i + 4 ≤ s.cap.srcLen.toNat) :
    u32At s.source i = Memory.read s.mem (s.cap.srcBase.toNat + i) ++ Memory.read s.mem (s.cap.srcBase.toNat + (i + 1))
      ++ Memory.read s.mem (s.cap.srcBase.toNat + (i + 2)) ++ Memory.read s.mem (s.cap.srcBase.toNat + (i + 3)) := by
  simp only [u32At, byteAt_source s _ (show i < _ by omega), byteAt_source s _ (show i + 1 < _ by omega),
    byteAt_source s _ (show i + 2 < _ by omega), byteAt_source s _ (show i + 3 < _ by omega)]

theorem take_source (s : State) (q k : Nat) :
    (Cur.mk s.source q 0).take k
      = if q + k ≤ s.cap.srcLen.toNat then .ok ((s.source.drop q).take k, ⟨s.source, q + k, 0⟩) else .error .eof := by
  unfold Cur.take
  by_cases h : q + k ≤ s.cap.srcLen.toNat
  · rw [if_pos h, if_pos (by simpa [Cur.has] using h)]
  · rw [if_neg h, if_neg (by simpa [Cur.has] using h)]

theorem readU32be_source (s : State) (q : Nat) :
    (Cur.mk s.source q 0).readU32be
      = if q + 4 ≤ s.cap.srcLen.toNat then .ok (u32At s.source q, ⟨s.source, q + 4, 0⟩) else .error .eof := by
  unfold Cur.readU32be
  by_cases h : q + 4 ≤ s.cap.srcLen.toNat
  · rw [if_pos h, if_pos (by simpa [Cur.has] using h)]
  · rw [if_neg h, if_neg (by simpa [Cur.has] using h)]

end Sys2Proof.Machine
end

