-- ==== Sys2Proof/Tests/Slice0.lean ====
section
/-! SUPPORT. The package's own tests: ill-formed elements refused, words written out from the spec's encodings, one step
each on small states with results from the spec's examples, and for every statement with hypotheses a witness that meets
them. -/

namespace Sys2Proof.Tests

open Sys2Proof.Machine

/-- What the decoder reads: the element and the cursor past it. -/
def reads (lv : Level) (bytes : List Byte) : Option (Instr × Nat × Nat) :=
  match decode lv ⟨bytes, 0, 0⟩ with
  | .ok (i, c) => some (i, c.pos, c.bit)
  | .error _ => none

/-- Why the decoder rejects. -/
def rejects (lv : Level) (bytes : List Byte) : Option Reject :=
  match decode lv ⟨bytes, 0, 0⟩ with
  | .ok _ => none
  | .error e => some e

/-- One component of the next state. -/
def after {α : Type} (f : State → α) (r : Out) : Option α :=
  match r with
  | .next t => some (f t)
  | .fault _ => none
  | .refused _ => none

def staticLitTree : TreeReg := (buildTree .litlen staticLit).1
def staticDistTree : TreeReg := (buildTree .dist staticDist).1

/-! ## Well-formedness: an ill-formed element for each check -/

/-- Parameters with a small MAX_CHUNK_LEN. -/
def smallConfig : Config := { Config.standard with maxChunkLen := 1 }

theorem test_wf_readBits : (Instr.readBits 17).wf Config.standard = false ∧ (Instr.readBits 16).wf Config.standard := by
  decide
theorem test_wf_sig : (Instr.sig [0, 0, 0, 0, 0, 0]).wf Config.standard = false := by decide
theorem test_wf_notPng : (Instr.notPng 0x89).wf Config.standard = false := by decide
theorem test_wf_chunks :
    [Instr.ihdr, .plte, .trns, .bkgd, .gama, .idat, .actl, .fctl, .fdat, .iend, .chunkUnknown 0x74455874].map
      (fun i => ((i [1, 2] 0).wf smallConfig, (i [1] 0).wf smallConfig)) = List.replicate 11 (false, true) := by decide
theorem test_wf_chunkUnknown :
    (knownTypes Config.standard).map (fun t => (Instr.chunkUnknown t [] 0).wf Config.standard)
      = List.replicate 10 false := by decide
theorem test_wf_zhdr : (Instr.zhdr [0x78]).wf Config.standard = false := by decide
theorem test_wf_dynHdr : (Instr.dynHdr 0 0 0 [0, 0, 0]).wf Config.standard = false := by decide
theorem test_wf_matchCopy :
    [(2, 1), (259, 1), (3, 0), (3, 32769), (3, 1), (258, 32768)].map
      (fun p : Nat × Nat => (Instr.matchCopy p.1 p.2).wf Config.standard) = [false, false, false, false, true, true] := by
  decide
theorem test_wf_fIllegal : (Instr.fIllegal 4).wf Config.standard = false := by decide
theorem test_wf_pixfmtIllegal : (Instr.pixfmtIllegal 3 8).wf Config.standard = false := by decide
theorem test_wf_dIllegal : (Instr.dIllegal 2).wf Config.standard = false := by decide
theorem test_wf_bIllegal : (Instr.bIllegal 1).wf Config.standard = false := by decide

/-! ## Decoding: words written out from spec/30_encoding -/

/-- R91: the eight signature bytes; R6: any other first byte. -/
theorem test_decode_signature :
    reads .signature [0x89, 0x50, 0x4E, 0x47, 0x0D, 0x0A, 0x1A, 0x0A]
      = some (.sig [0x50, 0x4E, 0x47, 0x0D, 0x0A, 0x1A, 0x0A], 8, 0)
    ∧ reads .signature [0x42, 0x4D] = some (.notPng 0x42, 0, 0)
    ∧ rejects .signature [] = some .eof ∧ rejects .signature [0x89, 0x50] = some .eof := by decide

/-- R92, R93: length, type in ASCII, data, crc; `fDAT` and `tEXt` are unknown. -/
theorem test_decode_chunks :
    [[0x49, 0x48, 0x44, 0x52], [0x50, 0x4C, 0x54, 0x45], [0x74, 0x52, 0x4E, 0x53], [0x62, 0x4B, 0x47, 0x44],
      [0x67, 0x41, 0x4D, 0x41], [0x49, 0x44, 0x41, 0x54], [0x61, 0x63, 0x54, 0x4C], [0x66, 0x63, 0x54, 0x4C],
      [0x66, 0x64, 0x41, 0x54], [0x49, 0x45, 0x4E, 0x44], [0x66, 0x44, 0x41, 0x54], [0x74, 0x45, 0x58, 0x74]].map
      (fun t => reads (.chunk 100 0x66644154) ([0, 0, 0, 1] ++ t ++ [0xAA, 0xDE, 0xAD, 0xBE, 0xEF]))
    = [Instr.ihdr, .plte, .trns, .bkgd, .gama, .idat, .actl, .fctl, .fdat, .iend, .chunkUnknown 0x66444154,
        .chunkUnknown 0x74455874].map (fun i => some (i [0xAA] 0xDEADBEEF, 13, 0)) := by decide

/-- R152: the maximum is tested before the data and crc are missed. -/
theorem test_decode_chunk_order :
    rejects (.chunk 2 0) [0, 0, 0, 3, 0x49, 0x44, 0x41, 0x54] = some .chunkTooLong
    ∧ rejects (.chunk 3 0) [0, 0, 0, 3, 0x49, 0x44, 0x41, 0x54, 1, 2, 3, 0, 0, 0] = some .eof
    ∧ rejects (.chunk 3 0) [0xFF, 0xFF, 0xFF, 0xFF, 0x49, 0x44, 0x41] = some .eof := by decide

/-- R104, R105: `4B` is a final static block (the example of R232), `07` a final reserved one (R233). -/
theorem test_decode_block_headers :
    reads (.zhdr 2) [0x78, 0x01, 0xFF] = some (.zhdr [0x78, 0x01], 2, 0) ∧ rejects (.zhdr 2) [0x78] = some .eof
    ∧ [[0x01], [0x00], [0x4B], [0x05], [0x04], [0x07]].map (reads .blkHdr)
      = [some (.blkStored true, 0, 3), some (.blkStored false, 0, 3), some (.blkStatic true, 0, 3),
          some (.blkDynamic true, 0, 3), some (.blkDynamic false, 0, 3), some (.blkReserved true, 0, 3)] := by decide

/-- R106: LEN and NLEN, low byte first; R107: the example of R209, field values 0, 0, 0 and four lengths 1, 2, 3, 4. -/
theorem test_decode_stored_dynamic :
    reads .stored [0x02, 0x00, 0xFD, 0xFF] = some (.storedBody 0x0002 0xFFFD, 4, 0)
    ∧ reads .dynHdr [0x00, 0x40, 0x34, 0x02] = some (.dynHdr 0 0 0 [1, 2, 3, 4], 3, 2) := by decide

/-- R112: literals and the end of a block in the static tree. -/
theorem test_decode_literals :
    [
    [0x0C], [0x8E], [0xFD], [0x13, 0x00], [0xFF, 0x01], [0x00]
    ].map (reads (.sym .litlen staticLitTree)) =
    [
    some (.lit 0, 1, 0), some (.lit 65, 1, 0), some (.lit 143, 1, 0), some (.lit 144, 1, 1), some (.lit 255, 1, 1),
    some (.eob, 0, 7)
    ] := by decide +kernel

/-- R112: the 7-bit codes s - 256. -/
theorem test_decode_lengths_a :
    [
    [0x40], [0x20], [0x60], [0x10], [0x50], [0x30], [0x70], [0x08], [0x48], [0x28], [0x68], [0x18], [0x58], [0x38],
    [0x78], [0x04], [0x44], [0x24], [0x64], [0x14], [0x54], [0x34], [0x74]
    ].map (reads (.sym .litlen staticLitTree)) =
    [
    some (.len257, 0, 7), some (.len258, 0, 7), some (.len259, 0, 7), some (.len260, 0, 7), some (.len261, 0, 7),
    some (.len262, 0, 7), some (.len263, 0, 7), some (.len264, 0, 7), some (.len265, 0, 7), some (.len266, 0, 7),
    some (.len267, 0, 7), some (.len268, 0, 7), some (.len269, 0, 7), some (.len270, 0, 7), some (.len271, 0, 7),
    some (.len272, 0, 7), some (.len273, 0, 7), some (.len274, 0, 7), some (.len275, 0, 7), some (.len276, 0, 7),
    some (.len277, 0, 7), some (.len278, 0, 7), some (.len279, 0, 7)
    ] := by decide +kernel

/-- R112: the 8-bit codes 0xC0 + (s - 280). -/
theorem test_decode_lengths_b :
    [
    [0x03], [0x83], [0x43], [0xC3], [0x23], [0xA3], [0x63], [0xE3]
    ].map (reads (.sym .litlen staticLitTree)) =
    [
    some (.len280, 1, 0), some (.len281, 1, 0), some (.len282, 1, 0), some (.len283, 1, 0), some (.len284, 1, 0),
    some (.len285, 1, 0), some (.len286, 1, 0), some (.len287, 1, 0)
    ] := by decide +kernel

/-- R112: the 5-bit number d. -/
theorem test_decode_distances_a :
    [
    [0x00], [0x10], [0x08], [0x18], [0x04], [0x14], [0x0C], [0x1C], [0x02], [0x12], [0x0A], [0x1A], [0x06], [0x16],
    [0x0E], [0x1E]
    ].map (reads (.sym .dist staticDistTree)) =
    [
    some (.dist0, 0, 5), some (.dist1, 0, 5), some (.dist2, 0, 5), some (.dist3, 0, 5), some (.dist4, 0, 5),
    some (.dist5, 0, 5), some (.dist6, 0, 5), some (.dist7, 0, 5), some (.dist8, 0, 5), some (.dist9, 0, 5),
    some (.dist10, 0, 5), some (.dist11, 0, 5), some (.dist12, 0, 5), some (.dist13, 0, 5), some (.dist14, 0, 5),
    some (.dist15, 0, 5)
    ] := by decide +kernel

/-- R112: the 5-bit number d. -/
theorem test_decode_distances_b :
    [
    [0x01], [0x11], [0x09], [0x19], [0x05], [0x15], [0x0D], [0x1D], [0x03], [0x13], [0x0B], [0x1B], [0x07], [0x17]
    ].map (reads (.sym .dist staticDistTree)) =
    [
    some (.dist16, 0, 5), some (.dist17, 0, 5), some (.dist18, 0, 5), some (.dist19, 0, 5), some (.dist20, 0, 5),
    some (.dist21, 0, 5), some (.dist22, 0, 5), some (.dist23, 0, 5), some (.dist24, 0, 5), some (.dist25, 0, 5),
    some (.dist26, 0, 5), some (.dist27, 0, 5), some (.dist28, 0, 5), some (.dist29, 0, 5)
    ] := by decide +kernel

/-- R111: 30 and 31 have codes in a dynamic tree of 32 lengths 5. -/
theorem test_decode_distances_c :
    [
    [0x0F], [0x1F]
    ].map (reads (.sym .dist (buildTree .dist (List.replicate 32 5)).1)) =
    [
    some (.dist30, 0, 5), some (.dist31, 0, 5)
    ] := by decide +kernel

/-- R205: 13 lengths 4 and 6 lengths 5 give the codes 0 to 12 and 26 to 31. -/
theorem test_decode_code_lengths :
    [
    [0x00], [0x08], [0x04], [0x0C], [0x02], [0x0A], [0x06], [0x0E], [0x01], [0x09], [0x05], [0x0D], [0x03], [0x0B],
    [0x1B], [0x07], [0x17], [0x0F], [0x1F]
    ].map (reads (.sym .cl (buildTree .cl (List.replicate 13 4 ++ List.replicate 6 5)).1)) =
    [
    some (.cl0, 0, 4), some (.cl1, 0, 4), some (.cl2, 0, 4), some (.cl3, 0, 4), some (.cl4, 0, 4),
    some (.cl5, 0, 4), some (.cl6, 0, 4), some (.cl7, 0, 4), some (.cl8, 0, 4), some (.cl9, 0, 4),
    some (.cl10, 0, 4), some (.cl11, 0, 4), some (.cl12, 0, 4), some (.cl13, 0, 5), some (.cl14, 0, 5),
    some (.cl15, 0, 5), some (.cl16, 0, 5), some (.cl17, 0, 5), some (.cl18, 0, 5)
    ] := by decide +kernel

/-- R205: lengths 2, 2, 2, 2 give the codes 0 to 3; R206: three codes of one bit are over-subscribed; R212: a pattern that
leads nowhere, an empty tree, a malformed tree, missing bits. -/
theorem test_decode_rejections :
    rejects (.sym .dist staticDistTree) [0x0F] = some .noLeaf
    ∧ rejects (.sym .dist (buildTree .dist (List.replicate 30 0)).1) [0] = some .treeEmpty
    ∧ rejects (.sym .dist (buildTree .dist [1, 1, 1]).1) [0] = some .treeMalformed
    ∧ rejects (.sym .litlen staticLitTree) [] = some .eof
    ∧ assignCodes [2, 2, 2, 2] = [0, 1, 2, 3] ∧ assignCodes [0, 2] = [0, 0] := by decide +kernel

/-- R114, R115: the filter type is the first byte of a scanline. -/
theorem test_decode_filters :
    [[0], [1], [2], [3], [4], [5], [255]].map (reads .scanline)
      = [.fNone, .fSub, .fUp, .fAvg, .fPaeth, .fIllegal 5, .fIllegal 255].map (fun i : Instr => some (i, 1, 0)) := by decide

/-- R116: bit depth and colour type as IHDR has them, bytes 8 and 9. -/
theorem test_decode_formats :
    [[1, 0], [2, 0], [4, 0], [8, 0], [16, 0], [8, 2], [16, 2], [1, 3], [2, 3], [4, 3], [8, 3], [8, 4], [16, 4], [8, 6],
      [16, 6], [8, 5], [16, 3], [4, 2]].map (reads .pixFmt)
    = [Instr.g1, .g2, .g4, .g8, .g16, .rgb8, .rgb16, .p1, .p2, .p4, .p8, .ga8, .ga16, .rgba8, .rgba16,
        .pixfmtIllegal 5 8, .pixfmtIllegal 3 16, .pixfmtIllegal 2 4].map (fun i => some (i, 2, 0)) := by decide

/-- R118. -/
theorem test_decode_operations :
    [[0], [1], [2], [3]].map (reads .dispose)
      = [.dNone, .dBackground, .dPrevious, .dIllegal 3].map (fun i : Instr => some (i, 1, 0))
    ∧ [[0], [1], [2]].map (reads .blend) = [.bSource, .bOver, .bIllegal 2].map (fun i : Instr => some (i, 1, 0)) := by
  decide

/-- The words of the opcode table. -/
theorem test_decode_table :
    decodeTableWord 8 0x89 = some (.sig [0, 0, 0, 0, 0, 0, 0]) ∧ decodeTableWord 8 0x03 = some .fAvg
    ∧ decodeTableWord 16 0x0178 = some (.zhdr [0x78, 0x01]) ∧ decodeTableWord 32 0x6163544C = some (.actl [] 0)
    ∧ decodeTableWord 32 0x74455874 = some (.chunkUnknown 0x74455874 [] 0) ∧ decodeTableWord 24 0 = none := by decide

/-! ## One element each: results from the spec's examples -/

/-- A launch is running, in the chunk walk. -/
def walking : State := { State.reset with runState := .busy, phase := .walk }

/-- The payload cursor at the start of `acc`. -/
def payload (acc : List Byte) : State := { walking with acc := acc }

/-- What a trap shows: ERRCODE, STATE = ERROR, the trace. -/
def trapped (s : State) : BitVec 3 × RunState × List Event := (s.errcode, s.runState, s.trace)

/-- R131: N = 10, pos = 8. -/
theorem test_need :
    after (·.ip) (exec (.need .pay 2) { payload (List.replicate 10 0) with ip := 8 }) = some 8
    ∧ after trapped (exec (.need .pay 4) { payload (List.replicate 10 0) with ip := 8 }) = some (1, .error, [.log 1]) := by
  decide
/-- R132. -/
theorem test_readU8 : after (fun t => (t.res, t.ip)) (exec (.readU8 .pay) (payload [0x89, 0x50])) = some (some (.num 0x89), 1) := by
  decide
/-- R133: 01 F4. -/
theorem test_readU16be : after (fun t => (t.res, t.ip)) (exec (.readU16be .pay) (payload [0x01, 0xF4])) = some (some (.num 500), 2) := by
  decide
/-- R134: 00 00 00 0D, from the source. -/
theorem test_readU32be :
    after (fun t => (t.res, t.cp)) (exec (.readU32be .src)
      { walking with mem := [(0x103, 0x0D)], cap := { State.reset.cap with srcBase := 0x100, srcLen := 4 } })
    = some (some (.num 13), 4) := by decide
/-- R135: pos = 8, skip 17. -/
theorem test_skip : after (·.ip) (exec (.skip .pay 17) { payload (List.replicate 25 0) with ip := 8 }) = some 25 := by decide
/-- R136. -/
theorem test_readType :
    after (·.res) (exec (.readType .pay) (payload [0x49, 0x48, 0x44, 0x52])) = some (some (.type [0x49, 0x48, 0x44, 0x52])) := by
  decide
/-- R137: B = 05 gives 1, 0, 1, 0, 0, 0, 0, 0, and the ninth read raises. -/
theorem test_readBit :
    (List.range 8).map (fun b => after (fun t => (t.res, t.ip, t.ib)) (exec .readBit { payload [0x05] with ib := b }))
      = [some (some (.num 1), 0, 1), some (some (.num 0), 0, 2), some (some (.num 1), 0, 3), some (some (.num 0), 0, 4),
          some (some (.num 0), 0, 5), some (some (.num 0), 0, 6), some (some (.num 0), 0, 7), some (some (.num 0), 1, 0)]
    ∧ after trapped (exec .readBit { payload [0x05] with ip := 1 }) = some (1, .error, [.log 1]) := by decide
/-- R138: B5 01, three bits and then seven. -/
theorem test_readBits :
    after (fun t => (t.res, t.ip, t.ib)) (exec (.readBits 3) (payload [0xB5, 0x01])) = some (some (.num 5), 0, 3)
    ∧ after (fun t => (t.res, t.ip, t.ib)) (exec (.readBits 7) { payload [0xB5, 0x01] with ib := 3 })
      = some (some (.num 54), 1, 2) := by decide
/-- R139. -/
theorem test_alignToByte :
    after (fun t => (t.ip, t.ib)) (exec (.alignToByte .pay) { payload [0xB5, 0x01] with ib := 3 }) = some (1, 0)
    ∧ after (fun t => (t.ip, t.ib)) (exec (.alignToByte .pay) { payload [0xB5, 0x01] with ip := 1 }) = some (1, 0) := by
  decide

/-- R151, R6. -/
theorem test_sig : after (·.phase) (exec (.sig [0, 0, 0, 0, 0, 0, 0]) { walking with phase := .signature }) = some .walk := by
  decide
theorem test_notPng : exec (.notPng 0x42) { walking with phase := .signature } = .refused .bmpPath := rfl

/-- R158: a 1 x 1 image of depth 8, colour type 0. -/
theorem test_ihdr :
    after (fun t => (t.hdr, t.haveIhdr)) (exec (.ihdr [0, 0, 0, 1, 0, 0, 0, 1, 8, 0, 0, 0, 0] 0) walking)
      = some (⟨1, 1, 8, 0, 0, 0, 0, 1, 8, 1, 1⟩, true) := by decide
theorem test_ihdr_traps :
    [[0, 0, 0, 1, 0, 0, 0, 1, 8, 5, 0, 0, 0], [0, 0, 0, 1, 0, 0, 0, 1, 8, 0, 0, 0, 1], [0, 0, 0, 0, 0, 0, 0, 1, 8, 0, 0, 0, 0],
      [0, 0, 0, 1]].map (fun d : List Byte => after (·.errcode) (exec (.ihdr d 0) walking))
      = [some 5, some 5, some 2, some 2] := by decide

/-- A header has been read: `w` x `h` pixels of depth `d`, colour type `ct`. -/
def headed (w h : Word) (d ct : Byte) : State := { walking with haveIhdr := true, hdr := mkHeader w h d ct 0 0 0 }

/-- R160: FF 00 00 00 FF 00. -/
theorem test_plte :
    after (fun t => (t.palN, t.havePlte, t.pal.take 2)) (exec (.plte [0xFF, 0, 0, 0, 0xFF, 0] 0) (headed 1 1 8 3))
      = some (2, true, [⟨0xFF, 0, 0, 0xFF⟩, ⟨0, 0xFF, 0, 0xFF⟩]) := by decide
theorem test_plte_traps :
    [769, 7, 0].map (fun n => after (·.errcode) (exec (.plte (List.replicate n 0) 0) (headed 1 1 8 3)))
      = [some 2, some 2, some 2] := by decide +kernel

/-- A palette of red and green (R160's example). -/
def paletted (d : Byte) : State :=
  { headed 1 1 d 3 with pal := ⟨0xFF, 0, 0, 0xFF⟩ :: ⟨0, 0xFF, 0, 0xFF⟩ :: State.reset.pal.drop 2, palN := 2, havePlte := true }

/-- R162: colour type 3, data 80; colour type 0, data 00 7F. -/
theorem test_trns :
    after (fun t => (t.pal.take 2).map Rgba.a) (exec (.trns [0x80] 0) (paletted 8)) = some [0x80, 0xFF]
    ∧ after (fun t => (t.key0, t.keyValid)) (exec (.trns [0x00, 0x7F] 0) (headed 1 1 8 0)) = some (0x007F, true) := by decide
theorem test_trns_more :
    after (fun t => (t.key0, t.key1, t.key2)) (exec (.trns [0, 1, 2, 3, 4, 5] 0) (headed 1 1 8 2))
      = some (0x0001, 0x0203, 0x0405)
    ∧ after (·.keyValid) (exec (.trns [1] 0) (headed 1 1 8 6)) = some false
    ∧ after (·.errcode) (exec (.trns [1, 2, 3] 0) (paletted 8)) = some 2 := by decide

/-- R164: the raw values only; R165: BG with BKGD_OVERRIDES. -/
theorem test_bkgd :
    after (fun t => (t.bkgd0, t.haveBkgd, t.bg)) (exec (.bkgd [0x12, 0x34] 0) (headed 1 1 16 0)) = some (0x1234, true, 0) := by
  decide
theorem test_bkgd_overrides :
    after (·.bg) (exec (.bkgd [1] 0) { paletted 8 with cfg := { Config.standard with bkgdOverrides := true } })
      = some 0xFF00FF00
    ∧ after (·.bg) (exec (.bkgd [0, 2] 0) { headed 1 1 2 0 with cfg := { Config.standard with bkgdOverrides := true } })
      = some 0xFFAAAAAA := by decide
/-- R166. -/
theorem test_gama : after (fun t => (t.gamma, t.haveGamma)) (exec (.gama [0, 0, 0xB1, 0x8F] 0) (headed 1 1 8 0)) = some (45455, true) := by
  decide
/-- R167: 78 01 01, then 02 00 FD FF 00 7F. -/
theorem test_idat :
    after (·.acc) (exec (.idat [0x02, 0x00, 0xFD, 0xFF, 0x00, 0x7F] 0) { headed 1 1 8 0 with acc := [0x78, 0x01, 0x01] })
      = some [0x78, 0x01, 0x01, 0x02, 0x00, 0xFD, 0xFF, 0x00, 0x7F] := by decide
/-- R168: 00 00 00 02 00 00 00 01. -/
theorem test_actl :
    after (fun t => (t.numFrames, t.numPlays, t.animated, t.anim)) (exec (.actl [0, 0, 0, 2, 0, 0, 0, 1] 0) (headed 1 1 8 0))
      = some (2, 1, true, true) := by decide

/-- An animation of two frames has been announced. -/
def animating : State := { headed 1 1 8 0 with animated := true, anim := true, numFrames := 2, numPlays := 1 }

/-- The data of R170's example. -/
def fctlData : List Byte := [0, 0, 0, 0, 0, 0, 0, 1, 0, 0, 0, 1, 0, 0, 0, 0, 0, 0, 0, 0, 0, 1, 0, 10, 0, 0]

/-- R170: a 1 x 1 frame, 100000 us; R171: (1, 0), (3, 7), (0, 0), (65535, 1). -/
theorem test_fctl :
    after (fun t => (t.fW, t.fDelay, t.fctlValid, t.nextSeq, t.fctlSeen)) (exec (.fctl fctlData 0) animating)
      = some (1, 100000, true, 1, 1)
    ∧ delayUs 1 0 = 10000 ∧ delayUs 3 7 = 428571 ∧ delayUs 0 0 = 0 ∧ delayUs 65535 1 = 65535000000 := by decide
theorem test_fctl_pending :
    after (fun t => (t.phase, t.job.resume, t.job.bpl)) (exec (.fctl fctlData 0) { animating with fctlValid := true, fW := 1, fH := 1 })
      = some (.zhdr, .fctl ⟨1, 1, 0, 0, 1, 10, 0, 0⟩, 1)
    ∧ after (·.errcode) (exec (.fctl fctlData 0) { animating with nextSeq := 1 }) = some 3 := by decide
/-- R172: sequence 2; sequence 3 where 2 is due. -/
theorem test_fdat :
    after (fun t => (t.acc, t.nextSeq)) (exec (.fdat [0, 0, 0, 2, 0x78, 0x01] 0) { animating with nextSeq := 2, fctlValid := true })
      = some ([0x78, 0x01], 3)
    ∧ after (·.errcode) (exec (.fdat [0, 0, 0, 3, 0x78, 0x01] 0) { animating with nextSeq := 2, fctlValid := true })
      = some 3 := by decide
/-- R174, R176: the default frame; no payload. -/
theorem test_iend :
    after (fun t => (t.phase, t.job.w, t.job.resume)) (exec (.iend [] 0) { headed 1 1 8 0 with acc := [0x78] })
      = some (.zhdr, 1, .iend)
    ∧ after (fun t => (t.phase, t.seenIend)) (exec (.iend [] 0) walking) = some (.walk, true) := by decide
/-- R175. -/
theorem test_chunkUnknown : exec (.chunkUnknown 0x74455874 [1, 2] 0) walking = .next walking := rfl

/-- R231, R232, R233. -/
theorem test_zhdr : after (·.phase) (exec (.zhdr [0x78, 0x01]) walking) = some .block := by decide
theorem test_blkStored :
    after (fun t => (t.bfinal, t.btype, t.phase)) (exec (.blkStored true) walking) = some (true, 0, .storedBody) := by decide
theorem test_blkStatic :
    after (fun t => (t.bfinal, t.btype, t.tLit.empty, t.tDist.malformed, t.phase, t.allocN)) (exec (.blkStatic true) walking)
      = some (true, 1, false, false, .litLen, 635) := by decide +kernel
theorem test_blkDynamic :
    after (fun t => (t.bfinal, t.btype, t.phase)) (exec (.blkDynamic false) walking) = some (false, 2, .dynHdr) := by decide
theorem test_blkReserved : after trapped (exec (.blkReserved true) walking) = some (5, .error, [.log 5]) := by decide
/-- R234: LEN 2, NLEN FFFD, bytes 00 7F, a final block; NLEN is not compared; too few bytes. -/
theorem test_storedBody :
    after (fun t => (t.out, t.ip, t.phase)) (exec (.storedBody 2 0xFFFD) { payload [0x00, 0x7F, 0x00] with bfinal := true })
      = some ([0x00, 0x7F], 2, .inflated)
    ∧ after (·.out) (exec (.storedBody 1 0) (payload [0x55])) = some [0x55]
    ∧ after (·.errcode) (exec (.storedBody 2 0xFFFD) (payload [0x55])) = some 1 := by decide
/-- R209: the example, with the lengths 1, 2, 3 and 4 for the symbols 16, 17, 18 and 0. -/
theorem test_dynHdr :
    after (fun t => (t.hlit, t.hdist, t.hclen, t.cllen, t.li, t.phase)) (exec (.dynHdr 0 0 0 [1, 2, 3, 4]) walking)
      = some (257, 1, 4, [4, 0, 0, 0, 0, 0, 0, 0, 0, 0, 0, 0, 0, 0, 0, 0, 1, 2, 3], 0, .codeLens) := by decide +kernel

/-- The code lengths of a dynamic block, at index `i`. -/
def lengthsAt (i : Nat) (acc : List Byte) : State := { payload acc with phase := .codeLens, hlit := 257, hdist := 1, li := i }

/-- R210: CL0 to CL15 write their number. -/
theorem test_cl_lengths :
    [Instr.cl0, .cl1, .cl2, .cl3, .cl4, .cl5, .cl6, .cl7, .cl8, .cl9, .cl10, .cl11, .cl12, .cl13, .cl14, .cl15].map
      (fun i => after (fun t => (t.lens.getD 5 99, t.li)) (exec i (lengthsAt 5 [])))
    = (List.range 16).map fun v => some (v, 6) := by decide +kernel
/-- R210: 3 + 2 repeats of the length before; nothing to repeat. -/
theorem test_cl16 :
    after (fun t => (t.lens.take 8, t.li, t.ib)) (exec .cl16 { lengthsAt 1 [0x02] with lens := 7 :: List.replicate 319 0 })
      = some ([7, 7, 7, 7, 7, 7, 0, 0], 6, 2)
    ∧ after (·.errcode) (exec .cl16 (lengthsAt 0 [0x02])) = some 2 := by decide +kernel
/-- R210: 3 + 7 zeros. -/
theorem test_cl17 :
    after (fun t => (t.lens.take 12, t.li)) (exec .cl17 { lengthsAt 1 [0x07] with lens := List.replicate 320 9 })
      = some ([9, 0, 0, 0, 0, 0, 0, 0, 0, 0, 0, 9], 11) := by decide +kernel
/-- R210: n = 258, i = 250, extra value 0: 261 > 258; at 247 it fits. -/
theorem test_cl18 :
    after (·.errcode) (exec .cl18 (lengthsAt 250 [0])) = some 2
    ∧ after (fun t => (t.li, t.ib)) (exec .cl18 (lengthsAt 247 [0])) = some (258, 7) := by decide +kernel

/-- R237: the byte 61. -/
theorem test_lit : after (fun t => (t.out, t.phase)) (exec (.lit 0x61) walking) = some ([0x61], .litLen) := by decide
/-- R241, R214. -/
theorem test_eob :
    after (fun t => (t.phase, t.tLit.empty, t.ib)) (exec .eob { walking with bfinal := true, ib := 3, tLit := ⟨.absent, false, false⟩ })
      = some (.inflated, true, 3) ∧ after (·.phase) (exec .eob walking) = some .block := by decide
/-- R110: the real values, with extra bits of value 0. -/
theorem test_lengths :
    [Instr.len257, .len258, .len259, .len260, .len261, .len262, .len263, .len264, .len265, .len266, .len267, .len268,
      .len269, .len270, .len271, .len272, .len273, .len274, .len275, .len276, .len277, .len278, .len279, .len280,
      .len281, .len282, .len283, .len284, .len285].map (fun i => after (·.mlen) (exec i (payload [0])))
    = [3, 4, 5, 6, 7, 8, 9, 10, 11, 13, 15, 17, 19, 23, 27, 31, 35, 43, 51, 59, 67, 83, 99, 115, 131, 163, 195, 227,
        258].map some := by decide
/-- R238: 269 with the extra bits 1, 0 is 20; R110: 284 with 31 is 258; 286 and 287 have no length. -/
theorem test_lengths_more :
    after (fun t => (t.mlen, t.ib, t.phase)) (exec .len269 (payload [0x01])) = some (20, 2, .dist)
    ∧ after (·.mlen) (exec .len284 (payload [0x1F])) = some 258
    ∧ [Instr.len286, .len287].map (fun i => after trapped (exec i walking))
      = List.replicate 2 (some (5, .error, [.log 5])) := by decide
/-- R111: the real values, with extra bits of value 0. -/
theorem test_distances :
    [Instr.dist0, .dist1, .dist2, .dist3, .dist4, .dist5, .dist6, .dist7, .dist8, .dist9, .dist10, .dist11, .dist12,
      .dist13, .dist14, .dist15, .dist16, .dist17, .dist18, .dist19, .dist20, .dist21, .dist22, .dist23, .dist24,
      .dist25, .dist26, .dist27, .dist28, .dist29].map (fun i => after (·.mdist) (exec i (payload [0, 0])))
    = [1, 2, 3, 4, 5, 7, 9, 13, 17, 25, 33, 49, 65, 97, 129, 193, 257, 385, 513, 769, 1025, 1537, 2049, 3073, 4097, 6145,
        8193, 12289, 16385, 24577].map some := by decide
/-- R239: symbol 4 and the bit 1 give 6; 30 and 31 have no distance. -/
theorem test_distances_more :
    after (fun t => (t.mdist, t.ib, t.phase)) (exec .dist4 (payload [0x01])) = some (6, 1, .copy)
    ∧ [Instr.dist30, .dist31].map (fun i => after trapped (exec i walking))
      = List.replicate 2 (some (5, .error, [.log 5])) := by decide
/-- R240: the three examples. -/
theorem test_matchCopy :
    after (·.out) (exec (.matchCopy 4 1) { walking with out := [0x61] }) = some [0x61, 0x61, 0x61, 0x61, 0x61]
    ∧ after (·.out) (exec (.matchCopy 5 2) { walking with out := [0x61, 0x62] })
      = some [0x61, 0x62, 0x61, 0x62, 0x61, 0x62, 0x61]
    ∧ after trapped (exec (.matchCopy 3 2) { walking with out := [0x61] }) = some (2, .error, [.log 2]) := by decide

/-- Row `r` of a frame: `bpl` bytes a row, `w` pixels, filter distance `bytespp`. -/
def rowAt (r bpl bytespp : Nat) (w : Word) (out : List Byte) : State :=
  { walking with
    haveIhdr := true, hdr := { State.reset.hdr with bytespp := bytespp }
    job := ⟨w, 2, 0, 0, 0, 0, 0, bpl, r, [], .iend⟩, out := out, phase := .rows }

/-- R272. -/
theorem test_fNone : after (·.out) (exec .fNone (rowAt 0 2 1 2 [0, 0x00, 0x7F])) = some [0, 0x00, 0x7F] := by decide
/-- R273: both examples. -/
theorem test_fSub :
    after (·.out) (exec .fSub (rowAt 0 3 1 3 [1, 0x10, 0x20, 0xF0])) = some [1, 0x10, 0x30, 0x20]
    ∧ after (·.out) (exec .fSub (rowAt 0 6 3 2 [1, 0x0A, 0x14, 0x1E, 0x01, 0x01, 0x01]))
      = some [1, 0x0A, 0x14, 0x1E, 0x0B, 0x15, 0x1F] := by decide
/-- R274. -/
theorem test_fUp :
    after (·.out) (exec .fUp (rowAt 1 3 1 3 [1, 0x10, 0x30, 0x20, 2, 0x01, 0x02, 0xF0]))
      = some [1, 0x10, 0x30, 0x20, 2, 0x11, 0x32, 0x10] := by decide
/-- R275: the row of the example; the sum FF + FF does not wrap. -/
theorem test_fAvg :
    after (·.out) (exec .fAvg (rowAt 1 3 1 3 [1, 0x10, 0x30, 0x20, 3, 0x02, 0x02, 0x02]))
      = some [1, 0x10, 0x30, 0x20, 3, 0x0A, 0x1F, 0x21]
    ∧ after (·.out) (exec .fAvg (rowAt 1 2 1 2 [0, 0x00, 0xFF, 3, 0xFF, 0x01])) = some [0, 0x00, 0xFF, 3, 0xFF, 0x00] := by
  decide
/-- R276: the five examples of the predictor. -/
theorem test_paeth :
    [predPaeth 3 5 4, predPaeth 10 20 15, predPaeth 5 5 0, predPaeth 200 100 250, predPaeth 0 255 255] = [4, 15, 5, 100, 0] := by
  decide
theorem test_fPaeth :
    after (·.out) (exec .fPaeth (rowAt 1 2 1 2 [0, 0x04, 0x05, 4, 0xFF, 0x01])) = some [0, 0x04, 0x05, 4, 0x03, 0x05] := by
  decide
/-- R277. -/
theorem test_fIllegal : after trapped (exec (.fIllegal 5) (rowAt 0 1 1 1 [5, 0x7F])) = some (5, .error, [.log 5]) := by decide

/-- The pixels that a format makes of the first row. -/
def pixels (i : Instr) (s : State) : Option (List Pixel) := after (fun t => t.job.pix) (exec i s)

/-- A row of `w` pixels, without and with the key. -/
def row (w : Word) (bytes : List Byte) : State := { rowAt 0 bytes.length 1 w (0 :: bytes) with phase := .pixels }
def keyed (k0 k1 k2 : Half) (s : State) : State := { s with key0 := k0, key1 := k1, key2 := k2, keyValid := true }

/-- R300 to R304. -/
theorem test_g1 : pixels .g1 (row 2 [0x80]) = some [0xFFFFFFFF, 0xFF000000] := by decide
theorem test_g2 : pixels .g2 (keyed 2 0 0 (row 4 [0x1B])) = some [0xFF000000, 0xFF555555, 0x00AAAAAA, 0xFFFFFFFF] := by decide
theorem test_g4 : pixels .g4 (row 2 [0x3C]) = some [0xFF333333, 0xFFCCCCCC] := by decide
theorem test_g8 :
    pixels .g8 (row 1 [0x7F]) = some [0xFF7F7F7F] ∧ pixels .g8 (keyed 0x007F 0 0 (row 1 [0x7F])) = some [0x007F7F7F] := by
  decide
theorem test_g16 :
    pixels .g16 (keyed 0x1234 0 0 (row 1 [0x12, 0x34])) = some [0x00121212]
    ∧ pixels .g16 (keyed 0x1200 0 0 (row 1 [0x12, 0x34])) = some [0xFF121212] := by decide
/-- R292: GREY_SCALE = shift. -/
theorem test_grey_shift :
    pixels .g2 { row 4 [0x1B] with cfg := { Config.standard with greyScale := .shift } }
      = some [0xFF000000, 0xFF404040, 0xFF808080, 0xFFC0C0C0] := by decide
/-- R305, R306. -/
theorem test_rgb8 :
    pixels .rgb8 (keyed 0x10 0x20 0x30 (row 1 [0x10, 0x20, 0x30])) = some [0x00102030]
    ∧ pixels .rgb8 (keyed 0x10 0x20 0x31 (row 1 [0x10, 0x20, 0x30])) = some [0xFF102030] := by decide
theorem test_rgb16 : pixels .rgb16 (row 1 [0x10, 0x01, 0x20, 0x02, 0x30, 0x03]) = some [0xFF102030] := by decide

/-- A row of palette indexes, with the palette of R160's example. -/
def indexed (w : Word) (bytes : List Byte) : State := { row w bytes with pal := (paletted 8).pal, palN := 2 }

/-- R307 to R310. -/
theorem test_p1 : pixels .p1 (indexed 2 [0x40]) = some [0xFFFF0000, 0xFF00FF00] := by decide
theorem test_p2 :
    after trapped (exec .p2 (indexed 2 [0x20])) = some (2, .error, [.log 2]) ∧ pixels .p2 (indexed 1 [0x20]) = some [0xFFFF0000] := by
  decide
theorem test_p4 : pixels .p4 (indexed 2 [0x01]) = some [0xFFFF0000, 0xFF00FF00] := by decide
theorem test_p8 :
    pixels .p8 { indexed 1 [0] with pal := ⟨0xFF, 0, 0, 0x80⟩ :: (paletted 8).pal.drop 1 } = some [0x80FF0000] := by decide
/-- R311 to R314. -/
theorem test_ga8 : pixels .ga8 (row 1 [0x7F, 0x80]) = some [0x807F7F7F] := by decide
theorem test_ga16 : pixels .ga16 (row 1 [0x7F, 0xFF, 0x80, 0x01]) = some [0x807F7F7F] := by decide
theorem test_rgba8 : pixels .rgba8 (row 2 [0, 0, 0, 0x80, 0x10, 0x20, 0x30, 0xFF]) = some [0x80000000, 0xFF102030] := by decide
theorem test_rgba16 : pixels .rgba16 (row 1 [0x10, 0, 0x20, 0, 0x30, 0, 0xFF, 0xFF]) = some [0xFF102030] := by decide
theorem test_pixfmtIllegal : after (·.errcode) (exec (.pixfmtIllegal 5 8) walking) = some 5 := by decide

/-- An animation of three frames is being painted, frame 1 of 2 x 1 pixels at (1, 1), on a canvas of 4 x 4 pixels that
holds `under` at its pixels (1, 1) and (2, 1). -/
def painting (pix : List Pixel) (dispose blend : Byte) (under : List Byte) : State :=
  { headed 4 4 8 6 with
    cap := { State.reset.cap with canvasBase := 0x1000, canvasStride := 16, canvasW := 4, canvasH := 4 }
    animated := true, anim := true, numFrames := 3, framesDone := 3, framesOut := 3, fidx := 1, plays := 1, bg := 0xFF102030
    frames := List.replicate 3 ⟨2, 1, 1, 1, 4, 8, 30000, dispose, blend, pix⟩
    mem := Memory.writeList [] 0x1014 under, phase := .composite }

/-- The two canvas pixels of the frame, and what PAINTED is. -/
def shown (s : State) : Pixel × Pixel × Bool := (canvasRead s 1 1, canvasRead s 2 1, s.painted)

/-- R342: 80000000 over FF102030 is FF070F17; an alpha of 0 gives BG. -/
theorem test_bSource :
    after shown (exec .bSource (painting [0x80000000, 0x00123456] 0 0 [0xAA, 0xAA, 0xAA, 0xAA])) = some (0xFF070F17, 0xFF102030, true) := by
  decide
/-- R343: 80FFFFFF over FF102030 is FF878F97; an alpha of 0 leaves the canvas. -/
theorem test_bOver :
    after shown (exec .bOver (painting [0x80FFFFFF, 0x00123456] 0 1 [0x30, 0x20, 0x10, 0xFF, 0x30, 0x20, 0x10, 0xFF]))
      = some (0xFF878F97, 0xFF102030, true) := by decide
/-- R347. -/
theorem test_dNone : after shown (exec .dNone (painting [0, 0] 0 0 [1, 2, 3, 4])) = some (0x04030201, 0, false) := by decide
theorem test_dBackground : after shown (exec .dBackground (painting [0, 0] 1 0 [1, 2, 3, 4])) = some (0xFF102030, 0xFF102030, true) := by
  decide
/-- R348: whole pixels are restored, and SNAP is emptied. -/
theorem test_dPrevious :
    after (fun t => (shown t, t.snap)) (exec .dPrevious { painting [0, 0] 2 0 [1, 2, 3, 4] with snap := [0x11223344, 0x00AABBCC] })
      = some ((0x11223344, 0x00AABBCC, true), []) := by decide
theorem test_dIllegal : after (·.errcode) (exec (.dIllegal 3) walking) = some 5 := by decide
theorem test_bIllegal : after (·.errcode) (exec (.bIllegal 2) walking) = some 5 := by decide

/-! ## The rules between the elements, the host, reset -/

/-- R334: the five examples on a canvas of 800 x 600 and an image of 100 x 50. -/
theorem test_place :
    [(10, 20), (-100, -50), (-99, 0), (-801, 0), (700, 550)].map (fun p : Word × Word =>
      after (fun t => (t.errcode, t.ox, t.oy)) (step
        { headed 100 50 8 0 with cap := { State.reset.cap with canvasW := 800, canvasH := 600, x := p.1, y := p.2 }, phase := .place }))
    = [some (0, 10, 20), some (0, 700, 550), some (2, 0, 0), some (2, 0, 0), some (0, 700, 550)] := by decide
/-- R349: two frames (NONE, BACKGROUND); three frames of PREVIOUS. -/
theorem test_effective :
    [(0, 2, 0), (1, 2, 1), (0, 3, 2), (1, 3, 2), (2, 3, 2), (0, 1, 2)].map (fun p : Nat × Word × Byte =>
      effDispose { walking with fidx := p.1, numFrames := p.2.1 } ⟨1, 1, 0, 0, 1, 1, 0, p.2.2, 0, [0]⟩) = [0, 0, 1, 2, 0, 0] := by
  decide
/-- R348, R352: the snapshot, and a hold with the canvas. -/
theorem test_snapshot :
    after (fun t => (t.snap, t.phase)) (step { painting [0, 0] 2 0 [1, 2, 3, 4] with phase := .loop })
      = some ([0x04030201, 0], .composite) := by decide
theorem test_hold :
    after (fun t => (t.trace, t.phase)) (step
      { painting [0, 0] 0 0 [1, 2, 3, 4] with
        phase := .hold, cap := { State.reset.cap with canvasBase := 0x1010, canvasStride := 16, canvasW := 2, canvasH := 1 } })
      = some ([.hold 30000 [0, 0x04030201]], .dispose) := by decide
/-- R332. -/
theorem test_complete :
    after (fun t => (t.runState, t.frames, t.trace)) (step { painting [0, 0] 0 0 [] with phase := .complete }) = some (.done, [], []) := by
  decide
/-- R23, R21: CTRL.START launches; R69: a stride below four times the width is refused; R6. -/
theorem test_launch :
    after (fun t => (t.runState, t.phase, t.bg)) (step
      { State.reset with hostQ := [.writeReg .ctrl 1], cfgBg := 0x102030, errcode := 2 }) = some (.busy, .signature, 0xFF102030)
    ∧ step { State.reset with hostQ := [.writeReg .ctrl 1], canvasW := 1 } = .refused .canvasGeometry := ⟨by decide, rfl⟩
theorem test_status :
    after (·.hostRd) (step { walking with hostQ := [.readReg .status], anim := true, painted := true, runState := .error })
      = some 0xF := by decide
/-- R420, R423. -/
theorem test_reset :
    after (fun t => (t.runState, t.errcode, t.phase)) (step { walking with hostQ := [.reset], errcode := 3 }) = some (.idle, 0, .idle) := by
  decide

/-- The words of the opcode table, run as the first element after reset. -/
theorem test_withFetchWord :
    [(8, 0x89), (16, 0x0178), (8, 0x01), (32, 0x49454E44)].map (fun p : Nat × Nat =>
      after (·.phase) (step (State.reset.withFetchWord p.1 p.2)))
    = [some .walk, some .block, some .pixels, some .walk] := by decide +kernel
theorem test_withFetchWord_header :
    after (·.errcode) (step (State.reset.withFetchWord 32 0x67414D41)) = some 2 := by decide +kernel

/-! ## Witnesses: states and operands that meet the hypotheses of the statements, clause by clause, at boundary values -/

/-- `n` source bytes, the first ones as given. -/
def sourced (n : Word) (bytes : List Byte) (p : Phase) : State :=
  { walking with
    mem := Memory.writeList [] 0x100 bytes, cap := { State.reset.cap with srcBase := 0x100, srcLen := n }, phase := p }

theorem witness_NeedSkipAlign :
    readerHas { payload (List.replicate 10 0) with ip := 8 } .pay 2 ∧ ¬readerHas { payload (List.replicate 10 0) with ip := 8 } .pay 3
    ∧ readerHas (sourced 4 [] .walk) .src 4 ∧ ¬readerHas (sourced 4 [] .walk) .src 5
    ∧ readerAtByte (payload []) .pay ∧ readerAtByte (payload []) .src ∧ ¬readerAtByte { payload [0] with ib := 1 } .pay := by
  simp only [readerHas, readerAtByte]; decide

theorem witness_ByteReads :
    readerAtByte (payload [1, 2, 3, 4]) .pay ∧ readerHas (payload [1, 2, 3, 4]) .pay 4 ∧ readerHas (payload [1, 2]) .pay 2
    ∧ readerHas (payload [1]) .pay 1 ∧ ¬readerHas (payload [1, 2, 3]) .pay 4 ∧ ¬readerHas (payload [1]) .pay 2
    ∧ ¬readerHas (payload []) .pay 1 := by
  simp only [readerHas, readerAtByte]; decide

theorem witness_ReadBits :
    (payload [5]).ip < (payload [5]).acc.length ∧ { payload [5] with ib := 6 }.ib < 7 ∧ { payload [5] with ib := 7 }.ib = 7
    ∧ (payload []).acc.length ≤ (payload []).ip ∧ payHas (payload [1, 2]) 16 ∧ ¬payHas { payload [1, 2] with ib := 1 } 16
    ∧ payHas (payload []) 0 := by decide

theorem witness_ReadBitsCompose : (payload [0xB5, 0x01]).ib < 8 ∧ 3 + 7 ≤ 16 ∧ 13 + 3 ≤ 16 ∧ payHas (payload [0xB5, 0x01]) (13 + 3) := by
  decide

theorem witness_SignatureStep :
    (coreTurn (sourced 0 [] .signature) ∧ (sourced 0 [] .signature).cp = 0 ∧ (sourced 0 [] .signature).cap.srcLen.toNat = 0)
    ∧ srcByte (sourced 1 [0x42] .signature) 0 ≠ 0x89
    ∧ (srcByte (sourced 7 [0x89] .signature) 0 = 0x89 ∧ (sourced 7 [0x89] .signature).cap.srcLen.toNat < 8)
    ∧ (srcByte (sourced 8 [0x89] .signature) 0 = 0x89 ∧ 8 ≤ (sourced 8 [0x89] .signature).cap.srcLen.toNat) := by decide

theorem witness_ChunkStep :
    (coreTurn (sourced 7 [] .walk) ∧ (sourced 7 [] .walk).seenIend = false ∧ (sourced 7 [] .walk).cp < 7)
    ∧ (let s := { sourced 8 [0, 0, 0, 4] .walk with cfg := { Config.standard with maxChunkLen := 3 } };
        s.cp + 8 ≤ s.cap.srcLen.toNat ∧ s.cfg.maxChunkLen < (srcWord s s.cp).toNat)
    ∧ (let s := sourced 15 [0, 0, 0, 4] .walk; s.cap.srcLen.toNat < s.cp + 12 + (srcWord s s.cp).toNat)
    ∧ (let s := sourced 16 [0, 0, 0, 4] .walk; s.cp + 12 + (srcWord s s.cp).toNat ≤ s.cap.srcLen.toNat) := by decide

/-- An IHDR with the bytes 8 to 12 given, 1 x 1. -/
def ihdrData (rest : List Byte) : List Byte := [0, 0, 0, 1, 0, 0, 0, 1] ++ rest

theorem witness_Ihdr :
    (headed 1 1 8 0).haveIhdr = true ∧ walking.haveIhdr = false ∧ (ihdrData [8, 0, 0, 0]).length ≠ 13
    ∧ (ihdrData [8, 0, 0, 0, 0]).length = 13 ∧ u32At (ihdrData [8, 0, 0, 0, 0]) 0 = 1
    ∧ u32At (0x80 :: (ihdrData [8, 0, 0, 0, 0]).drop 1) 0 = 0x80000001 ∧ walking.cfg.maxDim < (0x80000001 : Word).toNat
    ∧ (0, 8) ∈ legalPairs ∧ (5, 8) ∉ legalPairs ∧ byteAt (ihdrData [8, 0, 0, 0, 1]) 12 ≠ 0
    ∧ byteAt (ihdrData [8, 0, 0, 0, 0]) 12 = 0 := by decide

theorem witness_Plte :
    walking.haveIhdr = false ∧ (paletted 8).havePlte = true ∧ (headed 1 1 8 3).havePlte = false
    ∧ (List.replicate 768 (0 : Byte)).length = 3 * 256 ∧ 256 ≤ (headed 1 1 8 3).cfg.maxPalette
    ∧ (headed 1 1 8 3).cfg.maxPalette < (List.replicate 771 (0 : Byte)).length / 3
    ∧ grants (headed 1 1 8 3) 1 2 ∧ ¬grants { headed 1 1 8 3 with allocDenied := [(1, 2)] } 1 2 := by decide +kernel

theorem witness_Trns :
    (paletted 8).hdr.ctype = 3 ∧ (paletted 8).palN < [0, 0, (0 : Byte)].length ∧ [0, (0 : Byte)].length ≤ (paletted 8).palN
    ∧ (headed 1 1 8 0).hdr.ctype = 0 ∧ (headed 1 1 8 2).hdr.ctype = 2 ∧ (headed 1 1 8 4).hdr.ctype = 4
    ∧ (headed 1 1 8 6).hdr.ctype = 6 ∧ (headed 1 1 8 6).haveIhdr = true := by decide

theorem witness_Bkgd :
    ((paletted 8).hdr.ctype.toNat, 1) ∈ [(3, 1), (0, 2), (4, 2), (2, 6), (6, 6)]
    ∧ (let t := { paletted 8 with bkgd0 := 1, cfg := { Config.standard with bkgdOverrides := true } };
        t.cfg.bkgdOverrides = true ∧ legalFormat t.hdr.ctype t.hdr.depth = true ∧ t.bkgd0.toNat < t.palN
        ∧ t.pal[t.bkgd0.toNat]? = some ⟨0, 0xFF, 0, 0xFF⟩)
    ∧ (paletted 8).palN ≤ (2 : Half).toNat
    ∧ [(0, 1), (0, 2), (0, 4), (0, 8), (0, 16), (4, 8), (2, 16), (6, 8)].map
        (fun p : Byte × Byte => legalFormat p.1 p.2) = List.replicate 8 true := by decide

theorem witness_GammaDataUnknown :
    walking.haveIhdr = false ∧ (headed 1 1 8 0).haveIhdr = true ∧ [0, 0, (0 : Byte)].length ≠ 4
    ∧ grants (headed 1 1 8 0) 1 6 ∧ ¬grants { headed 1 1 8 0 with allocDenied := [(1, 6)] } 1 6 := by decide

theorem witness_Actl :
    animating.animated = true ∧ (headed 1 1 8 0).animated = false ∧ u32At [0, 0, 0, 0, 0, 0, 0, 1] 0 = 0
    ∧ 1 ≤ (u32At [0x7F, 0xFF, 0xFF, 0xFF, 0, 0, 0, 0] 0).toNat
    ∧ (u32At [0x7F, 0xFF, 0xFF, 0xFF, 0, 0, 0, 0] 0).toNat ≤ (headed 1 1 8 0).cfg.maxFrames
    ∧ (headed 1 1 8 0).cfg.maxFrames < (u32At [0x80, 0, 0, 0, 0, 0, 0, 0] 0).toNat
    ∧ grants (headed 1 1 8 0) 1 2 ∧ ¬grants { headed 1 1 8 0 with allocDenied := [(1, 2)] } 1 2 := by decide

theorem witness_Fctl :
    walking.animated = false ∧ animating.animated = true ∧ animating.haveIhdr = true ∧ fctlData.length = 26
    ∧ (u32At fctlData 0).toNat = animating.nextSeq ∧ (u32At fctlData 0).toNat ≠ { animating with nextSeq := 1 }.nextSeq
    ∧ { animating with fctlValid := true }.fctlValid = true ∧ animating.fctlValid = false
    ∧ animating.fctlSeen ≠ animating.numFrames.toNat ∧ { animating with fctlSeen := 2 }.fctlSeen = animating.numFrames.toNat
    ∧ ¬((u32At fctlData 4) = 0 ∨ animating.hdr.width.toNat < (u32At fctlData 12).toNat + (u32At fctlData 4).toNat)
    ∧ animating.hdr.width.toNat < 0 + (2 : Word).toNat ∧ { animating with haveIhdr := false }.haveIhdr = false := by decide

theorem witness_Fdat :
    { animating with fctlValid := true }.fctlValid = true ∧ animating.fctlValid = false ∧ [0, 0, (0 : Byte)].length < 4
    ∧ 4 ≤ [0, 0, 0, (0 : Byte)].length ∧ (u32At [0, 0, 0, 0] 0).toNat = animating.nextSeq
    ∧ (u32At [0, 0, 0, 1] 0).toNat ≠ animating.nextSeq
    ∧ grants animating 1 0 ∧ ¬grants { animating with allocDenied := [(1, 0)] } 1 0 := by decide

theorem witness_Iend :
    { animating with fctlValid := true }.haveIhdr = true ∧ (headed 1 1 8 0).fctlValid = false
    ∧ { headed 1 1 8 0 with acc := [0x78] }.acc ≠ [] ∧ { animating with acc := [0x78] }.animated = true ∧ walking.acc = [] := by
  decide

/-- A 1 x 1 grey frame is being decoded: `n` bytes of output, row `r`, and what follows. -/
def decoding (n r : Nat) (k : Resume) (p : Phase) : State :=
  { headed 1 1 8 0 with
    job := ⟨1, 1, 0, 0, 0, 0, 0, 1, r, [], k⟩, out := List.replicate n 0, phase := p }

theorem witness_DecodeFrame :
    coreTurn (decoding 1 0 .iend .inflated) ∧ (decoding 1 0 .iend .inflated).out.length < 1 * (1 + 1)
    ∧ 1 * (1 + 1) ≤ (decoding 2 0 .iend .inflated).out.length ∧ grants (decoding 2 0 .iend .inflated) 1 1
    ∧ ¬grants { decoding 2 0 .iend .inflated with allocDenied := [(1, 1)] } 1 1
    ∧ (decoding 2 1 .iend .rows).job.row = (decoding 2 1 .iend .rows).job.h.toNat
    ∧ (decoding 2 1 (.fctl ⟨1, 1, 0, 0, 1, 10, 0, 0⟩) .rows).job.resume = .fctl ⟨1, 1, 0, 0, 1, 10, 0, 0⟩
    ∧ (decoding 2 1 .iend .rows).haveIhdr = true ∧ (decoding 2 1 .iend .rows).animated = false
    ∧ { decoding 2 1 .iend .rows with animated := true }.animated = true := by decide

theorem witness_EndOfWalk :
    coreTurn walking ∧ walking.cap.srcLen.toNat ≤ walking.cp ∧ { sourced 9 [] .walk with seenIend := true }.seenIend = true
    ∧ walking.framesDone ≠ (if walking.animated then walking.numFrames.toNat else 1)
    ∧ { walking with framesDone := 1 }.framesDone = (if walking.animated then walking.numFrames.toNat else 1)
    ∧ { animating with framesDone := 2 }.framesDone = (if animating.animated then animating.numFrames.toNat else 1) := by decide

theorem witness_StaticTrees :
    grants walking 635 1 ∧ ¬grants { walking with allocDenied := [(575, 1)] } 575 1
    ∧ grants { walking with allocDenied := [(576, 1)] } 575 1
    ∧ ¬grants (requested { walking with allocDenied := [(576, 1)] } 575) 60 1 := by decide

/-- CLLEN of R209's example. -/
def exampleCl : List Nat := [4, 0, 0, 0, 0, 0, 0, 0, 0, 0, 0, 0, 0, 0, 0, 0, 1, 2, 3]

theorem witness_DynamicHeader :
    [1, 2, 3, (4 : BitVec 3)].length = (0 : BitVec 4).toNat + 4 ∧ exampleCl.length = 19
    ∧ (∀ k : Fin 4, exampleCl[perm.getD k 0]? = some ([1, 2, 3, (4 : BitVec 3)].getD k 0).toNat)
    ∧ (∀ k : Fin 19, 4 ≤ k.val → exampleCl[perm.getD k 0]? = some 0)
    ∧ grants walking (buildTree .cl exampleCl).2 1
    ∧ ¬grants { walking with allocDenied := [(1, 1)] } (buildTree .cl exampleCl).2 1 := by decide +kernel

theorem witness_CodeLengthSymbols :
    (let s := lengthsAt 247 [0x7F, 0x00];
      s.ib < 8 ∧ s.li < s.hlit + s.hdist ∧ s.hlit + s.hdist ≤ s.lens.length ∧ payHas s 7
      ∧ s.hlit + s.hdist < s.li + (11 + payBits s 7))
    ∧ (let s := lengthsAt 247 [0]; payHas s 7 ∧ s.li + (11 + payBits s 7) ≤ s.hlit + s.hdist)
    ∧ (let s := { lengthsAt 257 [] with hlit := 288, hdist := 32 };
        s.hlit + s.hdist ≤ s.lens.length ∧ s.li < s.hlit + s.hdist ∧ 1 ≤ s.li ∧ ¬payHas s 2)
    ∧ (lengthsAt 0 []).li = 0 := by decide +kernel

theorem witness_DynamicTrees :
    (let s := lengthsAt 258 [];
      coreTurn s ∧ s.phase = .codeLens ∧ s.hlit + s.hdist ≤ s.li ∧ grants s (buildTree .litlen (s.lens.take s.hlit)).2 1
      ∧ grants (requested s 1) (buildTree .dist ((s.lens.drop s.hlit).take s.hdist)).2 1
      ∧ (buildTree .litlen (s.lens.take s.hlit)).2 = 1)
    ∧ ¬grants { lengthsAt 258 [] with allocDenied := [(1, 1)] } 1 1
    ∧ ¬grants (requested { lengthsAt 258 [] with allocDenied := [(2, 1)] } 1) 1 1 := by decide +kernel

/-- A literal/length tree with the codes 0 for the end of a block and 10 for the literal 65; 11 leads nowhere. -/
def smallTree : TreeReg := ⟨.node (.leaf ⟨256, 256, 0, false⟩) (.node (.leaf ⟨65, 65, 0, false⟩) .absent), false, false⟩

theorem witness_SymbolDecode :
    (let s := { payload [0x01] with phase := .litLen, tLit := smallTree };
      coreTurn s ∧ s.ib < 8 ∧ streamLevel s = some (.pay, .sym .litlen smallTree) ∧ payHas s 2
      ∧ follow smallTree.root (nextBits s 2) = .leaf ⟨65, 65, 0, false⟩ ∧ standsFor .litlen 65 (.lit 65))
    ∧ (let s := { payload [0x03] with phase := .litLen, tLit := smallTree };
        payHas s (1 + 1) ∧ follow smallTree.root (nextBits s 1) = .node (.leaf ⟨65, 65, 0, false⟩) .absent
        ∧ follow smallTree.root (nextBits s (1 + 1)) = .absent)
    ∧ (let s := { payload [0x80] with phase := .litLen, tLit := smallTree, ib := 7 };
        payPos s + 1 = 8 * s.acc.length ∧ follow smallTree.root (nextBits s 1) = .node (.leaf ⟨65, 65, 0, false⟩) .absent)
    ∧ streamLevel { payload [] with phase := .dist } = some (.pay, .sym .dist noTree) ∧ noTree.empty = true := by
  unfold standsFor; decide +kernel

theorem witness_CanonicalCodes :
    (∀ l ∈ [2, 1, 3, 3], l ≤ 15) ∧ kraft [2, 1, 3, 3] ∧ kraft (List.replicate 30 5)
    ∧ assignCodes [2, 1, 3, 3] = [2, 0, 6, 7] := by unfold kraft; decide +kernel

theorem witness_ZlibHeader :
    (let s := { payload [0x78] with phase := .zhdr };
      coreTurn s ∧ s.ip = 0 ∧ s.ib = 0 ∧ s.acc.length < s.cfg.zlibHdrSkip)
    ∧ (payload [0x78, 0x01]).cfg.zlibHdrSkip ≤ (payload [0x78, 0x01]).acc.length := by decide

theorem witness_BlockHeader :
    (let s := { payload [0x80, 0x02] with phase := .block, ib := 7 };
      coreTurn s ∧ s.ib < 8 ∧ payHas s 3 ∧ payBits (payMoved s 1) 2 = 2)
    ∧ ¬payHas { payload [0xFF] with phase := .block, ib := 6 } 3
    ∧ [[0x01], [0x03], [0x05], [0x07]].map (fun b : List Byte => payBits (payMoved (payload b) 1) 2) = [0, 1, 2, 3] := by
  decide

theorem witness_StoredBlock :
    (let s := { payload [0x01, 0x02, 0x00, 0xFD, 0xFF, 0x00, 0x7F] with phase := .storedBody, ib := 3 };
      coreTurn s ∧ s.ib < 8 ∧ (payPos s + 7) / 8 = 1 ∧ 1 + 4 ≤ s.acc.length)
    ∧ (payload [1, 2, 3]).acc.length < 0 + 4
    ∧ (let s := payload [0x00, 0x7F];
        s.ib = 0 ∧ s.ip ≤ s.acc.length ∧ grants s 1 (2 : Half).toNat ∧ s.ip + (2 : Half).toNat ≤ s.acc.length
        ∧ s.acc.length < s.ip + (3 : Half).toNat ∧ ¬grants { s with allocDenied := [(1, 2)] } 1 (2 : Half).toNat) := by decide

theorem witness_LiteralAndEndOfBlock : grants walking 1 1 ∧ ¬grants { walking with allocDenied := [(1, 1)] } 1 1 := by decide

theorem witness_MatchSymbols :
    (payload [0x1F]).ib < 8 ∧ payHas (payload [0x1F]) 5 ∧ payBits (payload [0x1F]) 5 = 31 ∧ ¬payHas (payload [0x1F]) 13
    ∧ ¬payHas { payload [0x1F] with ib := 4 } 5 := by decide

theorem witness_MatchCopy :
    { walking with out := [0x61] }.out.length < 2 ∧ 1 ≤ { walking with out := [0x61] }.out.length
    ∧ grants walking 1 258 ∧ ¬grants { walking with allocDenied := [(1, 258)] } 1 258 := by decide

theorem witness_Filters :
    (let s := rowAt 1 2 1 2 [0, 4, 5, 4, 0xFF, 1];
      s.haveIhdr = true ∧ 1 ≤ s.hdr.bytespp ∧ (s.job.row + 1) * (1 + s.job.bpl) ≤ s.out.length ∧ 1 < s.job.bpl
      ∧ left s s.out 1 = 0xFF ∧ up s s.out 1 = 5 ∧ upLeft s s.out 1 = 4) := by decide

theorem witness_FilterRoundTrip :
    (let s := rowAt 0 2 1 2 [1, 0x10, 0x20];
      let orig : List Byte := [1, 0x10, 0x30];
      s.haveIhdr = true ∧ 1 ≤ s.hdr.bytespp ∧ (s.job.row + 1) * (1 + s.job.bpl) ≤ s.out.length ∧ orig.length = s.out.length
      ∧ s.out[0]? = orig[0]? ∧ ∀ x < s.job.bpl, byteAt s.out (rowBase s + x) = byteAt orig (rowBase s + x)
        - BitVec.ofNat 8 (left s orig x)) := by decide

theorem witness_Formats :
    rowThere (row 8 [0x80]) 1 ∧ rowThere (row 9 [0, 0]) 1 ∧ ¬rowThere (row 9 [0]) 1 ∧ rowThere (row 1 [0, 0, 0, 0, 0, 0, 0, 0]) 64
    ∧ (indexed 2 [0x40]).palN ≤ (indexed 2 [0x40]).pal.length ∧ rowThere (indexed 2 [0x40]) 1
    ∧ (∀ x < 2, sample (indexed 2 [0x40]) 1 x < (indexed 2 [0x40]).palN)
    ∧ (∃ x < 2, (indexed 2 [0x20]).palN ≤ sample (indexed 2 [0x20]) 2 x) := by unfold rowThere; decide +kernel

theorem witness_CanvasPixels :
    (let s := painting [0, 0] 0 0 [1, 2, 3, 4];
      Memory.wf s.mem = true ∧ s.cfg.canvasByteOrder = .little
      ∧ s.cap.canvasBase.toNat + 1 * s.cap.canvasStride.toNat + 4 * 1 = 0x1014) := by decide

/-- The frame of `painting`. -/
def paintedFrame (pix : List Pixel) (dispose blend : Byte) : Frame := ⟨2, 1, 1, 1, 4, 8, 30000, dispose, blend, pix⟩

/-- For SourceBlend, OverBlend, Disposal and SnapshotAndRestore. -/
theorem witness_Paints (a b : Pixel) (d e : Byte) : Paints (painting [a, b] d e [1, 2, 3, 4]) (paintedFrame [a, b] d e) :=
  ⟨rfl, rfl, (by decide : 0 + (1 : Word).toNat + (2 : Word).toNat ≤ (4 : Word).toNat),
    (by decide : 0 + (1 : Word).toNat + (1 : Word).toNat ≤ (4 : Word).toNat),
    (by decide : 4 * (4 : Word).toNat ≤ (16 : Word).toNat),
    (by decide : Memory.wf (Memory.writeList [] 0x1014 [1, 2, 3, 4]) = true)⟩

theorem witness_SnapshotAndRestore :
    (let s := { painting [0, 0] 2 0 [] with phase := .loop };
      coreTurn s ∧ s.animated = true ∧ s.play < s.plays ∧ s.fidx < s.numFrames.toNat ∧ effective s (paintedFrame [0, 0] 2 0) = 2
      ∧ grants s 1 (2 * 1) ∧ ¬grants { s with allocDenied := [(1, 2)] } 1 (2 * 1))
    ∧ { painting [0, 0] 2 0 [] with snap := [1, 2] }.snap.length = (2 : Word).toNat * (1 : Word).toNat := by decide

theorem witness_Placement :
    (let s := { headed 100 50 8 0 with
        cap := { State.reset.cap with canvasW := 800, canvasH := 600, x := -100, y := -50 }, phase := .place };
      coreTurn s ∧ s.haveIhdr = true
      ∧ originOf s.cfg.negPlacement s.cap.x s.cap.canvasW s.hdr.width = 700
      ∧ originOf s.cfg.negPlacement s.cap.y s.cap.canvasH s.hdr.height = 550
      ∧ (700 : Int) + s.hdr.width.toNat ≤ s.cap.canvasW.toNat
      ∧ originOf .farEdge (-100) s.cap.canvasW s.hdr.width = 600 ∧ originOf .nearEdge (-801) s.cap.canvasW s.hdr.width = -1
      ∧ (s.cap.canvasW.toNat : Int) < originOf .nearEdge (-99) s.cap.canvasW s.hdr.width + s.hdr.width.toNat) := by decide

theorem witness_AnimationLoop :
    (let s := { painting [0, 0] 1 0 [] with phase := .loop };
      coreTurn s ∧ s.play < s.plays ∧ s.fidx < s.numFrames.toNat ∧ s.frames[s.fidx]? = some (paintedFrame [0, 0] 1 0)
      ∧ effective s (paintedFrame [0, 0] 1 0) = 1 ∧ s.plays ≤ { s with play := 1 }.play
      ∧ s.numFrames.toNat ≤ { s with fidx := 3 }.fidx ∧ effective { s with fidx := 2 } (paintedFrame [0, 0] 1 0) = 0
      ∧ effective s (paintedFrame [0, 0] 2 0) = 2 ∧ s.animated = true) := by decide

theorem witness_HoldAndComplete :
    (let s := { painting [0, 0] 0 0 [] with phase := .hold };
      coreTurn s ∧ s.animated = true ∧ s.frames[s.fidx]? = some (paintedFrame [0, 0] 0 0) ∧ 3 < s.cap.canvasW.toNat
      ∧ 3 < s.cap.canvasH.toNat) := by decide

theorem witness_TrapEntry :
    (∀ k, Config.errCode walking.cfg k = Config.errCode Config.standard k) ∧ (ErrKind.unsupportedFeature, 5) ∈ codeTable
    ∧ walking.hostQ = [] := ⟨fun _ => rfl, by decide, rfl⟩

/-- R45: a trap in the rows of a frame releases its pixel buffer and the header, and keeps the registers of the host. -/
theorem test_trap_releases :
    (let s := { decoding 2 0 .iend .pixels with job := { (decoding 2 0 .iend .pixels).job with pix := [1] }, cfgX := 7 };
      let t := trap .invalidLength s;
      (s.job.pix, s.haveIhdr, s.out) = ([1], true, [0, 0]) ∧ (t.job.pix, t.haveIhdr, t.out, t.cfgX) = ([], false, [], 7)) := by
  decide

/-- R40: nothing of an earlier frame's code lengths survives the start of a frame's decode. -/
theorem test_decode_clears_lengths :
    after (fun t => (t.cllen, t.lens))
      (exec (.iend [] 0) { headed 1 1 8 0 with acc := [0x78], cllen := List.replicate 19 5, lens := List.replicate 320 9 })
      = some (List.replicate 19 0, List.replicate 320 0) := rfl

/-- R46: NUM_PLAYS is not read while ANIMATED = 0. -/
theorem test_guarded_num_plays :
    step { walking with phase := .animate, numPlays := 3 } = .fault .animationNotValid := rfl

/-- The host is about to write CTRL: a 2 x 2 canvas at 0x200, four source bytes just before it. -/
def launching (v : Word) : State :=
  { State.reset with
    hostQ := [.writeReg .ctrl v], srcBase := 0x1FC, srcLen := 4, canvasBase := 0x200, canvasStride := 8, canvasW := 2
    canvasH := 2 }

theorem witness_Launch :
    (let s := launching 1;
      s.hostQ = [.writeReg .ctrl 1] ∧ s.runState ≠ .busy ∧ (1 : Word).getLsbD 0 = true ∧ s.canvasBase.toNat % 4 = 0
      ∧ s.canvasStride.toNat % 4 = 0 ∧ 4 * s.canvasW.toNat ≤ s.canvasStride.toNat)
    ∧ (2 : Word).getLsbD 0 = false ∧ { launching 1 with runState := .busy }.runState = .busy ∧ ¬rangesOverlap (launching 1)
    ∧ ¬rangesOverlap { launching 1 with srcLen := 0x100, canvasH := 0 } := by
  refine ⟨by decide, by decide, by decide, ?_, ?_⟩
  · rintro ⟨a, h⟩
    change 0x1FC ≤ a ∧ a < 0x1FC + 4 ∧ 0x200 ≤ a ∧ a < 0x200 + 2 * 8 at h
    omega
  · rintro ⟨a, h⟩
    change 0x1FC ≤ a ∧ a < 0x1FC + 0x100 ∧ 0x200 ≤ a ∧ a < 0x200 + 0 * 8 at h
    omega

/-- A launch counts its requests anew, begins an empty trace, keeps the parameters and the rest of the script (R386, R13). -/
theorem test_launch_environment :
    after (fun t => (t.allocN, t.trace, t.hostQ, t.cfg.maxChunkLen, t.allocDenied))
      (step { launching 1 with
        hostQ := [.writeReg .ctrl 1, .pass], allocN := 9, trace := [.log 3], cfg := smallConfig, allocDenied := [(1, 2)] })
      = some (0, [], [.pass], 1, [(1, 2)]) := rfl

theorem witness_RegisterAccess :
    { State.reset with hostQ := [.readReg .cfgX] }.runState ≠ .busy
    ∧ { State.reset with hostQ := [.writeReg .errcode 3] }.hostQ = [.writeReg .errcode 3]
    ∧ { walking with hostQ := [.readReg .status] }.hostQ = [.readReg .status] ∧ walking.runState = .busy
    ∧ (HostReg.cfgX, (0 : Word)) ∈ configTable State.reset ∧ (HostReg.cfgBg, (0 : Word)) ∈ configTable State.reset := by decide

/-- R428, V5: a write of a read-only register while BUSY is refused; R23, V6: one of CTRL is ignored. -/
theorem test_write_while_busy :
    step { walking with hostQ := [.writeReg .errcode 3] } = .refused .hostWriteWhileBusy
    ∧ step { walking with hostQ := [.writeReg .ctrl 1] } = .next walking := ⟨rfl, rfl⟩

theorem witness_HostPort :
    { launching 1 with canvasStride := 7 }.canvasStride.toNat % 4 ≠ 0
    ∧ rangesOverlap { launching 1 with srcLen := 5 }
    ∧ { walking with hostQ := [.writeReg .framesOut 1] }.hostQ = [.writeReg .framesOut 1]
    ∧ HostReg.cfgX ∈ (configTable walking).map Prod.fst ∧ walking.runState = .busy
    ∧ (let s := { sourced 4 [] .walk with hostQ := [.store 0x103 7] };
        s.cap.srcBase.toNat ≤ 0x103 ∧ 0x103 < s.cap.srcBase.toNat + s.cap.srcLen.toNat
        ∧ ¬(s.cap.srcBase.toNat ≤ 0x104 ∧ 0x104 < s.cap.srcBase.toNat + s.cap.srcLen.toNat)
        ∧ s.cap.canvasH.toNat * s.cap.canvasStride.toNat = 0
        ∧ s.phase ∉ [Phase.animate, .loop, .composite, .hold, .dispose, .nextFrame, .complete])
    ∧ Memory.wf (painting [0, 0] 0 0 [1, 2, 3, 4]).mem = true ∧ outsideImage State.reset 0 := by
  refine ⟨by decide, ⟨0x200, by decide⟩, by decide, by decide, by decide, by decide, by decide, fun x y _ h => ?_⟩
  exact absurd h (Nat.not_lt_zero x)

theorem witness_ResetValues : HostReg.framesOut ∈ [HostReg.ctrl, .status, .errcode, .framesOut] := by decide

theorem witness_CoreKeepsConfiguration :
    coreTurn (sourced 0 [] .signature) ∧ after (·.runState) (step (sourced 0 [] .signature)) = some .error
    ∧ after (·.runState) (step { walking with phase := .complete }) = some .done := by decide

/-- For ElementFrame and FlagWriters. -/
theorem witness_elements :
    after (·.haveIhdr) (exec (.ihdr (ihdrData [8, 0, 0, 0, 0]) 0) walking) = some true
    ∧ after (·.painted) (exec .dBackground (painting [0, 0] 1 0 [])) = some true
    ∧ after (·.runState) (exec (.ihdr [] 0) walking) = some .error := by decide

/-- A tree whose one leaf is no symbol of an alphabet. -/
def foreignTree : TreeReg := ⟨.node (.leaf ⟨288, 0, 0, false⟩) .absent, false, false⟩

theorem foreign_symbol (i : Instr) : ¬standsFor .litlen 288 i := by
  rintro (h | ⟨-, h, -⟩)
  · have : ∀ e ∈ symbolTable, (e.1, e.2.1) ≠ (.litlen, 288) := by decide +kernel
    exact this _ h rfl
  · omega

theorem witness_IllegalElementsAndStops :
    ({ payload [0] with ib := 1 }.ib ≠ 0 ∧ grants { payload [0] with ib := 1 } 1 (2 : Half).toNat
      ∧ (lengthsAt 258 []).hlit + (lengthsAt 258 []).hdist ≤ (lengthsAt 258 []).li)
    ∧ (let s := { payload [0] with phase := .litLen, tLit := foreignTree };
        coreTurn s ∧ s.ib < 8 ∧ streamLevel s = some (.pay, .sym .litlen foreignTree) ∧ foreignTree.empty = false
        ∧ foreignTree.malformed = false ∧ payHas s 1 ∧ follow foreignTree.root (nextBits s 1) = .leaf ⟨288, 0, 0, false⟩)
    ∧ (walking.haveIhdr = false ∧ { walking with fctlValid := true }.fctlValid = true ∧ (payload [0]).acc ≠ []
      ∧ (payload [0]).animated = false ∧ coreTurn { walking with phase := .place }
      ∧ walking.job.h.toNat ≤ walking.job.row)
    ∧ ({ walking with haveIhdr := true, hdr := { walking.hdr with ctype := 5 } }.hdr.ctype.toNat
        ∉ channelTable.map Prod.fst)
    ∧ (coreTurn { walking with phase := .loop } ∧ walking.animated = false)
    ∧ ((rowAt 0 2 1 2 [0, 1]).haveIhdr = true ∧ (rowAt 0 2 1 2 [0, 1]).out.length < (0 + 1) * (1 + 2)
      ∧ ¬rowThere (row 3 [0]) 4 ∧ rowThere (row 2 [0]) 4)
    ∧ (coreTurn (rowAt 1 2 1 2 [0, 1, 2]) ∧ (rowAt 1 2 1 2 [0, 1, 2]).job.row < 2
      ∧ (rowAt 1 2 1 2 [0, 1, 2]).out.length ≤ 1 * (1 + 2))
    ∧ (walking.frames[if walking.animated then walking.fidx else 0]? = none
      ∧ (let s := { painting [0, 0] 0 0 [] with phase := .loop, fidx := 3, numFrames := 4 };
          coreTurn s ∧ s.frames[if s.animated then s.fidx else 0]? = none ∧ s.animated = true ∧ s.play < s.plays
          ∧ s.fidx < s.numFrames.toNat)) := by
  unfold rowThere; decide +kernel

/-- For the frame clauses of IllegalElementsAndStops. -/
theorem witness_FrameStops :
    (let s := { painting [0] 2 0 [] with phase := .loop };
      s.frames[if s.animated then s.fidx else 0]? = some (paintedFrame [0] 2 0)
      ∧ (paintedFrame [0] 2 0).pix.length ≠ (2 : Word).toNat * (1 : Word).toNat ∧ snapshotDue s (paintedFrame [0] 2 0))
    ∧ (let s := { painting [0, 0] 2 0 [] with ox := 2 };
        s.frames[if s.animated then s.fidx else 0]? = some (paintedFrame [0, 0] 2 0)
        ∧ (paintedFrame [0, 0] 2 0).pix.length = (2 : Word).toNat * (1 : Word).toNat
        ∧ s.cap.canvasW.toNat < s.ox + (1 : Word).toNat + (2 : Word).toNat)
    ∧ (let s := { painting [0, 0] 2 0 [] with ox := 1, oy := 2 };
        s.ox + (1 : Word).toNat + (2 : Word).toNat ≤ s.cap.canvasW.toNat
        ∧ s.oy + (1 : Word).toNat + (1 : Word).toNat ≤ s.cap.canvasH.toNat
        ∧ s.snap.length ≠ (2 : Word).toNat * (1 : Word).toNat) := by
  unfold snapshotDue; decide +kernel

theorem witness_StepRunsElement :
    { walking with hostQ := [.pass] }.hostQ = [.pass] ∧ State.reset.runState ≠ .busy
    ∧ streamLevel { payload [0x78, 0x01] with phase := .zhdr } = some (.pay, .zhdr 2)
    ∧ reads (.zhdr 2) [0x78, 0x01] = some (.zhdr [0x78, 0x01], 2, 0) ∧ rejects (.zhdr 2) [0x78] = some .eof
    ∧ (decoding 2 0 .iend .rows).out[0 * (1 + 1)]? = some 0 ∧ (decoding 2 0 .iend .rows).job.row < 1
    ∧ (decoding 2 0 .iend .pixels).haveIhdr = true ∧ { walking with phase := .copy }.phase = .copy
    ∧ (painting [0, 0] 0 0 []).frames[1]? = some (paintedFrame [0, 0] 0 0) := by decide

theorem witness_DecodeEncodeBytes :
    Config.legal Config.standard = true ∧ (Instr.ihdr [1, 2] 3).wf Config.standard = true
    ∧ (Instr.ihdr [1, 2] 3).byteLevel Config.standard = some (.chunk 2147483647 0x66644154)
    ∧ encodeBytes 0x66644154 (.ihdr [1, 2] 3) = some [0, 0, 0, 2, 0x49, 0x48, 0x44, 0x52, 1, 2, 0, 0, 0, 3]
    ∧ encodeBytes 0x66644154 (.pixfmtIllegal 5 8) = some [8, 5]
    ∧ (Instr.pixfmtIllegal 5 8).byteLevel Config.standard = some .pixFmt := by decide

theorem witness_DecodeEncodeBits :
    (Instr.storedBody 2 0xFFFD).wf Config.standard = true ∧ (Instr.storedBody 2 0xFFFD).bitLevel = some .stored
    ∧ (Cur.align ⟨[0x01, 0x02, 0x00, 0xFD, 0xFF], 0, 3⟩).bits.take 32 = natBits 16 2 ++ natBits 16 0xFFFD
    ∧ encodeBits [] (.blkDynamic true) = some [true, false, true] ∧ (Cur.bits ⟨[0b10100000], 0, 5⟩).take 3 = [true, false, true] := by
  decide

/-- The first symbol with a code and the last: code 10 of symbol 0 and code 111 of symbol 3, at bit 6 of a byte (R108). -/
theorem witness_DecodeEncodeSymbols :
    (standsFor .dist 0 .dist0 ∧ standsFor .dist 3 .dist3 ∧ standsFor .litlen 255 (.lit 255) ∧ standsFor .litlen 256 .eob
      ∧ standsFor .litlen 287 .len287 ∧ standsFor .cl 18 .cl18)
    ∧ ((∀ l ∈ [2, 1, 3, 3], l ≤ 15) ∧ kraft [2, 1, 3, 3] ∧ [2, 1, 3, 3][3]? = some 3
      ∧ (assignCodes [2, 1, 3, 3])[3]? = some 7 ∧ (assignCodes [2, 1, 3, 3])[0]? = some 2)
    ∧ (Cur.bits ⟨[0xC0, 0x01], 0, 6⟩).take 3 = codeBits 3 7 ∧ (Cur.bits ⟨[0x40, 0x00], 0, 6⟩).take 2 = codeBits 2 2 := by
  unfold standsFor kraft
  exact ⟨by decide +kernel, by decide +kernel, by decide +kernel⟩

/-- For CoreWritesOnlyTheImage, StepKeepsInv and NoFault: a still 1 x 1 image is about to be painted. -/
def still : State :=
  { headed 1 1 8 0 with
    cap := ⟨0x100, 4, 0x200, 4, 1, 1, 0, 0⟩, framesDone := 1, framesOut := 1
    frames := [⟨1, 1, 0, 0, 1, 1, 0, 0, 0, [0xFF7F7F7F]⟩], seenIend := true, phase := .composite }

theorem witness_Inv : still.Inv ∧ coreTurn still ∧ after (fun t => canvasRead t 0 0) (step still) = some 0xFF7F7F7F := by
  have ok : FrameOk still.hdr ⟨1, 1, 0, 0, 1, 1, 0, 0, 0, [0xFF7F7F7F]⟩ :=
    ⟨by unfold inImage; decide, by unfold legalOps; decide, rfl⟩
  refine ⟨⟨by decide, rfl, by decide +kernel, by decide, by decide, fun _ => ⟨?_, ?_⟩⟩, by decide, by decide⟩
  · exact {
      premises := by decide
      cursor := by decide
      noError := rfl
      animFlag := rfl
      header := fun _ => ⟨by decide, by decide, by decide, by decide, rfl⟩
      headerFirst := fun h => absurd h (by decide)
      pending := fun h => absurd h (by decide)
      table := ⟨rfl, rfl⟩
      frames := fun f hf => by rw [List.mem_singleton.1 hf]; exact ok
      announced := fun h => absurd h (by decide)
      still := fun _ => ⟨rfl, rfl⟩
      trees := by decide }
  · exact ⟨⟨rfl, rfl⟩, by decide, by decide, fun h => absurd h (by decide)⟩

end Sys2Proof.Tests
end

section
/-! What a step of the core never changes (R24, R22), and which element writes which flag (R29): statements
CoreKeepsConfiguration and FlagWriters. -/

namespace Sys2Proof.Machine

/-! ## What a step of the core may do, completion apart -/

/-- A change that keeps the configuration and STATE, or a trap after one that kept memory, PAINTED, ANIM and the trace. -/
inductive CoreEff (s : State) : State → Prop where
  | keeps {t : State} (conf : Conf s t) (runState : t.runState = s.runState) : CoreEff s t
  | traps (e : ErrKind) {u : State} (conf : Conf s u)
      (kept : (u.mem, u.painted, u.anim, u.trace) = (s.mem, s.painted, s.anim, s.trace)) : CoreEff s (trap e u)

/-- A step of the core after a change that shows in none of what `CoreEff` speaks of. -/
theorem CoreEff.after {s t u : State} (g : CoreEff t u) (hc : Conf s t) (hr : t.runState = s.runState)
    (hk : (t.mem, t.painted, t.anim, t.trace) = (s.mem, s.painted, s.anim, s.trace)) : CoreEff s u := by
  cases g with
  | keeps c r => exact .keeps (hc.trans c) (r.trans hr)
  | traps e c k => exact .traps e (hc.trans c) (k.trans hk)

theorem CoreEff.all {s t : State} {o : Out} (hc : Conf s t) (hr : t.runState = s.runState)
    (hk : (t.mem, t.painted, t.anim, t.trace) = (s.mem, s.painted, s.anim, s.trace)) (g : All (CoreEff t) o) :
    All (CoreEff s) o :=
  All.mono (fun _ h => h.after hc hr hk) g

theorem coreEff_next {s t : State} (hc : Conf s t := by exact {}) (hr : t.runState = s.runState := by rfl) :
    All (CoreEff s) (.next t) := .keeps hc hr

theorem coreEff_trap {s u : State} {e : ErrKind} (hc : Conf s u := by exact {})
    (hk : (u.mem, u.painted, u.anim, u.trace) = (s.mem, s.painted, s.anim, s.trace) := by rfl) :
    All (CoreEff s) (.next (trap e u)) := .traps e hc hk

/-- Whatever an element may change, a step of the core may. -/
theorem Eff.core {p : Perm} {s t : State} (h : Eff p s t) : CoreEff s t := by
  rcases h with h | ⟨e, u, rfl, h, hk⟩
  · exact .keeps h.conf (Prod.mk.inj h.ends).1
  · have he := h.ends
    simp only [Prod.mk.injEq] at hk he
    obtain ⟨hm, hp, ha⟩ := hk
    exact .traps e h.conf (by rw [hm, hp, ha, he.2.1])

theorem coreEff_rejected (r : Reject) (s : State) : All (CoreEff s) (rejected r s) := by
  rcases rejected_cases r s with ⟨e, -, he⟩ | ⟨-, he⟩ <;> rw [he]
  · exact coreEff_trap
  · trivial

theorem coreEff_allocs {s : State} {count size : Nat} {k : State → Out}
    (hk : All (CoreEff s) (k { s with allocN := s.allocN + count })) : All (CoreEff s) (allocs count size s k) := by
  unfold allocs
  exact ite_all coreEff_trap hk

theorem coreEff_buildTrees (s : State) : All (CoreEff s) (buildTrees s) := by
  unfold buildTrees withTree
  refine coreEff_allocs (CoreEff.all ?_ ?_ ?_ (coreEff_allocs ?_))
  · exact {}
  · rfl
  · rfl
  · exact coreEff_next

theorem coreEff_afterInflate (s : State) : All (CoreEff s) (afterInflate s) :=
  ite_all coreEff_trap (coreEff_allocs coreEff_next)

theorem coreEff_afterFinish (k : Resume) (s : State) : All (CoreEff s) (afterFinish k s) := by
  cases k with
  | iend => exact coreEff_next
  | fctl f =>
    refine CoreEff.all ?_ ?_ ?_ (All.mono (fun _ => Eff.core) (eff_latch (p := { fctl := true }) rfl))
    · exact {}
    · rfl
    · rfl

theorem coreEff_storeFrame (s : State) : All (CoreEff s) (storeFrame s) := by
  refine ite_all trivial ?_
  refine CoreEff.all ?_ ?_ ?_ (coreEff_afterFinish _ _)
  · exact {}
  · rfl
  · rfl

theorem coreEff_place (s : State) : All (CoreEff s) (place s) :=
  ite_all trivial (ite_all coreEff_trap coreEff_next)

theorem coreEff_takeSnapshot (s : State) : All (CoreEff s) (takeSnapshot s) := by
  unfold takeSnapshot withFrame
  split
  · trivial
  · exact ite_all trivial (ite_all trivial (coreEff_allocs coreEff_next))

theorem coreEff_loopTest (s : State) : All (CoreEff s) (loopTest s) := by
  unfold loopTest
  refine ite_all trivial (ite_all coreEff_next (ite_all coreEff_next ?_))
  split
  · trivial
  · exact ite_all (coreEff_takeSnapshot s) coreEff_next

theorem coreEff_hold (s : State) : All (CoreEff s) (hold s) := by
  unfold hold
  split
  · trivial
  · exact coreEff_next

theorem coreEff_runAct {a : Act} (ha : a ≠ .complete) (s : State) : All (CoreEff s) (runAct a s) := by
  cases a with
  | endOfWalk => exact ite_all coreEff_trap (ite_all coreEff_trap coreEff_next)
  | buildTrees => exact coreEff_buildTrees s
  | afterInflate => exact coreEff_afterInflate s
  | storeFrame => exact coreEff_storeFrame s
  | place => exact coreEff_place s
  | animate => exact ite_all trivial coreEff_next
  | loop => exact coreEff_loopTest s
  | hold => exact coreEff_hold s
  | nextFrame => exact coreEff_next
  | complete => exact absurd rfl ha

/-! ## One step of the core, by what is fetched -/

theorem coreStep_element {s t : State} {i : Instr} (hb : s.runState = .busy) (hf : fetch s = .element i t) :
    coreStep s = exec i t := by simp only [coreStep, hb, hf]

theorem coreStep_act {s : State} {a : Act} (hb : s.runState = .busy) (hf : fetch s = .act a) :
    coreStep s = runAct a s := by simp only [coreStep, hb, hf]

theorem coreStep_reject {s : State} {r : Reject} (hb : s.runState = .busy) (hf : fetch s = .reject r) :
    coreStep s = rejected r s := by simp only [coreStep, hb, hf]

/-- Nothing executes unless a launch is running (R422). -/
theorem coreStep_resting {s : State} (hb : s.runState ≠ .busy) : coreStep s = .next s := by
  unfold coreStep
  split
  · exact absurd ‹_› hb
  all_goals rfl

/-- A step of the core is completion, or what `CoreEff` says. -/
theorem coreStep_cases {s t : State} (hb : s.runState = .busy) (hs : coreStep s = .next t) :
    (s.phase = .complete ∧ complete s = .next t) ∨ CoreEff s t := by
  have next {o : Out} (ho : coreStep s = o) (g : All (CoreEff s) o) : CoreEff s t := by
    rw [← ho, hs] at g
    exact g
  rcases fetch_cases s with ⟨i, cp, ip, ib, hf⟩ | ⟨a, hf, ha⟩ | ⟨r, hf⟩ | ⟨f, hf⟩ | hf
  · refine .inr (next (coreStep_element hb hf) ?_)
    refine CoreEff.all ?_ ?_ ?_ (All.mono (fun _ => Eff.core) (eff_exec i _))
    · exact {}
    · rfl
    · rfl
  · by_cases hc : a = .complete
    · subst hc
      exact .inl ⟨ha rfl, (coreStep_act hb hf).symm.trans hs⟩
    · exact .inr (next (coreStep_act hb hf) (coreEff_runAct hc s))
  · exact .inr (next (coreStep_reject hb hf) (coreEff_rejected r s))
  · exact .inr (next (o := .fault f) (by simp only [coreStep, hb, hf]) trivial)
  · exact .inr (next (o := .next s) (by simp only [coreStep, hb, hf]) coreEff_next)

theorem Conf.sameConfiguration {s t : State} (h : Conf s t) : SameConfiguration s t := by
  obtain ⟨hcfg, hcap, hregs, henv⟩ := h
  simp only [Prod.mk.injEq] at hregs henv
  obtain ⟨r1, r2, r3, r4, r5, r6, r7, r8, r9⟩ := hregs
  exact ⟨by simp only [configTable, r1, r2, r3, r4, r5, r6, r7, r8, r9], hcap, hcfg, henv⟩

/-- Settles O48: by the cases of a step of the core; a trap keeps the configuration of the state it is taken in. -/
theorem coreKeepsConfiguration : Obligations.CoreKeepsConfiguration := by
  intro s t ⟨hq, hb⟩ hs
  rw [step_core hq] at hs
  rcases coreStep_cases hb hs with ⟨hp, hc⟩ | ⟨hc, hr⟩ | @⟨e, u, hc, hk⟩
  · simp only [complete, Host.Outcome.next.injEq] at hc
    subst hc
    exact ⟨Conf.sameConfiguration {}, nofun, fun _ => ⟨hp, rfl, rfl⟩, nofun⟩
  · refine ⟨hc.sameConfiguration, ?_, ?_, ?_⟩ <;> simp [hr.trans hb]
  · simp only [Prod.mk.injEq] at hk
    obtain ⟨hm, hpt, han, htr⟩ := hk
    exact ⟨(hc.trans (u := trap e u) {}).sameConfiguration, nofun, nofun,
      fun _ => ⟨e, u, rfl, hc.sameConfiguration, hm, hpt, han, htr⟩⟩

/-! ## Who may write a flag -/

/-- The elements that have each permission (R29, R230, R232, R340). -/
theorem permOf_writers (i : Instr) :
    ((permOf i).ihdr = true → ∃ d c, i = .ihdr d c) ∧ ((permOf i).plte = true → ∃ d c, i = .plte d c) ∧
    ((permOf i).trns = true → ∃ d c, i = .trns d c) ∧ ((permOf i).bkgd = true → ∃ d c, i = .bkgd d c) ∧
    ((permOf i).gama = true → ∃ d c, i = .gama d c) ∧ ((permOf i).actl = true → ∃ d c, i = .actl d c) ∧
    ((permOf i).fctl = true → ∃ d c, i = .fctl d c ∨ i = .iend d c) ∧
    ((permOf i).iend = true → ∃ d c, i = .iend d c) ∧
    ((permOf i).blk = true → (∃ f, i = .blkStored f ∨ i = .blkStatic f ∨ i = .blkDynamic f ∨ i = .blkReserved f)
      ∨ ∃ d c, i = .fctl d c ∨ i = .iend d c) ∧
    ((permOf i).paint = true → i ∈ painters) ∧
    ((permOf i).tree = true → i = .eob ∨ (∃ f, i = .blkStatic f) ∨ (∃ a b c v, i = .dynHdr a b c v)
      ∨ ∃ d c, i = .fctl d c ∨ i = .iend d c) := by
  unfold permOf
  split <;> simp [painters]

/-- What differs was permitted to change. -/
theorem permitted {α : Type} {p : Bool} {x y : α} (h : p = false → x = y) (hn : x ≠ y) : p = true := by
  cases p
  · exact absurd (h rfl) hn
  · rfl

/-- Settles O50: `u` is the element's own effect, and what changed in it was permitted. -/
theorem flagWriters : Obligations.FlagWriters := by
  intro i s t ht
  have g := eff_exec i s
  rw [ht] at g
  obtain ⟨u, hu, h⟩ : ∃ u, (t = u ∨ ∃ e, t = trap e u ∧ t.painted = u.painted ∧ t.anim = u.anim)
      ∧ Same (permOf i) s u := by
    rcases g with g | ⟨e, u, rfl, g, -⟩
    · exact ⟨t, .inl rfl, g⟩
    · exact ⟨u, .inr ⟨e, rfl, rfl, rfl⟩, g⟩
  obtain ⟨wIhdr, wPlte, wTrns, wBkgd, wGama, wActl, wFctl, wIend, wBlk, wPaint, wTree⟩ := permOf_writers i
  refine ⟨u, hu, fun hn => wIhdr (permitted h.ihdr hn), fun hn => wPlte (permitted h.plte hn),
    fun hn => wTrns (permitted h.trns hn), fun hn => wBkgd (permitted h.bkgd hn),
    fun hn => wGama (permitted h.gama hn), fun hn => wActl (permitted h.actl ?_),
    fun hn => wActl (permitted h.actl ?_), fun hn => wFctl (permitted h.fctl hn),
    fun hn => wIend (permitted h.iend hn), fun hn => wBlk (permitted h.blk hn),
    fun hn => wPaint (permitted h.paint ?_), fun hn => wTree (permitted h.tree ?_)⟩
  · exact fun e => hn (congrArg Prod.fst e)
  · exact fun e => hn (congrArg Prod.snd e)
  · exact fun e => hn (congrArg Prod.snd e)
  · intro e
    simp only [Prod.mk.injEq] at e
    simp [e] at hn

end Sys2Proof.Machine
end

section
/-! The invariant in a step of the core (R22, R422), by the point of the pseudocode it is at. -/

namespace Sys2Proof.Machine

/-! ## Which elements a level has -/

theorem decodeSig_element {c d : Cur} {i : Instr} (h : decodeSig c = .ok (i, d)) :
    (∃ rest, i = .sig rest) ∨ ∃ b, i = .notPng b := by
  unfold decodeSig at h
  split at h
  · simp at h
  · split at h
    · split at h
      · simp at h
      · simp only [Except.ok.injEq, Prod.mk.injEq] at h
        exact .inl ⟨_, h.1.symm⟩
    · simp only [Except.ok.injEq, Prod.mk.injEq] at h
      exact .inr ⟨_, h.1.symm⟩

theorem decodeChunk_element {c d : Cur} {i : Instr} {m : Nat} {f : Word} (h : decodeChunk m f c = .ok (i, d)) :
    ∃ t data crc, i = decodeChunkType f t data crc := by
  unfold decodeChunk at h
  repeat' split at h
  all_goals simp only [Except.ok.injEq, Prod.mk.injEq, reduceCtorEq] at h
  exact ⟨_, _, _, h.1.symm⟩

theorem decodeZhdr_element {c d : Cur} {i : Instr} {n : Nat} (h : decodeZhdr n c = .ok (i, d)) :
    ∃ bs, i = .zhdr bs := by
  unfold decodeZhdr at h
  split at h
  · simp at h
  · simp only [Except.ok.injEq, Prod.mk.injEq] at h
    exact ⟨_, h.1.symm⟩

theorem decodeBlkHdr_element {c d : Cur} {i : Instr} (h : decodeBlkHdr c = .ok (i, d)) :
    ∃ f, i = .blkStored f ∨ i = .blkStatic f ∨ i = .blkDynamic f ∨ i = .blkReserved f := by
  unfold decodeBlkHdr at h
  split at h
  · simp at h
  · rename_i f c1 _
    split at h
    · simp at h
    · refine ⟨f == 1, ?_⟩
      split at h <;> simp only [Except.ok.injEq, Prod.mk.injEq] at h <;> simp [← h.1]

theorem decodeStored_element {c d : Cur} {i : Instr} (h : decodeStored c = .ok (i, d)) :
    ∃ len nlen, i = .storedBody len nlen := by
  unfold decodeStored at h
  split at h
  · simp at h
  · split at h
    · simp at h
    · simp only [Except.ok.injEq, Prod.mk.injEq] at h
      exact ⟨_, _, h.1.symm⟩

theorem decodeDynHdr_element {c d : Cur} {i : Instr} (h : decodeDynHdr c = .ok (i, d)) :
    ∃ hl hd hc vs, i = .dynHdr hl hd hc vs := by
  unfold decodeDynHdr at h
  repeat' split at h
  all_goals simp only [Except.ok.injEq, Prod.mk.injEq, reduceCtorEq] at h
  exact ⟨_, _, _, _, h.1.symm⟩

theorem decodeSym_element {c d : Cur} {i : Instr} {k : Kind} {t : TreeReg} (h : decodeSym k t c = .ok (i, d)) :
    ∃ n, symInstr k n = some i := by
  unfold decodeSym at h
  split at h
  · simp at h
  · split at h
    · simp at h
    · rename_i hn
      simp only [Except.ok.injEq, Prod.mk.injEq] at h
      exact ⟨_, hn.trans (congrArg some h.1)⟩

/-! ## Elements decoded from a stream -/

theorem fetch_stream {s : State} {r : Reader} {lv : Level} (hl : streamLevel s = some (r, lv)) :
    fetch s = fetchAt r lv s := by simp only [fetch, hl]

/-- The tree a symbol is decoded through has leaves of its alphabet only (R39). -/
theorem streamLevel_symbols {s : State} (h : Live s) {r : Reader} {k : Kind} {t : TreeReg}
    (hl : streamLevel s = some (r, .sym k t)) : Tree.symbolsBelow (Kind.size k) t.root = true := by
  obtain ⟨hcl, hlit, hdist⟩ := h.ctx.trees
  unfold streamLevel at hl
  repeat' split at hl
  all_goals simp only [Option.some.injEq, Prod.mk.injEq, Level.sym.injEq, reduceCtorEq, and_false] at hl
  all_goals obtain ⟨-, rfl, rfl⟩ := hl
  · exact hcl
  · exact hlit
  · exact hdist

/-- A step that decodes an element from a stream is good if the elements of the level are. -/
theorem good_stream {s : State} (h : Live s) {r : Reader} {lv : Level} (hl : streamLevel s = some (r, lv))
    (hx : ∀ i c, decode lv (s.cur r) = .ok (i, c) → Good State.Inv (exec i (s.putCur r c))) :
    Good State.Inv (coreStep s) := by
  cases hd : decode lv (s.cur r) with
  | error e =>
    rw [coreStep_reject h.busy ((fetch_stream hl).trans (fetchAt_error hd))]
    refine good_rejected h.base fun he => decode_inside (lv := lv) (c := s.cur r) (fun k t hk => ?_) (he ▸ hd)
    exact streamLevel_symbols h (hk ▸ hl)
  | ok p =>
    rw [coreStep_element h.busy ((fetch_stream hl).trans (fetchAt_ok hd))]
    exact hx p.1 p.2 hd

/-- The same for the payload reader, while a frame is being decoded. -/
theorem good_payload {s : State} (h : Live s) (j : JobOk s) {lv : Level} (hl : streamLevel s = some (.pay, lv))
    (h0 : lv.bytes = true → s.ib = 0)
    (hx : ∀ i c, decode lv (s.cur .pay) = .ok (i, c) → Live (s.putCur .pay c) → JobOk (s.putCur .pay c) →
      Good State.Inv (exec i (s.putCur .pay c))) : Good State.Inv (coreStep s) :=
  good_stream h hl fun i c hd => hx i c hd (pay_fetched h j h0 hd).1 (pay_fetched h j h0 hd).2

theorem good_at_signature {s : State} (h : Live s) (hp : s.phase = .signature) : Good State.Inv (coreStep s) := by
  refine good_stream h (r := .src) (lv := .signature) (by simp only [streamLevel, hp]) fun i c hd => ?_
  rcases decodeSig_element hd with ⟨rest, rfl⟩ | ⟨b, rfl⟩
  · exact good_sig (src_fetched h hd) rest
  · trivial

theorem good_at_walk {s : State} (h : Live s) (hp : s.phase = .walk) : Good State.Inv (coreStep s) := by
  by_cases hw : s.seenIend = false ∧ s.cp < s.cap.srcLen.toNat
  · refine good_stream h (r := .src) (lv := .chunk s.cfg.maxChunkLen s.cfg.fdatType)
      (by simp only [streamLevel, hp, if_pos hw]) fun i c hd => ?_
    obtain ⟨t, data, crc, rfl⟩ := decodeChunk_element hd
    exact good_chunk (src_fetched h hd) hp _ t data crc
  · rw [coreStep_act (a := .endOfWalk) h.busy]
    · exact good_endOfWalk h
    · simp only [fetch, streamLevel, fetchOther, hp, if_neg hw]

theorem good_at_zhdr {s : State} (h : Live s) (j : JobOk s) (h0 : s.ib = 0) (hp : s.phase = .zhdr) :
    Good State.Inv (coreStep s) := by
  refine good_payload h j (lv := .zhdr s.cfg.zlibHdrSkip) (by simp only [streamLevel, hp]) (fun _ => h0)
    fun i c hd h1 j1 => ?_
  obtain ⟨bs, rfl⟩ := decodeZhdr_element hd
  exact good_zhdr h1 j1 bs

theorem good_at_block {s : State} (h : Live s) (j : JobOk s) (hp : s.phase = .block) :
    Good State.Inv (coreStep s) := by
  refine good_payload h j (lv := .blkHdr) (by simp only [streamLevel, hp]) nofun fun i c hd h1 j1 => ?_
  obtain ⟨f, rfl | rfl | rfl | rfl⟩ := decodeBlkHdr_element hd
  · exact good_blkStored h1 j1 f
  · exact good_blkStatic h1 j1 f
  · exact good_blkDynamic h1 j1 f
  · exact good_blkReserved h1 f

theorem good_at_storedBody {s : State} (h : Live s) (j : JobOk s) (hp : s.phase = .storedBody) :
    Good State.Inv (coreStep s) := by
  refine good_payload h j (lv := .stored) (by simp only [streamLevel, hp]) nofun fun i c hd h1 j1 => ?_
  obtain ⟨len, nlen, rfl⟩ := decodeStored_element hd
  exact good_storedBody h1 j1 (decodeStored_ahead (h.payCur j.cursor) hd).2 len nlen

theorem good_at_dynHdr {s : State} (h : Live s) (j : JobOk s) (hp : s.phase = .dynHdr) :
    Good State.Inv (coreStep s) := by
  refine good_payload h j (lv := .dynHdr) (by simp only [streamLevel, hp]) nofun fun i c hd h1 j1 => ?_
  obtain ⟨hlit, hdist, hclen, vs, rfl⟩ := decodeDynHdr_element hd
  exact good_dynHdr h1 j1 hlit hdist hclen vs

theorem good_at_codeLens {s : State} (h : Live s) (j : JobOk s) (h1 : s.hlit ≤ 288) (h2 : s.hdist ≤ 32)
    (hp : s.phase = .codeLens) : Good State.Inv (coreStep s) := by
  by_cases hw : s.li < s.hlit + s.hdist
  · refine good_payload h j (lv := .sym .cl s.tCl) (by simp only [streamLevel, hp, if_pos hw]) nofun
      fun i c hd h1' j1 => ?_
    obtain ⟨n, hn⟩ := decodeSym_element hd
    refine good_cl hn h1' ⟨j1, h1, h2, hp⟩ ?_
    have hlen : s.lens.length = 320 := h.base.arrays.2.2.2
    simp only [lengthSlotOk, Bool.and_eq_true, decide_eq_true_eq]
    exact ⟨hw, show s.hlit + s.hdist ≤ s.lens.length by omega⟩
  · rw [coreStep_act (a := .buildTrees) h.busy]
    · exact good_buildTrees h j h1 h2
    · simp only [fetch, streamLevel, fetchOther, hp, if_neg hw]

theorem good_at_litLen {s : State} (h : Live s) (j : JobOk s) (hp : s.phase = .litLen) :
    Good State.Inv (coreStep s) := by
  refine good_payload h j (lv := .sym .litlen s.tLit) (by simp only [streamLevel, hp]) nofun fun i c hd h1 j1 => ?_
  obtain ⟨n, hn⟩ := decodeSym_element hd
  exact good_litLen hn h1 j1

theorem good_at_dist {s : State} (h : Live s) (j : JobOk s) (hp : s.phase = .dist) :
    Good State.Inv (coreStep s) := by
  refine good_payload h j (lv := .sym .dist s.tDist) (by simp only [streamLevel, hp]) nofun fun i c hd h1 j1 => ?_
  obtain ⟨n, hn⟩ := decodeSym_element hd
  rw [exec_dist hn]
  exact good_distanceSymbol h1 j1 n

/-! ## Elements selected by state, and rules -/

/-- The head of the row loop (R178, R271): the filter of a row that is there, or the end of the frame. -/
theorem good_at_rows {s : State} (h : Live s) (r : RowsOk s) (hp : s.phase = .rows) :
    Good State.Inv (coreStep s) := by
  have hf : fetch s = fetchRow s := by
    simp only [fetch, streamLevel, fetchOther, hp]
  by_cases hr : s.job.h.toNat ≤ s.job.row
  · rw [coreStep_act (a := .storeFrame) h.busy (by rw [hf, fetchRow, if_pos hr])]
    exact good_storeFrame h r hr
  · have hb := row_bound (S := 1 + s.job.bpl) (Nat.lt_of_not_le hr)
    have ho := r.output
    have hrow : (Cur.mk s.out (s.job.row * (1 + s.job.bpl)) 0).has 1 = true := by
      rw [Nat.add_mul] at hb
      simp only [Cur.has, decide_eq_true_eq]
      omega
    rw [coreStep_element h.busy (by rw [hf, fetchRow, if_neg hr]; simp only [decode, Cur.readU8, hrow, if_true]; rfl)]
    exact good_filter h r (Nat.lt_of_not_le hr) _

theorem good_at_pixels {s : State} (h : Live s) (r : RowsOk s) (hr : s.job.row < s.job.h.toNat)
    (hp : s.phase = .pixels) : Good State.Inv (coreStep s) := by
  rw [coreStep_element (i := decodeFormat s.hdr.ctype s.hdr.depth) h.busy]
  · exact good_format h r hr
  · simp [fetch, streamLevel, fetchOther, hp, r.job.header]

/-- The frame being painted is in the frame table, and as R38 says. -/
theorem PaintOk.frame {s : State} (p : PaintOk s) (h : Live s) :
    ∃ f, s.frames[frameIndex s]? = some f ∧ FrameOk s.hdr f := by
  have hlt : frameIndex s < s.frames.length := by rw [h.ctx.table.1]; exact p.current
  exact ⟨_, List.getElem?_eq_getElem hlt, h.ctx.frames _ (List.getElem_mem hlt)⟩

theorem good_at_composite {s : State} (h : Live s) (p : PaintOk s) (hp : s.phase = .composite) :
    Good State.Inv (coreStep s) := by
  obtain ⟨f, hf, ok⟩ := p.frame h
  rw [coreStep_element (i := decodeBlend f.blend) h.busy]
  · exact good_blend h p ok.ops.2
  · simp [fetch, streamLevel, fetchOther, hp, hf]

theorem good_at_dispose {s : State} (h : Live s) (p : PaintOk s) (ha : s.animated = true) (hp : s.phase = .dispose) :
    Good State.Inv (coreStep s) := by
  obtain ⟨f, hf, ok⟩ := p.frame h
  rw [coreStep_element (i := decodeDispose (effDispose s f)) h.busy]
  · exact good_dispose h p ha hf ok
  · simp [fetch, streamLevel, fetchOther, hp, ha, hf]

/-- A step of the core from a state of the invariant, by the point of the pseudocode. -/
theorem good_coreStep {s : State} (h : s.Inv) : Good State.Inv (coreStep s) := by
  by_cases hb : s.runState = .busy
  case neg => rw [coreStep_resting hb]; exact h
  obtain ⟨ctx, p⟩ := h.launch hb
  have l : Live s := ⟨h.base, hb, ctx⟩
  have act {a : Act} (hf : fetch s = .act a) (hx : Good State.Inv (runAct a s)) : Good State.Inv (coreStep s) :=
    coreStep_act hb hf ▸ hx
  unfold PhaseOk at p
  cases hp : s.phase <;> simp only [hp] at p
  case signature => exact good_at_signature l hp
  case walk => exact good_at_walk l hp
  case zhdr => exact good_at_zhdr l p.1 p.2.2 hp
  case block => exact good_at_block l p hp
  case storedBody => exact good_at_storedBody l p hp
  case dynHdr => exact good_at_dynHdr l p hp
  case codeLens => exact good_at_codeLens l p.1 p.2.1 p.2.2 hp
  case litLen => exact good_at_litLen l p hp
  case dist => exact good_at_dist l p hp
  case copy =>
    rw [coreStep_element (i := .matchCopy s.mlen s.mdist) hb]
    · exact good_matchCopy l p.1 p.2
    · simp only [fetch, streamLevel, fetchOther, hp]
  case rows => exact good_at_rows l p hp
  case pixels => exact good_at_pixels l p.1 p.2 hp
  case composite => exact good_at_composite l p hp
  case dispose => exact good_at_dispose l p.1 p.2 hp
  case inflated =>
    exact act (a := .afterInflate) (by simp only [fetch, streamLevel, fetchOther, hp]) (good_afterInflate l p)
  case place => exact act (a := .place) (by simp only [fetch, streamLevel, fetchOther, hp]) (good_place l p)
  case animate => exact act (a := .animate) (by simp only [fetch, streamLevel, fetchOther, hp]) (good_animate l p)
  case loop => exact act (a := .loop) (by simp only [fetch, streamLevel, fetchOther, hp]) (good_loopTest l p hp)
  case hold => exact act (a := .hold) (by simp only [fetch, streamLevel, fetchOther, hp]) (good_hold l p.1 p.2)
  case nextFrame => exact act (a := .nextFrame) (by simp only [fetch, streamLevel, fetchOther, hp]) (good_nextFrame l p)
  case complete => exact act (a := .complete) (by simp only [fetch, streamLevel, fetchOther, hp]) (good_complete l)

end Sys2Proof.Machine
end

section
/-! The host's acts (R21 to R24, R420 to R432, log 7): what each keeps of the invariant, and that every step keeps it and
faults in none of its states (statements StepKeepsInv, NoFault and ResetInv). -/

namespace Sys2Proof.Machine

/-- `s` with what the host may change at any time: its script, the register it has read, bytes of memory, the
allocator's oracle. -/
def State.hosted (s : State) (q : List HostOp) (rd : Word) (m : Memory) (denied : List (Nat × Nat)) : State :=
  { s with hostQ := q, hostRd := rd, mem := m, allocDenied := denied }

section Hosted
variable {s : State} (q : List HostOp) (rd : Word) (m : Memory) (denied : List (Nat × Nat))

theorem JobOk.hosted (h : JobOk s) : JobOk (s.hosted q rd m denied) := ⟨h.1, h.2, h.3, h.4, h.5, h.6⟩

theorem RowsOk.hosted (h : RowsOk s) : RowsOk (s.hosted q rd m denied) := ⟨h.job.hosted q rd m denied, h.2, h.3, h.4⟩

theorem TableOk.hosted (h : TableOk s) : TableOk (s.hosted q rd m denied) := ⟨h.1, h.2⟩

theorem LoopOk.hosted (h : LoopOk s) : LoopOk (s.hosted q rd m denied) := ⟨h.table.hosted q rd m denied, h.2, h.3⟩

theorem PaintOk.hosted (h : PaintOk s) : PaintOk (s.hosted q rd m denied) :=
  ⟨h.table.hosted q rd m denied, h.2, h.3, h.4⟩

theorem PhaseOk.hosted (h : PhaseOk s) : PhaseOk (s.hosted q rd m denied) := by
  have hph : (s.hosted q rd m denied).phase = s.phase := rfl
  unfold PhaseOk at h ⊢
  rw [hph]
  cases hp : s.phase <;> simp only [hp] at h
  case signature | walk | complete => trivial
  case zhdr | codeLens | copy | pixels | hold | dispose => exact ⟨h.1.hosted q rd m denied, h.2⟩
  case block | storedBody | dynHdr | litLen | dist | inflated => exact JobOk.hosted q rd m denied h
  case rows => exact RowsOk.hosted q rd m denied h
  case place => exact TableOk.hosted q rd m denied h
  case animate | loop | nextFrame => exact LoopOk.hosted q rd m denied h
  case composite => exact PaintOk.hosted q rd m denied h

theorem ContextOk.hosted (h : ContextOk s) : ContextOk (s.hosted q rd m denied) :=
  ⟨h.1, h.2, h.3, h.4, h.5, h.6, h.7, h.8, h.9, h.10, h.11, h.12⟩

/-- The invariant does not depend on the host's script, its last read, the oracle, or the bytes of memory. -/
theorem State.Inv.hosted (h : s.Inv) (hm : Memory.wf m = true) : (s.hosted q rd m denied).Inv :=
  ⟨h.params, hm, h.arrays, h.bit, h.busy, fun hb =>
    ⟨(h.launch hb).context.hosted q rd m denied, (h.launch hb).point.hosted q rd m denied⟩⟩

end Hosted

/-- With no launch running the invariant asks no more than its base. -/
theorem Base.resting {s : State} (h : Base s) (hr : s.runState ≠ .busy) (hp : s.phase = .idle) : s.Inv :=
  ⟨h.params, h.memory, h.arrays, h.bit, ⟨fun hb => absurd hb hr, fun hn => absurd hp hn⟩, fun hb => absurd hb hr⟩

theorem State.Inv.idle {s : State} (h : s.Inv) (hr : s.runState ≠ .busy) : s.phase = .idle := by
  by_contra hp
  exact hr (h.busy.mpr hp)

/-- A write of a configuration register changes nothing the invariant speaks of while no launch is running. -/
theorem good_regWrite {s : State} (h : s.Inv) (hr : s.runState ≠ .busy) (r : HostReg) (v : Word) :
    Good State.Inv (.next (regWrite s r v)) := by
  have hb : Base (regWrite s r v) := by cases r <;> exact ⟨h.params, h.memory, h.arrays, h.bit⟩
  exact hb.resting (by cases r <;> exact hr) (by cases r <;> exact h.idle hr)

/-- The state at the start of a launch is live, under the duties of R69 and R81. -/
theorem launchState_live {s : State} (h : s.Inv) (hg : canvasGeometryOk (captured s) = true)
    (hd : sourceCanvasDisjoint (captured s) = true) : Live (launchState s) where
  base := ⟨h.params, h.memory, ⟨h.arrays.1, Nat.zero_le _, h.arrays.2.2⟩, Nat.zero_lt_succ _⟩
  busy := rfl
  ctx :=
    { premises := ⟨hg, hd⟩
      cursor := Nat.zero_le _
      noError := rfl
      animFlag := rfl
      header := nofun
      headerFirst := fun _ => ⟨rfl, rfl, rfl, rfl⟩
      pending := nofun
      table := ⟨rfl, rfl⟩
      frames := nofun
      announced := nofun
      still := fun _ => ⟨rfl, rfl⟩
      trees := ⟨rfl, rfl, rfl⟩ }

theorem good_launch {s : State} (h : s.Inv) : Good State.Inv (launch s) := by
  unfold launch
  split
  · trivial
  · rename_i hg
    split
    · trivial
    · rename_i hd
      exact (launchState_live h (by simpa using hg) (by simpa using hd)).inv trivial

theorem good_hostWrite {s : State} (h : s.Inv) (r : HostReg) (v : Word) : Good State.Inv (hostWrite r v s) := by
  unfold hostWrite
  split
  · split
    · exact good_launch h
    · exact h
  · split
    · trivial
    · exact good_regWrite h ‹_› r v

theorem good_hostRead {s : State} (h : s.Inv) (r : HostReg) : Good State.Inv (hostRead r s) := by
  unfold hostRead
  split
  · trivial
  · exact h.hosted s.hostQ (regRead s r) s.mem s.allocDenied h.memory

theorem good_hostStore {s : State} (h : s.Inv) (a : Nat) (b : Byte) : Good State.Inv (hostStore a b s) := by
  unfold hostStore
  split
  · trivial
  · exact h.hosted s.hostQ s.hostRd (Memory.write s.mem a b) s.allocDenied (Memory.wf_write _ h.memory _ _)

theorem good_reset {s : State} (h : s.Inv) : Good State.Inv (.next (platformReset s)) := by
  have hm : Memory.wf (platformReset s).mem = true := by
    simp only [platformReset]
    split
    · exact freeImage_wf s h.memory
    · exact h.memory
  exact Base.resting ⟨h.params, hm, ⟨List.length_replicate, Nat.zero_le _, List.length_replicate,
    List.length_replicate⟩, Nat.zero_lt_succ _⟩ nofun rfl

theorem good_hostStep {s : State} (h : s.Inv) (op : HostOp) : Good State.Inv (hostStep op s) := by
  cases op with
  | pass => exact good_coreStep h
  | writeReg r v => exact good_hostWrite h r v
  | readReg r => exact good_hostRead h r
  | store a b => exact good_hostStore h a b
  | oracle denied => exact h.hosted s.hostQ s.hostRd s.mem denied h.memory
  | reset => exact good_reset h

/-- From a state of the invariant a step faults never, and the next state has the invariant. -/
theorem good_step {s : State} (h : s.Inv) : Good State.Inv (step s) := by
  unfold step
  split
  · exact good_coreStep h
  · rename_i rest _
    exact good_hostStep (h.hosted rest s.hostRd s.mem s.allocDenied h.memory) _

/-- Settles O58: the good outcome of a step that is a next state is a state of the invariant. -/
theorem stepKeepsInv : Obligations.StepKeepsInv := by
  intro s t h hs
  have g := good_step h
  rw [hs] at g
  exact g

/-- Settles O59: a fault is no good outcome. -/
theorem noFault : Obligations.NoFault := by
  intro s h f hf
  have g := good_step h
  rw [hf] at g
  exact g

/-- Settles O57: at reset no launch is running, so only the base of the invariant is asked. -/
theorem resetInv : Obligations.ResetInv :=
  Base.resting ⟨by decide, rfl, ⟨List.length_replicate, Nat.zero_le _, List.length_replicate, List.length_replicate⟩,
    Nat.zero_lt_succ _⟩ nofun rfl

end Sys2Proof.Machine
end

section
/-! The host-interface registers, launch, stores and platform reset (R21 to R24, R46, R47, R69, R81, R420, R423):
statements Launch, RegisterAccess, HostPort and ResetValues. -/

namespace Sys2Proof.Machine

/-! ## The host's duties in the words of the statements -/

theorem canvasGeometryOk_iff (c : Capture) : canvasGeometryOk c = true ↔ c.canvasBase.toNat % 4 = 0
    ∧ c.canvasStride.toNat % 4 = 0 ∧ 4 * c.canvasW.toNat ≤ c.canvasStride.toNat := by
  simp only [canvasGeometryOk, Bool.and_eq_true, decide_eq_true_eq, and_assoc]

theorem sourceCanvasDisjoint_iff (c : Capture) : sourceCanvasDisjoint c = true ↔
    c.srcLen.toNat = 0 ∨ c.canvasH.toNat * c.canvasStride.toNat = 0
    ∨ c.srcBase.toNat + c.srcLen.toNat ≤ c.canvasBase.toNat
    ∨ c.canvasBase.toNat + c.canvasH.toNat * c.canvasStride.toNat ≤ c.srcBase.toNat := by
  simp only [sourceCanvasDisjoint, Bool.or_eq_true, decide_eq_true_eq, or_assoc]

/-- R81's test on the bounds is that the two ranges share no address: two that overlap share the larger base. -/
theorem disjoint_iff_not_overlap (s : State) : sourceCanvasDisjoint (captured s) = true ↔ ¬ rangesOverlap s := by
  rw [sourceCanvasDisjoint_iff]
  simp only [captured, rangesOverlap, not_exists]
  generalize s.canvasH.toNat * s.canvasStride.toNat = n
  constructor
  · rintro h a ⟨h1, h2, h3, h4⟩
    omega
  · intro h
    by_contra hc
    exact h (max s.srcBase.toNat s.canvasBase.toNat) (by omega)

theorem launch_starts {s : State} (hg : canvasGeometryOk (captured s) = true)
    (hd : sourceCanvasDisjoint (captured s) = true) : launch s = .next (launchState s) := by
  simp [launch, hg, hd]

theorem launch_badGeometry {s : State} (hg : canvasGeometryOk (captured s) = false) :
    launch s = .refused .canvasGeometry := by
  simp [launch, hg]

theorem launch_overlap {s : State} (hg : canvasGeometryOk (captured s) = true)
    (hd : sourceCanvasDisjoint (captured s) = false) : launch s = .refused .sourceCanvasOverlap := by
  simp [launch, hg, hd]

/-! ## One act of the host -/

theorem step_host {s : State} {op : HostOp} {rest : List HostOp} (hq : s.hostQ = op :: rest) :
    step s = hostStep op { s with hostQ := rest } := by simp only [step, hq]

/-- CTRL.START written 1 while not BUSY launches (R23). -/
theorem step_start {s : State} {v : Word} {rest : List HostOp} (hq : s.hostQ = .writeReg .ctrl v :: rest)
    (hb : s.runState ≠ .busy) (hv : v.getLsbD 0 = true) : step s = launch { s with hostQ := rest } := by
  rw [step_host hq]
  exact if_pos ⟨hv, hb⟩

/-- Any other write of CTRL does nothing (R23). -/
theorem step_noStart {s : State} {v : Word} {rest : List HostOp} (hq : s.hostQ = .writeReg .ctrl v :: rest)
    (h : s.runState = .busy ∨ v.getLsbD 0 = false) : step s = .next { s with hostQ := rest } := by
  rw [step_host hq]
  refine if_neg fun hc => ?_
  rcases h with h | h
  · exact hc.2 h
  · exact absurd (h.symm.trans hc.1) (by simp)

/-- A write of any register but CTRL while not BUSY (R21). -/
theorem step_write {s : State} {r : HostReg} {v : Word} {rest : List HostOp} (hq : s.hostQ = .writeReg r v :: rest)
    (hr : r ≠ .ctrl) (hb : s.runState ≠ .busy) : step s = .next (regWrite { s with hostQ := rest } r v) := by
  rw [step_host hq]
  cases r
  case ctrl => exact absurd rfl hr
  all_goals exact if_neg hb

/-- The same while BUSY is outside the spec (R428, V5). -/
theorem step_writeBusy {s : State} {r : HostReg} {v : Word} {rest : List HostOp}
    (hq : s.hostQ = .writeReg r v :: rest) (hr : r ≠ .ctrl) (hb : s.runState = .busy) :
    step s = .refused .hostWriteWhileBusy := by
  rw [step_host hq]
  cases r
  case ctrl => exact absurd rfl hr
  all_goals exact if_pos hb

theorem step_read {s : State} {r : HostReg} {rest : List HostOp} (hq : s.hostQ = .readReg r :: rest)
    (h : ¬(HostReg.isConfig r = true ∧ s.runState = .busy)) :
    step s = .next { s with hostQ := rest, hostRd := regRead s r } := by
  rw [step_host hq]
  refine (if_neg h).trans ?_
  cases r <;> rfl

/-! ## The registers -/

/-- STATUS as a number (R21, R22). -/
theorem statusWord_eq (s : State) : statusWord s
    = BitVec.ofNat 32 ((match s.runState with | .idle => 0 | .busy => 1 | .done => 2 | .error => 3)
      + 4 * s.painted.toNat + 8 * s.anim.toNat) := by
  unfold statusWord
  cases s.runState <;> cases s.painted <;> cases s.anim <;> rfl

/-- A field read in the low bits of a word, the unlisted bits 0 (R21). -/
theorem zero_append_eq {m n : Nat} (b : BitVec n) : 0#m ++ b = b.zeroExtend (m + n) := by
  apply BitVec.eq_of_getLsbD_eq
  intro i hi
  simp only [BitVec.getLsbD_append, BitVec.getLsbD_setWidth, hi, decide_true, Bool.true_and]
  split
  · rfl
  · simp [BitVec.getLsbD_of_ge b i (by omega)]

/-- The table of the configuration registers is what they read as. -/
theorem mem_configTable {s : State} {r : HostReg} {x : Word} :
    (r, x) ∈ configTable s ↔ HostReg.isConfig r = true ∧ x = regRead s r := by
  have hbg : (0#8 ++ s.cfgBg : Word) = s.cfgBg.zeroExtend 32 := zero_append_eq s.cfgBg
  cases r <;> simp [configTable, HostReg.isConfig, regRead, hbg]

/-- A configuration register reads as it was written, CFG_BG in its low 24 bits (R21). -/
theorem regRead_regWrite_same {s : State} {r : HostReg} (hr : HostReg.isConfig r = true) (v : Word) :
    regRead (regWrite s r v) r = if r = .cfgBg then (0#8 ++ v.extractLsb' 0 24 : Word) else v := by
  cases r
  case cfgBg => exact (zero_append_eq (v.extractLsb' 0 24)).symm
  case ctrl | status | errcode | framesOut => cases hr
  all_goals rfl

/-- A write of one register leaves what the others read. -/
theorem regRead_regWrite_other {s : State} {r r' : HostReg} (h : r' ≠ r) (v : Word) :
    regRead (regWrite s r v) r' = regRead s r' := by
  cases r' <;> cases r <;> try rfl
  all_goals exact absurd rfl h

theorem regWrite_readOnly {s : State} {r : HostReg} (hr : HostReg.isConfig r = false) (v : Word) :
    regWrite s r v = s := by
  cases r
  case ctrl | status | errcode | framesOut => rfl
  all_goals cases hr

/-- Settles O45: the two tables of the statement are what `regRead` answers, and a write changes what its own register
reads as only. -/
theorem registerAccess : Obligations.RegisterAccess := by
  intro s rest v
  refine ⟨fun r x hx => ?_, fun hb r x hx => ?_⟩
  · have hr : HostReg.isConfig r = false ∧ x = regRead s r := by
      simp only [List.mem_cons, Prod.mk.injEq, List.not_mem_nil, or_false] at hx
      rcases hx with ⟨rfl, rfl⟩ | ⟨rfl, rfl⟩ | ⟨rfl, rfl⟩ | ⟨rfl, rfl⟩
      · exact ⟨rfl, rfl⟩
      · exact ⟨rfl, (statusWord_eq s).symm⟩
      · exact ⟨rfl, zero_append_eq s.errcode⟩
      · exact ⟨rfl, rfl⟩
    obtain ⟨hro, rfl⟩ := hr
    refine ⟨fun hq => step_read hq fun hc => ?_, fun hn hb hq => ?_⟩
    · exact absurd (hro.symm.trans hc.1) (by simp)
    · rw [step_write hq hn hb, regWrite_readOnly hro]
  · obtain ⟨hc, rfl⟩ := mem_configTable.mp hx
    refine ⟨fun hq => step_read hq fun h => hb h.2, fun hq => ?_⟩
    have hn : r ≠ .ctrl := by rintro rfl; cases hc
    refine ⟨regWrite { s with hostQ := rest } r v, step_write hq hn hb, ?_, fun r' x' hne hx' => ?_, ?_⟩
    · exact mem_configTable.mpr ⟨hc, (regRead_regWrite_same hc v).symm⟩
    · obtain ⟨hc', rfl⟩ := mem_configTable.mp hx'
      refine mem_configTable.mpr ⟨hc', ?_⟩
      rw [regRead_regWrite_other hne]
      cases r' <;> rfl
    · cases r <;> rfl

/-- Settles O44: the next state is `launchState`, the host's duties being those that `launch` tests. -/
theorem launch_obligation : Obligations.Launch := by
  intro s v rest hq
  refine ⟨fun h => step_noStart hq h, fun hb hv h1 h2 h3 hno => ?_⟩
  refine ⟨launchState { s with hostQ := rest }, ?_, ?_⟩
  · rw [step_start hq hb hv]
    exact launch_starts ((canvasGeometryOk_iff _).mpr ⟨h1, h2, h3⟩)
      ((disjoint_iff_not_overlap { s with hostQ := rest }).mpr hno)
  · and_intros <;> rfl

/-! ## Platform reset -/

/-- Freeing the image's pixels changes no byte outside the image rectangle (V4). -/
theorem freeImage_outside {s : State} {a : Nat} (h : outsideImage s a) :
    Memory.read (freeImage s).mem a = Memory.read s.mem a := by
  have fold (ps : List (Nat × Nat)) (hin : ∀ p ∈ ps, p.1 < s.hdr.width.toNat ∧ p.2 < s.hdr.height.toNat) (t : State)
      (hc : t.cap = s.cap) :
      Memory.read (ps.foldl (fun t p => canvasPut t (s.ox + p.1) (s.oy + p.2)
        (freePixel s.freeN (s.ox + p.1) (s.oy + p.2))) t).mem a = Memory.read t.mem a := by
    induction ps generalizing t with
    | nil => rfl
    | cons p ps ih =>
      rw [List.foldl_cons]
      refine Eq.trans (ih (fun q hq => hin q (List.mem_cons_of_mem _ hq)) _ ?_) ?_
      · exact hc
      obtain ⟨hx, hy⟩ := hin p List.mem_cons_self
      have hout := h (s.ox + p.1) (s.oy + p.2) (by omega) (by omega) (by omega) (by omega)
      refine Memory.read_writeList_other _ _ _ _ ?_
      rw [pixelBytes_length, canvasAddr, hc]
      exact hout
  exact fold _ (fun p hp => mem_raster.mp hp) { s with freeN := s.freeN + 1 } rfl

theorem painting_iff (p : Phase) : Phase.painting p = true ↔
    p ∈ [Phase.animate, .loop, .composite, .hold, .dispose, .nextFrame, .complete] := by
  cases p <;> simp [Phase.painting]

/-- A reset of a machine that is not painting leaves memory as it is (R423, V4). -/
theorem platformReset_mem {s : State} (h : s.runState ≠ .busy ∨ Phase.painting s.phase = false) :
    (platformReset s).mem = s.mem := by
  have hn : ¬(s.runState = .busy ∧ Phase.painting s.phase ∧ s.haveIhdr ∧ imageOnCanvas s) := by
    rintro ⟨hb, hp, -⟩
    rcases h with h | h
    · exact h hb
    · exact absurd (h.symm.trans hp) (by simp)
  simp only [platformReset, if_neg hn]

theorem platformReset_outside {s : State} {a : Nat} (h : outsideImage s a) :
    Memory.read (platformReset s).mem a = Memory.read s.mem a := by
  simp only [platformReset]
  split
  · exact freeImage_outside h
  · rfl

/-! ## Stores -/

theorem launchMemory_iff (s : State) (a : Nat) : launchMemory s a = true ↔
    (s.cap.srcBase.toNat ≤ a ∧ a < s.cap.srcBase.toNat + s.cap.srcLen.toNat) ∨ (s.cap.canvasBase.toNat ≤ a
      ∧ a < s.cap.canvasBase.toNat + s.cap.canvasH.toNat * s.cap.canvasStride.toNat) := by
  simp only [launchMemory, Bool.or_eq_true, Bool.and_eq_true, decide_eq_true_eq]

/-- Settles O46, act by act: refused launches, refused accesses while BUSY, stores, the oracle, platform reset. -/
theorem hostPort : Obligations.HostPort := by
  intro s rest
  refine ⟨fun v hq hb hv => ⟨fun hg => ?_, fun h1 h2 h3 ho => ?_⟩, fun hb r v => ⟨fun hn hq => ?_, fun hc hq => ?_⟩,
    fun a b hq => ⟨fun hb hl => ?_, fun hl hm => ?_⟩, fun denied hq => ?_, fun hq hm => ?_⟩
  · rw [step_start hq hb hv]
    refine launch_badGeometry (Bool.eq_false_iff.mpr fun hc => ?_)
    obtain ⟨h1, h2, h3⟩ := (canvasGeometryOk_iff _).mp hc
    simp only [captured] at h1 h2 h3
    omega
  · rw [step_start hq hb hv]
    refine launch_overlap ((canvasGeometryOk_iff _).mpr ⟨h1, h2, h3⟩) (Bool.eq_false_iff.mpr fun hc => ?_)
    exact (disjoint_iff_not_overlap _).mp hc ho
  · exact step_writeBusy hq hn hb
  · obtain ⟨⟨r', x⟩, hx, rfl⟩ := List.mem_map.mp hc
    rw [step_host hq]
    exact if_pos ⟨(mem_configTable.mp hx).1, hb⟩
  · rw [step_host hq]
    exact if_pos ⟨hb, (launchMemory_iff _ a).mpr hl⟩
  · refine ⟨Memory.write s.mem a b, ?_, ?_, fun a' ha => Memory.read_write_other _ _ _ _ ha⟩
    · rw [step_host hq]
      refine if_neg fun hc => ?_
      rcases hl with hl | hl
      · exact hl hc.1
      · exact hl ((launchMemory_iff _ a).mp hc.2)
    · rw [Memory.read_write _ hm, if_pos rfl]
  · exact step_host hq
  · refine ⟨platformReset { s with hostQ := rest }, step_host hq, rfl, rfl, rfl, rfl, rfl, rfl, rfl, rfl, fun h => ?_,
      fun a ha => platformReset_outside (s := { s with hostQ := rest }) ha⟩
    refine platformReset_mem (s := { s with hostQ := rest }) (h.imp_right fun hp => ?_)
    exact Bool.eq_false_iff.mpr fun hc => hp ((painting_iff _).mp hc)

/-- Settles O47, register by register. -/
theorem resetValues : Obligations.ResetValues := by
  refine ⟨rfl, rfl, rfl, rfl, rfl, rfl, fun r hr => ?_⟩
  simp only [List.mem_cons, List.not_mem_nil, or_false] at hr
  rcases hr with rfl | rfl | rfl | rfl <;> rfl

end Sys2Proof.Machine
end

section
/-! The canvas in memory (R60, R66, R72, R79, R81, R354): a pixel's four bytes, and what a step of the core writes at
all: statements CanvasPixels and CoreWritesOnlyTheImage. -/

namespace Sys2Proof.Machine

/-! ## A canvas pixel -/

/-- The bytes of a run of writes, one at a time. -/
theorem Memory.read_writeList_getElem {bs : List Byte} {m : Memory} (hm : Memory.wf m = true) (a : Nat) {i : Nat}
    (hi : i < bs.length) : Memory.read (Memory.writeList m a bs) (a + i) = bs[i] := by
  rw [Memory.read_writeList bs m hm, if_pos (by omega), Nat.add_sub_cancel_left, List.getD_eq_getElem bs 0 hi]

/-- B at the lowest address, then G, R, A (R66). -/
theorem pixelBytes_little (v : Pixel) :
    pixelBytes .little v = [v.extractLsb' 0 8, v.extractLsb' 8 8, v.extractLsb' 16 8, v.extractLsb' 24 8] := rfl

theorem canvasRead_little {s : State} (ho : s.cfg.canvasByteOrder = .little) (x y : Nat) :
    canvasRead s x y = Memory.read s.mem (canvasAddr s x y + 3) ++ Memory.read s.mem (canvasAddr s x y + 2)
      ++ Memory.read s.mem (canvasAddr s x y + 1) ++ Memory.read s.mem (canvasAddr s x y) := by
  unfold canvasRead
  rw [ho]
  rfl

/-- PAINTED is no part of the canvas. -/
theorem canvasRead_canvasWrite {s : State} (hm : Memory.wf s.mem = true) (x y : Nat) (v : Pixel) :
    canvasRead (canvasWrite s x y v) x y = v := canvasRead_put s hm x y v

/-- Settles O35: `canvasWrite` is a run of four writes, in the order of `pixelBytes_little`. -/
theorem canvasPixels_obligation : Obligations.CanvasPixels := by
  rintro s x y a v hm ho rfl
  have byte (i : Nat) (hi : i < (pixelBytes .little v).length) :=
    Memory.read_writeList_getElem hm (canvasAddr s x y) hi
  refine ⟨canvasRead_little ho x y, Memory.writeList s.mem (canvasAddr s x y) (pixelBytes .little v), ?_,
    Memory.wf_writeList _ _ hm _, byte 0 (by simp), byte 1 (by simp), byte 2 (by simp), byte 3 (by simp),
    fun b hb => Memory.read_writeList_other _ _ _ _ ?_, canvasRead_canvasWrite hm x y v⟩
  · rw [canvasWrite, canvasPut, ho]
  · rw [pixelBytes_length, canvasAddr]
    omega

/-! ## The rules between the elements leave memory alone -/

/-- Without the permission to paint an element leaves memory alone, trap or not. -/
theorem Eff.memory {p : Perm} (hp : p.paint = false) {s t : State} (h : Eff p s t) : t.mem = s.mem := by
  rcases h with h | ⟨e, u, rfl, h, -⟩
  · exact congrArg Prod.fst (h.paint hp)
  · exact congrArg Prod.fst (h.paint hp)

/-- A state whose memory is `m`. -/
def MemoryIs (m : Memory) (t : State) : Prop := t.mem = m

theorem allocs_memory {m : Memory} {s : State} {count size : Nat} {k : State → Out} (hm : s.mem = m)
    (hk : All (MemoryIs m) (k { s with allocN := s.allocN + count })) : All (MemoryIs m) (allocs count size s k) :=
  ite_all hm hk

theorem buildTrees_memory (s : State) : All (MemoryIs s.mem) (buildTrees s) := by
  unfold buildTrees withTree
  exact allocs_memory rfl (allocs_memory rfl rfl)

theorem latchFctl_memory (f : FctlFields) (s : State) : All (MemoryIs s.mem) (latchFctl f s) :=
  All.mono (fun _ => Eff.memory rfl) (eff_latch (p := { fctl := true }) rfl)

theorem storeFrame_memory (s : State) : All (MemoryIs s.mem) (storeFrame s) := by
  refine ite_all trivial ?_
  unfold afterFinish
  cases s.job.resume with
  | iend => rfl
  | fctl f => exact latchFctl_memory f _

theorem takeSnapshot_memory (s : State) : All (MemoryIs s.mem) (takeSnapshot s) := by
  unfold takeSnapshot withFrame
  split
  · trivial
  · exact ite_all trivial (ite_all trivial (allocs_memory rfl rfl))

theorem loopTest_memory (s : State) : All (MemoryIs s.mem) (loopTest s) := by
  unfold loopTest
  refine ite_all trivial (ite_all rfl (ite_all rfl ?_))
  split
  · trivial
  · exact ite_all (takeSnapshot_memory s) rfl

theorem hold_memory (s : State) : All (MemoryIs s.mem) (hold s) := by
  unfold hold
  split
  · trivial
  · rfl

theorem runAct_memory (a : Act) (s : State) : All (MemoryIs s.mem) (runAct a s) := by
  cases a with
  | endOfWalk => exact ite_all rfl (ite_all rfl rfl)
  | buildTrees => exact buildTrees_memory s
  | afterInflate => exact ite_all rfl (allocs_memory rfl rfl)
  | storeFrame => exact storeFrame_memory s
  | place => exact ite_all trivial (ite_all rfl rfl)
  | animate => exact ite_all trivial rfl
  | loop => exact loopTest_memory s
  | hold => exact hold_memory s
  | nextFrame => rfl
  | complete => rfl

/-! ## What a step of the core writes -/

/-- Memory as it was, or painted within the rectangle of a stored frame that lies on the canvas, and then painted at all
only if PAINTED is set. -/
def PaintEff (s t : State) : Prop :=
  t.mem = s.mem ∨ ∃ f ∈ s.frames, frameOnCanvas s f = true
    ∧ (∀ a, outsideFrame s f a → Memory.read t.mem a = Memory.read s.mem a) ∧ (t.painted = false → t.mem = s.mem)

/-- A painter visits the rectangle of one stored frame, after the test that it lies on the canvas (R72). -/
theorem withFrame_all {P : State → Prop} {s : State} {k : Frame → Out}
    (hk : ∀ f ∈ s.frames, frameOnCanvas s f = true → All P (k f)) : All P (withFrame s k) := by
  unfold withFrame
  split
  · trivial
  · rename_i f hf
    refine ite_all trivial ?_
    split
    · trivial
    · rename_i hon
      exact hk f (List.mem_of_getElem? hf) (by simpa using hon)

theorem paintRect_outside (v : State → Nat × Nat → Option Pixel) {f : Frame} {s : State} {a : Nat}
    (ha : outsideFrame s f a) : Memory.read (paintRect v f s).mem a = Memory.read s.mem a :=
  paint_outside v a (rect f) (fun p hp => ha p.1 p.2 (mem_raster.mp hp).1 (mem_raster.mp hp).2) s rfl

theorem paintEff_paintRect (v : State → Nat × Nat → Option Pixel) {f : Frame} {s t : State} (hf : f ∈ s.frames)
    (hon : frameOnCanvas s f = true) (hm : t.mem = (paintRect v f s).mem)
    (hp : t.painted = (paintRect v f s).painted) : PaintEff s t := by
  refine .inr ⟨f, hf, hon, fun a ha => ?_, fun h => ?_⟩
  · rw [hm, paintRect_outside v ha]
  · rw [hm, show paintRect v f s = s from paint_none v f (rect f) s (hp.symm.trans h)]

theorem paintEff_painter {i : Instr} (hi : i ∈ painters) (s : State) : All (PaintEff s) (exec i s) := by
  simp only [painters, List.mem_cons, List.not_mem_nil, or_false] at hi
  rcases hi with rfl | rfl | rfl | rfl
  · exact withFrame_all fun f hf hon => paintEff_paintRect _ hf hon rfl rfl
  · exact withFrame_all fun f hf hon => paintEff_paintRect _ hf hon rfl rfl
  · exact withFrame_all fun f hf hon => paintEff_paintRect _ hf hon rfl rfl
  · exact withFrame_all fun f hf hon => ite_all trivial (paintEff_paintRect _ hf hon rfl rfl)

/-- Only the painters write memory (R340); a trap keeps what was there (R390). -/
theorem paintEff_exec (i : Instr) (s : State) : All (PaintEff s) (exec i s) := by
  cases hp : (permOf i).paint
  · exact All.mono (fun _ h => .inl (h.memory hp)) (eff_exec i s)
  · obtain ⟨-, -, -, -, -, -, -, -, -, isPainter, -⟩ := permOf_writers i
    exact paintEff_painter (isPainter hp) s

theorem paintEff_coreStep (s : State) (hb : s.runState = .busy) : All (PaintEff s) (coreStep s) := by
  rcases fetch_cases s with ⟨i, cp, ip, ib, hf⟩ | ⟨a, hf, -⟩ | ⟨r, hf⟩ | ⟨f, hf⟩ | hf
  · rw [coreStep_element hb hf]
    exact paintEff_exec i { s with cp := cp, ip := ip, ib := ib }
  · rw [coreStep_act hb hf]
    exact All.mono (fun _ => .inl) (runAct_memory a s)
  · rw [coreStep_reject hb hf]
    rcases rejected_cases r s with ⟨e, -, he⟩ | ⟨-, he⟩ <;> rw [he]
    · exact .inl rfl
    · trivial
  · simp only [coreStep, hb, hf, All]
  · simp only [coreStep, hb, hf]
    exact .inl rfl

/-! ## Where a frame's rectangle lies -/

/-- The rectangle of a stored frame lies inside the image's (R170). -/
theorem outsideImage_outsideFrame {s : State} {f : Frame} (hf : FrameOk s.hdr f) {a : Nat} (ha : outsideImage s a) :
    outsideFrame s f a := by
  obtain ⟨-, -, hx, hy⟩ := hf.inside
  intro i j hi hj
  exact ha (s.ox + f.x.toNat + i) (s.oy + f.y.toNat + j) (by omega) (by omega) (by omega) (by omega)

/-- A pixel on the canvas has its four bytes in the canvas range, the rows being at most a stride long (R66, R69). -/
theorem pixel_in_canvas {c : Capture} (hg : canvasGeometryOk c = true) {x y : Nat} (hx : x < c.canvasW.toNat)
    (hy : y < c.canvasH.toNat) :
    y * c.canvasStride.toNat + 4 * x + 4 ≤ c.canvasH.toNat * c.canvasStride.toNat := by
  obtain ⟨-, -, hw⟩ := (canvasGeometryOk_iff c).mp hg
  calc y * c.canvasStride.toNat + 4 * x + 4 ≤ (y + 1) * c.canvasStride.toNat := by rw [Nat.add_one_mul y]; omega
    _ ≤ c.canvasH.toNat * c.canvasStride.toNat := Nat.mul_le_mul_right _ hy

/-- The source shares no byte with a frame on the canvas (R81). -/
theorem source_outsideFrame {s : State} {f : Frame} (hg : canvasGeometryOk s.cap = true)
    (hd : sourceCanvasDisjoint s.cap = true) (hon : frameOnCanvas s f = true) {k : Nat} (hk : k < s.cap.srcLen.toNat) :
    outsideFrame s f (s.cap.srcBase.toNat + k) := by
  simp only [frameOnCanvas, Bool.and_eq_true, decide_eq_true_eq] at hon
  obtain ⟨hx, hy⟩ := hon
  intro i j hi hj
  have hin := pixel_in_canvas hg (x := s.ox + f.x.toNat + i) (y := s.oy + f.y.toNat + j) (by omega) (by omega)
  have hd := (sourceCanvasDisjoint_iff _).mp hd
  unfold pixelAddr
  omega

/-- Settles O51: what a step writes lies in a stored frame's rectangle, which is inside the image and off the source. -/
theorem coreWritesOnlyTheImage : Obligations.CoreWritesOnlyTheImage := by
  intro s t inv ⟨hq, hb⟩ hs
  obtain ⟨ctx, -⟩ := inv.launch hb
  obtain ⟨geometry, disjoint⟩ := ctx.premises
  have hcap : t.cap = s.cap := (coreKeepsConfiguration s t ⟨hq, hb⟩ hs).1.sampled
  have eff := paintEff_coreStep s hb
  rw [← step_core hq, hs] at eff
  simp only [srcByte, hcap]
  rcases eff with hm | ⟨f, hf, hon, outside, unpainted⟩
  · rw [hm]
    exact ⟨fun _ _ => rfl, fun _ _ => rfl, fun _ => rfl⟩
  · exact ⟨fun a ha => outside a (outsideImage_outsideFrame (ctx.frames f hf) ha),
      fun i hi => outside _ (source_outsideFrame geometry disjoint hon hi), unpainted⟩

end Sys2Proof.Machine
end


section
/-! Decoding what the encoder wrote, at the levels of whole bytes (R90 to R93, R104, R115, R116, R118): statements
DecodeWords and DecodeEncodeBytes. -/

namespace Sys2Proof.Machine

/-! ## Bytes that stand at a cursor -/

/-- The cursor is at a byte boundary and the bytes `w` come next in its buffer. -/
def Stands (c : Cur) (w : List Byte) : Prop :=
  ∃ before after, c = ⟨before ++ (w ++ after), before.length, 0⟩

/-- The cursor `k` bytes further on. -/
def past (c : Cur) (k : Nat) : Cur := { c with pos := c.pos + k }

theorem past_past (c : Cur) (j k : Nat) : past (past c j) k = past c (j + k) := by
  simp only [past, Nat.add_assoc]

theorem Stands.left {c : Cur} {u v : List Byte} (h : Stands c (u ++ v)) : Stands c u := by
  obtain ⟨before, after, rfl⟩ := h
  exact ⟨before, v ++ after, by rw [List.append_assoc]⟩

theorem Stands.right {c : Cur} {u v : List Byte} (h : Stands c (u ++ v)) : Stands (past c u.length) v := by
  obtain ⟨before, after, rfl⟩ := h
  exact ⟨before ++ u, after, by simp [past]⟩

theorem Stands.has {c : Cur} {w : List Byte} (h : Stands c w) : c.has w.length = true := by
  obtain ⟨before, after, rfl⟩ := h
  simp [Cur.has]

theorem Stands.take {c : Cur} {w : List Byte} (h : Stands c w) : c.take w.length = .ok (w, past c w.length) := by
  rw [Cur.take, if_pos h.has]
  obtain ⟨before, after, rfl⟩ := h
  simp [past]

theorem Stands.readU8 {c : Cur} {b : Byte} (h : Stands c [b]) : c.readU8 = .ok (b, past c 1) := by
  refine (if_pos h.has).trans ?_
  obtain ⟨before, after, rfl⟩ := h
  simp [byteAt, past]

/-- A 32-bit field is read back from its four bytes (R62, R134). -/
theorem Stands.readU32be {c : Cur} {w : Word} (h : Stands c (be32 w)) : c.readU32be = .ok (w, past c 4) := by
  have field : u32At c.buf c.pos = w := by
    refine Eq.trans ?_ (pixel_bytes .big w)
    obtain ⟨before, after, rfl⟩ := h
    simp [pixelOfBytes, pixelBytes, u32At, byteAt, be32]
  refine (if_pos h.has).trans ?_
  rw [field]
  rfl

/-! ## Chunks -/

theorem encodeChunk_length (t : Word) (data : List Byte) (crc : Word) :
    (encodeChunk t data crc).length = 8 + data.length + 4 := by
  simp [encodeChunk, be32]
  omega

/-- The fields of a chunk are read back one after the other (R92, R152). -/
theorem Stands.decodeChunk {c : Cur} {t crc : Word} {data : List Byte} (h : Stands c (encodeChunk t data crc))
    {maxLen : Nat} (hmax : data.length ≤ maxLen) (h32 : data.length < 2 ^ 32) (fdat : Word) :
    decodeChunk maxLen fdat c
      = .ok (decodeChunkType fdat t data crc, past c (encodeChunk t data crc).length) := by
  have h : Stands c (be32 (BitVec.ofNat 32 data.length) ++ (be32 t ++ (data ++ be32 crc))) := by
    simpa [encodeChunk] using h
  have atType : Stands (past c 4) (be32 t ++ (data ++ be32 crc)) := h.right
  have atData : Stands (past c 8) (data ++ be32 crc) := atType.right
  have atCrc : Stands (past (past c 8) data.length) (be32 crc) := atData.right
  have readType : (past c 4).readType = .ok (be32 t, past c 8) := atType.left.take
  have rest := atData.has
  rw [List.length_append] at rest
  have len : (BitVec.ofNat 32 data.length).toNat = data.length := Nat.mod_eq_of_lt h32
  have code : u32At (be32 t) 0 = t := pixel_bytes .big t
  simp only [Sys2Proof.decodeChunk, h.left.readU32be, readType, len, if_neg (Nat.not_lt.mpr hmax)]
  refine (if_pos rest).trans ?_
  simp only [atData.left.take, atCrc.readU32be, code]
  simp only [past_past, encodeChunk_length]

/-! ## Elements -/

/-- FDAT_TYPE selects the frame data: it is none of the nine other recognised types (R7, R93). -/
theorem decodeChunkType_fdat {c : Config} (hl : Config.legal c = true) (data : List Byte) (crc : Word) :
    decodeChunkType c.fdatType c.fdatType data crc = .fdat data crc := by
  simp [Config.legal] at hl
  simp [decodeChunkType, hl]

/-- IEND's type is not FDAT_TYPE, which is compared before it (R7, R93). -/
theorem decodeChunkType_iend {c : Config} (hl : Config.legal c = true) (data : List Byte) (crc : Word) :
    decodeChunkType c.fdatType 0x49454E44 data crc = .iend data crc := by
  simp [Config.legal] at hl
  simp [decodeChunkType, @eq_comm _ _ c.fdatType, hl]

theorem decodeChunkType_unknown {c : Config} {t : Word} (ht : (knownTypes c).contains t = false) (data : List Byte)
    (crc : Word) : decodeChunkType c.fdatType t data crc = .chunkUnknown t data crc := by
  simp [knownTypes] at ht
  simp [decodeChunkType, ht]

theorem decodeFilter_illegal {b : Byte} (h : 5 ≤ b.toNat) : decodeFilter b = .fIllegal b := by
  unfold decodeFilter
  split
  case h_6 => rfl
  all_goals omega

theorem decodeFormat_illegal {ct d : Byte} (h : legalFormat ct d = false) :
    decodeFormat ct d = .pixfmtIllegal ct d := by
  unfold legalFormat at h
  unfold decodeFormat
  split at h
  case h_16 => simp_all
  all_goals cases h

theorem decodeDispose_illegal {b : Byte} (h : 3 ≤ b.toNat) : decodeDispose b = .dIllegal b := by
  unfold decodeDispose
  split
  case h_4 => rfl
  all_goals omega

theorem decodeBlend_illegal {b : Byte} (h : 2 ≤ b.toNat) : decodeBlend b = .bIllegal b := by
  unfold decodeBlend
  split
  case h_3 => rfl
  all_goals omega

/-- A legal maximum leaves the length of a chunk's data in its 32-bit field (R7, R92). -/
theorem maxChunkLen_lt {c : Config} (hl : Config.legal c = true) : c.maxChunkLen < 2 ^ 32 := by
  simp [Config.legal] at hl
  omega

section Levels
variable {c : Cur} {i : Instr} {b : Byte}

theorem Stands.decodeScanline (h : Stands c [b]) (hi : decodeFilter b = i) :
    decode .scanline c = .ok (i, past c 1) := by
  simp only [decode, h.readU8, hi]

theorem Stands.decodeDisposeOp (h : Stands c [b]) (hi : decodeDispose b = i) :
    decode .dispose c = .ok (i, past c 1) := by
  simp only [decode, h.readU8, hi]

theorem Stands.decodeBlendOp (h : Stands c [b]) (hi : decodeBlend b = i) : decode .blend c = .ok (i, past c 1) := by
  simp only [decode, h.readU8, hi]

theorem Stands.decodePixFmt {ct d : Byte} (h : Stands c [d, ct]) (hi : decodeFormat ct d = i) :
    decode .pixFmt c = .ok (i, past c 2) := by
  have := h.take
  simp only [List.length_cons, List.length_nil] at this
  simp only [decode, this, byteAt, List.getD_cons_zero, List.getD_cons_succ, hi]

theorem Stands.decodeSig {rest : List Byte} (h : Stands c (0x89 :: rest)) (h7 : rest.length = 7) :
    decode .signature c = .ok (.sig rest, past c 8) := by
  have h : Stands c ([0x89] ++ rest) := h
  have tail : (past c 1).take rest.length = .ok (rest, past (past c 1) rest.length) := h.right.take
  rw [h7] at tail
  simp only [decode, Sys2Proof.decodeSig, h.left.readU8, tail, if_true, past_past]

end Levels

/-- Where the bytes of an element stand, its level decodes it. -/
theorem decode_encodeBytes {c : Config} {i : Instr} {lv : Level} {bytes : List Byte} {d : Cur}
    (hl : Config.legal c = true) (hw : i.wf c = true) (hlv : i.byteLevel c = some lv)
    (hb : encodeBytes c.fdatType i = some bytes) (h : Stands d bytes) : decode lv d = .ok (i, past d bytes.length) := by
  have chunk {t crc : Word} {data : List Byte} (hs : Stands d (encodeChunk t data crc))
      (hlen : data.length ≤ c.maxChunkLen) (hi : decodeChunkType c.fdatType t data crc = i) :
      decode (.chunk c.maxChunkLen c.fdatType) d = .ok (i, past d (encodeChunk t data crc).length) :=
    hi ▸ hs.decodeChunk hlen (hlen.trans_lt (maxChunkLen_lt hl)) c.fdatType
  cases i <;> cases hlv <;> cases hb
  case sig rest =>
    have h7 : rest.length = 7 := of_decide_eq_true hw
    rw [List.length_cons, h7]
    exact h.decodeSig h7
  case ihdr | plte | trns | bkgd | gama | idat | actl | fctl => exact chunk h (of_decide_eq_true hw) rfl
  case fdat => exact chunk h (of_decide_eq_true hw) (decodeChunkType_fdat hl _ _)
  case iend => exact chunk h (of_decide_eq_true hw) (decodeChunkType_iend hl _ _)
  case chunkUnknown =>
    simp only [Instr.wf, Bool.and_eq_true, decide_eq_true_eq, Bool.not_eq_true'] at hw
    exact chunk h hw.1 (decodeChunkType_unknown hw.2 _ _)
  case zhdr =>
    have hlen : bytes.length = c.zlibHdrSkip := of_decide_eq_true hw
    simp only [decode, decodeZhdr, ← hlen, h.take]
  case fNone | fSub | fUp | fAvg | fPaeth => exact h.decodeScanline rfl
  case fIllegal => exact h.decodeScanline (decodeFilter_illegal (of_decide_eq_true hw))
  case g1 | g2 | g4 | g8 | g16 | rgb8 | rgb16 | p1 | p2 | p4 | p8 | ga8 | ga16 | rgba8 | rgba16 =>
    exact h.decodePixFmt rfl
  case pixfmtIllegal => exact h.decodePixFmt (decodeFormat_illegal (by simpa [Instr.wf] using hw))
  case dNone | dBackground | dPrevious => exact h.decodeDisposeOp rfl
  case dIllegal => exact h.decodeDisposeOp (decodeDispose_illegal (of_decide_eq_true hw))
  case bSource | bOver => exact h.decodeBlendOp rfl
  case bIllegal => exact h.decodeBlendOp (decodeBlend_illegal (of_decide_eq_true hw))

/-- Settles O55: the encoding stands at the cursor after the bytes before it. -/
theorem decodeEncodeBytes : Obligations.DecodeEncodeBytes := by
  intro c i lv before bytes after hl hw hlv hb
  rw [List.append_assoc]
  exact decode_encodeBytes hl hw hlv hb ⟨before, after, rfl⟩

/-- Settles O54, by running the decoder on each word. -/
theorem decodeWords : Obligations.DecodeWords := by
  and_intros <;> rfl

end Sys2Proof.Machine
end


section
/-! Decoding what the encoder wrote, in the bit stream (R105 to R107, R137 to R139): statement DecodeEncodeBits. -/

namespace Sys2Proof.Machine

/-- Two fields that stand one after the other are what two reads return (R138, R140). -/
theorem readBits_two {d : Cur} {m n v w : Nat} (hd : d.bit < 8) (hv : v < 2 ^ m) (hw : w < 2 ^ n)
    (h : d.bits.take (m + n) = natBits m v ++ natBits n w) :
    d.readBits m = .ok (v, d.advance m) ∧ (d.advance m).readBits n = .ok (w, d.advance (m + n)) := by
  have hlen : (natBits m v ++ natBits n w).length = m + n := by simp only [List.length_append, natBits_length]
  obtain ⟨first, rest⟩ := Cur.field hd hv (hlen ▸ h)
  rw [natBits_length] at rest
  exact ⟨first, (Cur.readBits_of _ n w (Cur.advance_bit d m) hw rest).trans (by rw [Cur.advance_advance])⟩

/-- The element of a block header, by BTYPE (R105). -/
def blkElement (btype : Nat) (final : Bool) : Instr :=
  match btype with
  | 0 => .blkStored final
  | 1 => .blkStatic final
  | 2 => .blkDynamic final
  | _ => .blkReserved final

/-- BFINAL in one bit, then BTYPE in two (R105). -/
theorem decodeBlkHdr_of_bits {d : Cur} {f : Bool} {t : Nat} (hd : d.bit < 8) (ht : t < 4)
    (h : d.bits.take 3 = natBits 1 f.toNat ++ natBits 2 t) :
    decode .blkHdr d = .ok (blkElement t f, d.advance 3) := by
  obtain ⟨readFinal, readType⟩ := readBits_two (m := 1) (n := 2) hd (Bool.toNat_lt f) ht h
  have final : (f.toNat == 1) = f := by cases f <;> rfl
  simp only [decode, decodeBlkHdr, readFinal, readType, final, blkElement]
  interval_cases t <;> rfl

/-- LEN and NLEN in sixteen bits each, from the next byte boundary (R106, R139). -/
theorem decodeStored_of_bits {d : Cur} {len nlen : Half} (hd : d.align.bit < 8)
    (h : d.align.bits.take 32 = natBits 16 len.toNat ++ natBits 16 nlen.toNat) :
    decode .stored d = .ok (.storedBody len nlen, d.align.advance 32) := by
  obtain ⟨hlen, hnlen⟩ := readBits_two hd len.isLt nlen.isLt h
  simp only [decode, decodeStored, hlen, hnlen, BitVec.ofNat_toNat, BitVec.setWidth_eq]

/-- HLIT, HDIST, HCLEN, then HCLEN + 4 code lengths of three bits each (R107). -/
theorem decodeDynHdr_of_bits {d : Cur} {hl hdist : BitVec 5} {hc : BitVec 4} {vs : List (BitVec 3)} (hd : d.bit < 8)
    (hvs : vs.length = hc.toNat + 4) {bits : List Bool} (hb : bits = natBits 5 hl.toNat ++ (natBits 5 hdist.toNat
      ++ (natBits 4 hc.toNat ++ vs.flatMap fun v => natBits 3 v.toNat))) (h : d.bits.take bits.length = bits) :
    decode .dynHdr d = .ok (.dynHdr hl hdist hc vs, d.advance bits.length) := by
  subst hb
  obtain ⟨h1, r1⟩ := Cur.field hd hl.isLt h
  obtain ⟨h2, r2⟩ := Cur.field (Cur.advance_bit _ _) hdist.isLt r1
  obtain ⟨h3, r3⟩ := Cur.field (Cur.advance_bit _ _) hc.isLt r2
  have h4 := readClLens_of vs _ (Cur.advance_bit _ _) r3
  rw [hvs] at h4
  simp only [decode, decodeDynHdr, h1, h2, h3, h4, BitVec.ofNat_toNat, BitVec.setWidth_eq]
  simp only [Cur.advance_advance, List.length_append, natBits_length, triple_length, hvs, Nat.add_assoc]

theorem align_bit {d : Cur} (hd : d.bit < 8) : d.align.bit < 8 := by
  unfold Cur.align
  split
  · exact hd
  · exact Nat.zero_lt_succ 7

/-- Settles O56, element by element: the encoding of each is its fields, the least significant bit first (R138). -/
theorem decodeEncodeBits : Obligations.DecodeEncodeBits := by
  intro c i lv lens bits d e hw hlv hb hd he h
  cases i <;> cases hlv <;> cases hb <;> subst he
  case blkStored f => exact decodeBlkHdr_of_bits (t := 0) hd (by decide) (h.trans (by cases f <;> rfl))
  case blkStatic f => exact decodeBlkHdr_of_bits (t := 1) hd (by decide) (h.trans (by cases f <;> rfl))
  case blkDynamic f => exact decodeBlkHdr_of_bits (t := 2) hd (by decide) (h.trans (by cases f <;> rfl))
  case blkReserved f => exact decodeBlkHdr_of_bits (t := 3) hd (by decide) (h.trans (by cases f <;> rfl))
  case storedBody len nlen => exact decodeStored_of_bits (align_bit hd) h
  case dynHdr => exact decodeDynHdr_of_bits hd (of_decide_eq_true hw) (by simp only [List.append_assoc]) h

end Sys2Proof.Machine
end


section
/-! The Huffman symbols as encodings (R108, R109, R111, R113, R205, R206, R212, R215): statement DecodeEncodeSymbols. -/

namespace Sys2Proof.Machine

/-! ## Symbol numbers -/

/-- Where the table of symbols has symbol `n` of an alphabet. -/
def symbolPlace (k : Kind) (n : Nat) : Nat :=
  match k with
  | .cl => n
  | .litlen => n - 237
  | .dist => n + 51

/-- The decoder's and the encoder's symbol number of each row of the table. -/
theorem symbol_of_mem {e : Kind × Nat × Instr} (h : e ∈ symbolTable) : e.2.2.symbol = some (e.1, e.2.1) := by
  have rows : symbolTable.map (fun e => e.2.2.symbol) = symbolTable.map fun e => some (e.1, e.2.1) := rfl
  exact List.map_inj_left.mp rows e h

theorem standsFor_of_place {k : Kind} {n : Nat} {i : Instr} (h : symbolTable[symbolPlace k n]? = some (k, n, i)) :
    standsFor k n i := .inl (List.mem_of_getElem? h)

theorem standsFor_of_symbol {k : Kind} {n : Nat} {i : Instr} (h : i.symbol = some (k, n)) : standsFor k n i := by
  cases i <;> cases h
  case lit.refl b => exact .inr ⟨rfl, b.isLt, by simp⟩
  all_goals exact standsFor_of_place rfl

theorem symbol_iff_standsFor (k : Kind) (n : Nat) (i : Instr) : i.symbol = some (k, n) ↔ standsFor k n i := by
  refine ⟨standsFor_of_symbol, ?_⟩
  rintro (h | ⟨rfl, hn, rfl⟩)
  · exact symbol_of_mem h
  · simp only [Instr.symbol, BitVec.toNat_ofNat, Nat.mod_eq_of_lt hn]

/-- A symbol is encoded as its bits under the code lengths in force (R108). -/
theorem encodeBits_symbol {i : Instr} {k : Kind} {n : Nat} (h : i.symbol = some (k, n)) (lens : List Nat) :
    encodeBits lens i = some (symbolBits lens n) := by
  cases i <;> cases h <;> rfl

/-! ## The tree of the code lengths -/

/-- The tree before the first insertion holds no path (R206). -/
theorem rep_nil : Rep (.node .absent .absent) [] := by
  have below (b : Bool) (v : List Bool) : Tree.along (.node .absent .absent) (b :: v) = .absent := by cases b <;> simp
  refine ⟨nofun, fun v m hv => ?_, fun v x y hv => ?_⟩
  · cases v with
    | nil => cases hv
    | cons b v => exact absurd ((below b v).symm.trans hv) nofun
  · cases v with
    | nil => exact .inl rfl
    | cons b v => exact absurd ((below b v).symm.trans hv) nofun

section Built
variable {lens : List Nat} (hl : ∀ l ∈ lens, l ≤ 15) (hk : kraft lens) {n a c : Nat} (ha : lens[n]? = some a)
  (h0 : a ≠ 0) (hc : (assignCodes lens)[n]? = some c)

include ha hc in
theorem symbolBits_eq : symbolBits lens n = codeBits a c := by
  simp only [symbolBits, List.getD_eq_getElem?_getD, ha, hc, Option.getD_some]

/-- A pair of a length and its code, by the symbol. -/
theorem zip_codes {p : Nat × Nat} {j : Nat} (hp : (lens.zip (assignCodes lens))[j]? = some p) :
    lens[j]? = some p.1 ∧ (assignCodes lens)[j]? = some p.2 := by
  obtain ⟨l, c⟩ := p
  exact List.getElem?_zip_eq_some.mp hp

include hl hk ha h0 hc in
/-- Under the Kraft inequality the tree is whole, and each symbol's code leads to its leaf (R206, R215). -/
theorem buildTree_leaf (k : Kind) :
    (buildTree k lens).1.malformed = false ∧ (buildTree k lens).1.empty = false
      ∧ Tree.along (buildTree k lens).1.root (codeBits a c) = .leaf (leafOf k n) := by
  obtain ⟨whole, -, -, leaves⟩ := insertAll_spec k (lens.zip (assignCodes lens)) 0 ⟨.node .absent .absent, false, true⟩ 1
    [] rfl rep_nil
    (fun i p hp hp0 => code_bound hl hk (zip_codes hp).1 hp0 (zip_codes hp).2)
    (fun i j p q hij hp hq hp0 hq0 =>
      codes_apart hl hk hij (zip_codes hp).1 (zip_codes hq).1 hp0 hq0 (zip_codes hp).2 (zip_codes hq).2)
    nofun
  obtain ⟨leaf, full⟩ := leaves n (a, c) (List.getElem?_zip_eq_some.mpr ⟨ha, hc⟩) h0
  rw [Nat.zero_add] at leaf
  exact ⟨whole, full, leaf⟩

include hl hk ha h0 hc in
/-- Where the code of a symbol stands, the tree decodes the symbol (R212). -/
theorem decode_symbol {k : Kind} {i : Instr} (hi : symInstr k n = some i) {d : Cur} (hd : d.bit < 8)
    (h : d.bits.take a = codeBits a c) : decode (.sym k (buildTree k lens).1) d = .ok (i, d.advance a) := by
  obtain ⟨whole, full, leaf⟩ := buildTree_leaf hl hk ha h0 hc k
  obtain ⟨next, inside⟩ := Cur.next_of_take (codeBits_length a c) h
  have walk := walk_along_leaf a _ d _ hd inside (next.symm ▸ leaf)
  simp [decode, decodeSym, TreeReg.decode, whole, full, walk, hi]

end Built

/-- Settles O60: the tables agree row by row, and under Kraft the code of a symbol leads to its own leaf. -/
theorem decodeEncodeSymbols : Obligations.DecodeEncodeSymbols := by
  refine ⟨fun k n i => ?_, fun k n i lens a c d hi hl hk ha h0 hc => ?_⟩
  · exact ⟨(symInstr_symbol k n i).trans (symbol_iff_standsFor k n i), symbol_iff_standsFor k n i⟩
  · have symbol := (symbol_iff_standsFor k n i).mpr hi
    refine ⟨(encodeBits_symbol symbol lens).trans (congrArg some (symbolBits_eq ha hc)), ?_⟩
    exact decode_symbol hl hk ha h0 hc ((symInstr_symbol k n i).mpr symbol)

end Sys2Proof.Machine
end


section
/-! A step of the core runs the element that is due (R90, R150, R178, R230, R236, R330, R346, R422): statement
StepRunsElement. -/

namespace Sys2Proof.Machine

/-- An element decoded from a stream runs with the cursor moved past it (R28, R90). -/
theorem step_decoded {s : State} (ht : coreTurn s) {r : Reader} {lv : Level} (hl : streamLevel s = some (r, lv))
    {i : Instr} {c : Cur} (hd : decode lv (s.cur r) = .ok (i, c)) : step s = exec i (s.putCur r c) :=
  step_element ht.1 ht.2 ((fetch_stream hl).trans (fetchAt_ok hd))

theorem step_rejected {s : State} (ht : coreTurn s) {r : Reader} {lv : Level} (hl : streamLevel s = some (r, lv))
    {e : Reject} (hd : decode lv (s.cur r) = .error e) : step s = rejected e s :=
  step_reject ht.1 ht.2 ((fetch_stream hl).trans (fetchAt_error hd))

theorem rejected_kind {e : Reject} {k : ErrKind} (h : rejectKind e = some k) (s : State) :
    rejected e s = .next (trap k s) := by
  simp only [rejected, h, raise_eq]

theorem step_stop {s : State} (ht : coreTurn s) {f : Fault} (hf : fetch s = .stop f) : step s = .fault f := by
  simp only [step_core ht.1, coreStep, ht.2, hf]

theorem fetch_rows {s : State} (hp : s.phase = .rows) : fetch s = fetchRow s := by
  simp only [fetch, streamLevel, fetchOther, hp]

/-- The filter of a row is selected by the byte before it (R178, R271). -/
theorem fetchRow_filter {s : State} (hr : s.job.row < s.job.h.toNat) {b : Byte}
    (hb : s.out[s.job.row * (1 + s.job.bpl)]? = some b) : fetchRow s = .element (decodeFilter b) s := by
  obtain ⟨hlt, rfl⟩ := List.getElem?_eq_some_iff.mp hb
  have has : (Cur.mk s.out (s.job.row * (1 + s.job.bpl)) 0).has 1 = true := decide_eq_true hlt
  simp only [fetchRow, if_neg (Nat.not_le.mpr hr), decode, Cur.readU8, has, if_true, byteAt,
    List.getD_eq_getElem _ _ hlt]

/-- Settles O53, by what is fetched at each point. -/
theorem stepRunsElement : Obligations.StepRunsElement := by
  intro s
  refine ⟨step_core, fun rest hq => step_host hq, fun hq hb => (step_core hq).trans (coreStep_resting hb), fun ht => ?_⟩
  refine ⟨fun r lv hl => ⟨fun i c hd => step_decoded ht hl hd, fun e k hd hk => ?_⟩, fun hp hr b hb => ?_,
    fun hp hh => ?_, fun hp => ?_, fun hp f hf => ?_, fun hp ha f hf => ?_⟩
  · exact (step_rejected ht hl hd).trans (rejected_kind hk s)
  all_goals apply step_element ht.1 ht.2
  · exact (fetch_rows hp).trans (fetchRow_filter hr hb)
  · simp [fetch, streamLevel, fetchOther, hp, hh]
  · simp only [fetch, streamLevel, fetchOther, hp]
  · simp only [fetch, streamLevel, fetchOther, hp, frameIndex, hf]
  · simp [fetch, streamLevel, fetchOther, hp, frameIndex, ha, hf, effDispose, effective]

end Sys2Proof.Machine
end


section
/-! The illegal elements, and the forms no rule gives an effect (R120; logs 4, 11, 22, 24): statement
IllegalElementsAndStops. -/

namespace Sys2Proof.Machine

/-! ## Reading and copying -/

theorem byteOp_unaligned {α : Type} {s : State} {r : Reader} (h : (s.cur r).bit ≠ 0)
    (read : Cur → Except Reject (α × Cur)) (res : α → ReadResult) : byteOp r read res s = .fault .readerNotAligned :=
  if_pos h

/-- Off a byte boundary the byte reads of the payload have no effect (R132 to R134, R136). -/
theorem byteReads_unaligned {s : State} (h : s.ib ≠ 0) :
    ∀ i ∈ [Instr.readU8 .pay, .readU16be .pay, .readU32be .pay, .readType .pay],
      exec i s = .fault .readerNotAligned := by
  have h : (s.cur .pay).bit ≠ 0 := h
  simp only [List.forall_mem_cons]
  exact ⟨byteOp_unaligned h _ _, byteOp_unaligned h _ _, byteOp_unaligned h _ _, byteOp_unaligned h _ _, nofun⟩

/-- Nor has the copy of a stored block (R234). -/
theorem storedBody_unaligned {s : State} (h : s.ib ≠ 0) {len : Half} (hg : grants s 1 len.toNat) (nlen : Half) :
    exec (.storedBody len nlen) s = .fault .readerNotAligned :=
  (allocs_granted _ hg).trans (if_pos h)

/-- A code length beyond the counts (R210). -/
theorem codeLength_beyond {s : State} (h : s.hlit + s.hdist ≤ s.li) :
    ∀ i ∈ clTable.map Prod.fst ++ repeatTable.map Prod.fst, exec i s = .fault .lengthSlotOutOfRange := by
  have full : (!lengthSlotOk s) = true := by simp [lengthSlotOk, Nat.not_lt.mpr h]
  simp only [clTable, repeatTable, List.map_cons, List.map_nil, List.cons_append, List.nil_append, List.forall_mem_cons,
    List.not_mem_nil, false_implies, implies_true, and_true]
  and_intros
  all_goals exact if_pos full

/-! ## A leaf outside its alphabet -/

theorem follow_eq_along (t : Tree) (bs : List Bool) : follow t bs = Tree.along t bs := by
  induction bs generalizing t with
  | nil => cases t <;> rfl
  | cons b bs ih =>
    cases t with
    | node l r => exact ih _
    | absent => rfl
    | leaf m => rfl

/-- The payload's next bits in the words of the statements and of the cursor. -/
theorem nextBits_eq (s : State) (n : Nat) : nextBits s n = Cur.next (s.cur .pay) n := rfl

theorem step_outsideAlphabet {s : State} (ht : coreTurn s) (hb : s.ib < 8) {k : Kind} {t : TreeReg}
    (hl : streamLevel s = some (.pay, .sym k t)) (he : t.empty = false) (hm : t.malformed = false) {n : Nat}
    (hn : payHas s n) {l : Leaf} (hf : follow t.root (nextBits s n) = .leaf l) (ho : ∀ i, ¬standsFor k l.symbol i) :
    step s = .fault .symbolOutsideAlphabet := by
  rw [follow_eq_along, nextBits_eq] at hf
  have walk := walk_along_leaf n t.root (s.cur .pay) l hb (.inr hn) hf
  have noSymbol : symInstr k l.symbol = none := Option.eq_none_iff_forall_ne_some.mpr fun i hi =>
    ho i ((symbol_iff_standsFor k l.symbol i).mp ((symInstr_symbol k l.symbol i).mp hi))
  have outside : decode (.sym k t) (s.cur .pay) = .error .outsideAlphabet := by
    simp [decode, decodeSym, TreeReg.decode, he, hm, walk, noSymbol]
  exact step_rejected ht hl outside

/-! ## No header, no animation control -/

section NoHeader
variable {s : State} (hh : s.haveIhdr = false)
include hh

theorem startDecode_noHeader (w h x y : Word) (delay : Nat) (d b : Byte) (k : Resume) :
    startDecode w h x y delay d b k s = .fault .headerNotValid := by
  simp only [startDecode, hh, Bool.not_false, if_true]

theorem filters_noHeader : ∀ e ∈ filterTable, exec e.1 s = .fault .headerNotValid := by
  have missing : (!s.haveIhdr) = true := by rw [hh]; rfl
  simp only [filterTable, List.forall_mem_cons]
  exact ⟨if_pos missing, if_pos missing, if_pos missing, if_pos missing, if_pos missing, nofun⟩

/-- IEND with a frame to decode (R174, R176). -/
theorem iend_noHeader (h : s.fctlValid = true ∨ (s.acc ≠ [] ∧ s.animated = false)) (data : List Byte) (crc : Word) :
    exec (.iend data crc) s = .fault .headerNotValid := by
  change finishFrame .iend s = _
  unfold finishFrame
  by_cases hv : s.fctlValid = true
  · rw [if_pos hv, startDecode_noHeader hh]
  · rw [if_neg hv, if_pos (h.resolve_left hv), startDecode_noHeader hh]

/-- The choice of the pixel format, placement, and the storing of a frame (R116, R334, R178). -/
theorem step_noHeader (ht : coreTurn s)
    (hp : s.phase = .pixels ∨ s.phase = .place ∨ (s.phase = .rows ∧ s.job.h.toNat ≤ s.job.row)) :
    step s = .fault .headerNotValid := by
  rcases hp with hp | hp | ⟨hp, hr⟩
  · exact step_stop ht (by simp [fetch, streamLevel, fetchOther, hp, hh])
  · refine (step_act (a := .place) ht.1 ht.2 (by simp only [fetch, streamLevel, fetchOther, hp])).trans ?_
    simp [runAct, place, hh]
  · refine (step_act (a := .storeFrame) ht.1 ht.2 ?_).trans ?_
    · rw [fetch_rows hp, fetchRow, if_pos hr]
    · simp [runAct, storeFrame, hh]

end NoHeader

/-- tRNS and bKGD under a colour type that no IHDR accepts (R162, R164). -/
theorem trns_bkgd_noFormat {s : State} (hh : s.haveIhdr = true)
    (hc : s.hdr.ctype.toNat ∉ channelTable.map Prod.fst) (data : List Byte) (crc : Word) :
    exec (.trns data crc) s = .fault .headerNotValid ∧ exec (.bkgd data crc) s = .fault .headerNotValid := by
  simp only [channelTable, List.map_cons, List.map_nil, List.mem_cons, List.not_mem_nil, or_false, not_or] at hc
  have len : bkgdLen s.hdr.ctype = none := by
    unfold bkgdLen
    split
    case h_6 => rfl
    all_goals omega
  constructor
  · change execTrns data crc s = _
    simp only [execTrns, hh, Bool.not_true, Bool.false_eq_true, if_false]
    split
    case h_6 => rfl
    all_goals omega
  · change execBkgd data crc s = _
    simp [execBkgd, hh, len]

/-- The head of the animation's loops (R345). -/
theorem step_at_loop {s : State} (ht : coreTurn s) (hp : s.phase = .loop) : step s = loopTest s :=
  step_act (a := .loop) ht.1 ht.2 (by simp only [fetch, streamLevel, fetchOther, hp])

/-- The animation rules without acTL (R345, R346). -/
theorem step_notAnimated {s : State} (ht : coreTurn s) (hp : s.phase ∈ [Phase.animate, .loop, .dispose])
    (ha : s.animated = false) : step s = .fault .animationNotValid := by
  simp only [List.mem_cons, List.not_mem_nil, or_false] at hp
  rcases hp with hp | hp | hp
  · refine (step_act (a := .animate) ht.1 ht.2 (by simp only [fetch, streamLevel, fetchOther, hp])).trans ?_
    simp [runAct, animate, ha]
  · refine (step_at_loop ht hp).trans ?_
    simp [loopTest, ha]
  · exact step_stop ht (by simp [fetch, streamLevel, fetchOther, hp, ha])

/-! ## Rows that are not there -/

theorem filterRow_noRow {s : State} (hh : s.haveIhdr = true)
    (ho : s.out.length < (s.job.row + 1) * (1 + s.job.bpl)) (pred : Nat → Nat → Nat → Nat) :
    filterRow pred s = .fault .rowOutOfRange := by
  simp [filterRow, hh, ho]

theorem filters_noRow {s : State} (hh : s.haveIhdr = true)
    (ho : s.out.length < (s.job.row + 1) * (1 + s.job.bpl)) : ∀ e ∈ filterTable, exec e.1 s = .fault .rowOutOfRange := by
  simp only [filterTable, List.forall_mem_cons, List.not_mem_nil, false_implies, implies_true, and_true]
  and_intros
  all_goals exact filterRow_noRow hh ho _

theorem expandRow_noRow {s : State} {bpp : Nat} (hr : ¬rowThere s bpp)
    (pixel : State → (Nat → Byte) → Nat → Option Pixel) : expandRow bpp pixel s = .fault .rowOutOfRange :=
  if_pos (Nat.lt_of_not_le hr)

theorem formats_noRow {s : State} : ∀ e ∈ bppTable, ¬rowThere s e.2 → exec e.1 s = .fault .rowOutOfRange := by
  simp only [bppTable, List.forall_mem_cons, List.not_mem_nil, false_implies, implies_true, and_true]
  and_intros
  all_goals exact fun hr => expandRow_noRow hr _

/-- The filter byte's fetch (R178, R271). -/
theorem step_noFilterByte {s : State} (ht : coreTurn s) (hp : s.phase = .rows) (hr : s.job.row < s.job.h.toNat)
    (ho : s.out.length ≤ s.job.row * (1 + s.job.bpl)) : step s = .fault .rowOutOfRange := by
  have missing : (Cur.mk s.out (s.job.row * (1 + s.job.bpl)) 0).has 1 = false :=
    decide_eq_false (Nat.not_le.mpr (Nat.lt_succ_of_le ho))
  refine step_stop ht ?_
  simp [fetch_rows hp, fetchRow, Nat.not_le.mpr hr, decode, Cur.readU8, missing]

/-! ## Frames that cannot be painted -/

theorem withFrame_none {s : State} (hf : s.frames[frameIndex s]? = none) (k : Frame → Out) :
    withFrame s k = .fault .noSuchFrame := by
  simp only [withFrame, hf]

section Visit
variable {s : State} {f : Frame} (hf : s.frames[frameIndex s]? = some f)
include hf

theorem withFrame_incomplete (hw : f.pix.length ≠ f.w.toNat * f.h.toNat) (k : Frame → Out) :
    withFrame s k = .fault .frameIncomplete := by
  simp only [withFrame, hf, if_pos hw]

theorem withFrame_offCanvas (hw : f.pix.length = f.w.toNat * f.h.toNat) (hc : frameOnCanvas s f = false)
    (k : Frame → Out) : withFrame s k = .fault .frameOffCanvas := by
  simp [withFrame, hf, hw, hc]

theorem withFrame_paints (hw : f.pix.length = f.w.toNat * f.h.toNat) (hc : frameOnCanvas s f = true)
    (k : Frame → Out) : withFrame s k = k f := by
  simp [withFrame, hf, hw, hc]

end Visit

/-- Every painter starts with the tests on its frame. -/
theorem painters_stop {s : State} {e : Fault} (h : ∀ k, withFrame s k = .fault e) :
    ∀ i ∈ painters, exec i s = .fault e := by
  simp only [painters, List.forall_mem_cons]
  exact ⟨h _, h _, h _, h _, nofun⟩

/-- Where a snapshot is due the step takes it (R345, R348). -/
theorem step_snapshotDue {s : State} {f : Frame} (hf : s.frames[frameIndex s]? = some f) (hd : snapshotDue s f) :
    step s = takeSnapshot s := by
  obtain ⟨ht, hp, ha, hplay, hidx, he⟩ := hd
  have hf : s.frames[s.fidx]? = some f := by simpa only [frameIndex, ha, if_true] using hf
  refine (step_at_loop ht hp).trans ?_
  have eff : effDispose s f = 2 := he
  simp [loopTest, ha, Nat.not_le.mpr hplay, Nat.not_le.mpr hidx, hf, eff]

theorem visitStops_of_withFrame {s : State} {f : Frame} {e : Fault} (hf : s.frames[frameIndex s]? = some f)
    (h : ∀ k, withFrame s k = .fault e) : visitStops s f e :=
  ⟨painters_stop h, fun hd => (step_snapshotDue hf hd).trans (h _)⟩

/-- The points of the pseudocode that need the current frame (R331, R345, R346). -/
theorem step_noFrame {s : State} (ht : coreTurn s) (hf : s.frames[frameIndex s]? = none)
    (hp : s.phase = .composite ∨ s.phase = .hold ∨ (s.animated = true ∧ (s.phase = .dispose
      ∨ (s.phase = .loop ∧ s.play < s.plays ∧ s.fidx < s.numFrames.toNat)))) : step s = .fault .noSuchFrame := by
  rcases hp with hp | hp | ⟨ha, hp | ⟨hp, hplay, hidx⟩⟩
  · exact step_stop ht (by simp only [fetch, streamLevel, fetchOther, hp, hf])
  · refine (step_act (a := .hold) ht.1 ht.2 (by simp only [fetch, streamLevel, fetchOther, hp])).trans ?_
    simp only [runAct, hold, hf]
  · exact step_stop ht (by simp [fetch, streamLevel, fetchOther, hp, ha, hf])
  · have hf : s.frames[s.fidx]? = none := by simpa only [frameIndex, ha, if_true] using hf
    refine (step_at_loop ht hp).trans ?_
    simp only [loopTest, ha, Bool.not_true, Bool.false_eq_true, if_false, if_neg (Nat.not_le.mpr hplay),
      if_neg (Nat.not_le.mpr hidx), hf]

/-- Settles O52, stop by stop. -/
theorem illegalElementsAndStops : Obligations.IllegalElementsAndStops := by
  intro s
  refine ⟨fun _ _ => rfl, fun _ => ⟨rfl, rfl⟩, fun h => ?_, fun _ => rfl, codeLength_beyond,
    fun k t n l ht hb hl he hm hn hf ho => ?_, fun hh => ?_, trns_bkgd_noFormat, step_notAnimated, filters_noRow,
    formats_noRow, step_noFilterByte, fun hf => ?_, fun f hf => ⟨fun hw => ?_, fun hw => ⟨fun hc => ?_,
    fun hx hy hs => ?_⟩⟩⟩
  · exact ⟨byteReads_unaligned h, fun len nlen hg => storedBody_unaligned h hg nlen⟩
  · exact step_outsideAlphabet ht hb hl he hm hn hf ho
  · exact ⟨filters_noHeader hh, iend_noHeader hh, step_noHeader hh⟩
  · exact ⟨painters_stop (withFrame_none hf), fun ht => step_noFrame ht hf⟩
  · exact visitStops_of_withFrame hf (withFrame_incomplete hf hw)
  · refine visitStops_of_withFrame hf (withFrame_offCanvas hf hw ?_)
    simp only [frameOnCanvas, Bool.and_eq_false_iff, decide_eq_false_iff_not, Nat.not_le]
    exact hc
  · have on : frameOnCanvas s f = true := by simp only [frameOnCanvas, hx, hy, decide_true, Bool.and_self]
    exact (withFrame_paints hf hw on _).trans (if_pos hs)

end Sys2Proof.Machine
end


section
/-! The reader operations at whole bytes (R130 to R136, R139): statements NeedSkipAlign and ByteReads. -/

namespace Sys2Proof.Machine

/-! ## A reader's cursor in the words of the statements -/

theorem has_iff_readerHas (s : State) (r : Reader) (k : Nat) : (s.cur r).has k = true ↔ readerHas s r k := by
  rw [Cur.has, decide_eq_true_iff]
  cases r with
  | pay => exact Iff.rfl
  | src => simp only [cur_src_buf, cur_src_pos, source_length, readerHas]

theorem bit_eq_zero_iff_readerAtByte (s : State) (r : Reader) : (s.cur r).bit = 0 ↔ readerAtByte s r := by
  cases r <;> simp [readerAtByte]

@[simp] theorem putCur_past (s : State) (r : Reader) (k : Nat) : s.putCur r (past (s.cur r) k) = readerMoved s r k := by
  cases r <;> rfl

@[simp] theorem putCur_cur (s : State) (r : Reader) : s.putCur r (s.cur r) = s := by cases r <;> rfl

/-- The bytes that are there stand in the reader's buffer from its cursor on (R61, R130). -/
theorem byteAt_cur {s : State} {r : Reader} {k i : Nat} (h : readerHas s r k) (hi : i < k) :
    byteAt (s.cur r).buf ((s.cur r).pos + i) = readerByte s r i := by
  cases r with
  | pay => rfl
  | src => exact byteAt_source s _ (Nat.lt_of_lt_of_le (Nat.add_lt_add_left hi s.cp) h)

/-! ## Big-endian values -/

/-- A byte appended below a number (R62). -/
theorem toNat_append_byte {n : Nat} (x : BitVec n) (b : Byte) : (x ++ b).toNat = 2 ^ 8 * x.toNat + b.toNat := by
  rw [BitVec.toNat_append, ← Nat.shiftLeft_add_eq_or_of_lt b.isLt, Nat.shiftLeft_eq, Nat.mul_comm]

theorem u16At_toNat (d : List Byte) (i : Nat) :
    (u16At d i).toNat = 256 * (byteAt d i).toNat + (byteAt d (i + 1)).toNat :=
  toNat_append_byte _ _

theorem u32At_toNat (d : List Byte) (i : Nat) :
    (u32At d i).toNat = 2 ^ 24 * (byteAt d i).toNat + 2 ^ 16 * (byteAt d (i + 1)).toNat
      + 2 ^ 8 * (byteAt d (i + 2)).toNat + (byteAt d (i + 3)).toNat := by
  simp only [u32At, toNat_append_byte]
  omega

/-- Bytes taken from position `p` on, one by one. -/
theorem drop_take_eq_map_byteAt {d : List Byte} {p k : Nat} (h : p + k ≤ d.length) :
    (d.drop p).take k = (List.range k).map fun i => byteAt d (p + i) := by
  refine List.ext_getElem ?_ fun i hi _ => ?_
  · simp only [List.length_take, List.length_drop, List.length_map, List.length_range]
    omega
  · have there : p + i < d.length := by
      simp only [List.length_take, List.length_drop] at hi
      omega
    simp [byteAt, there]

/-! ## The operations -/

/-- A read of `k` bytes at a byte boundary, by what it returns of the cursor (R131): the value and the reader moved, or
UnexpectedEof. -/
theorem byteOp_spec {α : Type} {s : State} {r : Reader} (h0 : readerAtByte s r) {k : Nat} {value : Cur → α}
    {read : Cur → Except Reject (α × Cur)} (res : α → ReadResult)
    (hread : ∀ c, read c = if c.has k then .ok (value c, past c k) else .error .eof) :
    (readerHas s r k → byteOp r read res s = .next { readerMoved s r k with res := some (res (value (s.cur r))) }) ∧
    (¬readerHas s r k → byteOp r read res s = .next (trap .unexpectedEof s)) := by
  have h0 := (bit_eq_zero_iff_readerAtByte s r).mpr h0
  simp only [← has_iff_readerHas]
  constructor
  · intro h
    simp [byteOp, h0, hread, h]
  · intro h
    simp [byteOp, h0, hread, h, rejected_eof]

/-- R131. -/
theorem exec_need (s : State) (r : Reader) (k : Nat) :
    exec (.need r k) s = if (s.cur r).has k then .next s else .next (trap .unexpectedEof s) := rfl

/-- R135. -/
theorem exec_skip (s : State) (r : Reader) (k : Nat) :
    exec (.skip r k) s
      = if (s.cur r).has k then .next (readerMoved s r k) else .next (trap .unexpectedEof s) := by
  change execSkip r k s = _
  unfold execSkip Cur.skip
  split_ifs with h
  · exact congrArg _ (putCur_past s r k)
  · rfl

/-- R139: a partly read byte is given up; only the payload reader can stand inside one (R130). -/
theorem exec_alignToByte_inside {s : State} {r : Reader} (h : ¬readerAtByte s r) :
    exec (.alignToByte r) s = .next { s with ip := s.ip + 1, ib := 0 } := by
  cases r with
  | src => exact absurd trivial h
  | pay => exact congrArg (fun c => Host.Outcome.next (s.putCur .pay c)) (if_neg h)

theorem exec_alignToByte_boundary {s : State} {r : Reader} (h : readerAtByte s r) :
    exec (.alignToByte r) s = .next s := by
  have stays : (s.cur r).align = s.cur r := if_pos ((bit_eq_zero_iff_readerAtByte s r).mpr h)
  exact congrArg Host.Outcome.next ((congrArg (s.putCur r) stays).trans (putCur_cur s r))

/-- Settles O1, operation by operation. -/
theorem needSkipAlign : Obligations.NeedSkipAlign := by
  intro s r k
  simp only [← has_iff_readerHas, exec_need, exec_skip]
  exact ⟨fun h => ⟨if_pos h, if_pos h⟩, fun h => ⟨if_neg h, if_neg h⟩, exec_alignToByte_boundary,
    exec_alignToByte_inside⟩

/-- Settles O2: the four reads by what each returns of the cursor, its bytes then in the words of the statement. -/
theorem byteReads : Obligations.ByteReads := by
  intro s r h0
  obtain ⟨ok8, eof8⟩ := byteOp_spec h0 (k := 1) (read := Cur.readU8) (fun v => .num v.toNat) fun _ => rfl
  obtain ⟨ok16, eof16⟩ := byteOp_spec h0 (k := 2) (read := Cur.readU16be) (fun v => .num v.toNat) fun _ => rfl
  obtain ⟨ok32, eof32⟩ := byteOp_spec h0 (k := 4) (read := Cur.readU32be) (fun v => .num v.toNat) fun _ => rfl
  obtain ⟨okType, eofType⟩ := byteOp_spec h0 (k := 4) (read := Cur.readType) .type fun _ => rfl
  refine ⟨fun h => (ok8 h).trans ?_, fun h => (ok16 h).trans ?_, fun h => (ok32 h).trans ?_,
    fun h => (okType h).trans ?_, eof8, eof16, fun h => ⟨eof32 h, eofType h⟩⟩
  · simp only [← byteAt_cur h, Nat.one_pos, Nat.add_zero]
  · simp only [u16At_toNat, ← byteAt_cur h, Nat.two_pos, Nat.one_lt_two, Nat.add_zero]
  · simp only [u32At_toNat, ← byteAt_cur h, Nat.lt_add_one, Nat.reduceLT, Nat.add_zero]
  · rw [drop_take_eq_map_byteAt (of_decide_eq_true ((has_iff_readerHas s r 4).mpr h))]
    simp only [← byteAt_cur h, Nat.reduceLT]
    rfl

end Sys2Proof.Machine
end

section
/-! The bit reads of the payload (R137, R138, R140): statements ReadBits and ReadBitsCompose. -/

namespace Sys2Proof.Machine

/-! ## The payload's cursor in bits -/

theorem payBits_eq_bitsAt (s : State) (n : Nat) : payBits s n = bitsAt s.acc (payPos s) n := rfl

theorem putCur_advance (s : State) (n : Nat) : s.putCur .pay ((s.cur .pay).advance n) = payMoved s n := rfl

@[simp] theorem payPos_payMoved (s : State) (n : Nat) : payPos (payMoved s n) = payPos s + n :=
  Nat.div_add_mod (payPos s + n) 8

@[simp] theorem payMoved_acc (s : State) (n : Nat) : (payMoved s n).acc = s.acc := rfl

theorem payMoved_ib_lt (s : State) (n : Nat) : (payMoved s n).ib < 8 := Nat.mod_lt _ (Nat.zero_lt_succ 7)

theorem payMoved_payMoved (s : State) (a b : Nat) : payMoved (payMoved s a) b = payMoved s (a + b) := by
  rw [payMoved, payPos_payMoved, Nat.add_assoc]
  rfl

/-- Moving on inside the current byte (R137). -/
theorem payMoved_inside {s : State} {n : Nat} (h : s.ib + n < 8) : payMoved s n = { s with ib := s.ib + n } := by
  have byte : (payPos s + n) / 8 = s.ip := by simp only [payPos]; omega
  have bit : (payPos s + n) % 8 = s.ib + n := by simp only [payPos]; omega
  rw [payMoved, byte, bit]

/-- Moving past bit 7 rolls to the next byte (R137). -/
theorem payMoved_rolls {s : State} {n : Nat} (h : s.ib + n = 8) :
    payMoved s n = { s with ip := s.ip + 1, ib := 0 } := by
  have byte : (payPos s + n) / 8 = s.ip + 1 := by simp only [payPos]; omega
  have bit : (payPos s + n) % 8 = 0 := by simp only [payPos]; omega
  rw [payMoved, byte, bit]

/-- The next bit as a digit of the current byte (R63, R137). -/
theorem payBit_payPos_toNat {s : State} (hb : s.ib < 8) :
    (payBit s (payPos s)).toNat = (byteAt s.acc s.ip).toNat / 2 ^ s.ib % 2 := by
  have byte : payPos s / 8 = s.ip := by simp only [payPos]; omega
  have bit : payPos s % 8 = s.ib := by simp only [payPos]; omega
  rw [payBit, byte, bit, ← Nat.toNat_testBit, BitVec.testBit_toNat]

theorem payBits_add (s : State) (a b : Nat) :
    payBits s (a + b) = payBits s a + payBits (payMoved s a) b * 2 ^ a := by
  simp only [payBits_eq_bitsAt, payPos_payMoved, payMoved_acc, bitsAt_add]

/-- A read of `n` operand bits that are there goes on with their number from the cursor past them (R138). -/
theorem withBits_of_has {s : State} {n : Nat} (hb : s.ib < 8) (h : n = 0 ∨ payHas s n) (k : Nat → State → Out) :
    withBits n s k = k (payBits s n) (payMoved s n) := by
  have read : (s.cur .pay).readBits n = .ok (payBits s n, (s.cur .pay).advance n) :=
    (Cur.readBits_spec n _ hb).trans (if_pos h)
  simp only [withBits, read, putCur_advance]

/-- Where the buffer ends before `n` bits the read raises UnexpectedEof of the state before it (R138; logs 12, 13). -/
theorem withBits_of_not_has {s : State} {n : Nat} (hb : s.ib < 8) (hn : n ≠ 0) (h : ¬payHas s n)
    (k : Nat → State → Out) : withBits n s k = .next (trap .unexpectedEof s) := by
  have read : (s.cur .pay).readBits n = .error .eof :=
    (Cur.readBits_spec n _ hb).trans (if_neg (not_or.mpr ⟨hn, h⟩))
  simp only [withBits, read, rejected_eof]

/-! ## The operations -/

theorem exec_readBits (s : State) (n : Nat) :
    exec (.readBits n) s = withBits n s fun v t => .next { t with res := some (.num v) } := rfl

theorem exec_readBits_of_has {s : State} {n : Nat} (hb : s.ib < 8) (h : n = 0 ∨ payHas s n) :
    exec (.readBits n) s = .next { payMoved s n with res := some (.num (payBits s n)) } := by
  rw [exec_readBits, withBits_of_has hb h]

theorem exec_readBits_of_not_has {s : State} {n : Nat} (hb : s.ib < 8) (hn : n ≠ 0) (h : ¬payHas s n) :
    exec (.readBits n) s = .next (trap .unexpectedEof s) := by
  rw [exec_readBits, withBits_of_not_has hb hn h]

/-- A read of one bit that is there (R137). -/
theorem exec_readBit_of_has {s : State} (hb : s.ib < 8) (h : s.ip < s.acc.length) :
    exec .readBit s = .next { payMoved s 1 with res := some (.num (payBit s (payPos s)).toNat) } := by
  have read : (s.cur .pay).readBit = .ok (payBit s (payPos s), (s.cur .pay).advance 1) :=
    (Cur.readBit_spec _ hb).trans (if_pos h)
  change execReadBit s = _
  simp only [execReadBit, read, putCur_advance]

theorem exec_readBit_at_end {s : State} (h : s.acc.length ≤ s.ip) :
    exec .readBit s = .next (trap .unexpectedEof s) := by
  have read : (s.cur .pay).readBit = .error .eof := if_pos h
  change execReadBit s = _
  simp only [execReadBit, read, rejected_eof]

/-- Settles O3: a bit by its place in the byte and whether it is the last there, `n` bits by whether they are there. -/
theorem readBits : Obligations.ReadBits := by
  intro s n
  refine ⟨fun h hb => ?_, fun h hb => ?_, exec_readBit_at_end, fun hb _ =>
    ⟨exec_readBits_of_has hb, fun hn h => exec_readBits_of_not_has hb hn h, bitsAt_lt _ _ _⟩⟩
  · have inByte : s.ib < 8 := Nat.lt_succ_of_lt hb
    rw [exec_readBit_of_has inByte h, payMoved_inside (Nat.succ_lt_succ hb), payBit_payPos_toNat inByte]
  · have inByte : s.ib < 8 := hb.trans_lt (Nat.lt_add_one 7)
    have top : (byteAt s.acc s.ip).toNat / 2 ^ 7 < 2 := Nat.div_lt_of_lt_mul (byteAt s.acc s.ip).isLt
    rw [exec_readBit_of_has inByte h, payMoved_rolls (congrArg Nat.succ hb), payBit_payPos_toNat inByte, hb,
      Nat.mod_eq_of_lt top]

/-- Settles O4: the second read starts `a` bits on, and the number of `a + b` bits is that of the two
parts (`payBits_add`). -/
theorem readBitsCompose : Obligations.ReadBitsCompose := by
  intro s a b hb _ h
  have first : payHas s a := (Nat.add_le_add_left (Nat.le_add_right a b) _).trans h
  have second : payHas (payMoved s a) b := by
    rw [payHas, payPos_payMoved, payMoved_acc, Nat.add_assoc]
    exact h
  refine ⟨payBits s a, payBits (payMoved s a) b, { payMoved s a with res := some (.num (payBits s a)) }, _,
    exec_readBits_of_has hb (.inr first), rfl, exec_readBits_of_has (payMoved_ib_lt s a) (.inr second), rfl, ?_⟩
  rw [exec_readBits_of_has hb (.inr h), payBits_add, ← payMoved_payMoved]
  rfl

end Sys2Proof.Machine
end


section
/-! The frame of every element (R24, R45, R340, R390; log 8): statement ElementFrame. -/

namespace Sys2Proof.Machine

theorem permOf_paint_eq_false {i : Instr} (h : i ∉ painters) : (permOf i).paint = false := by
  obtain ⟨-, -, -, -, -, -, -, -, -, paints, -⟩ := permOf_writers i
  exact Bool.eq_false_iff.mpr fun hp => h (paints hp)

/-- An element's own effect, and how it ends: with the next state, or in a trap before which memory stayed. -/
theorem exec_effect {i : Instr} {s t : State} (ht : exec i s = .next t) :
    ∃ u, Same (permOf i) s u ∧ (t = u ∨ ∃ e, t = trap e u ∧ (u.mem, u.painted) = (s.mem, s.painted)) := by
  have g := eff_exec i s
  rw [ht] at g
  rcases g with g | ⟨e, u, rfl, g, hm⟩
  · exact ⟨t, g, .inl rfl⟩
  · simp only [Prod.mk.injEq] at hm
    exact ⟨u, g, .inr ⟨e, rfl, by rw [hm.1, hm.2.1]⟩⟩

/-- Settles O49: `u` is the element's own effect; a trap keeps what the statement says of it. -/
theorem elementFrame : Obligations.ElementFrame := by
  intro i s t ht
  obtain ⟨u, h, hu⟩ := exec_effect ht
  have place := h.place
  have count := h.count
  have ends := h.ends
  simp only [Prod.mk.injEq] at place count ends
  obtain ⟨ox, oy, plays, play, fidx⟩ := place
  obtain ⟨framesDone, framesOut⟩ := count
  obtain ⟨runState, trace, errcode, frames⟩ := ends
  suffices rest : SameConfiguration s t ∧ (i ∉ painters → (t.mem, t.painted) = (s.mem, s.painted))
      ∧ t.framesOut = s.framesOut ∧ (t = u ∨ ∃ e, t = trap e u ∧ t.runState = .error
        ∧ t.errcode = Config.errCode s.cfg e ∧ t.trace = s.trace ++ [.log (Config.errCode s.cfg e)] ∧ t.mem = s.mem) by
    obtain ⟨same, memory, out, ending⟩ := rest
    exact ⟨same, fun hn => Prod.mk.inj (memory hn), out, u, ox, oy, plays, play, fidx, framesDone, runState, trace,
      errcode, frames, ending⟩
  rcases hu with rfl | ⟨e, rfl, hm⟩
  · exact ⟨h.conf.sameConfiguration, fun hn => h.paint (permOf_paint_eq_false hn), framesOut, .inl rfl⟩
  · have log : (trap e u).trace = s.trace ++ [.log (Config.errCode s.cfg e)] := by rw [trap_trace, trace, h.conf.cfg]
    exact ⟨(h.conf.trans (u := trap e u) {}).sameConfiguration, fun _ => hm, framesOut,
      .inr ⟨e, rfl, rfl, congrArg (Config.errCode · e) h.conf.cfg, log, (Prod.mk.inj hm).1⟩⟩

end Sys2Proof.Machine
end

section
/-! The signature step, the chunk walk and its end (R150 to R152, R156, R180, R183): statements SignatureStep, ChunkStep
and EndOfWalk. -/

namespace Sys2Proof.Machine

/-! ## The signature and a chunk at a cursor -/

theorem past_has (c : Cur) (j k : Nat) : (past c j).has k = c.has (j + k) := by
  simp only [Cur.has, past, Nat.add_assoc]

theorem cur_has_of_le {c : Cur} {j k : Nat} (hjk : j ≤ k) (h : c.has k = true) : c.has j = true := by
  simp only [Cur.has, decide_eq_true_eq] at h ⊢
  omega

@[simp] theorem past_buf (c : Cur) (k : Nat) : (past c k).buf = c.buf := rfl
@[simp] theorem past_pos (c : Cur) (k : Nat) : (past c k).pos = c.pos + k := rfl

theorem cur_readU8_eq (c : Cur) :
    c.readU8 = if c.has 1 then .ok (byteAt c.buf c.pos, past c 1) else .error .eof := rfl

theorem cur_take_eq (k : Nat) (c : Cur) :
    c.take k = if c.has k then .ok ((c.buf.drop c.pos).take k, past c k) else .error .eof := rfl

theorem cur_readU32be_eq (c : Cur) :
    c.readU32be = if c.has 4 then .ok (u32At c.buf c.pos, past c 4) else .error .eof := rfl

/-- A field read from four bytes that were taken out of a buffer (R62, R136). -/
theorem u32At_take_drop (d : List Byte) (p : Nat) : u32At ((d.drop p).take 4) 0 = u32At d p := by
  simp [u32At, byteAt]

/-- R151 at a cursor. -/
theorem decodeSig_eq (c : Cur) :
    decodeSig c = if c.has 1 then
      if byteAt c.buf c.pos = 0x89 then
        if c.has 8 then .ok (.sig ((c.buf.drop (c.pos + 1)).take 7), past c 8) else .error .eof
      else .ok (.notPng (byteAt c.buf c.pos), c)
    else .error .eof := by
  unfold decodeSig
  rw [cur_readU8_eq]
  by_cases h1 : c.has 1 = true
  · by_cases h8 : c.has 8 = true
    · simp [h1, h8, cur_take_eq, past_has, past_past]
    · simp [h1, h8, cur_take_eq, past_has]
  · simp [h1]

/-- R152 at a cursor: length and type, the maximum, then data and crc. -/
theorem decodeChunk_eq (maxLen : Nat) (fdat : Word) (c : Cur) {n : Nat} (hn : (u32At c.buf c.pos).toNat = n) :
    decodeChunk maxLen fdat c = if c.has 8 then
      if maxLen < n then .error .chunkTooLong
      else if c.has (12 + n) then
        .ok (decodeChunkType fdat (u32At c.buf (c.pos + 4)) ((c.buf.drop (c.pos + 8)).take n)
          (u32At c.buf (c.pos + 8 + n)), past c (12 + n))
      else .error .eof
    else .error .eof := by
  have toCrc : 8 + (n + 4) = 12 + n := by omega
  have pastCrc : 8 + n + 4 = 12 + n := by omega
  unfold decodeChunk Cur.readType
  by_cases h8 : c.has 8 = true
  · have h4 := cur_has_of_le (show 4 ≤ 8 by omega) h8
    simp only [cur_readU32be_eq, cur_take_eq, past_has, past_past, h4, h8, hn, if_true, Nat.reduceAdd, toCrc]
    by_cases hd : c.has (12 + n) = true
    · have hdata := cur_has_of_le (show 8 + n ≤ 12 + n by omega) hd
      simp only [hd, hdata, if_true, past_has, past_past, pastCrc, past_buf, past_pos, u32At_take_drop, Nat.add_assoc]
    · simp only [hd, Bool.false_eq_true, if_false]
  · by_cases h4 : c.has 4 = true
    · simp [cur_readU32be_eq, cur_take_eq, past_has, h4, h8]
    · simp [cur_readU32be_eq, h4, h8]

/-! ## The source in the words of the statements -/

theorem src_has_iff (s : State) (k : Nat) : (s.cur .src).has k = true ↔ s.cp + k ≤ s.cap.srcLen.toNat :=
  has_iff_readerHas s .src k

/-- A source field that is there (R61, R62). -/
theorem u32At_cur_src {s : State} {i : Nat} (h : i + 4 ≤ s.cap.srcLen.toNat) :
    u32At (s.cur .src).buf i = srcWord s i :=
  u32At_source s i h

/-- Source bytes that are there (R61). -/
theorem take_drop_cur_src {s : State} {i n : Nat} (h : i + n ≤ s.cap.srcLen.toNat) :
    (((s.cur .src).buf.drop i).take n) = (List.range n).map fun j => srcByte s (i + j) := by
  rw [cur_src_buf, drop_take_eq_map_byteAt (by rwa [source_length])]
  refine List.map_congr_left fun j hj => byteAt_source s _ ?_
  have := List.mem_range.mp hj
  omega

/-! ## The step -/

section Signature
variable {s : State} (ht : coreTurn s) (hp : s.phase = .signature)
include ht hp

theorem step_signature_ok {i : Instr} {c : Cur} (hd : decodeSig (s.cur .src) = .ok (i, c)) :
    step s = exec i (s.putCur .src c) :=
  step_decoded ht (by simp only [streamLevel, hp]) (lv := .signature) hd

theorem step_signature_eof (hd : decodeSig (s.cur .src) = .error .eof) : step s = .next (trap .unexpectedEof s) :=
  step_rejected ht (by simp only [streamLevel, hp]) (lv := .signature) hd

end Signature

/-- R151, R330. -/
theorem exec_sig (rest : List Byte) (s : State) : exec (.sig rest) s = .next { s with phase := .walk } := rfl

/-- Settles O5: by what decoding the signature gives (`decodeSig_eq`). -/
theorem signatureStep : Obligations.SignatureStep := by
  refine ⟨fun rest b s => ⟨exec_sig rest s, rfl⟩, fun s ht hp hcp => ?_⟩
  have has (k : Nat) : (s.cur .src).has k = true ↔ k ≤ s.cap.srcLen.toNat := by
    rw [src_has_iff, hcp, Nat.zero_add]
  have first (h : 0 < s.cap.srcLen.toNat) : byteAt (s.cur .src).buf (s.cur .src).pos = srcByte s 0 := by
    rw [cur_src_pos, hcp]
    exact byteAt_source s 0 h
  refine ⟨fun h => step_signature_eof ht hp ?_, fun h hb => ?_, fun h hb h8 => step_signature_eof ht hp ?_,
    fun h8 hb => ?_⟩
  · rw [decodeSig_eq, if_neg (by rw [has]; omega)]
  · refine step_signature_ok ht hp (i := .notPng (srcByte s 0)) (c := s.cur .src) ?_
    rw [decodeSig_eq, if_pos ((has 1).mpr h), first h, if_neg hb]
  · rw [decodeSig_eq, if_pos ((has 1).mpr h), first h, if_pos hb, if_neg (by rw [has]; omega)]
  · have h : 0 < s.cap.srcLen.toNat := by omega
    have d := decodeSig_eq (s.cur .src)
    rw [if_pos ((has 1).mpr h), first h, if_pos hb, if_pos ((has 8).mpr h8)] at d
    rw [step_signature_ok ht hp d, exec_sig, putCur_past, readerMoved, hcp]

theorem streamLevel_walk {s : State} (hp : s.phase = .walk) (hi : s.seenIend = false) (hc : s.cp < s.cap.srcLen.toNat) :
    streamLevel s = some (.src, .chunk s.cfg.maxChunkLen s.cfg.fdatType) := by
  simp only [streamLevel, hp, hi, hc, and_self, if_true]

/-- Where no chunk is left the walk ends (R150). -/
theorem step_endOfWalk {s : State} (ht : coreTurn s) (hp : s.phase = .walk)
    (h : s.seenIend = true ∨ s.cap.srcLen.toNat ≤ s.cp) : step s = endOfWalk s := by
  have walked : ¬(s.seenIend = false ∧ s.cp < s.cap.srcLen.toNat) := by
    rintro ⟨hi, hc⟩
    rcases h with h | h
    · exact absurd (hi.symm.trans h) nofun
    · omega
  exact step_act (a := .endOfWalk) ht.1 ht.2 (by simp only [fetch, streamLevel, hp, walked, if_false, fetchOther])

/-- Settles O6: by what decoding a chunk gives (`decodeChunk_eq`), its fields then in the words of the statement. -/
theorem chunkStep : Obligations.ChunkStep := by
  intro s ht hp hi hc
  have level := streamLevel_walk hp hi hc
  have decoded (h8 : s.cp + 8 ≤ s.cap.srcLen.toNat) :=
    decodeChunk_eq s.cfg.maxChunkLen s.cfg.fdatType (s.cur .src) (n := (srcWord s s.cp).toNat)
      (congrArg BitVec.toNat (u32At_cur_src (i := s.cp) (by omega)))
  refine ⟨fun h => ?_, fun h8 => ⟨fun hl => ?_, fun hl => ⟨fun h => ?_, fun h => ?_⟩⟩⟩
  · refine step_rejected ht level (e := .eof) ?_
    exact (decodeChunk_eq _ _ _ rfl).trans (if_neg (by rw [src_has_iff]; omega))
  · refine step_rejected ht level (e := .chunkTooLong) ?_
    rw [decode, decoded h8, if_pos ((src_has_iff s 8).mpr h8), if_pos hl]
  · refine step_rejected ht level (e := .eof) ?_
    rw [decode, decoded h8, if_pos ((src_has_iff s 8).mpr h8), if_neg (by omega), if_neg (by rw [src_has_iff]; omega)]
  · have there : s.cp + (12 + (srcWord s s.cp).toNat) ≤ s.cap.srcLen.toNat := by omega
    have d := decoded h8
    rw [if_pos ((src_has_iff s 8).mpr h8), if_neg (by omega), if_pos ((src_has_iff s _).mpr there), cur_src_pos,
      u32At_cur_src (by omega), u32At_cur_src (by omega), take_drop_cur_src (by omega)] at d
    rw [step_decoded ht level d, putCur_past, readerMoved, ← Nat.add_assoc s.cp 12]

/-- Settles O17: the two tests of `end_of_walk` are one, by ANIMATED. -/
theorem endOfWalk_spec : Obligations.EndOfWalk := by
  intro s ht hp h
  rw [step_endOfWalk ht hp h, endOfWalk]
  cases ha : s.animated with
  | false => simp +contextual
  | true => simp +contextual

end Sys2Proof.Machine
end


section
/-! The header, the palette and its alphas, the background, gamma, the payload and the animation control (R31, R158 to
R168): statements Ihdr, Plte, Trns, Bkgd, GammaDataUnknown and Actl. -/

namespace Sys2Proof.Machine

/-! ## Operands -/

theorem toNat_eq_zero_iff {n : Nat} (w : BitVec n) : w.toNat = 0 ↔ w = 0 := by
  rw [BitVec.toNat_eq, BitVec.ofNat_eq_ofNat, BitVec.toNat_zero]

theorem legalFormat_iff (ct d : Byte) : legalFormat ct d = true ↔ (ct.toNat, d.toNat) ∈ legalPairs := by
  unfold legalFormat
  split <;> simp_all [legalPairs]

theorem legal_depth {ct d : Byte} (h : legalFormat ct d = true) : d = 1 ∨ d = 2 ∨ d = 4 ∨ d = 8 ∨ d = 16 := by
  have h := (legalFormat_iff ct d).mp h
  simp only [← BitVec.toNat_inj]
  simp only [legalPairs, List.mem_cons, Prod.mk.injEq, List.not_mem_nil, or_false] at h
  simp only [BitVec.reduceToNat]
  omega

/-- A legal format's channels are those of the table (R31). -/
theorem channels_mem {ct d : Byte} (h : legalFormat ct d = true) : (ct.toNat, channels ct) ∈ channelTable := by
  rcases legal_ctype h with h | h | h | h | h <;> simp [channels, channelTable, h]

/-- A granted request in the words of the statements (R386). -/
theorem alloc_granted {n : Nat} {s : State} (h : grants s 1 n) (k : State → Out) : alloc n s k = k (requested s 1) :=
  allocs_granted k h

theorem alloc_denied {n : Nat} {s : State} (h : ¬grants s 1 n) (k : State → Out) :
    alloc n s k = .next (trap .allocationFailure (requested s 1)) :=
  allocs_denied k (by simpa using h)

/-! ## IHDR -/

theorem exec_ihdr (data : List Byte) (crc : Word) (s : State) : exec (.ihdr data crc) s = execIhdr data crc s := rfl

/-- Settles O7, test by test; the derived fields are those of `mkHeader`. -/
theorem ihdr : Obligations.Ihdr := by
  intro s data crc
  rw [exec_ihdr, execIhdr]
  refine ⟨fun h => if_pos h, fun h => ?_⟩
  rw [if_neg (by simp [h])]
  refine ⟨fun hl => if_pos hl, fun hl w hh d ct hw hhh hd hct => ?_⟩
  rw [if_neg (by simp [hl])]
  subst hw hhh hd hct
  simp only [← toNat_eq_zero_iff (n := 32), ← legalFormat_iff]
  refine ⟨fun outside => if_pos outside, fun inside => ?_⟩
  rw [if_neg (by omega)]
  refine ⟨fun illegal => if_pos (by simpa using illegal), fun legal => ?_⟩
  rw [if_neg (by simp [legal])]
  refine ⟨fun other => if_pos other, fun ⟨hc, hf, hi⟩ => ⟨_, channels_mem legal, ?_⟩⟩
  rw [if_neg (by simp [hc, hf, hi]), hc, hf, hi]
  rfl

/-! ## PLTE -/

/-- The entries after a PLTE of `n` (R95, R160). -/
def plteEntries (data : List Byte) (n : Nat) (pal : List Rgba) : List Rgba :=
  (List.range n).map (plteEntry data) ++ pal.drop n

theorem plteEntries_new {data : List Byte} {n i : Nat} (h : i < n) (pal : List Rgba) :
    (plteEntries data n pal)[i]? = some (plteEntry data i) := by
  rw [plteEntries, List.getElem?_append_left (by simpa using h)]
  simp [h]

theorem plteEntries_old {n i : Nat} (h : n ≤ i) (data : List Byte) (pal : List Rgba) :
    (plteEntries data n pal)[i]? = pal[i]? := by
  rw [plteEntries, List.getElem?_append_right (by simpa using h)]
  simp [h]

/-- R160: one test before the request. -/
theorem exec_plte (data : List Byte) (crc : Word) (s : State) :
    exec (.plte data crc) s
      = if s.haveIhdr = false ∨ s.havePlte = true ∨ data.length = 0 ∨ data.length % 3 ≠ 0
          ∨ s.cfg.maxPalette < data.length / 3 then .next (trap .invalidLength s)
        else alloc (data.length / 3) s fun t =>
          .next { t with pal := plteEntries data (data.length / 3) t.pal, palN := data.length / 3, havePlte := true } := by
  change execPlte data crc s = _
  simp only [execPlte, ite_or, Bool.not_eq_true', raise_eq, plteEntries]

/-- Settles O8. -/
theorem plte : Obligations.Plte := by
  intro s data crc
  rw [exec_plte]
  refine ⟨fun h => if_pos h, fun n hi hp hn h1 hm => ?_⟩
  have count : data.length / 3 = n := by omega
  have passed : ¬(s.haveIhdr = false ∨ s.havePlte = true ∨ data.length = 0 ∨ data.length % 3 ≠ 0
      ∨ s.cfg.maxPalette < data.length / 3) := by
    simp only [hi, hp, Bool.true_eq_false, Bool.false_eq_true, false_or]
    omega
  rw [if_neg passed, count]
  refine ⟨fun hg => alloc_denied hg _, fun hg => ⟨_, alloc_granted hg _, rfl, fun i h => ?_, fun i h => ?_⟩⟩
  · exact plteEntries_new h s.pal
  · exact plteEntries_old h data s.pal

/-! ## tRNS -/

theorem exec_trns (data : List Byte) (crc : Word) (s : State) : exec (.trns data crc) s = execTrns data crc s := rfl

section Trns
variable {s : State} (hi : s.haveIhdr = true) (data : List Byte) (crc : Word)
include hi

theorem exec_trns_palette (hc : s.hdr.ctype = 3) : exec (.trns data crc) s
    = if s.palN < data.length then .next (trap .invalidLength s) else .next { s with pal := setAlphas s.pal data } := by
  simp [exec_trns, execTrns, hi, hc]

theorem exec_trns_grey (hc : s.hdr.ctype = 0) : exec (.trns data crc) s
    = if data.length ≠ 2 then .next (trap .invalidLength s)
      else .next { s with key0 := u16At data 0, keyValid := true } := by
  simp [exec_trns, execTrns, hi, hc]

theorem exec_trns_colour (hc : s.hdr.ctype = 2) : exec (.trns data crc) s
    = if data.length ≠ 6 then .next (trap .invalidLength s)
      else .next { s with key0 := u16At data 0, key1 := u16At data 2, key2 := u16At data 4, keyValid := true } := by
  simp [exec_trns, execTrns, hi, hc]

theorem exec_trns_alpha (hc : s.hdr.ctype = 4 ∨ s.hdr.ctype = 6) : exec (.trns data crc) s = .next s := by
  rcases hc with hc | hc <;> simp [exec_trns, execTrns, hi, hc]

end Trns

/-- Settles O9, by colour type. -/
theorem trns : Obligations.Trns := by
  intro s data crc
  refine ⟨fun h => ?_, fun hi => ⟨fun hc => ?_, fun hc => ?_, fun hc => ?_, exec_trns_alpha hi data crc⟩⟩
  · exact if_pos (by simp [h])
  · rw [exec_trns_palette hi data crc hc]
    exact ⟨fun h => if_pos h, fun h => ⟨_, if_neg (Nat.not_lt.mpr h), rfl, setAlphas_get s.pal data⟩⟩
  · rw [exec_trns_grey hi data crc hc]
    exact ⟨fun h => if_pos h, fun h => if_neg (not_not.mpr h)⟩
  · rw [exec_trns_colour hi data crc hc]
    exact ⟨fun h => if_pos h, fun h => if_neg (not_not.mpr h)⟩

/-! ## bKGD -/

/-- The length bKGD wants, by colour type (R164). -/
theorem bkgdLen_of_mem {ct : Byte} {want : Nat}
    (h : (ct.toNat, want) ∈ [(3, 1), (0, 2), (4, 2), (2, 6), (6, 6)]) : bkgdLen ct = some want := by
  simp only [List.mem_cons, Prod.mk.injEq, List.not_mem_nil, or_false] at h
  rcases h with ⟨h, rfl⟩ | ⟨h, rfl⟩ | ⟨h, rfl⟩ | ⟨h, rfl⟩ | ⟨h, rfl⟩ <;> simp [bkgdLen, h]

/-- `s` with the raw background recorded (R164). -/
def bkgdRaw (data : List Byte) (want : Nat) (s : State) : State :=
  { s with
    haveBkgd := true
    bkgd0 := if want = 1 then (byteAt data 0).zeroExtend 16 else u16At data 0
    bkgd1 := if want = 6 then u16At data 2 else s.bkgd1
    bkgd2 := if want = 6 then u16At data 4 else s.bkgd2 }

/-- R164: one test, then the raw values, then BG. -/
theorem exec_bkgd {s : State} {want : Nat}
    (h : (s.hdr.ctype.toNat, want) ∈ [(3, 1), (0, 2), (4, 2), (2, 6), (6, 6)]) (data : List Byte) (crc : Word) :
    exec (.bkgd data crc) s
      = if s.haveIhdr = false ∨ data.length ≠ want then .next (trap .invalidLength s)
        else finishBkgd (bkgdRaw data want s) := by
  change execBkgd data crc s = _
  simp only [execBkgd, bkgdLen_of_mem h, ite_or, Bool.not_eq_true', raise_eq]
  simp only [List.mem_cons, Prod.mk.injEq, List.not_mem_nil, or_false] at h
  rcases h with ⟨-, rfl⟩ | ⟨-, rfl⟩ | ⟨-, rfl⟩ | ⟨-, rfl⟩ | ⟨-, rfl⟩ <;> rfl

/-- `chan8` of a legal depth in the words of the statement (R165, R292). -/
theorem chan8_legal {ct d : Byte} (h : legalFormat ct d = true) (g : GreyScale) (v : Half) :
    chan8 g d.toNat v = if d = 16 then v.extractLsb' 8 8 else if d = 8 then v.extractLsb' 0 8
      else greyTable g d.toNat (v.toNat % 2 ^ d.toNat) := by
  rcases legal_depth h with rfl | rfl | rfl | rfl | rfl <;> cases g <;>
    simp [chan8, grey8, greyTable, Nat.shiftLeft_eq]

theorem finishBkgd_kept {s : State} (h : s.cfg.bkgdOverrides = false) : finishBkgd s = .next s :=
  if_neg (by simp [h])

section Overrides
variable {s : State} (h : s.cfg.bkgdOverrides = true)
include h

theorem finishBkgd_colour {p : Pixel} (hc : bkgdColour s = some p) : finishBkgd s = .next { s with bg := p } := by
  simp only [finishBkgd, h, if_true, hc]

theorem finishBkgd_noColour (hc : bkgdColour s = none) : finishBkgd s = .next (trap .invalidLength s) := by
  simp only [finishBkgd, h, if_true, hc, raise_eq]

end Overrides

/-- `bkgd_colour()` of an index (R165). -/
theorem bkgdColour_indexed {s : State} (hc : s.hdr.ctype.toNat = 3) :
    bkgdColour s = if s.bkgd0.toNat < s.palN then (s.pal[s.bkgd0.toNat]?).map fun e => argb 0xFF e.r e.g e.b
      else none := by
  simp only [bkgdColour, hc]

/-- `bkgd_colour()` of a grey value (R165). -/
theorem bkgdColour_grey {s : State} (hc : s.hdr.ctype.toNat = 0 ∨ s.hdr.ctype.toNat = 4) {c : Half → Byte}
    (hchan : chan8 s.cfg.greyScale s.hdr.depth.toNat = c) :
    bkgdColour s = some (argb 0xFF (c s.bkgd0) (c s.bkgd0) (c s.bkgd0)) := by
  rcases hc with hc | hc <;> simp only [bkgdColour, hc, hchan]

/-- `bkgd_colour()` of three channels (R165). -/
theorem bkgdColour_rgb {s : State} (hc : s.hdr.ctype.toNat = 2 ∨ s.hdr.ctype.toNat = 6) {c : Half → Byte}
    (hchan : chan8 s.cfg.greyScale s.hdr.depth.toNat = c) :
    bkgdColour s = some (argb 0xFF (c s.bkgd0) (c s.bkgd1) (c s.bkgd2)) := by
  rcases hc with hc | hc <;> simp only [bkgdColour, hc, hchan]

/-- Settles O10: `t` is the raw record, and BG then is by the colour types that `want` stands for. -/
theorem bkgd : Obligations.Bkgd := by
  intro s data crc want hw
  rw [exec_bkgd hw]
  refine ⟨fun h => if_pos h, fun hi hl t c ht hc => ?_⟩
  rw [if_neg (by simp [hi, hl])]
  obtain rfl : t = bkgdRaw data want s := ht
  refine ⟨fun kept => finishBkgd_kept (s := bkgdRaw data want s) kept, fun on legal => ?_⟩
  have overrides : (bkgdRaw data want s).cfg.bkgdOverrides = true := on
  have chan : chan8 s.cfg.greyScale s.hdr.depth.toNat = c :=
    hc ▸ funext (chan8_legal legal s.cfg.greyScale)
  simp only [List.mem_cons, Prod.mk.injEq, List.not_mem_nil, or_false] at hw
  refine ⟨fun h1 hn => finishBkgd_noColour overrides ?_, fun h1 hn e he => finishBkgd_colour overrides ?_,
    fun h2 => finishBkgd_colour overrides ?_, fun h6 => finishBkgd_colour overrides ?_⟩
  · have indexed : s.hdr.ctype.toNat = 3 := by omega
    exact (bkgdColour_indexed (s := bkgdRaw data want s) indexed).trans (if_neg (Nat.not_lt.mpr hn))
  · have indexed : s.hdr.ctype.toNat = 3 := by omega
    exact (bkgdColour_indexed (s := bkgdRaw data want s) indexed).trans
      ((if_pos hn).trans (congrArg (Option.map _) he))
  · have grey : s.hdr.ctype.toNat = 0 ∨ s.hdr.ctype.toNat = 4 := by omega
    exact bkgdColour_grey (s := bkgdRaw data want s) grey chan
  · have rgb : s.hdr.ctype.toNat = 2 ∨ s.hdr.ctype.toNat = 6 := by omega
    exact bkgdColour_rgb (s := bkgdRaw data want s) rgb chan

/-! ## gAMA, IDAT, unknown chunks -/

theorem exec_gama (data : List Byte) (crc : Word) (s : State) :
    exec (.gama data crc) s
      = if s.haveIhdr = false ∨ data.length ≠ 4 then .next (trap .invalidLength s)
        else .next { s with gamma := u32At data 0, haveGamma := true } := by
  change execGama data crc s = _
  simp only [execGama, ite_or, Bool.not_eq_true', raise_eq]

theorem exec_idat (data : List Byte) (crc : Word) (s : State) :
    exec (.idat data crc) s
      = if s.haveIhdr = false then .next (trap .invalidLength s)
        else alloc data.length s fun t => .next { t with acc := t.acc ++ data } := by
  change execIdat data crc s = _
  simp only [execIdat, Bool.not_eq_true', raise_eq]

/-- Settles O11. -/
theorem gammaDataUnknown : Obligations.GammaDataUnknown := by
  intro s data crc type
  rw [exec_gama, exec_idat]
  refine ⟨fun h => ⟨if_pos (.inl h), if_pos h⟩, fun _ hl => if_pos (.inr hl), fun hi hl => if_neg (by simp [hi, hl]),
    fun hi hg => ?_, fun hi hg => ?_, rfl⟩
  · rw [if_neg (by simp [hi]), alloc_denied hg]
  · rw [if_neg (by simp [hi]), alloc_granted hg]
    rfl

/-! ## acTL -/

/-- R168: one test before the request. -/
theorem exec_actl (data : List Byte) (crc : Word) (s : State) :
    exec (.actl data crc) s
      = if s.haveIhdr = false ∨ s.animated = true ∨ data.length ≠ 8 ∨ u32At data 0 = 0
          ∨ s.cfg.maxFrames < (u32At data 0).toNat then .next (trap .invalidLength s)
        else alloc (u32At data 0).toNat s fun t =>
          .next { t with numFrames := u32At data 0, numPlays := u32At data 4, animated := true, anim := true } := by
  change execActl data crc s = _
  simp only [execActl, ite_or, Bool.not_eq_true', raise_eq, toNat_eq_zero_iff]

/-- Settles O12. -/
theorem actl : Obligations.Actl := by
  intro s data crc
  rw [exec_actl]
  refine ⟨fun h => if_pos h, fun hi ha hl h1 hm => ?_⟩
  have passed : ¬(s.haveIhdr = false ∨ s.animated = true ∨ data.length ≠ 8 ∨ u32At data 0 = 0
      ∨ s.cfg.maxFrames < (u32At data 0).toNat) := by
    simp only [hi, ha, hl, ← toNat_eq_zero_iff, Bool.true_eq_false, Bool.false_eq_true, ne_eq, not_true, false_or]
    omega
  rw [if_neg passed]
  exact ⟨fun hg => alloc_denied hg _, fun hg => alloc_granted hg _⟩

end Sys2Proof.Machine
end


section
/-! The assembly of frames (R170 to R178, R230): fcTL, fdAT and IEND, and the frame pipeline around the rows: statements
Fctl, Fdat, Iend and DecodeFrame. -/

namespace Sys2Proof.Machine

/-! ## The decode of a frame begins -/

/-- `decode_frame` with the header there (R178, R230). -/
theorem startDecode_header {s : State} (hh : s.haveIhdr = true) (w h x y : Word) (delay : Nat) (dispose blend : Byte)
    (k : Resume) :
    startDecode w h x y delay dispose blend k s
      = .next (decodeBegun s ⟨w, h, x, y, delay, dispose, blend, (w.toNat * s.hdr.bpp + 7) / 8, 0, [], k⟩) :=
  if_neg (by simp [hh])

/-! ## finish_frame -/

/-- R176 with a frame pending. -/
theorem finishFrame_pending {s : State} (hv : s.fctlValid = true) (k : Resume) :
    finishFrame k s = startDecode s.fW s.fH s.fX s.fY s.fDelay s.fDispose s.fBlend k s :=
  if_pos hv

/-- R176 with the default frame of a still image. -/
theorem finishFrame_default {s : State} (hv : s.fctlValid = false) (ha : s.acc ≠ []) (hs : s.animated = false)
    (k : Resume) : finishFrame k s = startDecode s.hdr.width s.hdr.height 0 0 0 0 0 k s :=
  (if_neg (by simp [hv])).trans (if_pos ⟨ha, hs⟩)

/-- R176 with nothing to decode. -/
theorem finishFrame_nothing {s : State} (hv : s.fctlValid = false) (h : s.acc = [] ∨ s.animated = true) (k : Resume) :
    finishFrame k s = afterFinish k s := by
  refine (if_neg (by simp [hv])).trans (if_neg ?_)
  rintro ⟨ha, hs⟩
  rcases h with h | h
  · exact ha h
  · exact absurd (hs.symm.trans h) nofun

/-! ## The rest of fcTL -/

theorem delayUs_eq (num den : Half) : delayUs num.toNat den.toNat = delayOf num den := by
  simp only [delayUs, delayOf, toNat_eq_zero_iff]

theorem latchFctl_notAnimated {s : State} (ha : s.animated = false) (f : FctlFields) :
    latchFctl f s = .fault .animationNotValid :=
  if_pos (by simp [ha])

theorem latchFctl_tooMany {s : State} (ha : s.animated = true) (hn : s.fctlSeen = s.numFrames.toNat) (f : FctlFields) :
    latchFctl f s = .next (trap .invalidLength s) :=
  (if_neg (by simp [ha])).trans (if_pos hn)

theorem latchFctl_noHeader {s : State} (ha : s.animated = true) (hn : s.fctlSeen ≠ s.numFrames.toNat)
    (hh : s.haveIhdr = false) (f : FctlFields) : latchFctl f s = .fault .headerNotValid :=
  (if_neg (by simp [ha])).trans ((if_neg hn).trans (if_pos (by simp [hh])))

/-- The tests and the latch of R170 are those of `fctlTail`. -/
theorem latchFctl_tail {s : State} (ha : s.animated = true) (hh : s.haveIhdr = true) (f : FctlFields) :
    fctlTail s f (latchFctl f s) := by
  refine ⟨fun hn => latchFctl_tooMany ha hn f, fun hn => ?_⟩
  rw [latchFctl, if_neg (by simp [ha]), if_neg hn, if_neg (by simp [hh])]
  simp only [toNat_eq_zero_iff, delayUs_eq]
  refine ⟨fun outside => if_pos outside, fun inside => ?_⟩
  rw [if_neg inside]
  refine ⟨fun illegal => if_pos illegal, fun ⟨hd, hb⟩ => if_neg ?_⟩
  omega

/-! ## fcTL -/

theorem exec_fctl (data : List Byte) (crc : Word) (s : State) : exec (.fctl data crc) s = execFctl data crc s := rfl

/-- `s` after a sequence number was accepted (R170, R172). -/
def numbered (s : State) : State := { s with nextSeq := s.nextSeq + 1 }

/-- R170 up to its call of finish_frame. -/
theorem exec_fctl_finish {s : State} {data : List Byte} (ha : s.animated = true) (hl : data.length = 26)
    (hq : (u32At data 0).toNat = s.nextSeq) (crc : Word) :
    exec (.fctl data crc) s = finishFrame (.fctl (fctlFields data)) (numbered s) := by
  rw [exec_fctl, execFctl, if_neg (by simp [ha]), if_neg (by simp [hl]), if_neg (by simp [hq])]
  rfl

/-- With no frame pending the rest of fcTL follows at once, ACC emptied (R170, R176). -/
theorem finishFrame_latch {s : State} (hv : s.fctlValid = false) (ha : s.animated = true) (f : FctlFields) :
    finishFrame (.fctl f) s = latchFctl f { s with acc := [] } := by
  have stays : ({ s with acc := [], fctlValid := false } : State) = { s with acc := [] } := by rw [← hv]
  rw [finishFrame_nothing hv (.inr ha), afterFinish, stays]

/-- Settles O13: the tests, then what finish_frame does by FCTL_VALID. -/
theorem fctl : Obligations.Fctl := by
  intro s data crc f hf
  obtain rfl : f = fctlFields data := hf
  refine ⟨fun ha => if_pos (by simp [ha]), fun ha hl => ?_, fun ha hl hq => ?_, fun ha hl hq hh => ?_,
    fun ha hl hq hh => ?_⟩
  · rw [exec_fctl, execFctl, if_neg (by simp [ha]), if_pos hl, raise_eq]
  · rw [exec_fctl, execFctl, if_neg (by simp [ha]), if_neg (by simp [hl]), if_pos hq, raise_eq]
  · rw [exec_fctl_finish ha hl hq]
    refine ⟨fun hv => ?_, fun hv => ?_⟩
    · rw [finishFrame_pending (s := numbered s) hv]
      exact startDecode_header (s := numbered s) hh ..
    · rw [finishFrame_latch (s := numbered s) hv ha]
      exact latchFctl_tail (s := { numbered s with acc := [] }) ha hh _
  · rw [exec_fctl_finish ha hl hq]
    refine ⟨fun h => ?_, fun hv hn => ?_⟩
    · cases hv : s.fctlValid with
      | true =>
        rw [finishFrame_pending (s := numbered s) hv]
        exact startDecode_noHeader (s := numbered s) hh ..
      | false =>
        have hn : s.fctlSeen ≠ s.numFrames.toNat := h.resolve_left (by simp [hv])
        rw [finishFrame_latch (s := numbered s) hv ha]
        exact latchFctl_noHeader (s := { numbered s with acc := [] }) ha hn hh _
    · rw [finishFrame_latch (s := numbered s) hv ha]
      exact latchFctl_tooMany (s := { numbered s with acc := [] }) ha hn _

/-! ## fdAT -/

theorem exec_fdat (data : List Byte) (crc : Word) (s : State) : exec (.fdat data crc) s = execFdat data crc s := rfl

/-- Settles O14, test by test. -/
theorem fdat : Obligations.Fdat := by
  intro s data crc
  rw [exec_fdat, execFdat]
  refine ⟨fun ha => if_pos (by simp [ha]), fun ha hl => ?_, fun ha hl => ?_⟩
  · rw [if_neg (by simp [ha]), if_pos hl, raise_eq]
  · rw [if_neg (by simp [ha]), if_neg (Nat.not_lt.mpr hl)]
    refine ⟨fun hq => if_pos hq, fun hq t ht => ?_⟩
    obtain rfl : t = numbered s := ht
    rw [if_neg (by simp [hq])]
    refine ⟨fun hv => if_pos (by simp [hv]), fun hv hg => ?_, fun hv hg => ?_⟩
    · exact (if_neg (by simp [hv])).trans (alloc_denied (s := numbered s) hg _)
    · exact (if_neg (by simp [hv])).trans (alloc_granted (s := numbered s) hg _)

/-! ## IEND -/

theorem exec_iend (data : List Byte) (crc : Word) (s : State) : exec (.iend data crc) s = finishFrame .iend s := rfl

/-- Settles O15, by what finish_frame finds. -/
theorem iend : Obligations.Iend := by
  intro s data crc
  rw [exec_iend]
  refine ⟨fun hv hh => ?_, fun hv ha hs hh => ?_, fun hv h => ?_⟩
  · rw [finishFrame_pending hv, startDecode_header hh]
  · rw [finishFrame_default hv ha hs, startDecode_header hh]
  · rw [finishFrame_nothing hv h, afterFinish]

/-! ## The frame pipeline -/

theorem step_afterInflate {s : State} (ht : coreTurn s) (hp : s.phase = .inflated) : step s = afterInflate s :=
  step_act (a := .afterInflate) ht.1 ht.2 (by simp only [fetch, streamLevel, fetchOther, hp])

theorem step_storeFrame {s : State} (ht : coreTurn s) (hp : s.phase = .rows) (hr : s.job.row = s.job.h.toNat) :
    step s = storeFrame s :=
  step_act (a := .storeFrame) ht.1 ht.2 (by rw [fetch_rows hp, fetchRow, if_pos hr.ge])

/-- Settles O16: the two rules of the pipeline at their points; fcTL goes on as in `latchFctl_tail`. -/
theorem decodeFrame : Obligations.DecodeFrame := by
  intro s ht
  refine ⟨fun hp => ?_, fun hp hr hh t hstored => ?_⟩
  · rw [step_afterInflate ht hp, afterInflate]
    refine ⟨fun hl => if_pos hl, fun hl => ?_⟩
    rw [if_neg (Nat.not_lt.mpr hl)]
    exact ⟨fun hg => alloc_denied hg _, fun hg => alloc_granted hg _⟩
  · rw [step_storeFrame ht hp hr, storeFrame, if_neg (by simp [hh])]
    refine ⟨fun hk => ?_, fun f hk => ?_⟩
    · rw [hk, hstored]
      rfl
    · have latched : afterFinish (.fctl f) { s with
          frames := s.frames ++ [jobFrame s], framesDone := s.framesDone + 1
          framesOut := BitVec.ofNat 32 (s.framesDone + 1), out := [] } = latchFctl f t := by
        rw [hstored]
        rfl
      obtain ⟨animated, header⟩ : t.animated = s.animated ∧ t.haveIhdr = s.haveIhdr := by
        rw [hstored]
        exact ⟨rfl, rfl⟩
      rw [hk, latched]
      exact ⟨fun ha => latchFctl_tail (animated.trans ha) (header.trans hh) f,
        fun ha => latchFctl_notAnimated (animated.trans ha) f⟩

end Sys2Proof.Machine
end

section
/-! Canonical codes under the Kraft inequality (R205, R206, R215): statement CanonicalCodes. -/

namespace Sys2Proof.Machine

/-! ## The codes -/

/-- Every symbol has a code (R205). -/
theorem assignCodes_get {lens : List Nat} (hl : ∀ l ∈ lens, l ≤ 15) {n a : Nat} (ha : lens[n]? = some a) :
    ∃ c, (assignCodes lens)[n]? = some c := by
  have slot : a < (nextCodes lens).length := by
    rw [nextCodes, List.length_cons, nextFrom_length]
    exact Nat.lt_succ_of_le (hl a (List.mem_of_getElem? ha))
  exact ⟨_, assignFrom_get lens _ n a ha slot⟩

/-- Codes rise with the symbol within a length (R215). -/
theorem code_lt_code {lens : List Nat} (hl : ∀ l ∈ lens, l ≤ 15) {s t a c d : Nat} (hs : lens[s]? = some a)
    (ht : lens[t]? = some a) (h0 : a ≠ 0) (hc : (assignCodes lens)[s]? = some c)
    (hd : (assignCodes lens)[t]? = some d) (hst : s < t) : c < d := by
  rw [code_eq hl hs h0 hc, code_eq hl ht h0 hd]
  exact Nat.add_lt_add_left (count_take_lt hs hst) _

/-- A shorter code, left-aligned to a longer one, is below it (R215). -/
theorem shorter_code_lt {lens : List Nat} (hl : ∀ l ∈ lens, l ≤ 15) {s t a b c d : Nat} (hs : lens[s]? = some a)
    (ht : lens[t]? = some b) (h0 : a ≠ 0) (hc : (assignCodes lens)[s]? = some c)
    (hd : (assignCodes lens)[t]? = some d) (hab : a < b) : c * 2 ^ (b - a) < d :=
  calc c * 2 ^ (b - a) < (c + 1) * 2 ^ (b - a) := Nat.mul_lt_mul_of_pos_right (Nat.lt_succ_self c) (Nat.two_pow_pos _)
    _ ≤ d := code_order hl hs ht h0 hc hd hab

/-! ## The tree -/

theorem insertAll_unused (kind : Kind) {W : List (Nat × Nat)} (h : ∀ p ∈ W, p.1 = 0) (sym : Nat) (t : TreeReg)
    (n : Nat) : insertAll kind W sym t n = (t, n) := by
  induction W generalizing sym with
  | nil => rfl
  | cons p W ih =>
    obtain ⟨h0, rest⟩ := List.forall_mem_cons.mp h
    exact (if_pos h0).trans (ih rest (sym + 1))

/-- Where no symbol is used only the root is made, and the tree stays EMPTY (R206). -/
theorem buildTree_unused (kind : Kind) {lens : List Nat} (h : ∀ l ∈ lens, l = 0) :
    buildTree kind lens = (⟨.node .absent .absent, false, true⟩, 1) :=
  insertAll_unused kind (fun _ hp => h _ (List.of_mem_zip hp).1) 0 _ 1

section Kraft
variable {lens : List Nat} (hl : ∀ l ∈ lens, l ≤ 15) (hk : kraft lens) (kind : Kind)
include hl hk

/-- A tree with a used symbol is whole and not EMPTY (R206, R215). -/
theorem buildTree_used {n a : Nat} (ha : lens[n]? = some a) (h0 : a ≠ 0) :
    (buildTree kind lens).1.malformed = false ∧ (buildTree kind lens).1.empty = false := by
  obtain ⟨c, hc⟩ := assignCodes_get hl ha
  obtain ⟨whole, full, -⟩ := buildTree_leaf hl hk ha h0 hc kind
  exact ⟨whole, full⟩

/-- Under the Kraft inequality no insertion collides (R206, R215). -/
theorem buildTree_whole : (buildTree kind lens).1.malformed = false := by
  by_cases used : ∃ a ∈ lens, a ≠ 0
  · obtain ⟨a, ha, h0⟩ := used
    obtain ⟨n, hn⟩ := List.mem_iff_getElem?.mp ha
    exact (buildTree_used hl hk kind hn h0).1
  · rw [buildTree_unused kind fun a ha => of_not_not fun h0 => used ⟨a, ha, h0⟩]

/-- The code of a symbol leads to the leaf of that symbol (R212, R215). -/
theorem follow_code {n a c : Nat} (ha : lens[n]? = some a) (h0 : a ≠ 0) (hc : (assignCodes lens)[n]? = some c) :
    follow (buildTree kind lens).1.root (codeBits a c) = .leaf (leafOf kind n) := by
  obtain ⟨-, -, leaf⟩ := buildTree_leaf hl hk ha h0 hc kind
  exact (follow_eq_along _ _).trans leaf

end Kraft

/-- Settles O23: the order of the codes, and where they lead in the tree that they build. -/
theorem canonicalCodes : Obligations.CanonicalCodes := by
  intro kind lens hl hk
  refine ⟨buildTree_whole hl hk kind, fun s t a b c d _ _ hs ht h0 hc hd => ⟨?_, shorter_code_lt hl hs ht h0 hc hd⟩,
    fun s a c ha h0 hc => ⟨follow_code hl hk kind ha h0 hc, (buildTree_used hl hk kind ha h0).2⟩⟩
  rintro rfl
  exact code_lt_code hl hs ht h0 hc hd

end Sys2Proof.Machine
end

section
/-! The trees of a block: the static ones (R208, R112) and the dynamic ones (R209, R211), with their node requests
(R206, R216, R386; log 9): statements StaticTrees, DynamicHeader and DynamicTrees. -/

namespace Sys2Proof.Machine

/-! ## Building trees -/

theorem requested_requested (s : State) (a b : Nat) : requested (requested s a) b = requested s (a + b) := by
  simp only [requested, Nat.add_assoc]

/-- Of requests made in a row and granted, those of each part are granted (R386). -/
theorem denies_parts {denied : List (Nat × Nat)} {n a b size : Nat} (h : denies denied n (a + b) size = false) :
    denies denied n a size = false ∧ denies denied (n + a) b size = false := by
  simp only [denies, List.any_eq_false, Bool.and_eq_true, decide_eq_true_eq] at h ⊢
  refine ⟨fun r hr => ?_, fun r hr => ?_⟩ <;> specialize h r hr <;> omega

theorem withTree_granted {kind : Kind} {lens : List Nat} {s : State} (h : grants s (buildTree kind lens).2 1)
    (k : TreeReg → State → Out) :
    withTree kind lens s k = k (buildTree kind lens).1 (requested s (buildTree kind lens).2) :=
  allocs_granted _ h

theorem withTree_denied {kind : Kind} {lens : List Nat} {s : State} (h : ¬grants s (buildTree kind lens).2 1)
    (k : TreeReg → State → Out) :
    withTree kind lens s k = .next (trap .allocationFailure (requested s (buildTree kind lens).2)) :=
  allocs_denied _ (by simpa using h)

/-- Both trees of a block are built from the code lengths `a` and `b`, and the symbols follow (R208, R211). -/
def buildBoth (a b : List Nat) (s : State) : Out :=
  withTree .litlen a s fun t s1 =>
    withTree .dist b { s1 with tLit := t } fun u s2 => .next { s2 with tDist := u, phase := .litLen }

section Both
variable {a b : List Nat} {m n : Nat} (hm : (buildTree .litlen a).2 = m) (hn : (buildTree .dist b).2 = n) {s : State}
include hm

include hn in
theorem buildBoth_granted (h1 : grants s m 1) (h2 : grants (requested s m) n 1) :
    buildBoth a b s = .next { requested s (m + n) with
      tLit := (buildTree .litlen a).1, tDist := (buildTree .dist b).1, phase := .litLen } := by
  subst hm hn
  rw [buildBoth, withTree_granted h1,
    withTree_granted (s := { requested s _ with tLit := (buildTree .litlen a).1 }) h2, ← requested_requested]
  rfl

theorem buildBoth_litlen_denied (h1 : ¬grants s m 1) :
    buildBoth a b s = .next (trap .allocationFailure (requested s m)) := by
  subst hm
  exact withTree_denied h1 _

include hn in
theorem buildBoth_dist_denied (h1 : grants s m 1) (h2 : ¬grants (requested s m) n 1) :
    buildBoth a b s = .next (trap .allocationFailure
      { requested s (m + n) with tLit := (buildTree .litlen a).1 }) := by
  subst hm hn
  rw [buildBoth, withTree_granted h1,
    withTree_denied (s := { requested s _ with tLit := (buildTree .litlen a).1 }) h2, ← requested_requested]
  rfl

end Both

/-! ## The dynamic trees -/

theorem step_buildTrees {s : State} (ht : coreTurn s) (hp : s.phase = .codeLens) (hi : s.hlit + s.hdist ≤ s.li) :
    step s = buildBoth (s.lens.take s.hlit) ((s.lens.drop s.hlit).take s.hdist) s :=
  step_act (a := .buildTrees) ht.1 ht.2
    (by simp only [fetch, streamLevel, hp, if_neg (Nat.not_lt.mpr hi), fetchOther])

/-- Settles O21, by which of the two trees has a request denied. -/
theorem dynamicTrees : Obligations.DynamicTrees := by
  rintro s a b ht hp hi rfl rfl
  rw [step_buildTrees ht hp hi]
  exact ⟨buildBoth_granted rfl rfl, buildBoth_litlen_denied rfl, buildBoth_dist_denied rfl rfl⟩

/-! ## The dynamic header -/

theorem exec_dynHdr (hl hd : BitVec 5) (hc : BitVec 4) (vs : List (BitVec 3)) (s : State) :
    exec (.dynHdr hl hd hc vs) s = withTree .cl (permute perm vs (List.replicate 19 0))
      { s with
        hlit := hl.toNat + 257, hdist := hd.toNat + 1, hclen := hc.toNat + 4
        cllen := permute perm vs (List.replicate 19 0) }
      fun t s1 => .next { s1 with tCl := t, li := 0, phase := .codeLens } := rfl

/-- PERM has every code-length symbol (R107). -/
theorem exists_perm {p : Nat} (h : p < 19) : ∃ k : Nat, perm[k]? = some p :=
  List.mem_iff_getElem?.mp ((by decide : ∀ p < 19, p ∈ perm) p h)

/-- CLLEN is the one array with the k-th length at the k-th entry of PERM and 0 elsewhere (R209). -/
theorem permute_unique {vs : List (BitVec 3)} {cl : List Nat} (hlen : cl.length = 19)
    (hset : ∀ (k p : Nat) (v : BitVec 3), perm[k]? = some p → vs[k]? = some v → cl[p]? = some v.toNat)
    (hrest : ∀ k p : Nat, perm[k]? = some p → vs.length ≤ k → cl[p]? = some 0) :
    permute perm vs (List.replicate 19 0) = cl := by
  have nodup : perm.Nodup := by decide
  obtain ⟨set, rest⟩ := permute_get perm vs (List.replicate 19 0) nodup (by decide)
  refine List.ext_getElem? fun p => ?_
  by_cases hp : p < 19
  · obtain ⟨k, hk⟩ := exists_perm hp
    by_cases hv : k < vs.length
    · have value := List.getElem?_eq_getElem hv
      rw [set k p _ hk value, hset k p _ hk value]
    · have only : ∀ j, perm[j]? = some p → vs.length ≤ j := fun j hj =>
        (List.getElem?_inj (List.getElem?_eq_some_iff.mp hk).1 nodup).mp (hk.trans hj.symm) ▸ Nat.not_lt.mp hv
      rw [rest p only, hrest k p hk (Nat.not_lt.mp hv), List.getElem?_replicate_of_lt hp]
  · rw [List.getElem?_eq_none (by simpa [permute_length] using hp), List.getElem?_eq_none (by simpa [hlen] using hp)]

/-- Settles O19: CLLEN is determined by its entries, and its tree's requests are granted or denied. -/
theorem dynamicHeader : Obligations.DynamicHeader := by
  intro s hl hd hc vs cl _ hlen hset hrest
  rw [exec_dynHdr, permute_unique hlen hset hrest]
  refine ⟨fun hg => withTree_granted ?_ _, fun hg => withTree_denied ?_ _⟩ <;> exact hg

/-! ## The static trees -/

theorem exec_blkStatic (f : Bool) (s : State) :
    exec (.blkStatic f) s = buildBoth slit sdist { s with bfinal := f, btype := 1 } := rfl

/-- The node requests of the static trees (R216). -/
theorem slit_requests : (buildTree .litlen slit).2 = 575 := by decide +kernel

theorem sdist_requests : (buildTree .dist sdist).2 = 60 := by decide +kernel

theorem slit_runs :
    slit = .replicate 144 8 ++ (.replicate 112 9 ++ (.replicate 24 7 ++ .replicate 8 8)) := by
  simp only [slit, List.append_assoc]

theorem slit_le : ∀ l ∈ slit, l ≤ 15 := by simp [slit_runs, or_imp, forall_and, -List.reduceReplicate]

theorem sdist_le : ∀ l ∈ sdist, l ≤ 15 := by simp [sdist]

theorem slit_kraft : kraft slit := by simp [kraft, slit_runs, -List.reduceReplicate]

theorem sdist_kraft : kraft sdist := by simp [kraft, sdist]

/-- In a run of `m` symbols of one length the codes count up by one (R205), and each leads to the leaf of its symbol. -/
theorem follow_run {lens : List Nat} (hl : ∀ l ∈ lens, l ≤ 15) (hk : kraft lens) (kind : Kind) (before : List Nat)
    (m a : Nat) (h0 : a ≠ 0) (hrun : before ++ List.replicate m a <+: lens) :
    ∀ i < m, follow (buildTree kind lens).1.root (codeBits a (firstCode lens a + before.count a + i))
      = .leaf (leafOf kind (before.length + i)) := by
  intro i hi
  obtain ⟨after, rfl⟩ := hrun
  rw [List.append_assoc] at *
  have ha : (before ++ (List.replicate m a ++ after))[before.length + i]? = some a := by
    simp [List.getElem?_append_right, List.getElem?_append_left, hi]
  have front : (before ++ (List.replicate m a ++ after)).take (before.length + i) = before ++ List.replicate i a := by
    rw [List.take_length_add_append, List.take_append_of_le_length (by simpa using hi.le), List.take_replicate,
      Nat.min_eq_left hi.le]
  obtain ⟨c, hc⟩ := assignCodes_get hl ha
  have code := code_eq hl ha h0 hc
  rw [front, List.count_append, List.count_replicate_self, ← Nat.add_assoc] at code
  exact code ▸ follow_code hl hk kind ha h0 hc

/-- The first code of each length in use (R112). -/
theorem firstCode_slit : firstCode slit 7 = 0 ∧ firstCode slit 8 = 0x30 ∧ firstCode slit 9 = 0x190 := by
  decide +kernel

theorem firstCode_sdist : firstCode sdist 5 = 0 := rfl

/-- Where the four runs of static literal/length codes lead (R112, R208). -/
theorem follow_slit :
    (∀ n < 144, follow (buildTree .litlen slit).1.root (codeBits 8 (0x30 + n)) = .leaf (leafOf .litlen n)) ∧
    (∀ n < 112, follow (buildTree .litlen slit).1.root (codeBits 9 (0x190 + n)) = .leaf (leafOf .litlen (144 + n))) ∧
    (∀ n < 24, follow (buildTree .litlen slit).1.root (codeBits 7 n) = .leaf (leafOf .litlen (256 + n))) ∧
    (∀ n < 8, follow (buildTree .litlen slit).1.root (codeBits 8 (0xC0 + n)) = .leaf (leafOf .litlen (280 + n))) := by
  obtain ⟨first7, first8, first9⟩ := firstCode_slit
  have run := follow_run slit_le slit_kraft .litlen
  rw [slit_runs] at *
  refine ⟨?_, ?_, ?_, ?_⟩
  · simpa [first8, -List.reduceReplicate] using run [] 144 8
  · simpa [first9, List.count_replicate, -List.reduceReplicate] using run (.replicate 144 8) 112 9
  · simpa [first7, List.count_replicate, -List.reduceReplicate] using run (.replicate 144 8 ++ .replicate 112 9) 24 7
  · simpa [first8, List.count_replicate, -List.reduceReplicate] using
      run (.replicate 144 8 ++ .replicate 112 9 ++ .replicate 24 7) 8 8

/-- The static distance codes are the symbols' numbers (R112, R208). -/
theorem follow_sdist : ∀ n < 30, follow (buildTree .dist sdist).1.root (codeBits 5 n) = .leaf (leafOf .dist n) := by
  simpa [firstCode_sdist] using follow_run sdist_le sdist_kraft .dist [] 30 5 (by decide) ⟨[], rfl⟩

/-- The two codes beyond them lead to no leaf (R112). -/
theorem follow_sdist_absent : follow (buildTree .dist sdist).1.root (codeBits 5 30) = .absent
    ∧ follow (buildTree .dist sdist).1.root (codeBits 5 31) = .absent := by
  decide +kernel

theorem leafOf_literal {n : Nat} (h : n < 256) : leafOf .litlen n = ⟨n, n, 0, false⟩ := if_pos h.le

/-- Which static symbols are illegal (R203, R204). -/
theorem static_illegal : (∀ n < 24, (leafOf .litlen (256 + n)).illegal = false) ∧
    (∀ n < 8, (leafOf .litlen (280 + n)).illegal = decide (6 ≤ n)) ∧ ∀ n < 30, (leafOf .dist n).illegal = false := by
  decide

/-- Settles O18: the two trees by the runs of their codes, the requests by which of the trees has one denied. -/
theorem staticTrees : Obligations.StaticTrees := by
  refine ⟨fun f s hg => ?_, fun f s hg => ?_, fun f s hg hd => ?_⟩
  · obtain ⟨hlit, hdist⟩ := denies_parts (a := 575) (b := 60) hg
    obtain ⟨low, high, short, top⟩ := follow_slit
    obtain ⟨shortLegal, topLegal, distLegal⟩ := static_illegal
    obtain ⟨litWhole, litFull⟩ := buildTree_used slit_le slit_kraft .litlen (n := 0) rfl (by decide : 8 ≠ 0)
    obtain ⟨distWhole, distFull⟩ := buildTree_used sdist_le sdist_kraft .dist (n := 0) rfl (by decide : 5 ≠ 0)
    refine ⟨_, _, buildBoth_granted slit_requests sdist_requests hlit hdist, rfl, rfl, litFull, litWhole, distFull,
      distWhole, fun n hn => ?_, fun n hn => ?_, fun n hn => ⟨_, short n hn, leafOf_symbol _ _, shortLegal n hn⟩,
      fun n hn => ⟨_, top n hn, leafOf_symbol _ _, topLegal n hn⟩,
      fun n hn => ⟨_, follow_sdist n hn, leafOf_symbol _ _, distLegal n hn⟩, follow_sdist_absent⟩
    · rw [low n hn, leafOf_literal (by omega)]
    · rw [high n hn, leafOf_literal (by omega)]
  · exact buildBoth_litlen_denied slit_requests hg
  · exact buildBoth_dist_denied slit_requests sdist_requests hg hd

end Sys2Proof.Machine
end

section
/-! The code-length symbols (R210, R113, R119): statement CodeLengthSymbols. -/

namespace Sys2Proof.Machine

theorem exec_clTable (s : State) : ∀ e ∈ clTable, exec e.1 s = clLength e.2 s := by
  simp only [clTable, List.forall_mem_cons, List.not_mem_nil, false_implies, implies_true, and_true]
  and_intros
  all_goals rfl

section InRange
variable {s : State} (hi : s.li < s.hlit + s.hdist) (hn : s.hlit + s.hdist ≤ s.lens.length)
include hi hn

/-- The model's test of the slot passes (R40, R210). -/
theorem slot_free : ¬(!lengthSlotOk s) = true := by
  simp [lengthSlotOk, hi, hn]

theorem clLength_free (v : Nat) : clLength v s = .next { s with lens := s.lens.set s.li v, li := s.li + 1 } :=
  if_neg (slot_free hi hn)

/-- With nothing to repeat CL16 raises before its extra bits (R210). -/
theorem exec_cl16_first (h0 : s.li = 0) : exec .cl16 s = .next (trap .invalidLength s) :=
  (if_neg (slot_free hi hn)).trans (if_pos h0)

/-- A repeat symbol reads its extra bits, then repeats the last length, or zero, from its base on (R210, R113). -/
theorem exec_repeatTable {e : Instr × Nat × Nat} (he : e ∈ repeatTable) (hlast : e.1 = .cl16 → 1 ≤ s.li) :
    exec e.1 s = withBits e.2.1 s fun x t =>
      clRepeat (e.2.2 + x) (if e.1 = .cl16 then t.lens.getD (t.li - 1) 0 else 0) t := by
  have slot := slot_free hi hn
  simp only [repeatTable, List.mem_cons, List.not_mem_nil, or_false] at he
  obtain rfl | rfl | rfl := he
  · exact (if_neg slot).trans (if_neg (Nat.one_le_iff_ne_zero.mp (hlast rfl)))
  · exact if_neg slot
  · exact if_neg slot

end InRange

theorem clRepeat_beyond {s : State} {rep : Nat} (h : s.hlit + s.hdist < s.li + rep) (v : Nat) :
    clRepeat rep v s = .next (trap .invalidLength s) :=
  if_pos h

theorem clRepeat_fits {s : State} {rep : Nat} (h : s.li + rep ≤ s.hlit + s.hdist) (v : Nat) :
    clRepeat rep v s = .next { s with lens := fillFrom v rep s.li s.lens, li := s.li + rep } :=
  if_neg (Nat.not_lt.mpr h)

theorem repeatTable_reads : ∀ e ∈ repeatTable, e.2.1 ≠ 0 := by decide

/-- Settles O20: a length at once; a repeat by whether its extra bits are there, then by whether it fits. -/
theorem codeLengthSymbols : Obligations.CodeLengthSymbols := by
  intro s hb hi hn
  refine ⟨fun e he => (exec_clTable s e he).trans (clLength_free hi hn e.2), exec_cl16_first hi hn, ?_⟩
  rintro e he rep rfl hlast
  rw [exec_repeatTable hi hn he hlast]
  refine ⟨fun h => withBits_of_not_has hb (repeatTable_reads e he) h _, fun h beyond => ?_, fun h fits => ?_⟩
  · rw [withBits_of_has hb (.inr h)]
    exact clRepeat_beyond (s := payMoved s e.2.1) beyond _
  · rw [withBits_of_has hb (.inr h)]
    refine ⟨_, clRepeat_fits (s := payMoved s e.2.1) fits _, rfl, fillFrom_length _ _ _ _, fun j => ?_⟩
    exact fillFrom_get _ _ _ _ (fits.trans hn) j

end Sys2Proof.Machine
end

section
/-! Decoding a symbol (R212, R108, R109, R111, R113): statement SymbolDecode. -/

namespace Sys2Proof.Machine

section Due
variable {s : State} (ht : coreTurn s) {k : Kind} {t : TreeReg} (hl : streamLevel s = some (.pay, .sym k t))
include ht hl

/-- A walk that ends in a rejection raises its error (R212, R382, R385). -/
theorem step_symbol_error {r : Reject} (h : t.decode (s.cur .pay) = .error r) {e : ErrKind}
    (he : rejectKind r = some e) : step s = .next (trap e s) := by
  have rejects : decode (.sym k t) (s.cur .pay) = .error r := by simp only [decode, decodeSym, h]
  exact (step_rejected ht hl rejects).trans (rejected_kind he s)

/-- A walk that ends at a leaf runs the element of its symbol, with the bits of the walk consumed (R212). -/
theorem step_symbol_leaf {l : Leaf} {n : Nat} (h : t.decode (s.cur .pay) = .ok (l, (s.cur .pay).advance n)) {i : Instr}
    (hi : standsFor k l.symbol i) : step s = exec i (payMoved s n) := by
  have symbol : symInstr k l.symbol = some i :=
    (symInstr_symbol k l.symbol i).mpr ((symbol_iff_standsFor k l.symbol i).mpr hi)
  have decoded : decode (.sym k t) (s.cur .pay) = .ok (i, (s.cur .pay).advance n) := by
    simp only [decode, decodeSym, h, symbol]
  exact step_decoded ht hl decoded

end Due

/-- A tree that is neither EMPTY nor MALFORMED is walked (R212). -/
theorem decode_walks {t : TreeReg} (he : t.empty = false) (hm : t.malformed = false) (c : Cur) :
    t.decode c = t.root.walk c := by
  simp [TreeReg.decode, he, hm]

/-- An EMPTY or MALFORMED tree is rejected with the same error (R212, R385). -/
theorem decode_unusable {t : TreeReg} (h : t.empty = true ∨ t.malformed = true) (c : Cur) :
    ∃ r, t.decode c = .error r ∧ rejectKind r = some .unsupportedFeature := by
  by_cases he : t.empty = true
  · exact ⟨.treeEmpty, if_pos he, rfl⟩
  · exact ⟨.treeMalformed, (if_neg he).trans (if_pos (h.resolve_left he)), rfl⟩

/-- Settles O22: a usable tree is walked, and the walk is the path that the next bits spell. -/
theorem symbolDecode : Obligations.SymbolDecode := by
  intro s k t ht hb hl
  refine ⟨fun h => ?_, fun he hm n => ⟨fun hn l hf i hi => ?_, fun hn ⟨x, y, hx⟩ hf => ?_,
    fun hn ⟨x, y, hx⟩ => ?_⟩⟩
  · obtain ⟨r, rejects, kind⟩ := decode_unusable h (s.cur .pay)
    exact step_symbol_error ht hl rejects kind
  all_goals simp only [follow_eq_along, nextBits_eq] at *
  · have walk := walk_along_leaf n t.root (s.cur .pay) l hb (.inr hn) hf
    exact step_symbol_leaf ht hl ((decode_walks he hm _).trans walk) hi
  · have walk := walk_along_absent n t.root x y (s.cur .pay) hb hn hx hf
    exact step_symbol_error ht hl ((decode_walks he hm _).trans walk) rfl
  · have walk := walk_along_eof n t.root x y (s.cur .pay) hb hn hx
    exact step_symbol_error ht hl ((decode_walks he hm _).trans walk) rfl

end Sys2Proof.Machine
end


section
/-! The zlib header, the block headers and the stored block (R104 to R106, R230 to R234): statements ZlibHeader,
BlockHeader and StoredBlock. -/

namespace Sys2Proof.Machine

/-! ## The zlib header -/

/-- R231 at a cursor. -/
theorem decodeZhdr_eq (n : Nat) (c : Cur) :
    decodeZhdr n c = if c.has n then .ok (.zhdr ((c.buf.drop c.pos).take n), past c n) else .error .eof := by
  rw [decodeZhdr, cur_take_eq]
  by_cases h : c.has n = true
  · simp only [h, if_true]
  · simp only [h, Bool.false_eq_true, if_false]

theorem exec_zhdr (bytes : List Byte) (s : State) : exec (.zhdr bytes) s = .next { s with phase := .block } := rfl

/-- Settles O24, by whether the bytes to skip are there. -/
theorem zlibHeader : Obligations.ZlibHeader := by
  refine ⟨exec_zhdr, fun s ht hp hip _ => ?_⟩
  have level : streamLevel s = some (.pay, .zhdr s.cfg.zlibHdrSkip) := by simp only [streamLevel, hp]
  have has : (s.cur .pay).has s.cfg.zlibHdrSkip = true ↔ s.cfg.zlibHdrSkip ≤ s.acc.length := by
    rw [has_iff_readerHas, readerHas, hip, Nat.zero_add]
  have decodes := decodeZhdr_eq s.cfg.zlibHdrSkip (s.cur .pay)
  refine ⟨fun h => step_rejected ht level (e := .eof) ?_, fun h => ?_⟩
  · exact decodes.trans (if_neg (has.not.mpr (Nat.not_le.mpr h)))
  · rw [if_pos (has.mpr h)] at decodes
    rw [step_decoded ht level decodes, exec_zhdr, putCur_past, readerMoved, hip, Nat.zero_add]

/-! ## Block headers -/

/-! ### Two fields in a row -/

section TwoFields
variable {c : Cur} (hb : c.bit < 8) {m n : Nat}
include hb

/-- Two reads whose bits are all there (R138, R140). -/
theorem readBits_both (h : c.offset + (m + n) ≤ 8 * c.buf.length) :
    c.readBits m = .ok (bitsAt c.buf c.offset m, c.advance m) ∧
    (c.advance m).readBits n = .ok (bitsAt c.buf (c.offset + m) n, c.advance (m + n)) := by
  have second := Cur.readBits_spec n (c.advance m) (Cur.advance_bit c m)
  rw [Cur.advance_buf, Cur.advance_offset, Cur.advance_advance, if_pos (by omega)] at second
  exact ⟨(Cur.readBits_spec m c hb).trans (if_pos (by omega)), second⟩

/-- Where the bits of two reads are not all there, the first or the second rejects (R138). -/
theorem readBits_short (hn : n ≠ 0) (h : ¬c.offset + (m + n) ≤ 8 * c.buf.length) :
    c.readBits m = .error .eof ∨
    ∃ v, c.readBits m = .ok (v, c.advance m) ∧ (c.advance m).readBits n = .error .eof := by
  have first := Cur.readBits_spec m c hb
  have second := Cur.readBits_spec n (c.advance m) (Cur.advance_bit c m)
  rw [Cur.advance_buf, Cur.advance_offset, if_neg (by omega)] at second
  split_ifs at first
  · exact .inr ⟨_, first, second⟩
  · exact .inl first

end TwoFields

/-! ### The header -/

/-- R105 at a cursor: BFINAL and BTYPE are there exactly where three bits are. -/
theorem decodeBlkHdr_eq {c : Cur} (hb : c.bit < 8) :
    decodeBlkHdr c = if c.offset + 3 ≤ 8 * c.buf.length then
      .ok (blkElement (bitsAt c.buf (c.offset + 1) 2) (bitAt c.buf c.offset), c.advance 3) else .error .eof := by
  unfold decodeBlkHdr
  split_ifs with h
  · obtain ⟨readFinal, readType⟩ := readBits_both (m := 1) (n := 2) hb h
    have final : (bitsAt c.buf c.offset 1 == 1) = bitAt c.buf c.offset := by
      cases hf : bitAt c.buf c.offset <;> simp [bitsAt, hf]
    have four := bitsAt_lt c.buf (c.offset + 1) 2
    simp only [readFinal, readType, final]
    generalize bitsAt c.buf (c.offset + 1) 2 = t at four
    interval_cases t <;> rfl
  · obtain first | ⟨v, first, second⟩ := readBits_short (m := 1) (n := 2) hb (by decide) h
    · simp only [first]
    · simp only [first, second]

section Header
variable {s : State} (ht : coreTurn s) (hp : s.phase = .block) (hb : s.ib < 8)
include ht hp hb

theorem step_block_of_has (h : payHas s 3) :
    step s = exec (blkElement (payBits (payMoved s 1) 2) (payBit s (payPos s))) (payMoved s 3) := by
  have decodes := (decodeBlkHdr_eq (c := s.cur .pay) hb).trans (if_pos h)
  rw [payBits_eq_bitsAt, payPos_payMoved]
  exact step_decoded ht (lv := .blkHdr) (by simp only [streamLevel, hp]) decodes

theorem step_block_of_not_has (h : ¬payHas s 3) : step s = .next (trap .unexpectedEof s) :=
  step_rejected ht (lv := .blkHdr) (by simp only [streamLevel, hp])
    ((decodeBlkHdr_eq (c := s.cur .pay) hb).trans (if_neg h))

end Header

/-- Settles O25: the element of the header is `blkElement` of its BTYPE. -/
theorem blockHeader : Obligations.BlockHeader := by
  refine ⟨fun f s => ⟨rfl, rfl, rfl⟩, fun s ht hp hb => ⟨step_block_of_not_has ht hp hb, ?_⟩⟩
  rintro h f rfl
  rw [step_block_of_has ht hp hb h]
  refine ⟨fun btype => ?_, fun btype => ?_, fun btype => ?_, fun btype => ?_⟩ <;> rw [btype] <;> rfl

/-! ## The stored block -/

/-- The next byte boundary (R139). -/
theorem align_eq {c : Cur} (hb : c.bit < 8) : c.align = ⟨c.buf, (c.offset + 7) / 8, 0⟩ := by
  unfold Cur.align Cur.offset
  split_ifs with h
  · rw [show (8 * c.pos + c.bit + 7) / 8 = c.pos by omega, ← h]
  · rw [show (8 * c.pos + c.bit + 7) / 8 = c.pos + 1 by omega]

/-- Eight bits from a byte boundary are the byte (R63). -/
theorem bitsAt_byte (d : List Byte) (p : Nat) : bitsAt d (8 * p) 8 = (byteAt d p).toNat := by
  rw [← sum_testBit 8 (byteAt d p).toNat (byteAt d p).isLt, bitsAt]
  congr 1
  refine List.map_congr_left fun i hi => ?_
  have hi := List.mem_range.mp hi
  rw [bitAt, show (8 * p + i) / 8 = p by omega, show (8 * p + i) % 8 = i by omega, BitVec.testBit_toNat]

/-- The 16-bit field at byte `p`, the low byte first (R234). -/
def u16leAt (d : List Byte) (p : Nat) : Half := byteAt d (p + 1) ++ byteAt d p

/-- Sixteen bits from a byte boundary are two bytes, the low one first (R63, R234). -/
theorem bitsAt_u16le (d : List Byte) (p : Nat) : bitsAt d (8 * p) 16 = (u16leAt d p).toNat := by
  rw [bitsAt_add d (8 * p) 8 8, ← Nat.mul_add_one, bitsAt_byte, bitsAt_byte, u16leAt, toNat_append_byte]
  omega

/-- R106 at a cursor, from the next byte boundary `p`: LEN and NLEN are there exactly where four bytes are. -/
theorem decodeStored_eq {c : Cur} (hb : c.bit < 8) {p : Nat} (hp : p = (c.offset + 7) / 8) :
    decodeStored c = if p + 4 ≤ c.buf.length then
      .ok (.storedBody (u16leAt c.buf p) (u16leAt c.buf (p + 2)), past ⟨c.buf, p, 0⟩ 4) else .error .eof := by
  have aligned : c.align = ⟨c.buf, p, 0⟩ := hp ▸ align_eq hb
  have offset : Cur.offset ⟨c.buf, p, 0⟩ = 8 * p := rfl
  have inByte : (Cur.mk c.buf p 0).bit < 8 := Nat.zero_lt_succ 7
  unfold decodeStored
  rw [aligned]
  split_ifs with h
  · obtain ⟨readLen, readNlen⟩ := readBits_both (m := 16) (n := 16) inByte (by simp only [offset]; omega)
    have last : Cur.advance (16 + 16) ⟨c.buf, p, 0⟩ = past ⟨c.buf, p, 0⟩ 4 := by
      simp only [Cur.advance, past, Cur.mk.injEq, true_and]
      omega
    rw [offset, bitsAt_u16le] at readLen
    rw [offset, show 8 * p + 16 = 8 * (p + 2) by omega, bitsAt_u16le, last] at readNlen
    simp only [readLen, readNlen, BitVec.ofNat_toNat, BitVec.setWidth_eq]
  · obtain first | ⟨v, first, second⟩ :=
      readBits_short (m := 16) (n := 16) inByte (by decide) (by simp only [offset]; omega)
    · simp only [first]
    · simp only [first, second]

theorem exec_storedBody (len nlen : Half) (s : State) :
    exec (.storedBody len nlen) s = alloc len.toNat s (storedBytes len.toNat) := rfl

theorem storedBytes_there {s : State} (hb : s.ib = 0) {n : Nat} (h : s.ip + n ≤ s.acc.length) :
    storedBytes n s = .next { s with
      out := s.out ++ (s.acc.drop s.ip).take n, ip := s.ip + n, phase := if s.bfinal then .inflated else .block } :=
  (if_neg (by simp [hb])).trans (if_pos h)

theorem storedBytes_missing {s : State} (hb : s.ib = 0) {n : Nat} (h : s.acc.length < s.ip + n) :
    storedBytes n s = .next (trap .unexpectedEof { s with out := s.out ++ s.acc.drop s.ip, ip := s.acc.length }) :=
  (if_neg (by simp [hb])).trans (if_neg (Nat.not_le.mpr h))

/-- Settles O26: the header's fields by `decodeStored_eq`, the bytes by the request and by whether all are there. -/
theorem storedBlock : Obligations.StoredBlock := by
  refine ⟨fun s ht hp hb p hpos => ?_, fun len nlen s hb _ => ?_⟩
  · have level : streamLevel s = some (.pay, .stored) := by simp only [streamLevel, hp]
    have decodes := decodeStored_eq (c := s.cur .pay) hb hpos
    exact ⟨fun h => step_rejected ht level (e := .eof) (decodes.trans (if_neg (Nat.not_le.mpr h))),
      fun h => step_decoded ht level (decodes.trans (if_pos h))⟩
  · rw [exec_storedBody]
    refine ⟨fun hg => alloc_denied hg _, fun hg => ?_⟩
    rw [alloc_granted hg]
    exact ⟨storedBytes_there (s := requested s 1) hb, storedBytes_missing (s := requested s 1) hb⟩

end Sys2Proof.Machine
end

section
/-! The symbol loop (R236 to R241, R110, R111, R214): statements LiteralAndEndOfBlock, MatchSymbols and MatchCopy. -/

namespace Sys2Proof.Machine

/-! ## Literals and the end of a block -/

theorem exec_lit (b : Byte) (s : State) :
    exec (.lit b) s = alloc 1 s fun t => .next { t with out := t.out ++ [b], phase := .litLen } := rfl

/-- Settles O27. -/
theorem literalAndEndOfBlock : Obligations.LiteralAndEndOfBlock := by
  intro s b
  rw [exec_lit]
  exact ⟨fun hg => alloc_denied hg _, fun hg => alloc_granted hg _, rfl⟩

/-! ## Lengths and distances -/

/-- The model's leaf of a length symbol has the row of R110 (R203, R238). -/
theorem exec_lengthTable (s : State) : ∀ e ∈ lengthTable,
    exec e.1 s = withBits e.2.1 s fun x t => .next { t with mlen := e.2.2 + x, phase := .dist } := by
  simp only [lengthTable, List.forall_mem_cons, List.not_mem_nil, false_implies, implies_true, and_true]
  and_intros
  all_goals rfl

/-- The model's leaf of a distance symbol has the row of R111 (R204, R239). -/
theorem exec_distanceTable (s : State) : ∀ e ∈ distanceTable,
    exec e.1 s = withBits e.2.1 s fun x t => .next { t with mdist := e.2.2 + x, phase := .copy } := by
  simp only [distanceTable, List.forall_mem_cons, List.not_mem_nil, false_implies, implies_true, and_true]
  and_intros
  all_goals rfl

/-- The symbols that the tables leave out (R203, R204, R238, R239). -/
theorem exec_illegalSymbols (s : State) :
    ∀ i ∈ [Instr.len286, .len287, .dist30, .dist31], exec i s = .next (trap .unsupportedFeature s) := by
  simp only [List.forall_mem_cons]
  exact ⟨rfl, rfl, rfl, rfl, nofun⟩

/-- Settles O28: each symbol of the tables by whether its extra bits are there. -/
theorem matchSymbols : Obligations.MatchSymbols := by
  intro s hb
  refine ⟨fun e he => ?_, fun e he => ?_, exec_illegalSymbols s⟩
  · rw [exec_lengthTable s e he]
    exact ⟨fun h => withBits_of_has hb h _, fun hn h => withBits_of_not_has hb hn h _⟩
  · rw [exec_distanceTable s e he]
    exact ⟨fun h => withBits_of_has hb h _, fun hn h => withBits_of_not_has hb hn h _⟩

/-! ## The match copy -/

theorem exec_matchCopy {distance : Nat} (h1 : 1 ≤ distance) (length : Nat) (s : State) :
    exec (.matchCopy length distance) s
      = if s.out.length < distance then .next (trap .invalidLength s)
        else alloc length s fun t => .next { t with out := copyFrom distance length t.out, phase := .litLen } :=
  if_neg (Nat.one_le_iff_ne_zero.mp h1)

/-- Settles O29: the two tests, then what the copy loop leaves (`copyFrom_spec`). -/
theorem matchCopy : Obligations.MatchCopy := by
  intro s length distance h1
  rw [exec_matchCopy h1]
  refine ⟨fun beyond => if_pos beyond, fun within hg => ?_, fun within hg => ?_⟩
  · rw [if_neg (Nat.not_lt.mpr within), alloc_denied hg]
  · rw [if_neg (Nat.not_lt.mpr within), alloc_granted hg]
    exact ⟨_, rfl, rfl, copyFrom_spec distance length s.out h1 within⟩

end Sys2Proof.Machine
end

section
/-! The scanline filters (R270 to R279): statements Filters and FilterRoundTrip. -/

namespace Sys2Proof.Machine

/-! ## Predictors and neighbours in the words of the statements -/

theorem predPaeth_eq_paeth : predPaeth = paeth := by
  funext a b c
  simp only [predPaeth, paeth, Int.abs_eq_natAbs, Int.ofNat_le]

/-- The row above starts one row length before the current one (R270). -/
theorem previous_row {s : State} (hr : 1 ≤ s.job.row) (x : Nat) :
    (s.job.row - 1) * (1 + s.job.bpl) + 1 + x = rowBase s + x - (1 + s.job.bpl) := by
  have whole : (s.job.row - 1) * (1 + s.job.bpl) + (1 + s.job.bpl) = s.job.row * (1 + s.job.bpl) := by
    rw [← Nat.succ_mul, Nat.succ_eq_add_one, Nat.sub_add_cancel hr]
  rw [rowBase]
  omega

theorem upByte_eq_up (s : State) (out : List Byte) (x : Nat) :
    upByte out (1 + s.job.bpl) s.job.row x = up s out x := by
  by_cases hr : 1 ≤ s.job.row
  · simp only [upByte, up, previous_row hr]
  · simp only [upByte, up, hr, if_false]

theorem upLeftByte_eq_upLeft (s : State) (out : List Byte) (x : Nat) :
    upLeftByte out (1 + s.job.bpl) s.hdr.bytespp s.job.row x = upLeft s out x := by
  by_cases hr : 1 ≤ s.job.row
  · simp only [upLeftByte, upLeft, previous_row hr]
  · simp only [upLeftByte, upLeft, hr, false_and, if_false]

theorem nbr_eq (pred : Nat → Nat → Nat → Nat) (s : State) (out : List Byte) (x : Nat) :
    nbr pred (1 + s.job.bpl) s.hdr.bytespp s.job.row out x = pred (left s out x) (up s out x) (upLeft s out x) := by
  rw [nbr, upByte_eq_up, upLeftByte_eq_upLeft]
  rfl

/-! ## The row that a filter leaves -/

/-- `out` is OUT with the current row defiltered: each byte of the row plus its predictor over `out` itself (R271). -/
def Defiltered (pred : Nat → Nat → Nat → Nat) (s : State) (out : List Byte) : Prop :=
  out.length = s.out.length ∧ (∀ i, i < rowBase s ∨ rowBase s + s.job.bpl ≤ i → out[i]? = s.out[i]?) ∧
  ∀ x < s.job.bpl, byteAt out (rowBase s + x) = byteAt s.out (rowBase s + x)
    + BitVec.ofNat 8 (pred (left s out x) (up s out x) (upLeft s out x))

/-- The row's predictors look only at bytes before, so the bytes of a defiltered row follow one from the other. -/
theorem Defiltered.unique {pred : Nat → Nat → Nat → Nat} {s : State} (hb : 1 ≤ s.hdr.bytespp) {u v : List Byte}
    (hu : Defiltered pred s u) (hv : Defiltered pred s v) : u = v := by
  obtain ⟨ulen, uout, urow⟩ := hu
  obtain ⟨vlen, vout, vrow⟩ := hv
  have bytes (i : Nat) : byteAt u i = byteAt v i := by
    induction i using Nat.strong_induction_on with
    | _ i before =>
      by_cases outside : i < rowBase s ∨ rowBase s + s.job.bpl ≤ i
      · exact byteAt_congr ((uout i outside).trans (vout i outside).symm)
      · obtain ⟨x, rfl⟩ : ∃ x, i = rowBase s + x := ⟨i - rowBase s, by omega⟩
        have hx : x < s.job.bpl := by omega
        have same := nbr_congr pred (1 + s.job.bpl) s.hdr.bytespp s.job.row u v x (Nat.le_add_right 1 _) hb before
        rw [nbr_eq, nbr_eq] at same
        rw [urow x hx, vrow x hx, same]
  refine List.ext_getElem (ulen.trans vlen.symm) fun i hi hi' => ?_
  simpa [byteAt, hi, hi'] using bytes i

/-- What a filter computes on a row that is there (R271). -/
theorem filterRow_there {s : State} (hh : s.haveIhdr = true) (hb : 1 ≤ s.hdr.bytespp)
    (hrow : (s.job.row + 1) * (1 + s.job.bpl) ≤ s.out.length) (pred : Nat → Nat → Nat → Nat) :
    ∃ out, filterRow pred s = .next { s with out := out, phase := .pixels } ∧ Defiltered pred s out := by
  have inside : rowBase s + 0 + s.job.bpl ≤ s.out.length := by
    rw [Nat.succ_mul] at hrow
    rw [rowBase]
    omega
  obtain ⟨outside, row⟩ := filterFrom_spec pred _ _ _ _ 0 s.out (Nat.le_add_right 1 s.job.bpl) hb inside
  refine ⟨filterFrom pred (1 + s.job.bpl) s.hdr.bytespp s.job.row s.job.bpl 0 s.out, ?_,
    filterFrom_length .., outside, fun x hx => ?_⟩
  · simp only [filterRow, hh, Bool.not_true, Bool.false_eq_true, if_false, if_neg (Nat.not_lt.mpr hrow)]
  · rw [← nbr_eq pred]
    exact row x (Nat.zero_le x) (by omega)

/-- Each filter of the table runs the row loop with its predictor (R272 to R276). -/
theorem exec_filterTable (s : State) : ∀ e ∈ filterTable, exec e.1 s = filterRow e.2 s := by
  simp only [filterTable, ← predPaeth_eq_paeth, List.forall_mem_cons]
  exact ⟨rfl, rfl, rfl, rfl, rfl, nofun⟩

/-- Settles O30. -/
theorem filters : Obligations.Filters := by
  refine fun s => ⟨fun _ => rfl, fun hh hb hrow e he => ?_⟩
  obtain ⟨out, runs, defiltered⟩ := filterRow_there hh hb hrow e.2
  exact ⟨_, (exec_filterTable s e he).trans runs, rfl, defiltered⟩

/-- Settles O31: the original bytes are the row defiltered, and only they are. -/
theorem filterRoundTrip : Obligations.FilterRoundTrip := by
  intro s orig hh hb hrow hlen e he outside filtered
  obtain ⟨out, runs, defiltered⟩ := filterRow_there hh hb hrow e.2
  have original : Defiltered e.2 s orig :=
    ⟨hlen, fun i hi => (outside i hi).symm, fun x hx => by rw [filtered x hx, BitVec.sub_add_cancel]⟩
  rw [exec_filterTable s e he, runs, defiltered.unique hb original]

end Sys2Proof.Machine
end

section
/-! The pixel expander (R290 to R314): statements GreyFormats, ColourFormats and IndexedFormats. -/

namespace Sys2Proof.Machine

/-! ## A row whose bytes are all there -/

/-- What a format does with the row's pixels, one of which may have no colour (R291). -/
theorem expandRow_there {s : State} {bpp : Nat} (row : rowThere s bpp)
    (pixel : State → (Nat → Byte) → Nat → Option Pixel) :
    expandRow bpp pixel s = (expandPixels (pixel s (rowByte s)) s.job.w.toNat 0).elim (.next (trap .invalidLength s))
      fun ps => .next { s with job := { s.job with pix := s.job.pix ++ ps, row := s.job.row + 1 }, phase := .rows } := by
  refine (if_neg (Nat.not_lt.mpr row)).trans ?_
  change (match expandPixels (pixel s (rowByte s)) s.job.w.toNat 0 with | none => _ | some ps => _) = _
  cases expandPixels (pixel s (rowByte s)) s.job.w.toNat 0 with
  | none => rfl
  | some ps => rfl

section Row
variable {i : Instr} {s : State} {bpp : Nat} {pixel : State → (Nat → Byte) → Nat → Option Pixel}
variable (runs : exec i s = expandRow bpp pixel s) (row : rowThere s bpp)
include runs row

/-- Where every pixel of the row has a colour, the format appends them (R291). -/
theorem expandsTo_of_pixels {px : Nat → Pixel}
    (colours : ∀ x < s.job.w.toNat, pixel s (rowByte s) x = some (px x)) : expandsTo i s px := by
  have pixels : expandPixels (pixel s (rowByte s)) s.job.w.toNat 0 = some ((List.range s.job.w.toNat).map px) := by
    simpa using expandPixels_some _ px _ 0 fun x _ hx => colours x (by omega)
  rw [expandsTo, runs, expandRow_there row, pixels, Option.elim_some]

/-- One pixel without a colour ends the launch (R291, R298). -/
theorem exec_of_missingPixel (missing : ∃ x < s.job.w.toNat, pixel s (rowByte s) x = none) :
    exec i s = .next (trap .invalidLength s) := by
  obtain ⟨x, hx, noColour⟩ := missing
  have pixels : expandPixels (pixel s (rowByte s)) s.job.w.toNat 0 = none :=
    expandPixels_none _ _ 0 ⟨x, Nat.zero_le x, by omega, noColour⟩
  rw [runs, expandRow_there row, pixels, Option.elim_none]

end Row

/-! ## Samples and alpha in the words of the statements -/

theorem subSample_rowByte (s : State) (x d : Nat) : subSample (rowByte s) x d = sample s d x := by
  rw [subSample, Nat.shiftRight_eq_div_pow, sample]

theorem subSample_byte (b : Nat → Byte) (x : Nat) : subSample b x 8 = (b x).toNat := by
  simp [subSample, Nat.mod_eq_of_lt (b x).isLt]

theorem grey8_eq_greyTable {d : Nat} (hd : d ∈ [1, 2, 4]) (g : GreyScale) (v : Nat) : grey8 g d v = greyTable g d v := by
  simp only [List.mem_cons, List.not_mem_nil, or_false] at hd
  rcases hd with rfl | rfl | rfl <;> cases g <;> simp [grey8, greyTable, Nat.shiftLeft_eq]

theorem greyAlpha_eq_keyAlpha : greyAlpha = keyAlpha := by
  funext s v
  simp only [greyAlpha, keyAlpha, Bool.and_eq_true, decide_eq_true_eq]

theorem rgbAlpha_eq_keyAlpha3 : rgbAlpha = keyAlpha3 := by
  funext s r g b
  simp only [rgbAlpha, keyAlpha3, Bool.and_eq_true, decide_eq_true_eq, and_assoc]

/-! ## Grey and colour -/

/-- The grey formats below 8 bits differ in the depth alone (R300 to R302). -/
theorem exec_greySub (s : State) :
    ∀ e ∈ [(Instr.g1, 1), (Instr.g2, 2), (Instr.g4, 4)], exec e.1 s = expandRow e.2 (pixGreySub e.2) s := by
  simp only [List.forall_mem_cons]
  exact ⟨rfl, rfl, rfl, nofun⟩

/-- Settles O32: each format's pixel, its sample and alpha in the words of the statement. -/
theorem greyFormats : Obligations.GreyFormats := by
  refine fun s => ⟨fun e he row => ?_, fun row => ?_, fun row => ?_⟩
  · refine expandsTo_of_pixels (exec_greySub s e he) row fun x _ => ?_
    have depth : e.2 ∈ [1, 2, 4] := List.mem_map_of_mem (f := Prod.snd) he
    rw [pixGreySub, subSample_rowByte, grey8_eq_greyTable depth, greyAlpha_eq_keyAlpha]
    rfl
  · refine expandsTo_of_pixels (pixel := pixG8) rfl row fun x _ => ?_
    rw [pixG8, greyAlpha_eq_keyAlpha]
    rfl
  · refine expandsTo_of_pixels (pixel := pixG16) rfl row fun x _ => ?_
    rw [pixG16, greyAlpha_eq_keyAlpha]
    rfl

/-- Settles O33: the colour key in the words of the statement; the formats with an alpha channel have no key. -/
theorem colourFormats : Obligations.ColourFormats := by
  refine fun s => ⟨fun row => ?_, fun row => ?_, fun row => ?_, fun row => ?_, fun row => ?_, fun row => ?_⟩
  · refine expandsTo_of_pixels (pixel := pixRgb8) rfl row fun x _ => ?_
    rw [pixRgb8, rgbAlpha_eq_keyAlpha3]
    rfl
  · refine expandsTo_of_pixels (pixel := pixRgb16) rfl row fun x _ => ?_
    rw [pixRgb16, rgbAlpha_eq_keyAlpha3]
    rfl
  · exact expandsTo_of_pixels (pixel := pixGa8) rfl row fun _ _ => rfl
  · exact expandsTo_of_pixels (pixel := pixGa16) rfl row fun _ _ => rfl
  · exact expandsTo_of_pixels (pixel := pixRgba8) rfl row fun _ _ => rfl
  · exact expandsTo_of_pixels (pixel := pixRgba16) rfl row fun _ _ => rfl

/-! ## Palette -/

theorem palLookup_entry {s : State} (stored : s.palN ≤ s.pal.length) {i : Nat} (hi : i < s.palN) :
    ∃ c, s.pal[i]? = some c ∧ palLookup s i = some (c.a ++ c.r ++ c.g ++ c.b) := by
  have entry : s.pal[i]? = some s.pal[i] := List.getElem?_eq_getElem (Nat.lt_of_lt_of_le hi stored)
  refine ⟨_, entry, ?_⟩
  rw [palLookup, if_pos hi, entry]
  rfl

theorem palLookup_noEntry {s : State} {i : Nat} (hi : s.palN ≤ i) : palLookup s i = none :=
  if_neg (Nat.not_lt.mpr hi)

/-- At depth 8 the index that a sample is cut to is the byte itself (R310). -/
theorem pixP8_eq_pixPalSub : pixP8 = pixPalSub 8 := by
  funext s b x
  rw [pixP8, pixPalSub, subSample_byte]

/-- The indexed formats differ in the depth alone (R307 to R310). -/
theorem exec_indexed (s : State) :
    ∀ e ∈ [(Instr.p1, 1), (Instr.p2, 2), (Instr.p4, 4), (Instr.p8, 8)],
      exec e.1 s = expandRow e.2 (pixPalSub e.2) s := by
  simp only [← pixP8_eq_pixPalSub, List.forall_mem_cons]
  exact ⟨rfl, rfl, rfl, rfl, nofun⟩

/-- The palette colour that pixel `x` of the current row names at depth `d`; unused where it names none. -/
def rowColour (s : State) (d x : Nat) : Pixel := (palLookup s (sample s d x)).getD 0

/-- Settles O34: every index has its entry, or one has none. -/
theorem indexedFormats : Obligations.IndexedFormats := by
  intro s stored e he row
  have runs := exec_indexed s e he
  have looksUp (x : Nat) : pixPalSub e.2 s (rowByte s) x = palLookup s (sample s e.2 x) := by
    rw [pixPalSub, subSample_rowByte]
  refine ⟨fun valid => ⟨rowColour s e.2, expandsTo_of_pixels runs row fun x hx => ?_, fun x hx => ?_⟩,
    fun ⟨x, hx, beyond⟩ => exec_of_missingPixel runs row ⟨x, hx, (looksUp x).trans (palLookup_noEntry beyond)⟩⟩
  all_goals obtain ⟨c, entry, colour⟩ := palLookup_entry stored (valid x hx)
  · rw [looksUp, rowColour, colour, Option.getD_some]
  · exact ⟨c, entry, by rw [rowColour, colour, Option.getD_some]⟩

end Sys2Proof.Machine
end

section
/-! The frame compositor (R335, R340 to R344, R347, R348): statements SourceBlend, OverBlend, Disposal and
SnapshotAndRestore. -/

namespace Sys2Proof.Machine

/-! ## Raster order -/

/-- Every index into a w x h buffer is that of one pixel. -/
theorem exists_raster_index {w h k : Nat} (hk : k < w * h) : ∃ i j, i < w ∧ j < h ∧ j * w + i = k := by
  have hw : 0 < w := Nat.pos_of_mul_pos_right (Nat.zero_lt_of_lt hk)
  exact ⟨k % w, k / w, Nat.mod_lt k hw, Nat.div_lt_of_lt_mul hk, Nat.div_add_mod' k w⟩

theorem raster_map_get {α : Type} (g : Nat × Nat → α) {w h x y : Nat} (hx : x < w) (hy : y < h) :
    ((raster w h).map g)[y * w + x]? = some (g (x, y)) := by
  rw [List.getElem?_map, raster_get w h x y hx hy, Option.map_some]

/-- A rectangle has a pixel if it has a column and a row. -/
theorem exists_mem_raster {w h : Nat} : (∃ p, p ∈ raster w h) ↔ 1 ≤ w ∧ 1 ≤ h := by
  simp only [mem_raster]
  exact ⟨fun ⟨p, hx, hy⟩ => ⟨Nat.zero_lt_of_lt hx, Nat.zero_lt_of_lt hy⟩, fun ⟨hw, hh⟩ => ⟨(0, 0), hw, hh⟩⟩

/-! ## The pixels of a frame -/

theorem framePixel_of_get {f : Frame} {i j : Nat} {p : Pixel} (hp : f.pix[j * f.w.toNat + i]? = some p) :
    framePixel f (i, j) = p := by
  rw [framePixel, List.getD_eq_getElem?_getD, hp, Option.getD_some]

/-- The pixels of a whole frame are those of its rectangle (R38, R335). -/
theorem mem_pix_iff {f : Frame} (whole : f.pix.length = f.w.toNat * f.h.toNat) {p : Pixel} :
    p ∈ f.pix ↔ ∃ q ∈ rect f, framePixel f q = p := by
  constructor
  · intro hp
    obtain ⟨k, hk⟩ := List.mem_iff_getElem?.mp hp
    obtain ⟨inside, -⟩ := List.getElem?_eq_some_iff.mp hk
    obtain ⟨i, j, hi, hj, rfl⟩ := exists_raster_index (whole ▸ inside)
    exact ⟨(i, j), mem_raster.mpr ⟨hi, hj⟩, framePixel_of_get hk⟩
  · rintro ⟨⟨i, j⟩, hq, rfl⟩
    obtain ⟨hi, hj⟩ : i < f.w.toNat ∧ j < f.h.toNat := mem_raster.mp hq
    have inside : j * f.w.toNat + i < f.pix.length :=
      calc j * f.w.toNat + i < (j + 1) * f.w.toNat := by rw [Nat.succ_mul]; omega
        _ ≤ f.h.toNat * f.w.toNat := Nat.mul_le_mul_right _ hj
        _ = f.pix.length := by rw [whole, Nat.mul_comm]
    rw [framePixel_of_get (List.getElem?_eq_getElem inside)]
    exact List.getElem_mem inside

/-! ## Painting a frame's rectangle -/

theorem Repainted.bg {s t : State} (h : Repainted s t) : t.bg = s.bg := by rw [h]

theorem Repainted.snap {s t : State} (h : Repainted s t) : t.snap = s.snap := by rw [h]

/-- Painting does not move the frame's place on the canvas (R335). -/
theorem Repainted.pixelAt_eq {s t : State} (h : Repainted s t) (f : Frame) (i j : Nat) :
    pixelAt s t f i j = readAt t f (i, j) := by
  rw [h]
  rfl

section Paint
variable {s : State} {f : Frame} (h : Paints s f)
include h

theorem Paints.withFrame_eq (k : Frame → Out) : withFrame s k = k f := by
  refine withFrame_paints h.frame h.whole ?_ k
  simp only [frameOnCanvas, h.columns, h.rows, decide_true, Bool.and_self]

/-- Painting where each pixel takes `g`, or stays where that is none, whatever is painted before it. -/
theorem Paints.paint {v : State → Nat × Nat → Option Pixel} (g : Nat × Nat → Option Pixel)
    (hv : ∀ t p, Repainted s t → readAt t f p = readAt s f p → v t p = g p) :
    Repainted s (paintRect v f s) ∧ Memory.wf (paintRect v f s).mem = true
    ∧ (∀ i j, i < f.w.toNat → j < f.h.toNat → pixelAt s (paintRect v f s) f i j = (g (i, j)).getD (pixelAt s s f i j))
    ∧ (∀ a, outsideFrame s f a → Memory.read (paintRect v f s).mem a = Memory.read s.mem a)
    ∧ ((paintRect v f s).painted = true ↔ s.painted = true ∨ ∃ p ∈ rect f, (g p).isSome = true) := by
  obtain ⟨only, wf, -, pixels, painted⟩ := fold_paint h.columns h.stride v g (rect f) (raster_nodup _ _)
    (fun p hp => (mem_raster.mp hp).1) s rfl h.memory (fun t p kept _ => hv t p kept) (paintRect v f s) rfl
  refine ⟨only, wf, fun i j hi hj => ?_, fun a ha => paintRect_outside v ha, painted⟩
  exact (only.pixelAt_eq f i j).trans (pixels (i, j) (mem_raster.mpr ⟨hi, hj⟩))

/-- Painting that writes every pixel (R342, R347, R348). -/
theorem Paints.fill {v : State → Nat × Nat → Option Pixel} (c : Nat × Nat → Pixel)
    (hv : ∀ t p, Repainted s t → v t p = some (c p)) :
    Repainted s (paintRect v f s) ∧ Memory.wf (paintRect v f s).mem = true
    ∧ (∀ i j, i < f.w.toNat → j < f.h.toNat → pixelAt s (paintRect v f s) f i j = c (i, j))
    ∧ (∀ a, outsideFrame s f a → Memory.read (paintRect v f s).mem a = Memory.read s.mem a)
    ∧ ((paintRect v f s).painted = true ↔ s.painted = true ∨ (1 ≤ f.w.toNat ∧ 1 ≤ f.h.toNat)) := by
  obtain ⟨only, wf, pixels, outside, painted⟩ := h.paint (fun p => some (c p)) (fun t p kept _ => hv t p kept)
  refine ⟨only, wf, pixels, outside, painted.trans (or_congr_right ?_)⟩
  rw [← exists_mem_raster]
  simp [rect]

end Paint

/-! ## The blend elements -/

/-- What B_SOURCE writes, in the words of the statement. -/
theorem sourcePixel_eq (bg p : Pixel) :
    sourcePixel bg p = if alphaOf p = 0xFF then p else if alphaOf p = 0 then bg else blended p bg := rfl

/-- What B_OVER leaves, in the words of the statement. -/
theorem overPixel_getD (under p : Pixel) : (overPixel under p).getD under =
    if alphaOf p = 0xFF then p else if alphaOf p = 0 then under else blended p under := by
  change (if alphaOf p = 0xFF then some p else if alphaOf p = 0 then none else some (blended p under)).getD under = _
  rw [apply_ite (Option.getD · under), apply_ite (Option.getD · under)]
  rfl

/-- B_OVER writes the pixels that are not fully transparent (R343). -/
theorem overPixel_isSome (under p : Pixel) : (overPixel under p).isSome = true ↔ alphaOf p ≠ 0 := by
  change (if alphaOf p = 0xFF then some p else if alphaOf p = 0 then none else some (blended p under)).isSome = true ↔ _
  split_ifs with opaq transparent
  · simp [opaq]
  · simp [transparent]
  · simpa using transparent

/-- Settles O36. -/
theorem sourceBlend : Obligations.SourceBlend := by
  intro s f h
  obtain ⟨only, wf, pixels, outside, painted⟩ := h.fill
    (v := fun t p => some (sourcePixel t.bg (framePixel f p))) (fun p => sourcePixel s.bg (framePixel f p))
    (fun t p kept => by rw [kept.bg])
  refine ⟨_, h.withFrame_eq _, congrArg (fun t : State => { t with phase := afterComposite s }) only, wf,
    fun i j p hi hj hp => (pixels i j hi hj).trans ?_, outside, painted⟩
  rw [framePixel_of_get hp, sourcePixel_eq]

/-- Settles O37: no pixel is painted before it is read, so the blend is over the canvas as it was. -/
theorem overBlend : Obligations.OverBlend := by
  intro s f h
  obtain ⟨only, wf, pixels, outside, painted⟩ := h.paint
    (v := fun t p => overPixel (readAt t f p) (framePixel f p)) (fun p => overPixel (readAt s f p) (framePixel f p))
    (fun t p _ same => by rw [same])
  refine ⟨_, h.withFrame_eq _, congrArg (fun t : State => { t with phase := afterComposite s }) only, wf,
    fun i j p hi hj hp => (pixels i j hi hj).trans ?_, outside, painted.trans (or_congr_right ?_)⟩
  · rw [framePixel_of_get hp]
    exact overPixel_getD (pixelAt s s f i j) p
  · simp only [overPixel_isSome, mem_pix_iff h.whole, exists_exists_and_eq_and]

/-! ## The dispose elements and the snapshot -/

/-- Settles O38. -/
theorem disposal : Obligations.Disposal := by
  refine ⟨fun _ => rfl, fun s f h => ?_⟩
  obtain ⟨only, wf, pixels, outside, painted⟩ := h.fill (v := fun t _ => some t.bg) (fun _ => s.bg)
    (fun t p kept => by rw [kept.bg])
  exact ⟨_, h.withFrame_eq _, congrArg (fun t : State => { t with phase := .nextFrame }) only, wf, pixels, outside,
    painted⟩

/-- D_PREVIOUS once the tests on its frame and its snapshot are passed (R348). -/
theorem exec_dPrevious {s : State} {f : Frame} (h : Paints s f) (hs : s.snap.length = f.w.toNat * f.h.toNat) :
    exec .dPrevious s = .next { paintRect (fun t p => some (t.snap.getD (p.2 * f.w.toNat + p.1) 0)) f s with
      snap := [], phase := .nextFrame } :=
  (h.withFrame_eq _).trans (if_neg (not_not_intro hs))

/-- The snapshot that is due, once the tests on its frame are passed (R348). -/
theorem step_takesSnapshot {s : State} {f : Frame} (h : Paints s f) (due : snapshotDue s f) :
    step s = alloc (f.w.toNat * f.h.toNat) s fun t =>
      .next { t with snap := (rect f).map (readAt t f), phase := .composite } :=
  (step_snapshotDue h.frame due).trans (h.withFrame_eq _)

/-- Settles O39: the snapshot by the answer to its request, then its restoring. -/
theorem snapshotAndRestore : Obligations.SnapshotAndRestore := by
  refine fun s f h => ⟨fun ht hp ha hplay hidx he => ?_, fun hs => ?_⟩
  · rw [step_takesSnapshot h ⟨ht, hp, ha, hplay, hidx, he⟩]
    refine ⟨fun denied => alloc_denied denied _, fun granted => ⟨_, alloc_granted granted _, rfl, ?_, ?_⟩⟩
    · exact (List.length_map _).trans (raster_length _ _)
    · exact fun i j hi hj => raster_map_get (readAt (requested s 1) f) hi hj
  · obtain ⟨only, wf, pixels, outside, painted⟩ := h.fill
      (v := fun t p => some (t.snap.getD (p.2 * f.w.toNat + p.1) 0)) (fun p => s.snap.getD (p.2 * f.w.toNat + p.1) 0)
      (fun t p kept => by rw [kept.snap])
    refine ⟨_, exec_dPrevious h hs, congrArg (fun t : State => { t with snap := [], phase := .nextFrame }) only, wf,
      fun i j p hi hj hp => (pixels i j hi hj).trans ?_, outside, painted⟩
    rw [List.getD_eq_getElem?_getD, hp, Option.getD_some]

end Sys2Proof.Machine
end

section
/-! The orchestrator (R332, R334, R345, R346, R349, R352): statements Placement, AnimationLoop and HoldAndComplete. -/

namespace Sys2Proof.Machine

/-! ## Placement -/

theorem origin_eq_originOf (n : NegPlacement) (c canvas image : Word) :
    origin n c canvas.toNat image.toNat = originOf n c canvas image := by
  cases n <;> rfl

theorem step_place {s : State} (ht : coreTurn s) (hp : s.phase = .place) : step s = place s :=
  step_act (a := .place) ht.1 ht.2 (by simp only [fetch, streamLevel, fetchOther, hp])

/-- Settles O40: the one test of `place`, its origins in the words of the statement. -/
theorem placement : Obligations.Placement := by
  intro s ox oy ht hp hh hox hoy
  rw [step_place ht hp, place, if_neg (by simp [hh])]
  simp only [origin_eq_originOf, ← hox, ← hoy]
  refine ⟨fun outside => if_pos outside, fun hx hy right bottom => ⟨_, if_neg ?_, ?_, ?_, rfl⟩⟩
  · omega
  · exact Int.toNat_of_nonneg hx
  · exact Int.toNat_of_nonneg hy

/-! ## The animation -/

theorem step_animate {s : State} (ht : coreTurn s) (hp : s.phase = .animate) : step s = animate s :=
  step_act (a := .animate) ht.1 ht.2 (by simp only [fetch, streamLevel, fetchOther, hp])

/-- Each frame is disposed of by its effective dispose (R346, R349). -/
theorem step_dispose {s : State} (ht : coreTurn s) (hp : s.phase = .dispose) (ha : s.animated = true) {f : Frame}
    (hf : s.frames[s.fidx]? = some f) : step s = exec (decodeDispose (effective s f)) s := by
  obtain ⟨-, -, -, runs⟩ := stepRunsElement s
  obtain ⟨-, -, -, -, -, dispose⟩ := runs ht
  exact dispose hp ha f hf

/-- Settles O41, point by point of `animate`. -/
theorem animationLoop : Obligations.AnimationLoop := by
  refine fun s ht => ⟨fun hp ha => ?_, fun hp ha => ?_, fun hp ha f hf => ?_, fun hp => ?_⟩
  · rw [step_animate ht hp, animate, if_neg (by simp [ha])]
    simp only [toNat_eq_zero_iff]
  · rw [step_at_loop ht hp, loopTest, if_neg (by simp [ha])]
    refine ⟨fun ended => if_pos ended, fun hplay hidx => ?_, fun hplay hidx f hf he => ?_⟩
    · rw [if_neg (Nat.not_le.mpr hplay), if_pos hidx]
    · rw [if_neg (Nat.not_le.mpr hplay), if_neg (Nat.not_le.mpr hidx), hf]
      exact if_neg he
  · rw [step_dispose ht hp ha hf]
    refine ⟨fun he => ?_, fun he => ?_, fun he => ?_⟩
    all_goals rw [he]; rfl
  · exact step_act (a := .nextFrame) ht.1 ht.2 (by simp only [fetch, streamLevel, fetchOther, hp])

/-! ## Hold and completion -/

theorem step_hold {s : State} (ht : coreTurn s) (hp : s.phase = .hold) (ha : s.animated = true) {f : Frame}
    (hf : s.frames[s.fidx]? = some f) :
    step s = .next { s with trace := s.trace ++ [.hold f.delay (canvasPixels s)], phase := .dispose } := by
  refine (step_act (a := .hold) ht.1 ht.2 (by simp only [fetch, streamLevel, fetchOther, hp])).trans ?_
  simp only [runAct, hold, frameIndex, ha, if_true, hf]

/-- Settles O42. -/
theorem holdAndComplete : Obligations.HoldAndComplete := by
  refine fun s ht => ⟨fun hp ha f hf => ⟨canvasPixels s, step_hold ht hp ha hf, ?_, ?_⟩, fun hp => ⟨?_, ?_⟩⟩
  · exact (List.length_map _).trans (raster_length _ _)
  · exact fun x y hx hy => raster_map_get (fun p => canvasRead s p.1 p.2) hx hy
  · exact step_act (a := .complete) ht.1 ht.2 (by simp only [fetch, streamLevel, fetchOther, hp])
  · exact ⟨rfl, rfl, rfl, rfl, rfl, rfl, rfl, rfl⟩

end Sys2Proof.Machine
end

section
/-! Trap entry (R381, R390, R391, R45): statement TrapEntry. -/

namespace Sys2Proof.Machine

/-- Where the parameters have the numbers of R381, ERRCODE's value for a kind is its number in the table. -/
theorem errCode_of_mem_codeTable {c : Config} (hc : ∀ k, Config.errCode c k = Config.errCode Config.standard k)
    {e : ErrKind} {n : BitVec 3} (h : (e, n) ∈ codeTable) : Config.errCode c e = n := by
  have numbers : ∀ p ∈ codeTable, Config.errCode Config.standard p.1 = p.2 := by decide
  exact (hc e).trans (numbers _ h)

/-- Trap entry ends the launch (R45), whatever the numbering of the kinds. -/
theorem trap_eq_launchEnded (e : ErrKind) (s : State) :
    trap e s = { launchEnded s .error with
      errcode := Config.errCode s.cfg e, trace := s.trace ++ [.log (Config.errCode s.cfg e)] } := rfl

theorem nothingHeld_trap (e : ErrKind) (s : State) : nothingHeld (trap e s) :=
  ⟨trap_acc e s, trap_out e s, trap_snap e s, trap_frames e s, rfl, trap_palN e s, trap_haveIhdr e s, rfl⟩

/-- Nothing executes after trap entry (R391): STATE is ERROR, and the core rests. -/
theorem step_trap {e : ErrKind} {s : State} (hq : s.hostQ = []) : step (trap e s) = .next (trap e s) := by
  have rests : (trap e s).runState ≠ .busy := by simp
  exact (step_core (s := trap e s) hq).trans (coreStep_resting rests)

/-- Settles O43. -/
theorem trapEntry : Obligations.TrapEntry := by
  intro s e n hc hn
  obtain rfl : Config.errCode s.cfg e = n := errCode_of_mem_codeTable hc hn
  exact ⟨trap_eq_launchEnded e s, nothingHeld_trap e s, step_trap⟩

end Sys2Proof.Machine
end
